-- ==== Sys2Proof/Word.lean ====
section
/-! DEFINITION. The plain types of SITDEC's words: a byte, a byte string, the widths the spec names (00_scope.md R10). -/

namespace Sys2Proof

/-- One byte, `u8` (R10). -/
abbrev Byte := BitVec 8

/-- A byte string: an entry path, a folder name, a result (R31, R117). Not bits: a sequence. -/
abbrev Bytes := List Byte

/-- `u16` (R10). -/
abbrev U16 := BitVec 16

/-- `u32` (R10). -/
abbrev U32 := BitVec 32

end Sys2Proof
end

