-- ==== Sys2Proof/Config.lean ====
section
/-! DEFINITION. The open parameters of 00_scope.md R9 and the free values ("draws", R16) of the spec. -/

namespace Sys2Proof.Config

/-- What an index insert does with a key already present (`DUP_POLICY`, R9, R272). -/
inductive DupPolicy where
  | refuse
  | lastWins
  | firstWins
deriving DecidableEq, Repr, Inhabited

/-- One code of an explicitly given prefix code: `pattern` is in stream order, bit 0 is the first bit read (R9, R166). -/
structure CodeEntry where
  sym : Nat
  pattern : Nat
  len : Nat
deriving DecidableEq, Repr, Inhabited

/-- `ERR_CODE`: the number of every kind, named as in R321. R9 has the map injective (`distinct`). -/
structure ErrCodes where
  ok : Nat
  badMagic : Nat
  truncated : Nat
  nameTooLong : Nat
  headerCrcMismatch : Nat
  encrypted : Nat
  unsupportedMethod : Nat
  corruptStream : Nat
  payloadCrcMismatch : Nat
  notFound : Nat
  folderUnderflow : Nat
  duplicatePath : Nat
deriving DecidableEq, Repr, Inhabited

/-- The twelve numbers in the order of R321's table. -/
def ErrCodes.toList (c : ErrCodes) : List Nat :=
  [c.ok, c.badMagic, c.truncated, c.nameTooLong, c.headerCrcMismatch, c.encrypted, c.unsupportedMethod, c.corruptStream,
    c.payloadCrcMismatch, c.notFound, c.folderUnderflow, c.duplicatePath]

/-- No two kinds have one number (R9: an injective map). -/
def ErrCodes.distinct (c : ErrCodes) : Bool := decide c.toList.Nodup

/-- The open parameters a model "takes as an argument" (R9). They are plain data held in State, so that a
statement about every state is a statement about every choice of them; no step changes them. -/
structure Params where
  /-- `ROM_M13_META`: 37 entries, or `none` when it was not supplied. -/
  romMeta : Option (List CodeEntry)
  /-- `ROM_M13_STATIC`: the 658 expanded codelengths of each of the five profiles (R118). -/
  romStatic : Option (List (List Nat))
  /-- `ROM_M13_STATIC_BITS`: the offset-prefix alphabet size of each profile, 11..14. -/
  romStaticBits : Option (List Nat)
  /-- `M13_LEN_OF_SYM`: entry `s` is the signed length that meta symbol `s < 31` sets (R188). -/
  lenOfSym : List Int
  /-- `POOL_SLOTS` (R170). -/
  poolSlots : Nat
  /-- `M14_NEST_MAX` (R229). -/
  nestMax : Nat
  /-- `DUP_POLICY` (R272). -/
  dupPolicy : DupPolicy
  /-- `ERR_CODE` (R321). -/
  errCode : ErrCodes
deriving DecidableEq, Repr, Inhabited

/-- The method-13 meta ROM as supplied to this machine, if it was. No value: R9 forbids giving it one "from memory". -/
opaque romMeta : Option (List CodeEntry)

/-- The static-profile ROM as supplied, if it was. -/
opaque romStatic : Option (List (List Nat))

/-- The static-profile offset sizes as supplied, if they were. -/
opaque romStaticBits : Option (List Nat)

/-- The `n`-th draw of `FINFO_TAIL`, the last six bytes of a Finder info record (R116, D38): any value. -/
opaque finfoTail : Nat → BitVec 48

/-- The rank that the `n`-th `LIST` gives the path at a position of the index (R294, D43): any order. -/
opaque listRank : Nat → Nat → Nat

/-- The parameters at their defaults (R9); the three ROM parameters have none and stay as supplied.
`lenOfSym`'s default `s + 1` is the spec's own, from general knowledge (G3; log 5). -/
def defaults : Params where
  romMeta := romMeta
  romStatic := romStatic
  romStaticBits := romStaticBits
  lenOfSym := [1, 2, 3, 4, 5, 6, 7, 8, 9, 10, 11, 12, 13, 14, 15, 16, 17, 18, 19, 20, 21, 22, 23, 24, 25, 26, 27, 28, 29, 30, 31]
  poolSlots := 3608
  nestMax := 1
  dupPolicy := .refuse
  errCode :=
    { ok := 0, badMagic := 1, truncated := 2, nameTooLong := 3, headerCrcMismatch := 4, encrypted := 5, unsupportedMethod := 6,
      corruptStream := 7, payloadCrcMismatch := 8, notFound := 9, folderUnderflow := 10, duplicatePath := 11 }

end Sys2Proof.Config
end

