-- ==== Sys2Proof/Syntax.lean ====
section
/-! DEFINITION. The instructions of SITDEC: one constructor of `Instr` per row of spec/opcode_table.json (R115), and the
records that are their operands. -/

namespace Sys2Proof

open Config (CodeEntry)

/-- A fork descriptor (R30). `offset` is the u64 position of the payload in `SRC`. -/
structure ForkDesc where
  usize : U32
  csize : U32
  offset : Nat
  crc : U16
  compression : Byte
deriving DecidableEq, Repr, Inhabited

/-- The 22-byte archive header, field by field (R96). -/
structure ArchHdr where
  magic : U32
  count : U16
  asize : U32
  magic2 : U32
  version : Byte
  reserved : BitVec 56
deriving DecidableEq, Repr, Inhabited

/-- The 112-byte entry header, field by field (R97). `nameArea` is bytes 3..65: the name and its padding. -/
structure EntHdr where
  resCompr : Byte
  dataCompr : Byte
  nameLen : Byte
  nameArea : Bytes
  finderType : U32
  finderCreator : U32
  finderFlags : U16
  cdate : U32
  mdate : U32
  resUsize : U32
  dataUsize : U32
  resCsize : U32
  dataCsize : U32
  resCrc : U16
  dataCrc : U16
  unknown : BitVec 48
  headerCrc : U16
deriving DecidableEq, Repr, Inhabited

/-- The byte-addressed spaces a CRC can range over: `SRC`, `WIN`, `OUT` (R60) and the header register `CP.hdr` (R266). -/
inductive ByteSpace where
  | src
  | win
  | out
  | hdr
deriving DecidableEq, Repr, Inhabited

/-- The Huffman12 tables (R24, R25). `tn d` is the nested codelength table of level `d`. -/
inductive TableId where
  | t1
  | t2
  | tOfs
  | tMeta
  | tl
  | td
  | tn (depth : Nat)
deriving DecidableEq, Repr, Inhabited

/-- The instructions, in the order of spec/opcode_table.json's formats. -/
inductive Instr where
  -- format MAGIC (R95, R262)
  | magicSit | magicSt65 | magicSt50 | magicSt60 | magicStin | magicSti2 | magicSti3 | magicSti4 | magicSt46
  | magicRLau
  | magicOther (w : U32)
  -- formats ARCH and ENT (R96, R97)
  | arch (h : ArchHdr)
  | entFolderStart (h : EntHdr)
  | entFolderEnd (h : EntHdr)
  | entFile (h : EntHdr)
  -- format CMPR (R92, R300)
  | cmprEncrypted (b : Byte)
  | cmprM0
  | cmprM13
  | cmprM14
  | cmprUnsupported (b : Byte)
  -- format M13CTRL (R93)
  | m13CtrlDynamic (copy : Bool) (nofs : BitVec 3)
  | m13CtrlStatic0 (low : BitVec 4)
  | m13CtrlStatic1 (low : BitVec 4)
  | m13CtrlStatic2 (low : BitVec 4)
  | m13CtrlStatic3 (low : BitVec 4)
  | m13CtrlStatic4 (low : BitVec 4)
  | m13CtrlIllegal (b : Byte)
  -- format M13SYM (R102); `s` is the decoded symbol
  | m13Lit (b : Byte)
  | m13Len (s : BitVec 9)
  | m13Med
  | m13Long
  | m13Eos
  -- format M13META (R105)
  | metaSet (s : Fin 31)
  | metaAbsent
  | metaInc
  | metaDec
  | metaRep1
  | metaRep3
  | metaRep6
  -- format M13OFS (R104); `v` is the decoded prefix symbol
  | m13Ofs (v : Fin 17)
  -- format M14TREEHDR (R94)
  | m14Hdr (k : Bool) (j : BitVec 2) (o : BitVec 3) (sel : BitVec 2)
  -- format M14LENVAL (R109)
  | lvZero
  | lvRepeat
  | lvValue (v : BitVec 5)
  -- format M14SYM (R106): the symbols of TL, then those of TD
  | m14Lit (b : Byte)
  | m14MatchC0 | m14MatchC1 | m14MatchC2 | m14MatchC3 | m14MatchC4 | m14MatchC5 | m14MatchC6 | m14MatchC7
  | m14MatchC8 | m14MatchC9 | m14MatchC10 | m14MatchC11 | m14MatchC12 | m14MatchC13 | m14MatchC14 | m14MatchC15
  | m14MatchC16 | m14MatchC17 | m14MatchC18 | m14MatchC19 | m14MatchC20 | m14MatchC21 | m14MatchC22 | m14MatchC23
  | m14MatchC24 | m14MatchC25 | m14MatchC26 | m14MatchC27 | m14MatchC28 | m14MatchC29 | m14MatchC30 | m14MatchC31
  | m14MatchC32 | m14MatchC33 | m14MatchC34 | m14MatchC35 | m14MatchC36 | m14MatchC37 | m14MatchC38 | m14MatchC39
  | m14MatchC40 | m14MatchC41 | m14MatchC42 | m14MatchC43 | m14MatchC44 | m14MatchC45 | m14MatchC46 | m14MatchC47
  | m14MatchC48 | m14MatchC49 | m14MatchC50 | m14MatchC51
  | m14DistD0 | m14DistD1 | m14DistD2 | m14DistD3 | m14DistD4 | m14DistD5 | m14DistD6 | m14DistD7
  | m14DistD8 | m14DistD9 | m14DistD10 | m14DistD11 | m14DistD12 | m14DistD13 | m14DistD14 | m14DistD15
  | m14DistD16 | m14DistD17 | m14DistD18 | m14DistD19 | m14DistD20 | m14DistD21 | m14DistD22 | m14DistD23
  | m14DistD24 | m14DistD25 | m14DistD26 | m14DistD27 | m14DistD28 | m14DistD29 | m14DistD30 | m14DistD31
  | m14DistD32 | m14DistD33 | m14DistD34 | m14DistD35 | m14DistD36 | m14DistD37 | m14DistD38 | m14DistD39
  | m14DistD40 | m14DistD41 | m14DistD42 | m14DistD43 | m14DistD44 | m14DistD45 | m14DistD46 | m14DistD47
  | m14DistD48 | m14DistD49 | m14DistD50 | m14DistD51 | m14DistD52 | m14DistD53 | m14DistD54 | m14DistD55
  | m14DistD56 | m14DistD57 | m14DistD58 | m14DistD59 | m14DistD60 | m14DistD61 | m14DistD62 | m14DistD63
  | m14DistD64 | m14DistD65 | m14DistD66 | m14DistD67 | m14DistD68 | m14DistD69 | m14DistD70 | m14DistD71
  | m14DistD72 | m14DistD73 | m14DistD74
  -- the frame formats M0, M13FRAME, M14FRAME (R98 to R100)
  | m0Copy (f : ForkDesc)
  | m13Start
  | m14Start
  | m14Block
  -- format HOSTCMD (R290)
  | hostOpen (src : Bytes) (size : BitVec 64) (flatten : Bool)
  | hostHas (path : Bytes)
  | hostList
  | hostRead (path : Bytes)
  | hostReadRsrc (path : Bytes)
  | hostReadFinfo (path : Bytes)
  -- format PRIM: the unit primitives
  | brInit (base len : Nat)
  | brPeek (n : Nat)
  | brTake (n : Nat)
  | brTake1
  | brAlign
  | brEos
  | brReadBits (n : Nat)
  | crcInit
  | crcUpdate (b : Byte)
  | crcRange (sp : ByteSpace) (a n : Nat)
  | crcVerify (f : ForkDesc)
  | h12Build (t : TableId) (n : Nat) (ls : List Nat)
  | h12Buildx (t : TableId) (es : List CodeEntry)
  | h12Decode (t : TableId)
  | outEmit (b : Byte)
  | outCopy (len off : Nat)
  | cpParse
  | cpArchdr
  | cpFetch
  | cpKey (name : Bytes)
  | cpInsert (key path : Bytes) (res data : ForkDesc) (finfo : Bytes)
  | dispatch (f : ForkDesc)
  | m13Static (p : Fin 5)
  | m13Dynamic
  | m13ReadLengths (n : Nat)
  | m13EmitLen (n : Nat)
  | m13Run
  | m14ReadLengths (n depth : Nat)
deriving DecidableEq, Repr

/-- A host command as it waits to be taken (R290). -/
inductive Cmd where
  | openArchive (src : Bytes) (size : BitVec 64) (flatten : Bool)
  | has (path : Bytes)
  | list
  | read (path : Bytes)
  | readRsrc (path : Bytes)
  | readFinfo (path : Bytes)
deriving DecidableEq, Repr

/-- What kind of word the sequencer fetches next: a format of R90 that has words, with the field of `ARCH` a magic
stands in, the tree a symbol comes from and the repeat marker in force where the format depends on them. -/
inductive Format where
  /-- `MAGIC`, bytes 0..3 of `ARCH`. -/
  | magic1
  /-- `MAGIC`, bytes 10..13 of `ARCH`. -/
  | magic2
  | arch
  | ent
  | cmpr
  | m13Ctrl
  | m13Meta
  | m13Sym
  | m13Ofs
  | m14Hdr
  /-- `M14LENVAL` under a tree header whose repeat marker is `r` (R226). -/
  | m14LenVal (r : Nat)
  /-- `M14SYM`, a symbol of `TL`. -/
  | m14Sym
  /-- `M14SYM`, a symbol of `TD`. -/
  | m14Dist
deriving DecidableEq, Repr

/-- A word before it is decoded: the bytes of a record, or one number (a control byte, a magic read big-endian, a decoded
symbol, a codelength value). -/
inductive Raw where
  | bytes (bs : Bytes)
  | num (v : Nat)
deriving DecidableEq, Repr

end Sys2Proof
end

