-- ==== Sys2Proof/WellFormed.lean ====
section
/-! DEFINITION. Which instruction terms the spec gives a meaning: the operand ranges each rule states (a term outside them is
no legal call and no word decodes to it). -/

namespace Sys2Proof

/-- The folder-marker field of a data-fork compression byte (R41). -/
def dirCheck (b : Byte) : Byte := b &&& 0x6F#8

/-- The bytes `first + 3 .. 66` of an entry header are all there (R97). -/
def EntHdr.wf (h : EntHdr) : Bool := h.nameArea.length == 63

/-- The compression byte of a fork to be decoded says that it is encrypted (R40, R301). -/
def isEncrypted (b : Byte) : Bool := b &&& 0xF0#8 != 0#8

/-- The compression methods the block decodes (R303). -/
def isSupported (b : Byte) : Bool := b == 0x00#8 || b == 0x0D#8 || b == 0x0E#8

/-- One entry of an explicitly given code: a length of 1 to 32 bits and a pattern of that many (R9). -/
def codeEntryWf (e : Config.CodeEntry) : Bool := 1 ≤ e.len && e.len ≤ 32 && e.pattern < 2 ^ e.len

/-- Every operand is in the range its rule gives. -/
def Instr.wf : Instr → Bool
  | .entFolderStart h => h.wf && dirCheck h.dataCompr == 0x20#8
  | .entFolderEnd h => h.wf && dirCheck h.dataCompr == 0x21#8
  | .entFile h => h.wf && dirCheck h.dataCompr != 0x20#8 && dirCheck h.dataCompr != 0x21#8
  | .cmprEncrypted b => isEncrypted b
  | .cmprUnsupported b => !isEncrypted b && !isSupported b
  | .m13CtrlIllegal b => 0x60 ≤ b.toNat
  | .m13Len s => 0x100 ≤ s.toNat && s.toNat ≤ 0x13D
  | .lvValue v => v != 0#5
  | .brInit base len => base < 2 ^ 64 && len < 2 ^ 32
  | .brPeek n => 1 ≤ n && n ≤ 16
  | .brTake n => n ≤ 16
  | .brReadBits n => n ≤ 32
  | .h12Build _ n ls => n ≤ 321 && ls.length == n
  | .h12Buildx _ es => es.all codeEntryWf
  | .outCopy len off => 1 ≤ len && 1 ≤ off
  | .cpKey name => name.length ≤ 31
  | .cpInsert _ _ _ _ finfo => finfo.length == 10
  | .m13ReadLengths n => n == 321 || (10 ≤ n && n ≤ 17)
  | .m13EmitLen n => n == 321 || (10 ≤ n && n ≤ 17)
  | .m14ReadLengths n _ => n == 308 || n == 75 || n == 32
  | _ => true

end Sys2Proof
end

