-- ==== Sys2Proof/Decode.lean ====
section
/-! DEFINITION. The decoder, total on every word of every format and rejecting by name, and after it the encoder, written from
the same encoding tables (30_encoding.md). -/

namespace Sys2Proof

/-! ## Byte order and fields -/

/-- `BE16` of two bytes (R10, R68). -/
def be16 (b0 b1 : Byte) : U16 := b0 ++ b1

/-- `BE32` of four bytes (R10, R68). -/
def be32 (b0 b1 b2 b3 : Byte) : U32 := b0 ++ b1 ++ b2 ++ b3

/-- `BE16` of the bytes at offset `k` of a record. -/
def be16At (bs : Bytes) (k : Nat) : U16 := be16 (bs.getD k 0) (bs.getD (k + 1) 0)

/-- `BE32` of the bytes at offset `k` of a record. -/
def be32At (bs : Bytes) (k : Nat) : U32 := be32 (bs.getD k 0) (bs.getD (k + 1) 0) (bs.getD (k + 2) 0) (bs.getD (k + 3) 0)

/-- The two bytes of a big-endian field, in address order. -/
def be16Bytes (v : U16) : Bytes := [v.extractLsb' 8 8, v.extractLsb' 0 8]

/-- The four bytes of a big-endian field, in address order. -/
def be32Bytes (v : U32) : Bytes := [v.extractLsb' 24 8, v.extractLsb' 16 8, v.extractLsb' 8 8, v.extractLsb' 0 8]

/-- The bytes of a 48-bit field, in address order. -/
def be48Bytes (v : BitVec 48) : Bytes :=
  [v.extractLsb' 40 8, v.extractLsb' 32 8, v.extractLsb' 24 8, v.extractLsb' 16 8, v.extractLsb' 8 8, v.extractLsb' 0 8]

/-- The bytes of a 56-bit field, in address order. -/
def be56Bytes (v : BitVec 56) : Bytes := v.extractLsb' 48 8 :: be48Bytes (v.extractLsb' 0 48)

/-! ## Decoding -/

/-- Why a word is no instruction of the format it was fetched for. -/
inductive Reject where
  /-- A record format was given a number, or a number format a record. -/
  | wrongShape
  /-- A record of the wrong number of bytes, or a number too wide for the format. -/
  | wrongWidth
  /-- A symbol value outside the format's alphabet: "an undefined symbol" (R320). -/
  | undefinedSymbol
deriving DecidableEq, Repr

/-- The nine primary magics (R95). -/
def primaryMagic (w : Nat) : Option Instr :=
  if w = 0x53495421 then some .magicSit
  else if w = 0x53543635 then some .magicSt65
  else if w = 0x53543530 then some .magicSt50
  else if w = 0x53543630 then some .magicSt60
  else if w = 0x5354696E then some .magicStin
  else if w = 0x53546932 then some .magicSti2
  else if w = 0x53546933 then some .magicSti3
  else if w = 0x53546934 then some .magicSti4
  else if w = 0x53543436 then some .magicSt46
  else none

/-- The secondary magic `rLau` (R95). -/
def secondaryMagic : Nat := 0x724C6175

/-- The archive header's fields (R96). -/
def archOfBytes (bs : Bytes) : ArchHdr where
  magic := be32At bs 0
  count := be16At bs 4
  asize := be32At bs 6
  magic2 := be32At bs 10
  version := bs.getD 14 0
  reserved := (bs.getD 15 0) ++ (be16At bs 16 ++ be32At bs 18)

/-- The entry header's fields (R97). -/
def entOfBytes (bs : Bytes) : EntHdr where
  resCompr := bs.getD 0 0
  dataCompr := bs.getD 1 0
  nameLen := bs.getD 2 0
  nameArea := (bs.drop 3).take 63
  finderType := be32At bs 66
  finderCreator := be32At bs 70
  finderFlags := be16At bs 74
  cdate := be32At bs 76
  mdate := be32At bs 80
  resUsize := be32At bs 84
  dataUsize := be32At bs 88
  resCsize := be32At bs 92
  dataCsize := be32At bs 96
  resCrc := be16At bs 100
  dataCrc := be16At bs 102
  unknown := be16At bs 104 ++ be32At bs 106
  headerCrc := be16At bs 110

/-- Which record an entry header is: the masks of R92 over byte 1. -/
def decodeEnt (h : EntHdr) : Instr :=
  if h.dataCompr &&& 0x6F#8 = 0x20#8 then .entFolderStart h
  else if h.dataCompr &&& 0x6F#8 = 0x21#8 then .entFolderEnd h
  else .entFile h

/-- The compression byte of a fork being read (R92). -/
def decodeCmpr (b : Byte) : Instr :=
  if b &&& 0xF0#8 ≠ 0#8 then .cmprEncrypted b
  else if b = 0x00#8 then .cmprM0
  else if b = 0x0D#8 then .cmprM13
  else if b = 0x0E#8 then .cmprM14
  else .cmprUnsupported b

/-- The method-13 control byte (R93). -/
def decodeM13Ctrl (b : Byte) : Instr :=
  let i := b.toNat / 16
  if i = 0 then .m13CtrlDynamic (b.getLsbD 3) (b.extractLsb' 0 3)
  else if i = 1 then .m13CtrlStatic0 (b.extractLsb' 0 4)
  else if i = 2 then .m13CtrlStatic1 (b.extractLsb' 0 4)
  else if i = 3 then .m13CtrlStatic2 (b.extractLsb' 0 4)
  else if i = 4 then .m13CtrlStatic3 (b.extractLsb' 0 4)
  else if i = 5 then .m13CtrlStatic4 (b.extractLsb' 0 4)
  else .m13CtrlIllegal b

/-- A symbol of the meta table (R105). -/
def decodeMeta (v : Nat) : Option Instr :=
  if h : v < 31 then some (.metaSet ⟨v, h⟩)
  else if v = 31 then some .metaAbsent
  else if v = 32 then some .metaInc
  else if v = 33 then some .metaDec
  else if v = 34 then some .metaRep1
  else if v = 35 then some .metaRep3
  else if v = 36 then some .metaRep6
  else none

/-- A symbol of a method-13 primary tree (R102). -/
def decodeM13Sym (v : Nat) : Option Instr :=
  if v ≤ 0x0FF then some (.m13Lit (BitVec.ofNat 8 v))
  else if v ≤ 0x13D then some (.m13Len (BitVec.ofNat 9 v))
  else if v = 0x13E then some .m13Med
  else if v = 0x13F then some .m13Long
  else if v = 0x140 then some .m13Eos
  else none

/-- The 52 length codes of the method-14 literal/length alphabet, in order (R106). -/
def matchRows : List Instr :=
  [.m14MatchC0, .m14MatchC1, .m14MatchC2, .m14MatchC3, .m14MatchC4, .m14MatchC5, .m14MatchC6,
   .m14MatchC7, .m14MatchC8, .m14MatchC9, .m14MatchC10, .m14MatchC11, .m14MatchC12, .m14MatchC13,
   .m14MatchC14, .m14MatchC15, .m14MatchC16, .m14MatchC17, .m14MatchC18, .m14MatchC19, .m14MatchC20,
   .m14MatchC21, .m14MatchC22, .m14MatchC23, .m14MatchC24, .m14MatchC25, .m14MatchC26, .m14MatchC27,
   .m14MatchC28, .m14MatchC29, .m14MatchC30, .m14MatchC31, .m14MatchC32, .m14MatchC33, .m14MatchC34,
   .m14MatchC35, .m14MatchC36, .m14MatchC37, .m14MatchC38, .m14MatchC39, .m14MatchC40, .m14MatchC41,
   .m14MatchC42, .m14MatchC43, .m14MatchC44, .m14MatchC45, .m14MatchC46, .m14MatchC47, .m14MatchC48,
   .m14MatchC49, .m14MatchC50, .m14MatchC51]

/-- The 75 offset codes of method 14, in order (R108). -/
def distRows : List Instr :=
  [.m14DistD0, .m14DistD1, .m14DistD2, .m14DistD3, .m14DistD4, .m14DistD5, .m14DistD6,
   .m14DistD7, .m14DistD8, .m14DistD9, .m14DistD10, .m14DistD11, .m14DistD12, .m14DistD13,
   .m14DistD14, .m14DistD15, .m14DistD16, .m14DistD17, .m14DistD18, .m14DistD19, .m14DistD20,
   .m14DistD21, .m14DistD22, .m14DistD23, .m14DistD24, .m14DistD25, .m14DistD26, .m14DistD27,
   .m14DistD28, .m14DistD29, .m14DistD30, .m14DistD31, .m14DistD32, .m14DistD33, .m14DistD34,
   .m14DistD35, .m14DistD36, .m14DistD37, .m14DistD38, .m14DistD39, .m14DistD40, .m14DistD41,
   .m14DistD42, .m14DistD43, .m14DistD44, .m14DistD45, .m14DistD46, .m14DistD47, .m14DistD48,
   .m14DistD49, .m14DistD50, .m14DistD51, .m14DistD52, .m14DistD53, .m14DistD54, .m14DistD55,
   .m14DistD56, .m14DistD57, .m14DistD58, .m14DistD59, .m14DistD60, .m14DistD61, .m14DistD62,
   .m14DistD63, .m14DistD64, .m14DistD65, .m14DistD66, .m14DistD67, .m14DistD68, .m14DistD69,
   .m14DistD70, .m14DistD71, .m14DistD72, .m14DistD73, .m14DistD74]

/-- A symbol of the method-14 literal/length tree (R106). -/
def decodeM14Sym (v : Nat) : Option Instr :=
  if v < 256 then some (.m14Lit (BitVec.ofNat 8 v)) else matchRows[v - 256]?

/-- A codelength value under the repeat marker `r`, the tests in the order of R231. -/
def decodeLenVal (r v : Nat) : Option Instr :=
  if v = 0 then some .lvZero
  else if v = r then some .lvRepeat
  else if v < 32 then some (.lvValue (BitVec.ofNat 5 v))
  else none

/-- A tree header read as one byte (R43, R94). -/
def decodeM14Hdr (b : Byte) : Instr :=
  .m14Hdr (b.getLsbD 0) (b.extractLsb' 1 2) (b.extractLsb' 3 3) (b.extractLsb' 6 2)

/-- A symbol decoder's answer, an unknown symbol rejected by name. -/
def orUndefined : Option Instr → Except Reject Instr
  | some i => .ok i
  | none => .error .undefinedSymbol

/-- The instruction a word of a format is. -/
def decode : Format → Raw → Except Reject Instr
  | .magic1, .num w => if w < 2 ^ 32 then .ok ((primaryMagic w).getD (.magicOther (BitVec.ofNat 32 w))) else .error .wrongWidth
  | .magic2, .num w =>
    if w < 2 ^ 32 then .ok (if w = secondaryMagic then .magicRLau else .magicOther (BitVec.ofNat 32 w)) else .error .wrongWidth
  | .arch, .bytes bs => if bs.length = 22 then .ok (.arch (archOfBytes bs)) else .error .wrongWidth
  | .ent, .bytes bs => if bs.length = 112 then .ok (decodeEnt (entOfBytes bs)) else .error .wrongWidth
  | .cmpr, .num v => if v < 256 then .ok (decodeCmpr (BitVec.ofNat 8 v)) else .error .wrongWidth
  | .m13Ctrl, .num v => if v < 256 then .ok (decodeM13Ctrl (BitVec.ofNat 8 v)) else .error .wrongWidth
  | .m13Meta, .num v => orUndefined (decodeMeta v)
  | .m13Sym, .num v => orUndefined (decodeM13Sym v)
  | .m13Ofs, .num v => if h : v < 17 then .ok (.m13Ofs ⟨v, h⟩) else .error .undefinedSymbol
  | .m14Hdr, .num v => if v < 256 then .ok (decodeM14Hdr (BitVec.ofNat 8 v)) else .error .wrongWidth
  | .m14LenVal r, .num v => orUndefined (decodeLenVal r v)
  | .m14Sym, .num v => orUndefined (decodeM14Sym v)
  | .m14Dist, .num v => orUndefined distRows[v]?
  | _, _ => .error .wrongShape

/-! ## Encoding -/

/-- The value of a primary or secondary magic row (R95). -/
def magicValue : Instr → Option Nat
  | .magicSit => some 0x53495421
  | .magicSt65 => some 0x53543635
  | .magicSt50 => some 0x53543530
  | .magicSt60 => some 0x53543630
  | .magicStin => some 0x5354696E
  | .magicSti2 => some 0x53546932
  | .magicSti3 => some 0x53546933
  | .magicSti4 => some 0x53546934
  | .magicSt46 => some 0x53543436
  | _ => none

/-- The 22 bytes of an archive header (R96). -/
def archBytes (h : ArchHdr) : Bytes :=
  be32Bytes h.magic ++ be16Bytes h.count ++ be32Bytes h.asize ++ be32Bytes h.magic2 ++ [h.version] ++ be56Bytes h.reserved

/-- The fields of an entry header before its name, and those after its padding (R97). -/
def entHeadBytes (h : EntHdr) : Bytes := [h.resCompr, h.dataCompr, h.nameLen]

/-- Bytes 66..111 of an entry header (R97). -/
def entTailBytes (h : EntHdr) : Bytes :=
  be32Bytes h.finderType ++ be32Bytes h.finderCreator ++ be16Bytes h.finderFlags ++ be32Bytes h.cdate ++ be32Bytes h.mdate
    ++ be32Bytes h.resUsize ++ be32Bytes h.dataUsize ++ be32Bytes h.resCsize ++ be32Bytes h.dataCsize
    ++ be16Bytes h.resCrc ++ be16Bytes h.dataCrc ++ be48Bytes h.unknown ++ be16Bytes h.headerCrc

/-- The 112 bytes of an entry header (R97). -/
def entBytes (h : EntHdr) : Bytes := entHeadBytes h ++ h.nameArea ++ entTailBytes h

/-- The control byte of a static profile: profile `p` is high nibble `p + 1` (R93). -/
def staticCtrl (p : Nat) (low : BitVec 4) : Nat := 16 * (p + 1) + low.toNat

/-- The length code of an `M14.MATCH` row (R106, R115). -/
def Instr.matchCode : Instr → Option Nat
  | .m14MatchC0 => some 0
  | .m14MatchC1 => some 1
  | .m14MatchC2 => some 2
  | .m14MatchC3 => some 3
  | .m14MatchC4 => some 4
  | .m14MatchC5 => some 5
  | .m14MatchC6 => some 6
  | .m14MatchC7 => some 7
  | .m14MatchC8 => some 8
  | .m14MatchC9 => some 9
  | .m14MatchC10 => some 10
  | .m14MatchC11 => some 11
  | .m14MatchC12 => some 12
  | .m14MatchC13 => some 13
  | .m14MatchC14 => some 14
  | .m14MatchC15 => some 15
  | .m14MatchC16 => some 16
  | .m14MatchC17 => some 17
  | .m14MatchC18 => some 18
  | .m14MatchC19 => some 19
  | .m14MatchC20 => some 20
  | .m14MatchC21 => some 21
  | .m14MatchC22 => some 22
  | .m14MatchC23 => some 23
  | .m14MatchC24 => some 24
  | .m14MatchC25 => some 25
  | .m14MatchC26 => some 26
  | .m14MatchC27 => some 27
  | .m14MatchC28 => some 28
  | .m14MatchC29 => some 29
  | .m14MatchC30 => some 30
  | .m14MatchC31 => some 31
  | .m14MatchC32 => some 32
  | .m14MatchC33 => some 33
  | .m14MatchC34 => some 34
  | .m14MatchC35 => some 35
  | .m14MatchC36 => some 36
  | .m14MatchC37 => some 37
  | .m14MatchC38 => some 38
  | .m14MatchC39 => some 39
  | .m14MatchC40 => some 40
  | .m14MatchC41 => some 41
  | .m14MatchC42 => some 42
  | .m14MatchC43 => some 43
  | .m14MatchC44 => some 44
  | .m14MatchC45 => some 45
  | .m14MatchC46 => some 46
  | .m14MatchC47 => some 47
  | .m14MatchC48 => some 48
  | .m14MatchC49 => some 49
  | .m14MatchC50 => some 50
  | .m14MatchC51 => some 51
  | _ => none

/-- The offset code of an `M14.DIST` row (R108, R115). -/
def Instr.distCode : Instr → Option Nat
  | .m14DistD0 => some 0
  | .m14DistD1 => some 1
  | .m14DistD2 => some 2
  | .m14DistD3 => some 3
  | .m14DistD4 => some 4
  | .m14DistD5 => some 5
  | .m14DistD6 => some 6
  | .m14DistD7 => some 7
  | .m14DistD8 => some 8
  | .m14DistD9 => some 9
  | .m14DistD10 => some 10
  | .m14DistD11 => some 11
  | .m14DistD12 => some 12
  | .m14DistD13 => some 13
  | .m14DistD14 => some 14
  | .m14DistD15 => some 15
  | .m14DistD16 => some 16
  | .m14DistD17 => some 17
  | .m14DistD18 => some 18
  | .m14DistD19 => some 19
  | .m14DistD20 => some 20
  | .m14DistD21 => some 21
  | .m14DistD22 => some 22
  | .m14DistD23 => some 23
  | .m14DistD24 => some 24
  | .m14DistD25 => some 25
  | .m14DistD26 => some 26
  | .m14DistD27 => some 27
  | .m14DistD28 => some 28
  | .m14DistD29 => some 29
  | .m14DistD30 => some 30
  | .m14DistD31 => some 31
  | .m14DistD32 => some 32
  | .m14DistD33 => some 33
  | .m14DistD34 => some 34
  | .m14DistD35 => some 35
  | .m14DistD36 => some 36
  | .m14DistD37 => some 37
  | .m14DistD38 => some 38
  | .m14DistD39 => some 39
  | .m14DistD40 => some 40
  | .m14DistD41 => some 41
  | .m14DistD42 => some 42
  | .m14DistD43 => some 43
  | .m14DistD44 => some 44
  | .m14DistD45 => some 45
  | .m14DistD46 => some 46
  | .m14DistD47 => some 47
  | .m14DistD48 => some 48
  | .m14DistD49 => some 49
  | .m14DistD50 => some 50
  | .m14DistD51 => some 51
  | .m14DistD52 => some 52
  | .m14DistD53 => some 53
  | .m14DistD54 => some 54
  | .m14DistD55 => some 55
  | .m14DistD56 => some 56
  | .m14DistD57 => some 57
  | .m14DistD58 => some 58
  | .m14DistD59 => some 59
  | .m14DistD60 => some 60
  | .m14DistD61 => some 61
  | .m14DistD62 => some 62
  | .m14DistD63 => some 63
  | .m14DistD64 => some 64
  | .m14DistD65 => some 65
  | .m14DistD66 => some 66
  | .m14DistD67 => some 67
  | .m14DistD68 => some 68
  | .m14DistD69 => some 69
  | .m14DistD70 => some 70
  | .m14DistD71 => some 71
  | .m14DistD72 => some 72
  | .m14DistD73 => some 73
  | .m14DistD74 => some 74
  | _ => none

/-- The word of `MAGIC` at bytes 0..3: one of the nine of R95, or any other value. -/
def encodeMagic1 : Instr → Option Raw
  | .magicOther w => if primaryMagic w.toNat = none then some (.num w.toNat) else none
  | i => (magicValue i).map .num

/-- The word of `MAGIC` at bytes 10..13: `rLau` (R95), or any other value. -/
def encodeMagic2 : Instr → Option Raw
  | .magicRLau => some (.num secondaryMagic)
  | .magicOther w => if w.toNat = secondaryMagic then none else some (.num w.toNat)
  | _ => none

/-- The bytes of an entry header (R97). -/
def encodeEnt : Instr → Option Raw
  | .entFolderStart h => some (.bytes (entBytes h))
  | .entFolderEnd h => some (.bytes (entBytes h))
  | .entFile h => some (.bytes (entBytes h))
  | _ => none

/-- The compression byte of a fork being read (R92). -/
def encodeCmpr : Instr → Option Raw
  | .cmprEncrypted b => some (.num b.toNat)
  | .cmprM0 => some (.num 0)
  | .cmprM13 => some (.num 13)
  | .cmprM14 => some (.num 14)
  | .cmprUnsupported b => some (.num b.toNat)
  | _ => none

/-- The method-13 control byte (R93). -/
def encodeM13Ctrl : Instr → Option Raw
  | .m13CtrlDynamic c n => some (.num (8 * c.toNat + n.toNat))
  | .m13CtrlStatic0 l => some (.num (staticCtrl 0 l))
  | .m13CtrlStatic1 l => some (.num (staticCtrl 1 l))
  | .m13CtrlStatic2 l => some (.num (staticCtrl 2 l))
  | .m13CtrlStatic3 l => some (.num (staticCtrl 3 l))
  | .m13CtrlStatic4 l => some (.num (staticCtrl 4 l))
  | .m13CtrlIllegal b => some (.num b.toNat)
  | _ => none

/-- A meta symbol (R105). -/
def encodeMeta : Instr → Option Raw
  | .metaSet s => some (.num s.val)
  | .metaAbsent => some (.num 31)
  | .metaInc => some (.num 32)
  | .metaDec => some (.num 33)
  | .metaRep1 => some (.num 34)
  | .metaRep3 => some (.num 35)
  | .metaRep6 => some (.num 36)
  | _ => none

/-- A symbol of a method-13 primary tree (R102). -/
def encodeM13Sym : Instr → Option Raw
  | .m13Lit b => some (.num b.toNat)
  | .m13Len s => some (.num s.toNat)
  | .m13Med => some (.num 0x13E)
  | .m13Long => some (.num 0x13F)
  | .m13Eos => some (.num 0x140)
  | _ => none

/-- A codelength value under the repeat marker `r` (R109, R231). -/
def encodeLenVal (r : Nat) : Instr → Option Raw
  | .lvZero => some (.num 0)
  | .lvRepeat => if r = 0 then none else some (.num r)
  | .lvValue v => if v.toNat = r then none else some (.num v.toNat)
  | _ => none

/-- A symbol of the method-14 literal/length tree (R106). -/
def encodeM14Sym : Instr → Option Raw
  | .m14Lit b => some (.num b.toNat)
  | i => i.matchCode.map fun c => .num (256 + c)

/-- The word of format `f` that spells an instruction, if the instruction has one in that format. -/
def encode (f : Format) (i : Instr) : Option Raw :=
  match f with
  | .magic1 => encodeMagic1 i
  | .magic2 => encodeMagic2 i
  | .arch => match i with | .arch h => some (.bytes (archBytes h)) | _ => none
  | .ent => encodeEnt i
  | .cmpr => encodeCmpr i
  | .m13Ctrl => encodeM13Ctrl i
  | .m13Meta => encodeMeta i
  | .m13Sym => encodeM13Sym i
  | .m13Ofs => match i with | .m13Ofs v => some (.num v.val) | _ => none
  | .m14Hdr =>
    match i with | .m14Hdr k j o sel => some (.num (k.toNat + 2 * j.toNat + 8 * o.toNat + 64 * sel.toNat)) | _ => none
  | .m14LenVal r => encodeLenVal r i
  | .m14Sym => encodeM14Sym i
  | .m14Dist => i.distCode.map .num

/-! ## The opcode table's words -/

/-- The format a word of the opcode table is taken for. The table numbers words of several formats alike and a word does not
say its format (R112); this choice, made by width alone, is the model's (log 14). -/
def tableFormat (nbits w : Nat) : Option Format :=
  if nbits = 32 then
    some (if w < 75 then .m14Dist else if w = secondaryMagic then .magic2 else .magic1)
  else if nbits = 16 then
    some (if w % 512 < 308 then .m14Sym else .m13Sym)
  else if nbits = 8 then
    some (if w % 128 < 75 then .m14Dist else .m13Ctrl)
  else none

/-- The bits of the word that its format reads: 9 bits of a tree symbol, 7 of an offset symbol, a whole byte or magic. -/
def tableValue (f : Format) (w : Nat) : Nat :=
  match f with
  | .m14Sym => w % 512
  | .m13Sym => w % 512
  | .m14Dist => w % 128
  | .m13Ctrl => w % 256
  | _ => w

/-- What the decoder reads from a word of the opcode table. -/
def decodeTableWord (nbits w : Nat) : Option Instr :=
  match tableFormat nbits w with
  | none => none
  | some f => (decode f (.num (tableValue f w))).toOption

end Sys2Proof
end

