-- ==== Sys2Proof/Machine/State.lean ====
section
/-! DEFINITION. Everything the spec gives the machine, as plain data (10_state.md, 20_memory.md), the reasons a step can stop,
and the machine right after reset. INVENTORY.md lists the fields with their rules and reset values. -/

namespace Sys2Proof.Machine

/-- A sparse memory: (address, element) pairs in one canonical form, addresses strictly rising and no element equal to
`default`, which is what an unlisted address reads as. `Memory Byte` is a list of `Host.Cell`. -/
abbrev Memory (α : Type) := List (Nat × α)

/-- A slot of a lookup table (R23, R160): `bits` 0 empty, 1..12 a leaf, 13 an overflow whose `value` is a node. -/
structure Slot where
  value : Nat
  bits : Nat
deriving DecidableEq, Repr, Inhabited

/-- An overflow node (R160); `none` is the spec's `nil`. -/
structure Node where
  zeroChild : Option Nat
  oneChild : Option Nat
  symbol : Option Nat
deriving DecidableEq, Repr, Inhabited

/-- A Huffman12 table: its part of `TAB`, its part of `POOL`, and the nodes allocated (R23). -/
structure Table where
  slot : Memory Slot
  node : Memory Node
  nnodes : Nat
deriving DecidableEq, Repr, Inhabited

/-- The BitReader's registers (R21). -/
structure BitReader where
  base : Nat
  len : Nat
  pos : Nat
deriving DecidableEq, Repr, Inhabited

/-- Which primary tree decodes the next method-13 symbol (R24). -/
inductive Tree where
  | first
  | second
deriving DecidableEq, Repr, Inhabited

/-- The method-13 registers and tables (R24). `n` is the model's: the operand of the length sequence in progress. -/
structure M13 where
  ctrl : Byte
  active : Tree
  cur : Int
  idx : Nat
  n : Nat
  lens : Memory Nat
  wp : BitVec 16
  t1 : Table
  t2 : Table
  tOfs : Table
  tMeta : Table
deriving DecidableEq, Repr, Inhabited

/-- What method 14 keeps per nesting level: the header fields in force, the lengths being read and the nested table (R25,
R222). `n` and `i` are the model's: the operand and the loop index of R222. -/
structure Level where
  k : Bool
  w : Nat
  m : Nat
  bias : Nat
  r : Nat
  nested : Bool
  lens : Memory Nat
  tn : Table
  n : Nat
  i : Nat
deriving DecidableEq, Repr, Inhabited

/-- The method-14 registers and tables (R25), the per-level ones indexed by level. -/
structure M14 where
  nblk : Nat
  skip : Nat
  rem : Nat
  wp : BitVec 18
  depth : Nat
  level : Memory Level
  tl : Table
  td : Table
deriving DecidableEq, Repr, Inhabited

/-- The output registers (R26). -/
structure Output where
  size : Nat
  cnt : Nat
deriving DecidableEq, Repr, Inhabited

/-- The container parser's registers (R27); `stack` is outermost folder first. -/
structure Parser where
  pos : Nat
  asize : Nat
  stack : List Bytes
  depth : Nat
  hdr : Bytes
deriving DecidableEq, Repr, Inhabited

/-- The handle's registers (R28). -/
structure Handle where
  valid : Bool
  flatten : Bool
  size : Nat
deriving DecidableEq, Repr, Inhabited

/-- A file entry under its key, with the path as written in the archive (R31, R117). -/
structure Entry where
  key : Bytes
  path : Bytes
  dataFork : ForkDesc
  resFork : ForkDesc
deriving DecidableEq, Repr, Inhabited

/-- A Finder info record under its key (R31, R116). -/
structure Finder where
  key : Bytes
  info : Bytes
deriving DecidableEq, Repr, Inhabited

/-- The two maps of the index, in the order of insertion (R28). -/
structure Index where
  entries : List Entry
  metadata : List Finder
deriving DecidableEq, Repr, Inhabited

/-- The status word's values: no error, and the error kinds in the order of R320 and R321. -/
inductive ErrKind where
  | ok
  | badMagic
  | truncated
  | nameTooLong
  | headerCrcMismatch
  | encrypted
  | unsupportedMethod
  | corruptStream
  | payloadCrcMismatch
  | notFound
  | folderUnderflow
  | duplicatePath
deriving DecidableEq, Repr, Inhabited

/-- What a command hands the host beside `ST.err` (R290): nothing, a bit, paths, bytes, or the signal `absent`. -/
inductive Result where
  | none
  | flag (b : Bool)
  | paths (ps : List Bytes)
  | bytes (bs : Bytes)
  | absent
deriving DecidableEq, Repr, Inhabited

/-- The status word and the result that comes with it (R44). -/
structure Status where
  err : ErrKind
  result : Result
deriving DecidableEq, Repr, Inhabited

/-- The decoder that is running, which fixes the window size of R308. -/
inductive Decoder where
  | m13
  | m14
deriving DecidableEq, Repr, Inhabited

/-- What the last primitive returned to its caller (the model's own register). -/
inductive Ret where
  | none
  | num (n : Nat)
  | flag (b : Bool)
  | bytes (bs : Bytes)
  | lens (ls : List Nat)
  | keyPath (key path : Bytes)
  /-- The no-fork signal of `DISPATCH` (R300). -/
  | noFork
deriving DecidableEq, Repr, Inhabited

/-- A pending line of the pseudocode in progress: what the sequencer does next. Each constructor names the rule whose line
it stands for. -/
inductive Task where
  /-- Perform an instruction that the pseudocode calls. -/
  | op (i : Instr)
  /-- Fetch one word of a format, decode it and perform it. -/
  | fetch (f : Format)
  /-- The lines of R262 after the primary magic. -/
  | archRest
  /-- The loop test of `CP.PARSE` (R261, R264). -/
  | parseLoop
  /-- The last line of `OPEN` (R291). -/
  | openEnd
  /-- The last line of `DISPATCH` (R300). -/
  | dispatchRet
  /-- The lines of `READ` after `DISPATCH` (R295). -/
  | deliverData
  /-- The lines of `READ_RSRC` after `DISPATCH` (R296). -/
  | deliverRsrc
  /-- The lines of `M13.START` after the tables (R181). -/
  | m13Begin
  /-- The loop of `M13.READLENGTHS` (R187). -/
  | metaLoop
  /-- `H12.BUILD(M13.T1, 321, A)` of R186. -/
  | m13BuildT1
  /-- `M13.T2 <- M13.T1` of R186. -/
  | m13CopyT2
  /-- `H12.BUILD(M13.T2, 321, B)` of R186. -/
  | m13BuildT2
  /-- `H12.BUILD(M13.TO, n, C)` of R186. -/
  | m13BuildTO (n : Nat)
  /-- The loop of `M13.RUN` (R196). -/
  | m13Loop
  /-- The final length check (R203). -/
  | m13End
  /-- The lines of `M14.READLENGTHS` after the header (R222), at a level. -/
  | m14Mode (depth : Nat)
  /-- `H12.BUILD(M14.TN[depth], 32, Ln)` of R222. -/
  | m14BuildTN (depth : Nat)
  /-- The value loop of `M14.READLENGTHS` (R222). -/
  | lvLoop
  /-- The loop of `M14.START` (R236). -/
  | m14Blocks
  /-- The final length check of R236. -/
  | m14End
  /-- `H12.BUILD(M14.TL, 308, ..)` of R237. -/
  | m14BuildTL
  /-- `H12.BUILD(M14.TD, 75, ..)` of R237. -/
  | m14BuildTD
  /-- `M14.rem <- n` of R237. -/
  | m14SetRem (n : Nat)
  /-- The symbol loop of R237 and the tests of R239. -/
  | m14Loop
  /-- The last two lines of `M14.BLOCK` (R237). -/
  | m14BlockEnd
deriving DecidableEq, Repr

/-- The machine. -/
structure State where
  /-- `SRC` (R61). -/
  src : Memory Byte
  /-- `WIN` (R62). -/
  win : Memory Byte
  /-- `OUT` (R63). -/
  outMem : Memory Byte
  br : BitReader
  /-- `CRC.acc` (R22). -/
  crc : U16
  out : Output
  m13 : M13
  m14 : M14
  cp : Parser
  h : Handle
  idx : Index
  st : Status
  /-- The open parameters, the ROM space among them (R9, R66). -/
  par : Config.Params
  /-- The model's own: the pending lines of the pseudocode, the next one first. -/
  seq : List Task
  /-- The model's own: the host's pending commands, the next one first. -/
  host : List Cmd
  /-- The model's own: the operand of the `DISPATCH` in progress. -/
  fork : ForkDesc
  /-- The model's own: the running decoder. -/
  dec : Decoder
  /-- The model's own: what the last primitive returned. -/
  ret : Ret
  /-- The model's own: how many free values have been drawn. -/
  draws : Nat
deriving DecidableEq, Repr

/-- Why the machine stops with a fault. -/
inductive Fault where
  /-- Raised by a table decode whose overflow walk meets no leaf and no missing child however far it goes. No built table has
  such a pool and the spec gives no rule for one; stopping is safe (log 20). -/
  | endlessWalk
  /-- Raised by a primitive asked for a byte outside its space, an address R12 and R60 say does not exist. Stopping is safe
  (log 21). -/
  | noSuchByte
deriving DecidableEq, Repr

/-- Why an instruction is given no outcome. -/
inductive Refusal where
  /-- Raised by exec for an instruction that has no meaning yet; safe. -/
  | notModelled (mnemonic : String)
  /-- Raised by a method-13 read whose ROM parameter was not supplied: `refuse(no ROM)` (R183, R186, R335); safe. -/
  | noRom
  /-- Raised where the supplied ROM is not of the form R9 and R166 require: `refuse(bad ROM)`; safe. -/
  | badRom
  /-- Raised by `META.SET` when `M13_LEN_OF_SYM` was supplied for fewer than 31 symbols (R14); safe. -/
  | noParameter
  /-- Raised by `OPEN` with a size larger than the bytes there are, which R353 puts outside the spec; safe. -/
  | sizeBeyondSource
  /-- Raised by the sequencer for an operand outside its legal range (R132, WellFormed); safe. -/
  | illegalCall
deriving DecidableEq, Repr

/-- A table with every slot empty and no node allocated (R50). -/
def Table.empty : Table where
  slot := []
  node := []
  nnodes := 0

/-- BitReader registers at reset; `base` and `len` are DESIGN CHOICE 0 (log 10). -/
def BitReader.reset : BitReader where
  base := 0
  len := 0
  pos := 0

/-- Method-13 state at reset (R50); `ctrl`, `lens` and `n` are DESIGN CHOICE 0 (log 10). -/
def M13.reset : M13 where
  ctrl := 0
  active := .first
  cur := 0
  idx := 0
  n := 0
  lens := []
  wp := 0
  t1 := .empty
  t2 := .empty
  tOfs := .empty
  tMeta := .empty

/-- Method-14 state at reset (R50); `nblk`, `skip`, `rem` and the header fields are DESIGN CHOICE 0 (log 10). -/
def M14.reset : M14 where
  nblk := 0
  skip := 0
  rem := 0
  wp := 0
  depth := 0
  level := []
  tl := .empty
  td := .empty

/-- Parser state at reset (R51); `asize` and `hdr` are DESIGN CHOICE 0 (log 10). -/
def Parser.reset : Parser where
  pos := 0
  asize := 0
  stack := []
  depth := 0
  hdr := List.replicate 112 0

/-- A fork descriptor of zeros, the value of the model's own `fork` at reset. -/
def ForkDesc.reset : ForkDesc where
  usize := 0
  csize := 0
  offset := 0
  crc := 0
  compression := 0

/-- The machine right after reset (R50 to R52, R350, R351): idle, no handle, every open parameter at its default and the ROM
as supplied. -/
def State.reset : State where
  src := []
  win := []
  outMem := []
  br := .reset
  crc := 0
  out := { size := 0, cnt := 0 }
  m13 := .reset
  m14 := .reset
  cp := .reset
  h := { valid := false, flatten := false, size := 0 }
  idx := { entries := [], metadata := [] }
  st := { err := .ok, result := .none }
  par := Config.defaults
  seq := []
  host := []
  fork := ForkDesc.reset
  dec := .m13
  ret := .none
  draws := 0

end Sys2Proof.Machine
end

