-- ==== Sys2Proof/Machine/Ops.lean ====
section
/-! DEFINITION. The operations over memories and registers that the units share; taking an error (R326) and the normal end of a
command (R327); the sequencer's queue. -/

namespace Sys2Proof.Machine

/-! ## Sparse memories -/

/-- The element at an address; `default` where nothing is listed. -/
def Memory.read {α : Type} [Inhabited α] : Memory α → Nat → α
  | [], _ => default
  | (b, v) :: t, a => if a = b then v else Memory.read t a

/-- Put an element at an address, keeping the canonical form: `default` is not listed. -/
def Memory.write {α : Type} [Inhabited α] [DecidableEq α] : Memory α → Nat → α → Memory α
  | [], a, v => if v = default then [] else [(a, v)]
  | (b, w) :: t, a, v =>
    if a < b then (if v = default then (b, w) :: t else (a, v) :: (b, w) :: t)
    else if a = b then (if v = default then t else (a, v) :: t)
    else (b, w) :: Memory.write t a v

/-- The canonical form: addresses strictly rising and nothing equal to `default` listed. -/
def Memory.wf {α : Type} [Inhabited α] [DecidableEq α] : Memory α → Bool
  | [] => true
  | [(_, v)] => v != default
  | (a, v) :: (b, w) :: t => v != default && a < b && Memory.wf ((b, w) :: t)

/-- The elements at `a, a + 1, ..` in address order. -/
def Memory.slice {α : Type} [Inhabited α] (m : Memory α) (a n : Nat) : List α :=
  (List.range n).map fun i => Memory.read m (a + i)

/-- The memory that holds a byte string from address `a` on. -/
def Memory.ofBytes : Nat → Bytes → Memory Byte
  | _, [] => []
  | a, b :: t => if b = default then Memory.ofBytes (a + 1) t else (a, b) :: Memory.ofBytes (a + 1) t

/-! ## Register groups -/

/-- `s` with its `src` replaced. -/
def State.withSrc (s : State) (v : Memory Byte) : State := { s with src := v }

/-- `s` with its `win` replaced. -/
def State.withWin (s : State) (v : Memory Byte) : State := { s with win := v }

/-- `s` with its `outMem` replaced. -/
def State.withOutMem (s : State) (v : Memory Byte) : State := { s with outMem := v }

/-- `s` with its `br` replaced. -/
def State.withBr (s : State) (v : BitReader) : State := { s with br := v }

/-- `s` with its `crc` replaced. -/
def State.withCrc (s : State) (v : U16) : State := { s with crc := v }

/-- `s` with its `out` replaced. -/
def State.withOut (s : State) (v : Output) : State := { s with out := v }

/-- `s` with its `m13` replaced. -/
def State.withM13 (s : State) (v : M13) : State := { s with m13 := v }

/-- `s` with its `m14` replaced. -/
def State.withM14 (s : State) (v : M14) : State := { s with m14 := v }

/-- `s` with its `cp` replaced. -/
def State.withCp (s : State) (v : Parser) : State := { s with cp := v }

/-- `s` with its `h` replaced. -/
def State.withH (s : State) (v : Handle) : State := { s with h := v }

/-- `s` with its `idx` replaced. -/
def State.withIdx (s : State) (v : Index) : State := { s with idx := v }

/-- `s` with its `st` replaced. -/
def State.withSt (s : State) (v : Status) : State := { s with st := v }

/-- `s` with its `seq` replaced. -/
def State.withSeq (s : State) (v : List Task) : State := { s with seq := v }

/-- `s` with its `host` replaced. -/
def State.withHost (s : State) (v : List Cmd) : State := { s with host := v }

/-- `s` with its `fork` replaced. -/
def State.withFork (s : State) (v : ForkDesc) : State := { s with fork := v }

/-- `s` with its `dec` replaced. -/
def State.withDec (s : State) (v : Decoder) : State := { s with dec := v }

/-- `s` with its `ret` replaced. -/
def State.withRet (s : State) (v : Ret) : State := { s with ret := v }

/-- `s` with its `draws` replaced. -/
def State.withDraws (s : State) (v : Nat) : State := { s with draws := v }

/-! ## Outcomes inside an instruction -/

/-- What an operation does: it returns normally with a value, raises an error kind, or stops (R14). -/
inductive Res (α : Type) where
  | ok (a : α) (s : State)
  | raised (k : ErrKind) (s : State)
  | fault (f : Fault)
  | refused (r : Refusal)
deriving Repr

/-- One line after another: the second runs only if the first returned normally (R13). -/
def Res.bind {α β : Type} (r : Res α) (f : α → State → Res β) : Res β :=
  match r with
  | .ok a s => f a s
  | .raised k s => .raised k s
  | .fault e => .fault e
  | .refused e => .refused e

/-- Which command raises a kind (the last column of R320's table): true for `OPEN`. -/
def ErrKind.ofOpen : ErrKind → Bool
  | .badMagic | .truncated | .nameTooLong | .headerCrcMismatch | .folderUnderflow | .duplicatePath => true
  | _ => false

/-- `raise Kind` (R13, R326): the command in progress ends at once with the kind and no result; after `OPEN`'s kinds the handle
is invalid and the index empty, after a read's kinds the handle is unchanged. The block is idle again. -/
def takeError (k : ErrKind) (s : State) : State :=
  let s := (s.withSeq []).withSt { err := k, result := .none }
  if k.ofOpen then (s.withH { s.h with valid := false }).withIdx { entries := [], metadata := [] } else s

/-- The normal end of a command: its result and `OK` (R44, R327). There is no other return: no handler exists. What the read-state
registers hold after a read, and the parser's after an `OPEN`, that ends normally is the model's choice (log 36): R20 has them
discarded, the model leaves them as the last line wrote them. -/
def endCommand (r : Result) (s : State) : State := s.withSt { err := .ok, result := r }

/-- An instruction's outcome for the machine: an error raised is an error taken. -/
def Res.outcome (r : Res Unit) : Host.Outcome State Fault Refusal :=
  match r with
  | .ok _ s => .next s
  | .raised k s => .next (takeError k s)
  | .fault e => .fault e
  | .refused e => .refused e

/-- A primitive's outcome when it is performed by itself: its value stands in `ret`. -/
def Res.outcomeWith {α : Type} (r : Res α) (f : α → Ret) : Host.Outcome State Fault Refusal :=
  (r.bind fun a s => .ok () (s.withRet (f a))).outcome

/-- The lines `ts` are to be done before what was pending. -/
def pushTasks (ts : List Task) (s : State) : State := s.withSeq (ts ++ s.seq)

/-! ## SRC -/

/-- `MemRead(SRC, a, 1)`: a byte of the backing stream, `none` outside it (R12, R61). -/
def srcByte (s : State) (a : Nat) : Option Byte :=
  if a < s.h.size then some (Memory.read s.src a) else none

/-- `MemRead(SRC, a, n)` where the range is known to lie in the stream. -/
def srcBytes (s : State) (a n : Nat) : Bytes := Memory.slice s.src a n

/-! ## Tables and levels -/

/-- The registers of a nesting level (R25: one copy per level). -/
def levelAt (s : State) (d : Nat) : Level := Memory.read s.m14.level d

/-- Replace the registers of a nesting level. -/
def withLevel (s : State) (d : Nat) (l : Level) : State :=
  s.withM14 { s.m14 with level := Memory.write s.m14.level d l }

/-- The table an operand names. -/
def tableAt (s : State) : TableId → Table
  | .t1 => s.m13.t1
  | .t2 => s.m13.t2
  | .tOfs => s.m13.tOfs
  | .tMeta => s.m13.tMeta
  | .tl => s.m14.tl
  | .td => s.m14.td
  | .tn d => (levelAt s d).tn

/-- Replace the table an operand names. -/
def withTable (s : State) (t : TableId) (v : Table) : State :=
  match t with
  | .t1 => s.withM13 { s.m13 with t1 := v }
  | .t2 => s.withM13 { s.m13 with t2 := v }
  | .tOfs => s.withM13 { s.m13 with tOfs := v }
  | .tMeta => s.withM13 { s.m13 with tMeta := v }
  | .tl => s.withM14 { s.m14 with tl := v }
  | .td => s.withM14 { s.m14 with td := v }
  | .tn d => withLevel s d { levelAt s d with tn := v }

/-! ## The start of a read -/

/-- "set read state to its reset values" (R300, R50): the BitReader on the fork's payload, an empty window and output, fresh
decoder registers and tables. -/
def resetRead (f : ForkDesc) (s : State) : State :=
  (((((((s.withBr { base := f.offset, len := f.csize.toNat, pos := 0 }).withCrc 0).withWin []).withOutMem []).withOut
    { size := f.usize.toNat, cnt := 0 }).withM13 M13.reset).withM14 M14.reset)

end Sys2Proof.Machine
end

