-- ==== Sys2Proof/Machine/Operands.lean ====
section
/-! DEFINITION. Operand assembly: names and keys (R117, R270, R292), the method-13 and method-14 length and offset tables (R103 to
R108), code words (R10, R101). -/

namespace Sys2Proof.Machine

/-! ## Names and keys -/

/-- ASCII `A`..`Z` to `a`..`z`, every other byte as it is (R117, D37). -/
def foldByte (b : Byte) : Byte := if 0x41 ≤ b.toNat ∧ b.toNat ≤ 0x5A then b + 0x20#8 else b

/-- `fold` (R117). -/
def fold (p : Bytes) : Bytes := p.map foldByte

/-- The separator `:` (R117). -/
def colon : Byte := 0x3A#8

/-- The bytes after the last `:`; the whole string if it has none (R270). -/
def lastComponent (p : Bytes) : Bytes := (p.reverse.takeWhile (· != colon)).reverse

/-- `norm(path)` (R292). -/
def norm (s : State) (p : Bytes) : Bytes := if s.h.flatten then fold (lastComponent p) else fold p

/-- The path of a file entry of this name (R270). -/
def entryPath (s : State) (name : Bytes) : Bytes :=
  if s.h.flatten then lastComponent name else s.cp.stack.flatten ++ name

/-- The file name of an entry header (R267). -/
def entName (h : EntHdr) : Bytes := h.nameArea.take h.nameLen.toNat

/-- Bytes 66..75 of an entry header, the ten bytes of Finder info it holds (R116). -/
def finderHead (h : EntHdr) : Bytes :=
  be32Bytes h.finderType ++ be32Bytes h.finderCreator ++ be16Bytes h.finderFlags

/-- The resource fork's descriptor, its payload at `pos` (R271). -/
def resForkOf (h : EntHdr) (pos : Nat) : ForkDesc where
  usize := h.resUsize
  csize := h.resCsize
  offset := pos
  crc := h.resCrc
  compression := h.resCompr

/-- The data fork's descriptor, its payload right after the resource fork's (R271). -/
def dataForkOf (h : EntHdr) (pos : Nat) : ForkDesc where
  usize := h.dataUsize
  csize := h.dataCsize
  offset := pos + h.resCsize.toNat
  crc := h.dataCrc
  compression := h.dataCompr

/-! ## Code words -/

/-- `rev(c, l)` (R10). -/
def revBits : Nat → Nat → Nat
  | _, 0 => 0
  | c, l + 1 => (c % 2) * 2 ^ l + revBits (c / 2) l

/-! ## Method 13 -/

/-- The length of an `M13.LEN` symbol (R199). -/
def m13ShortLen (sym : Nat) : Nat := sym - 0x100 + 3

/-- The length of an `M13.MED` or `M13.LONG` match from its extra bits (R103, R197, R198). -/
def m13ExtraLen (extra : Nat) : Nat := extra + 65

/-- How many extra bits follow an offset prefix (R104). -/
def m13OfsBits (v : Nat) : Nat := v - 1

/-- The offset of a prefix and its extra bits (R104, R202). -/
def m13OfsValue (v extra : Nat) : Nat := (if v = 0 then 0 else (1 <<< (v - 1)) ||| extra) + 1

/-! ## Method 14 -/

/-- `extra14` (R107). -/
def extra14 (c : Nat) : Nat := (c - 4) >>> 2

/-- `base14` by its recurrence (R107). -/
def base14 : Nat → Nat
  | 0 => 4
  | c + 1 => if c < 3 then c + 5 else base14 c + (1 <<< extra14 c)

/-- `extra14o` (R108). -/
def extra14o (d : Nat) : Nat := (d - 3) >>> 2

/-- `base14o` by its recurrence (R108). -/
def base14o : Nat → Nat
  | 0 => 1
  | d + 1 => if d < 2 then d + 2 else base14o d + (1 <<< extra14o d)

/-! ## Free orders -/

/-- A list put in the order of its positions' ranks; positions of equal rank keep their order. -/
def arrange (rank : Nat → Nat) (xs : List Bytes) : List Bytes :=
  ((xs.zipIdx.map fun p => (rank p.2, p.1)).insertionSort fun a b => a.1 ≤ b.1).map Prod.snd

end Sys2Proof.Machine
end

