-- ==== Sys2Proof/Machine/Flags.lean ====
section
/-! DEFINITION. The block's flags and predicates (R33): it has no arithmetic condition codes. -/

namespace Sys2Proof.Machine

/-- End of stream, `BR.EOS()`: a predicate of the registers, not a stored flag (R33, R136). -/
def brEos (s : State) : Bool := 8 * s.br.len ≤ s.br.pos

/-- The table that `M13.active` selects (R196). -/
def activeTable (s : State) : TableId :=
  match s.m13.active with
  | .first => .t1
  | .second => .t2

/-- The number that `ERR_CODE` gives a kind (R9, R321). -/
def kindCode (c : Config.ErrCodes) : ErrKind → Nat
  | .ok => c.ok
  | .badMagic => c.badMagic
  | .truncated => c.truncated
  | .nameTooLong => c.nameTooLong
  | .headerCrcMismatch => c.headerCrcMismatch
  | .encrypted => c.encrypted
  | .unsupportedMethod => c.unsupportedMethod
  | .corruptStream => c.corruptStream
  | .payloadCrcMismatch => c.payloadCrcMismatch
  | .notFound => c.notFound
  | .folderUnderflow => c.folderUnderflow
  | .duplicatePath => c.duplicatePath

/-- The number the host reads as `ST.err`: the kind through `ERR_CODE` (R44, R321). -/
def statusCode (s : State) : Nat := kindCode s.par.errCode s.st.err

/-- The output is exactly as long as the fork says it is (R203, R243). -/
def outComplete (s : State) : Bool := s.out.cnt == s.out.size

end Sys2Proof.Machine
end

