-- ==== Sys2Proof/Machine/Crc.lean ====
section
/-! DEFINITION. The CRC16 checker (41_crc16.md). -/

namespace Sys2Proof.Machine

/-- One shift of R152. -/
def crcShift (c : U16) : U16 := if c.getLsbD 0 then (c >>> 1) ^^^ 0xA001#16 else c >>> 1

/-- `n` shifts. -/
def crcShifts : Nat → U16 → U16
  | 0, c => c
  | n + 1, c => crcShifts n (crcShift c)

/-- The accumulator after one byte (R152). -/
def crcByte (acc : U16) (b : Byte) : U16 := crcShifts 8 (acc ^^^ b.setWidth 16)

/-- The accumulator after a byte string (R153). -/
def crcBytes (acc : U16) (bs : Bytes) : U16 := bs.foldl crcByte acc

/-- The window size of a decoder (R304, R305). -/
def windowSize : Decoder → Nat
  | .m13 => 65536
  | .m14 => 0x40000

/-- `MemRead(SPACE, a, 1)` of a byte space (R12); `none` where the space has no such byte. -/
def spaceByte (s : State) : ByteSpace → Nat → Option Byte
  | .src, a => srcByte s a
  | .win, a => some (Memory.read s.win (a % windowSize s.dec))
  | .out, a => if a < s.out.size then some (Memory.read s.outMem a) else none
  | .hdr, a => s.cp.hdr[a]?

/-- The bytes `a .. a + n - 1` of a space, in address order. -/
def spaceBytes (s : State) (sp : ByteSpace) : Nat → Nat → Option Bytes
  | _, 0 => some []
  | a, n + 1 =>
    match spaceByte s sp a, spaceBytes s sp (a + 1) n with
    | some b, some bs => some (b :: bs)
    | _, _ => none

/-- `CRC.INIT()` (R151). -/
def crcInit (s : State) : State := s.withCrc 0x0000#16

/-- `CRC.UPDATE(b)` (R152). -/
def crcUpdate (b : Byte) (s : State) : State := s.withCrc (crcByte s.crc b)

/-- `CRC.RANGE(SPACE, a, n)` (R153). -/
def crcRange (sp : ByteSpace) (a n : Nat) (s : State) : Res U16 :=
  match spaceBytes s sp a n with
  | some bs =>
    let s' := bs.foldl (fun t b => crcUpdate b t) (crcInit s)
    .ok s'.crc s'
  | none => .fault .noSuchByte

/-- `CRC.VERIFY(f)` (R306). -/
def crcVerify (f : ForkDesc) (s : State) : Res Unit :=
  (crcRange .out 0 s.out.size s).bind fun c s =>
    if c = f.crc then .ok () s else .raised .payloadCrcMismatch s

/-! ## Meanings -/

/-- `CRC.INIT` (R151). -/
def execCrcInit (s : State) : Host.Outcome State Fault Refusal := .next (crcInit s)

/-- `CRC.UPDATE` (R152). -/
def execCrcUpdate (b : Byte) (s : State) : Host.Outcome State Fault Refusal := .next (crcUpdate b s)

/-- `CRC.RANGE` (R153). -/
def execCrcRange (sp : ByteSpace) (a n : Nat) (s : State) : Host.Outcome State Fault Refusal :=
  (crcRange sp a n s).outcomeWith fun c => .num c.toNat

/-- `CRC.VERIFY` (R306). -/
def execCrcVerify (f : ForkDesc) (s : State) : Host.Outcome State Fault Refusal := (crcVerify f s).outcome

end Sys2Proof.Machine
end

