-- ==== Sys2Proof/Machine/Container.lean ====
section
/-! DEFINITION. The container parser and entry indexer (45_container.md). -/

namespace Sys2Proof.Machine

/-! ## The archive header -/

/-- `CP.PARSE` (R261): empty parse state and index, then the header, then the entry loop. -/
def cpParse (s : State) : State :=
  pushTasks [.op .cpArchdr, .parseLoop]
    ((s.withCp { s.cp with pos := 0, stack := [], depth := 0 }).withIdx { entries := [], metadata := [] })

/-- `CP.ARCHDR` (R262) up to the primary magic, which is fetched next. -/
def cpArchdr (s : State) : Res Unit :=
  if s.h.size < 4 then .raised .truncated s else .ok () (pushTasks [.fetch .magic1, .archRest] s)

/-- The line of R262 after the primary magic: the rest of the header must be there. -/
def archRest (s : State) : Res Unit :=
  if s.h.size < 22 then .raised .truncated s else .ok () (pushTasks [.fetch .arch] s)

/-- One of the nine primary magics: accepted, all alike (R95, R262). -/
def acceptMagic (s : State) : State := s

/-- The archive header record (R96, R262): the size field, then the secondary magic, which is fetched next. A primary magic that
is none of the nine is `BadMagic`. -/
def archRecord (h : ArchHdr) (s : State) : Res Unit :=
  if primaryMagic h.magic.toNat = none then .raised .badMagic s
  else .ok () (pushTasks [.fetch .magic2] (s.withCp { s.cp with asize := h.asize.toNat }))

/-- The last line of R262: the header is done with. -/
def archDone (s : State) : State := s.withCp { s.cp with pos := 22 }

/-! ## The entry loop -/

/-- One test of the loop of R261 and R264; when it ends, `H.valid <- 1` and the stack is discarded (R273): folders still open there
are no error. DEDUCED: a discarded stack is the empty one, with `CP.depth` its length (R27; log 37). -/
def parseLoop (s : State) : State :=
  if s.cp.pos < s.cp.asize ∧ s.cp.pos < s.h.size then pushTasks [.op .cpFetch, .fetch .ent, .parseLoop] s
  else (s.withCp { s.cp with stack := [], depth := 0 }).withH { s.h with valid := true }

/-- `CP.FETCH`: the read (R265), the header CRC (R266), the name length (R267). -/
def cpFetch (s : State) : Res Unit :=
  if s.h.size < s.cp.pos + 112 then .raised .truncated s
  else
    let s := s.withCp { s.cp with hdr := srcBytes s s.cp.pos 112, pos := s.cp.pos + 112 }
    (crcRange .hdr 0 110 s).bind fun c s =>
      if c ≠ be16At s.cp.hdr 110 then .raised .headerCrcMismatch s
      else if 31 < (s.cp.hdr.getD 2 0).toNat then .raised .nameTooLong s
      else .ok () s

/-- `ENT.FOLDER_START` (R268). -/
def folderStart (name : Bytes) (s : State) : State :=
  if s.h.flatten then s
  else s.withCp { s.cp with stack := s.cp.stack ++ [name ++ [colon]], depth := s.cp.depth + 1 }

/-- `ENT.FOLDER_END` (R269). -/
def folderEnd (s : State) : Res Unit :=
  if s.h.flatten then .ok () s
  else if s.cp.depth = 0 then .raised .folderUnderflow s
  else .ok () (s.withCp { s.cp with stack := s.cp.stack.dropLast, depth := s.cp.depth - 1 })

/-! ## The index -/

/-- The entry under a key. -/
def findEntry (s : State) (key : Bytes) : Option Entry := s.idx.entries.find? (·.key == key)

/-- The Finder info under a key. -/
def findFinder (s : State) (key : Bytes) : Option Finder := s.idx.metadata.find? (·.key == key)

/-- The 16 bytes of Finder info: ten of the header and a draw of `FINFO_TAIL` (R116, R272). -/
def finderInfo (s : State) (finfo : Bytes) : Bytes := finfo ++ be48Bytes (Config.finfoTail s.draws)

/-- Insert a new key in both maps (R272). -/
def indexAdd (key path : Bytes) (res data : ForkDesc) (finfo : Bytes) (s : State) : State :=
  (s.withIdx {
    entries := s.idx.entries ++ [{ key := key, path := path, dataFork := data, resFork := res }]
    metadata := s.idx.metadata ++ [{ key := key, info := finderInfo s finfo }] }).withDraws (s.draws + 1)

/-- Replace both map values of a key that is there, the stored path too (R272, `last_wins`). -/
def indexReplace (key path : Bytes) (res data : ForkDesc) (finfo : Bytes) (s : State) : State :=
  (s.withIdx {
    entries := s.idx.entries.map fun e =>
      if e.key = key then { key := key, path := path, dataFork := data, resFork := res } else e
    metadata := s.idx.metadata.map fun m =>
      if m.key = key then { key := key, info := finderInfo s finfo } else m }).withDraws (s.draws + 1)

/-- `CP.INSERT` (R272). -/
def cpInsert (key path : Bytes) (res data : ForkDesc) (finfo : Bytes) (s : State) : Res Unit :=
  if res.usize = 0 ∧ data.usize = 0 then .ok () s
  else if (findEntry s key).isSome then
    match s.par.dupPolicy with
    | .refuse => .raised .duplicatePath s
    | .lastWins => .ok () (indexReplace key path res data finfo s)
    | .firstWins => .ok () s
  else .ok () (indexAdd key path res data finfo s)

/-- `ENT.FILE` (R270 to R272). -/
def entFile (h : EntHdr) (s : State) : Res Unit :=
  let stop := s.cp.pos + h.resCsize.toNat + h.dataCsize.toNat
  if s.h.size < stop then .raised .truncated s
  else
    let path := entryPath s (entName h)
    cpInsert (fold path) path (resForkOf h s.cp.pos) (dataForkOf h s.cp.pos) (finderHead h)
      (s.withCp { s.cp with pos := stop })

/-! ## Meanings -/

/-- `MAGIC.SIT!` (R95): accepted. -/
def execMagicSit (s : State) : Host.Outcome State Fault Refusal := .next (acceptMagic s)

/-- `MAGIC.ST65` (R95): accepted. -/
def execMagicSt65 (s : State) : Host.Outcome State Fault Refusal := .next (acceptMagic s)

/-- `MAGIC.ST50` (R95): accepted. -/
def execMagicSt50 (s : State) : Host.Outcome State Fault Refusal := .next (acceptMagic s)

/-- `MAGIC.ST60` (R95): accepted. -/
def execMagicSt60 (s : State) : Host.Outcome State Fault Refusal := .next (acceptMagic s)

/-- `MAGIC.STin` (R95): accepted. -/
def execMagicStin (s : State) : Host.Outcome State Fault Refusal := .next (acceptMagic s)

/-- `MAGIC.STi2` (R95): accepted. -/
def execMagicSti2 (s : State) : Host.Outcome State Fault Refusal := .next (acceptMagic s)

/-- `MAGIC.STi3` (R95): accepted. -/
def execMagicSti3 (s : State) : Host.Outcome State Fault Refusal := .next (acceptMagic s)

/-- `MAGIC.STi4` (R95): accepted. -/
def execMagicSti4 (s : State) : Host.Outcome State Fault Refusal := .next (acceptMagic s)

/-- `MAGIC.ST46` (R95): accepted. -/
def execMagicSt46 (s : State) : Host.Outcome State Fault Refusal := .next (acceptMagic s)

/-- `MAGIC.rLau` (R95, R262): the secondary magic is right and the header ends. -/
def execMagicRLau (s : State) : Host.Outcome State Fault Refusal := .next (archDone s)

/-- `MAGIC.OTHER` (R262). -/
def execMagicOther (_w : U32) (s : State) : Host.Outcome State Fault Refusal := .next (takeError .badMagic s)

/-- `ARCH` (R96, R262). -/
def execArch (h : ArchHdr) (s : State) : Host.Outcome State Fault Refusal := (archRecord h s).outcome

/-- `ENT.FOLDER_START` (R268). -/
def execEntFolderStart (h : EntHdr) (s : State) : Host.Outcome State Fault Refusal := .next (folderStart (entName h) s)

/-- `ENT.FOLDER_END` (R269). -/
def execEntFolderEnd (_h : EntHdr) (s : State) : Host.Outcome State Fault Refusal := (folderEnd s).outcome

/-- `ENT.FILE` (R271, R272). -/
def execEntFile (h : EntHdr) (s : State) : Host.Outcome State Fault Refusal := (entFile h s).outcome

/-- `CP.PARSE` (R261). -/
def execCpParse (s : State) : Host.Outcome State Fault Refusal := .next (cpParse s)

/-- `CP.ARCHDR` (R262). -/
def execCpArchdr (s : State) : Host.Outcome State Fault Refusal := (cpArchdr s).outcome

/-- `CP.FETCH` (R265 to R267). -/
def execCpFetch (s : State) : Host.Outcome State Fault Refusal := (cpFetch s).outcome

/-- `CP.KEY` (R270): the key and the path are returned. -/
def execCpKey (name : Bytes) (s : State) : Host.Outcome State Fault Refusal :=
  .next (s.withRet (.keyPath (fold (entryPath s name)) (entryPath s name)))

/-- `CP.INSERT` (R272). -/
def execCpInsert (key path : Bytes) (res data : ForkDesc) (finfo : Bytes) (s : State) : Host.Outcome State Fault Refusal :=
  (cpInsert key path res data finfo s).outcome

end Sys2Proof.Machine
end

