-- ==== Sys2Proof/Machine/BitReader.lean ====
section
/-! DEFINITION. The BitReader (40_bitreader.md): an LSB-first bit stream over the payload's bytes. -/

namespace Sys2Proof.Machine

/-- `bit(k)` of the payload (R130): zero at and past its end, and where `SRC` has no byte (R12, R313). -/
def brBit (s : State) (k : Nat) : Nat :=
  if k < 8 * s.br.len then
    match srcByte s (s.br.base + k / 8) with
    | some b => (b.toNat >>> (k % 8)) % 2
    | none => 0
  else 0

/-- The `n`-bit field whose bit 0 is payload bit `k` (R69, R132). -/
def brField (s : State) : Nat → Nat → Nat
  | _, 0 => 0
  | k, n + 1 => brBit s k + 2 * brField s (k + 1) n

/-- `BR.pos <- BR.pos + n`. -/
def brAdvance (n : Nat) (s : State) : State := s.withBr { s.br with pos := s.br.pos + n }

/-- `BR.INIT(base, len)` (R131). -/
def brInit (base len : Nat) (s : State) : State := s.withBr { base := base, len := len, pos := 0 }

/-- `BR.PEEK(n)` (R132). -/
def brPeek (n : Nat) (s : State) : Nat := brField s s.br.pos n

/-- `BR.TAKE(n)` (R133). -/
def brTake (n : Nat) (s : State) : Nat × State := (brPeek n s, brAdvance n s)

/-- `BR.ALIGN()` (R135). -/
def brAlign (s : State) : State :=
  if s.br.pos % 8 = 0 then s else brAdvance (8 - s.br.pos % 8) s

/-- `BR.READBITS(n)` (R137). -/
def brReadBits (n : Nat) (s : State) : Nat × State :=
  if n ≤ 16 then brTake n s
  else
    let lo := brTake 16 s
    let hi := brTake (n - 16) lo.2
    (lo.1 ||| (hi.1 <<< 16), hi.2)

/-! ## Meanings -/

/-- `BR.INIT` (R131). -/
def execBrInit (base len : Nat) (s : State) : Host.Outcome State Fault Refusal := .next (brInit base len s)

/-- `BR.PEEK` (R132): the bits are returned, the position stays. -/
def execBrPeek (n : Nat) (s : State) : Host.Outcome State Fault Refusal := .next (s.withRet (.num (brPeek n s)))

/-- `BR.TAKE` (R133). -/
def execBrTake (n : Nat) (s : State) : Host.Outcome State Fault Refusal :=
  .next ((brTake n s).2.withRet (.num (brTake n s).1))

/-- `BR.TAKE1` (R134): `BR.TAKE(1)`. -/
def execBrTake1 (s : State) : Host.Outcome State Fault Refusal :=
  .next ((brTake 1 s).2.withRet (.num (brTake 1 s).1))

/-- `BR.ALIGN` (R135). -/
def execBrAlign (s : State) : Host.Outcome State Fault Refusal := .next (brAlign s)

/-- `BR.EOS` (R136): the predicate is returned. -/
def execBrEos (s : State) : Host.Outcome State Fault Refusal := .next (s.withRet (.flag (brEos s)))

/-- `BR.READBITS` (R137). -/
def execBrReadBits (n : Nat) (s : State) : Host.Outcome State Fault Refusal :=
  .next ((brReadBits n s).2.withRet (.num (brReadBits n s).1))

end Sys2Proof.Machine
end

