-- ==== Sys2Proof/Machine/Huffman.lean ====
section
/-! DEFINITION. The Huffman12 unit (42_huffman12.md): canonical codes, the 12-bit lookup with its overflow nodes, decoding. -/

namespace Sys2Proof.Machine

open Config (CodeEntry)

/-! ## Construction -/

/-- The sorted list `P` of R161: (length, symbol), length ascending, then symbol ascending, absent symbols left out. -/
def sortedPairs (ls : List Nat) : List (Nat × Nat) :=
  (List.range 32).flatMap fun k => (ls.zipIdx.filter fun p => p.1 = k + 1)

/-- A code: the low `len` bits of `pattern`, in stream order, stand for `sym`. -/
abbrev Code := CodeEntry

/-- Canonical assignment (R162): `next` is the code after the last one at the last length `pl`; `none` when over-subscribed
(R169). The codes come out in stream order, reversed as R163 says. -/
def assignCodes : Nat → Nat → List (Nat × Nat) → Option (List Code)
  | _, _, [] => some []
  | next, pl, (l, s) :: t =>
    let c := next <<< (l - pl)
    if c < 2 ^ l then (assignCodes (c + 1) l t).map fun cs => { sym := s, pattern := revBits c l, len := l } :: cs
    else none

/-- The codes of a length list (R161, R162). -/
def canonicalCodes (ls : List Nat) : Option (List Code) := assignCodes 0 0 (sortedPairs ls)

/-- Write a leaf into every slot whose low `len` bits are the code's (R163). -/
def fillLeaf (c : Code) (slot : Memory Slot) : Memory Slot :=
  (List.range (2 ^ (12 - c.len))).foldl
    (fun m k => Memory.write m (c.pattern + k <<< c.len) { value := c.sym, bits := c.len }) slot

/-- `ALLOC()` of R164: the next node, all `nil`; `none` when the pool is exhausted. -/
def allocNode (pool : Nat) (t : Table) : Option (Nat × Table) :=
  if pool ≤ t.nnodes then none
  else some (t.nnodes, { t with node := Memory.write t.node t.nnodes default, nnodes := t.nnodes + 1 })

/-- `child(node, b)` (R164). -/
def childOf (t : Table) (node b : Nat) : Option Nat :=
  if b = 0 then (Memory.read t.node node).zeroChild else (Memory.read t.node node).oneChild

/-- Set `child(node, b)`. -/
def setChild (t : Table) (node b child : Nat) : Table :=
  let n := Memory.read t.node node
  { t with node := Memory.write t.node node (if b = 0 then { n with zeroChild := some child } else { n with oneChild := some child }) }

/-- One level per bit past the 12th, low bit of `bits` first, allocating what is missing (R164). -/
def descend (pool : Nat) : Nat → Nat → Nat → Table → Option (Nat × Table)
  | 0, _, node, t => some (node, t)
  | n + 1, bits, node, t =>
    match childOf t node (bits % 2) with
    | some c => descend pool n (bits / 2) c t
    | none =>
      match allocNode pool t with
      | none => none
      | some (c, t') => descend pool n (bits / 2) c (setChild t' node (bits % 2) c)

/-- The root node of the codes that start with the 12 bits `x`, allocated if there is none yet (R164). -/
def overflowRoot (pool x : Nat) (t : Table) : Option (Nat × Table) :=
  if (Memory.read t.slot x).bits = 0 then
    (allocNode pool t).map fun a => (a.1, { a.2 with slot := Memory.write a.2.slot x { value := a.1, bits := 13 } })
  else some ((Memory.read t.slot x).value, t)

/-- Place a code longer than 12 bits (R164). -/
def placeLong (pool : Nat) (c : Code) (t : Table) : Option Table :=
  match overflowRoot pool (c.pattern % 4096) t with
  | none => none
  | some (root, t1) =>
    match descend pool (c.len - 12) (c.pattern / 4096) root t1 with
    | none => none
    | some (node, t2) =>
      some { t2 with node := Memory.write t2.node node { Memory.read t2.node node with symbol := some c.sym } }

/-- Place one code (R163, R164). -/
def placeCode (pool : Nat) (c : Code) (t : Table) : Option Table :=
  if c.len ≤ 12 then some { t with slot := fillLeaf c t.slot } else placeLong pool c t

/-- Place codes one after another; `none` when the pool is exhausted. -/
def placeCodes (pool : Nat) : List Code → Table → Option Table
  | [], t => some t
  | c :: cs, t => (placeCode pool c t).bind (placeCodes pool cs)

/-- The table of a length list; `none` for the three faults of R169. -/
def buildTable (pool : Nat) (ls : List Nat) : Option Table :=
  if ls.any (32 < ·) then none else (canonicalCodes ls).bind fun cs => placeCodes pool cs .empty

/-- Two patterns of which one starts the other, so that no prefix code holds both (R166). -/
def patternsClash (a b : CodeEntry) : Bool :=
  let m := min a.len b.len
  a.pattern % 2 ^ m == b.pattern % 2 ^ m

/-- Every entry is a code of 1 to 32 bits and no pattern starts another (R9, R166). -/
def soundEntries : List CodeEntry → Bool
  | [] => true
  | e :: es => (1 ≤ e.len && e.len ≤ 32 && e.pattern < 2 ^ e.len) && es.all (fun x => !patternsClash e x) && soundEntries es

/-- Explicit codes in the order of R166: length ascending, then symbol ascending. -/
def sortedEntries (es : List CodeEntry) : List CodeEntry :=
  es.insertionSort fun a b => a.len < b.len ∨ (a.len = b.len ∧ a.sym ≤ b.sym)

/-- The table of an explicit code. -/
def buildTableX (pool : Nat) (es : List CodeEntry) : Option Table := placeCodes pool (sortedEntries es) .empty

/-- `H12.BUILD(T, N, L)` (R165). -/
def h12Build (t : TableId) (ls : List Nat) (s : State) : Res Unit :=
  match buildTable s.par.poolSlots ls with
  | some v => .ok () (withTable s t v)
  | none => .raised .corruptStream s

/-- `H12.BUILDX(T, E)` (R166). -/
def h12Buildx (t : TableId) (es : List CodeEntry) (s : State) : Res Unit :=
  if soundEntries es then
    match buildTableX s.par.poolSlots es with
    | some v => .ok () (withTable s t v)
    | none => .raised .corruptStream s
  else .refused .badRom

/-! ## Decoding -/

/-- The overflow walk of R167. The fuel covers every bit left and every node there is, so it runs out only on a walk that
never ends (log 20). -/
def overflowWalk (t : Table) : Nat → Nat → State → Res Nat
  | 0, _, _ => .fault .endlessWalk
  | fuel + 1, node, s =>
    let b := brTake 1 s
    match childOf t node b.1 with
    | none => .raised .corruptStream b.2
    | some c =>
      match (Memory.read t.node c).symbol with
      | some v => .ok v b.2
      | none => overflowWalk t fuel c b.2

/-- The bits of the payload not yet consumed. -/
def bitsLeft (s : State) : Nat := 8 * s.br.len - s.br.pos

/-- `H12.DECODE(T)` (R167). -/
def h12Decode (id : TableId) (s : State) : Res Nat :=
  let t := tableAt s id
  let e := Memory.read t.slot (brPeek 12 s)
  if e.bits = 0 then .raised .corruptStream s
  else if e.bits ≤ 12 then .ok e.value (brAdvance e.bits s)
  else overflowWalk t (bitsLeft s + t.node.length + 2) e.value (brAdvance 12 s)

/-! ## Meanings -/

/-- `H12.BUILD` (R165). -/
def execH12Build (t : TableId) (n : Nat) (ls : List Nat) (s : State) : Host.Outcome State Fault Refusal :=
  (h12Build t (ls.take n) s).outcome

/-- `H12.BUILDX` (R166). -/
def execH12Buildx (t : TableId) (es : List CodeEntry) (s : State) : Host.Outcome State Fault Refusal :=
  (h12Buildx t es s).outcome

/-- `H12.DECODE` (R167): the symbol is returned. -/
def execH12Decode (t : TableId) (s : State) : Host.Outcome State Fault Refusal :=
  (h12Decode t s).outcomeWith .num

end Sys2Proof.Machine
end

