-- ==== Sys2Proof/Machine/Output.lean ====
section
/-! DEFINITION. The output path shared by methods 13 and 14 (R308, R309) and the stored method 0 (R302). -/

namespace Sys2Proof.Machine

/-- The window write position of a decoder, `M13.wp` or `M14.wp` (R308). -/
def windowPos (d : Decoder) (s : State) : Nat :=
  match d with
  | .m13 => s.m13.wp.toNat
  | .m14 => s.m14.wp.toNat

/-- `wp <- (wp + 1) mod WS` (R308): the register is as wide as the window. -/
def windowStep (d : Decoder) (s : State) : State :=
  match d with
  | .m13 => s.withM13 { s.m13 with wp := s.m13.wp + 1 }
  | .m14 => s.withM14 { s.m14 with wp := s.m14.wp + 1 }

/-- `(wp - off) mod WS` (R309, R241), exact in the window's width. -/
def windowBack (d : Decoder) (off : Nat) (s : State) : Nat :=
  match d with
  | .m13 => (s.m13.wp - BitVec.ofNat 16 off).toNat
  | .m14 => (s.m14.wp - BitVec.ofNat 18 off).toNat

/-- `OUT.EMIT(b)` (R308). -/
def outEmit (d : Decoder) (b : Byte) (s : State) : Res Unit :=
  if s.out.size ≤ s.out.cnt then .raised .corruptStream s
  else
    .ok () (windowStep d (((s.withOutMem (Memory.write s.outMem s.out.cnt b)).withOut
      { s.out with cnt := s.out.cnt + 1 }).withWin (Memory.write s.win (windowPos d s) b)))

/-- `OUT.COPY(len, off)` (R309): one byte after another, each read after the write before it (R76). -/
def outCopy (d : Decoder) : Nat → Nat → State → Res Unit
  | 0, _, s => .ok () s
  | len + 1, off, s =>
    (outEmit d (Memory.read s.win (windowBack d off s)) s).bind fun _ s => outCopy d len off s

/-- The bytes of a finished output buffer, `OUT[0 .. OUT.size)`. -/
def outBytes (s : State) : Bytes := Memory.slice s.outMem 0 s.out.size

/-- `M0.COPY(f)` (R302). -/
def m0Copy (f : ForkDesc) (s : State) : Res Unit :=
  if f.csize ≠ f.usize then .raised .corruptStream s
  else
    match spaceBytes s .src f.offset f.usize.toNat with
    | some bs =>
      .ok () ((s.withOutMem (bs.zipIdx.foldl (fun m p => Memory.write m p.2 p.1) s.outMem)).withOut
        { s.out with cnt := s.out.size })
    | none => .fault .noSuchByte

/-! ## Meanings -/

/-- `OUT.EMIT` (R308), for the running decoder. -/
def execOutEmit (b : Byte) (s : State) : Host.Outcome State Fault Refusal := (outEmit s.dec b s).outcome

/-- `OUT.COPY` (R309), for the running decoder. -/
def execOutCopy (len off : Nat) (s : State) : Host.Outcome State Fault Refusal := (outCopy s.dec len off s).outcome

/-- `M0.COPY` (R302). -/
def execM0Copy (f : ForkDesc) (s : State) : Host.Outcome State Fault Refusal := (m0Copy f s).outcome

end Sys2Proof.Machine
end

