-- ==== Sys2Proof/Machine/Method13.lean ====
section
/-! DEFINITION. The method-13 decoder (43_method13.md): the control byte, the codelength (meta) instructions, the stream
instructions. -/

namespace Sys2Proof.Machine

/-! ## Codelengths -/

/-- `M13.L[0 .. N)`. -/
def m13Lens (s : State) (n : Nat) : List Nat := Memory.slice s.m13.lens 0 n

/-- `M13.EMITLEN(N)` (R195). -/
def m13EmitLen (n : Nat) (s : State) : Res Unit :=
  if n ≤ s.m13.idx then .raised .corruptStream s
  else if 32 < s.m13.cur then .raised .corruptStream s
  else
    .ok () (s.withM13 { s.m13 with
      lens := Memory.write s.m13.lens s.m13.idx (if 0 < s.m13.cur then s.m13.cur.toNat else 0)
      idx := s.m13.idx + 1 })

/-- `repeat r times: M13.EMITLEN(N)` (R193, R194). -/
def m13EmitMany (n : Nat) : Nat → State → Res Unit
  | 0, s => .ok () s
  | r + 1, s => (m13EmitLen n s).bind fun _ s => m13EmitMany n r s

/-- `M13.cur <- v`. -/
def m13SetCur (v : Int) (s : State) : State := s.withM13 { s.m13 with cur := v }

/-- The repeats of R192 to R194: `bits` extra bits, `base` more emissions than they say. The first emits only on a 1. -/
def m13Repeat (bits base : Nat) (s : State) : Res Unit :=
  let e := brTake bits s
  m13EmitMany e.2.m13.n (e.1 + base) e.2

/-- `M13.READLENGTHS(N)` (R187): the registers of a new sequence, then its loop. -/
def m13ReadLengths (n : Nat) (s : State) : State :=
  pushTasks [.metaLoop] (s.withM13 { s.m13 with cur := 0, idx := 0, n := n })

/-- One test of the loop of R187: fetch a meta instruction and emit after it, or return the lengths. -/
def m13MetaLoop (s : State) : State :=
  if s.m13.idx < s.m13.n then pushTasks [.fetch .m13Meta, .op (.m13EmitLen s.m13.n), .metaLoop] s
  else s.withRet (.lens (m13Lens s s.m13.n))

/-! ## Tables -/

/-- A profile of the form R9 and R118 give it: 658 lengths of 0 to 32. -/
def profileSound (ls : List Nat) : Bool := ls.length == 658 && ls.all (· ≤ 32)

/-- An offset-prefix alphabet size of the form R9 gives it. -/
def profileBitsSound (nb : Nat) : Bool := 11 ≤ nb && nb ≤ 14

/-- A meta code of the form R9 gives it: 37 entries, one for each of the symbols 0 to 36. That they are a prefix code is a test of
`H12.BUILDX` (R166). -/
def metaRomSound (es : List Config.CodeEntry) : Bool :=
  es.length == 37 && (List.range 37).all fun sym => es.any (·.sym == sym)

/-- The 658 lengths and the offset size of a profile (R9, R118), if both were supplied; refused where they were not or are not
of that form. -/
def m13Profile (p : Nat) (s : State) : Res (List Nat × Nat) :=
  match s.par.romStatic, s.par.romStaticBits with
  | some ls, some bs =>
    match ls[p]?, bs[p]? with
    | some l, some nb =>
      if profileSound l ∧ profileBitsSound nb then .ok (l, nb) s else .refused .badRom
    | _, _ => .refused .badRom
  | _, _ => .refused .noRom

/-- `M13.STATIC(p)` (R183). -/
def m13Static (p : Nat) (s : State) : Res Unit :=
  (m13Profile p s).bind fun lb s =>
  (h12Build .t1 (lb.1.take 321) s).bind fun _ s =>
  (h12Build .t2 ((lb.1.drop 321).take 321) s).bind fun _ s =>
  h12Build .tOfs ((lb.1.drop 642).take lb.2) s

/-- The lines of `M13.DYNAMIC` after the meta table (R186). -/
def m13DynamicTasks (copy : Bool) (nofs : Nat) : List Task :=
  [.op (.m13ReadLengths 321), .m13BuildT1]
    ++ (if copy then [.m13CopyT2] else [.op (.m13ReadLengths 321), .m13BuildT2])
    ++ [.op (.m13ReadLengths (nofs + 10)), .m13BuildTO (nofs + 10)]

/-- `M13.DYNAMIC()` (R186): the meta table from ROM, then the length sequences and the builds; refused where the ROM was not
supplied or is not of R9's form. -/
def m13Dynamic (copy : Bool) (nofs : Nat) (s : State) : Res Unit :=
  match s.par.romMeta with
  | none => .refused .noRom
  | some es =>
    if metaRomSound es then
      (h12Buildx .tMeta es s).bind fun _ s => .ok () (pushTasks (m13DynamicTasks copy nofs) s)
    else .refused .badRom

/-- `M13.START` (R181) up to the control byte; the word is decoded next. -/
def m13Start (s : State) : State :=
  let c := brTake 8 s
  pushTasks [.fetch .m13Ctrl, .m13Begin] (c.2.withM13 { c.2.m13 with ctrl := BitVec.ofNat 8 c.1 })

/-- The lines of R181 after the tables. -/
def m13Begin (s : State) : State :=
  pushTasks [.op .m13Run] (s.withM13 { s.m13 with active := .first, wp := 0 })

/-! ## The stream -/

/-- `M13.RUN()` (R196): its loop and the length check after it. -/
def m13Run (s : State) : State := pushTasks [.m13Loop, .m13End] s

/-- One test of the loop of R196. -/
def m13Loop (s : State) : State := if brEos s then s else pushTasks [.fetch .m13Sym, .m13Loop] s

/-- The check after the loop (R203, R243). -/
def checkComplete (s : State) : Res Unit := if outComplete s then .ok () s else .raised .corruptStream s

/-- Leave the loop of R196 (R201). -/
def m13LeaveLoop (s : State) : State :=
  match s.seq with
  | .m13Loop :: ts => s.withSeq ts
  | _ => s

/-- `M13.active <- t`. -/
def m13SetActive (t : Tree) (s : State) : State := s.withM13 { s.m13 with active := t }

/-- The offset of prefix `v` with its extra bits (R202). -/
def m13OfsOf (v : Nat) (s : State) : Nat × State :=
  let e := brTake (m13OfsBits v) s
  (m13OfsValue v e.1, e.2)

/-- `M13.OFS()` (R202): a prefix beyond the alphabet is an undefined symbol (R320). -/
def m13Offset (s : State) : Res Nat :=
  (h12Decode .tOfs s).bind fun v s =>
    if v < 17 then .ok (m13OfsOf v s).1 (m13OfsOf v s).2 else .raised .corruptStream s

/-- The lines that R197, R198 and R199 share: the offset, the copy, the other tree. -/
def m13Match (len : Nat) (s : State) : Res Unit :=
  (m13Offset s).bind fun off s =>
  (outCopy .m13 len off s).bind fun _ s => .ok () (m13SetActive .second s)

/-- A match whose length has `bits` extra bits (R197, R198). -/
def m13LongMatch (bits : Nat) (s : State) : Res Unit :=
  let e := brTake bits s
  m13Match (m13ExtraLen e.1) e.2

/-! ## Meanings -/

/-- `M13CTRL.DYNAMIC` (R186): the control byte selects `M13.DYNAMIC`. -/
def execM13CtrlDynamic (copy : Bool) (nofs : BitVec 3) (s : State) : Host.Outcome State Fault Refusal :=
  (m13Dynamic copy nofs.toNat s).outcome

/-- `M13CTRL.STATIC0` (R183): profile 0; the low nibble is ignored (D19). -/
def execM13CtrlStatic0 (_low : BitVec 4) (s : State) : Host.Outcome State Fault Refusal := (m13Static 0 s).outcome

/-- `M13CTRL.STATIC1` (R183): profile 1; the low nibble is ignored (D19). -/
def execM13CtrlStatic1 (_low : BitVec 4) (s : State) : Host.Outcome State Fault Refusal := (m13Static 1 s).outcome

/-- `M13CTRL.STATIC2` (R183): profile 2; the low nibble is ignored (D19). -/
def execM13CtrlStatic2 (_low : BitVec 4) (s : State) : Host.Outcome State Fault Refusal := (m13Static 2 s).outcome

/-- `M13CTRL.STATIC3` (R183): profile 3; the low nibble is ignored (D19). -/
def execM13CtrlStatic3 (_low : BitVec 4) (s : State) : Host.Outcome State Fault Refusal := (m13Static 3 s).outcome

/-- `M13CTRL.STATIC4` (R183): profile 4; the low nibble is ignored (D19). -/
def execM13CtrlStatic4 (_low : BitVec 4) (s : State) : Host.Outcome State Fault Refusal := (m13Static 4 s).outcome

/-- `M13CTRL.ILLEGAL` (R181). -/
def execM13CtrlIllegal (_b : Byte) (s : State) : Host.Outcome State Fault Refusal := .next (takeError .corruptStream s)

/-- `M13.LIT` (R200). -/
def execM13Lit (b : Byte) (s : State) : Host.Outcome State Fault Refusal :=
  ((outEmit .m13 b s).bind fun _ s => .ok () (m13SetActive .first s)).outcome

/-- `M13.LEN` (R199). -/
def execM13Len (sym : BitVec 9) (s : State) : Host.Outcome State Fault Refusal :=
  (m13Match (m13ShortLen sym.toNat) s).outcome

/-- `M13.MED` (R197). -/
def execM13Med (s : State) : Host.Outcome State Fault Refusal := (m13LongMatch 10 s).outcome

/-- `M13.LONG` (R198). -/
def execM13Long (s : State) : Host.Outcome State Fault Refusal := (m13LongMatch 15 s).outcome

/-- `M13.EOS` (R201). -/
def execM13Eos (s : State) : Host.Outcome State Fault Refusal := .next (m13LeaveLoop s)

/-- `META.SET` (R188). -/
def execMetaSet (sym : Fin 31) (s : State) : Host.Outcome State Fault Refusal :=
  match s.par.lenOfSym[sym.val]? with
  | some v => .next (m13SetCur v s)
  | none => .refused .noParameter

/-- `META.ABSENT` (R189). -/
def execMetaAbsent (s : State) : Host.Outcome State Fault Refusal := .next (m13SetCur (-1) s)

/-- `META.INC` (R190). -/
def execMetaInc (s : State) : Host.Outcome State Fault Refusal := .next (m13SetCur (s.m13.cur + 1) s)

/-- `META.DEC` (R191). -/
def execMetaDec (s : State) : Host.Outcome State Fault Refusal := .next (m13SetCur (s.m13.cur - 1) s)

/-- `META.REP1` (R192): one more emission exactly when the bit is 1. -/
def execMetaRep1 (s : State) : Host.Outcome State Fault Refusal := (m13Repeat 1 0 s).outcome

/-- `META.REP3` (R193). -/
def execMetaRep3 (s : State) : Host.Outcome State Fault Refusal := (m13Repeat 3 2 s).outcome

/-- `META.REP6` (R194). -/
def execMetaRep6 (s : State) : Host.Outcome State Fault Refusal := (m13Repeat 6 10 s).outcome

/-- `M13.OFS` (R202) of a decoded prefix: the offset is returned. -/
def execM13Ofs (v : Fin 17) (s : State) : Host.Outcome State Fault Refusal :=
  .next ((m13OfsOf v.val s).2.withRet (.num (m13OfsOf v.val s).1))

/-- `M13.START` (R181). -/
def execM13Start (s : State) : Host.Outcome State Fault Refusal := .next (m13Start s)

/-- `M13.STATIC` (R183, R184). -/
def execM13Static (p : Fin 5) (s : State) : Host.Outcome State Fault Refusal := (m13Static p.val s).outcome

/-- `M13.DYNAMIC` (R186), its operands the fields of `M13.ctrl` (R42). -/
def execM13Dynamic (s : State) : Host.Outcome State Fault Refusal :=
  (m13Dynamic (s.m13.ctrl.getLsbD 3) (s.m13.ctrl.extractLsb' 0 3).toNat s).outcome

/-- `M13.READLENGTHS` (R187). -/
def execM13ReadLengths (n : Nat) (s : State) : Host.Outcome State Fault Refusal := .next (m13ReadLengths n s)

/-- `M13.EMITLEN` (R195). -/
def execM13EmitLen (n : Nat) (s : State) : Host.Outcome State Fault Refusal := (m13EmitLen n s).outcome

/-- `M13.RUN` (R196). -/
def execM13Run (s : State) : Host.Outcome State Fault Refusal := .next (m13Run s)

end Sys2Proof.Machine
end

