-- ==== Sys2Proof/Machine/Method14.lean ====
section
/-! DEFINITION. The method-14 decoder (44_method14.md): tree headers and codelength values, blocks, the stream instructions. -/

namespace Sys2Proof.Machine

/-! ## Trees -/

/-- `M14.L[depth][0 .. N)`. -/
def m14Lens (s : State) (d n : Nat) : List Nat := Memory.slice (levelAt s d).lens 0 n

/-- `M14.depth <- d`. -/
def m14SetDepth (d : Nat) (s : State) : State := s.withM14 { s.m14 with depth := d }

/-- The registers of the level in progress. -/
def curLevel (s : State) : Level := levelAt s s.m14.depth

/-- Replace the registers of the level in progress. -/
def withCurLevel (l : Level) (s : State) : State := withLevel s s.m14.depth l

/-- `M14.READLENGTHS(N, depth)` (R222): the level's registers, then the header, then the lines after it. -/
def m14ReadLengths (n d : Nat) (s : State) : State :=
  pushTasks [.fetch .m14Hdr, .m14Mode d]
    (m14SetDepth d (withLevel s d { levelAt s d with n := n, i := 0 }))

/-- `M14.HDR` (R223, R224 to R226) for the level in progress. -/
def m14Hdr (k : Bool) (j o : Nat) (nested : Bool) (s : State) : State :=
  withCurLevel { curLevel s with
    k := k
    w := j + 2
    m := (1 <<< (j + 2)) - 1
    bias := o + 1
    r := if k then (1 <<< (j + 2)) - 1 - 1 else (1 <<< (j + 2)) - 1
    nested := nested } s

/-- The lines of R222 after the header: raw values at once, or a nested tree first, within the depth allowed (R229). -/
def m14Mode (d : Nat) (s : State) : Res Unit :=
  if (levelAt s d).nested then
    if s.par.nestMax ≤ d then .raised .corruptStream s
    else .ok () (pushTasks [.op (.m14ReadLengths 32 (d + 1)), .m14BuildTN d, .lvLoop] s)
  else .ok () (pushTasks [.lvLoop] s)

/-- The nested table of a level from the lengths read one level down (R228); the outer level is in progress again. -/
def m14BuildTN (d : Nat) (s : State) : Res Unit :=
  h12Build (.tn d) (m14Lens s (d + 1) 32) (m14SetDepth d s)

/-- `next()` of R222: a raw field (R227) or a symbol of the nested tree (R230). -/
def lvNext (s : State) : Res Nat :=
  if (curLevel s).nested then h12Decode (.tn s.m14.depth) s
  else .ok (brTake (curLevel s).w s).1 (brTake (curLevel s).w s).2

/-- One test of the loop of R222: fetch a value, or return the lengths. -/
def lvLoop (s : State) : State :=
  if (curLevel s).i < (curLevel s).n then pushTasks [.fetch (.m14LenVal (curLevel s).r), .lvLoop] s
  else s.withRet (.lens (m14Lens s s.m14.depth (curLevel s).n))

/-- `L[i] <- v; i <- i + 1`. -/
def lvPut (v : Nat) (s : State) : State :=
  withCurLevel { curLevel s with lens := Memory.write (curLevel s).lens (curLevel s).i v, i := (curLevel s).i + 1 } s

/-- The repeats of R234. -/
def lvCopies : Nat → State → Res Unit
  | 0, s => .ok () s
  | n + 1, s =>
    if (curLevel s).n ≤ (curLevel s).i then .raised .corruptStream s
    else lvCopies n (lvPut (Memory.read (curLevel s).lens ((curLevel s).i - 1)) s)

/-- `LV.REPEAT` (R234). -/
def lvRepeat (s : State) : Res Unit :=
  if (curLevel s).i = 0 then .raised .corruptStream s
  else (lvNext s).bind fun e s => lvCopies (e + 3) s

/-- `LV.VALUE(v)` (R233). -/
def lvValue (v : Nat) (s : State) : Res Unit :=
  if 32 < v + (curLevel s).bias then .raised .corruptStream s
  else .ok () (lvPut (v + (curLevel s).bias) s)

/-! ## Blocks -/

/-- `M14.START` (R236) up to its loop. -/
def m14Start (s : State) : State :=
  let c := brTake 16 s
  pushTasks [.m14Blocks, .m14End] (c.2.withM14 { c.2.m14 with nblk := c.1, wp := 0, depth := 0 })

/-- One test of the loop of R236. -/
def m14Blocks (s : State) : State := if 0 < s.m14.nblk then pushTasks [.op .m14Block, .m14Blocks] s else s

/-- The lines of R237 between the header fields and the alignment, for a block of `n` bytes; none when it is empty (R238). -/
def m14BlockTasks (n : Nat) : List Task :=
  if n = 0 then [.m14BlockEnd]
  else [.op (.m14ReadLengths 308 0), .m14BuildTL, .op (.m14ReadLengths 75 0), .m14BuildTD, .m14SetRem n, .m14Loop, .m14BlockEnd]

/-- `M14.BLOCK` (R237). -/
def m14Block (s : State) : Res Unit :=
  if brEos s then .raised .corruptStream s
  else
    let a := brReadBits 32 s
    let n := brReadBits 32 (a.2.withM14 { a.2.m14 with skip := a.1 })
    .ok () (pushTasks (m14BlockTasks n.1) n.2)

/-- `M14.rem <- n` (R237). -/
def m14SetRem (n : Nat) (s : State) : State := s.withM14 { s.m14 with rem := n }

/-- One test of the symbol loop (R237, R239). -/
def m14Loop (s : State) : Res Unit :=
  if s.m14.rem = 0 then .ok () s
  else if brEos s then .raised .corruptStream s
  else .ok () (pushTasks [.fetch .m14Sym, .m14Loop] s)

/-- The alignment and the count at the end of every block, an empty one too (R237, R238). -/
def m14BlockEnd (s : State) : State :=
  let s := brAlign s
  s.withM14 { s.m14 with nblk := s.m14.nblk - 1 }

/-! ## The stream -/

/-- The offset of code `d` with its extra bits (R108, R242). -/
def m14DistOf (d : Nat) (s : State) : Nat × State :=
  let e := brReadBits (extra14o d) s
  (base14o d + e.1, e.2)

/-- An offset code and its offset (R242); a code beyond the alphabet is an undefined symbol (R320). -/
def m14Offset (s : State) : Res Nat :=
  (h12Decode .td s).bind fun d s =>
    if d < 75 then .ok (m14DistOf d s).1 (m14DistOf d s).2 else .raised .corruptStream s

/-- `M14.MATCH(c)` (R242). -/
def m14Match (c : Nat) (s : State) : Res Unit :=
  let e := brReadBits (extra14 c) s
  let len := base14 c + e.1
  (m14Offset e.2).bind fun off s =>
    if s.m14.rem < len then .raised .corruptStream s
    else (outCopy .m14 len off s).bind fun _ s => .ok () (m14SetRem (s.m14.rem - len) s)

/-- An `M14.DIST` row by itself (R115): the offset is returned. -/
def m14Dist (d : Nat) (s : State) : Host.Outcome State Fault Refusal :=
  .next ((m14DistOf d s).2.withRet (.num (m14DistOf d s).1))

/-! ## Meanings -/

/-- `M14.HDR` (R223); selector bit 1 is ignored (D30). -/
def execM14Hdr (k : Bool) (j : BitVec 2) (o : BitVec 3) (sel : BitVec 2) (s : State) : Host.Outcome State Fault Refusal :=
  .next (m14Hdr k j.toNat o.toNat (sel.getLsbD 0) s)

/-- `LV.ZERO` (R232). -/
def execLvZero (s : State) : Host.Outcome State Fault Refusal := .next (lvPut 0 s)

/-- `LV.REPEAT` (R234). -/
def execLvRepeat (s : State) : Host.Outcome State Fault Refusal := (lvRepeat s).outcome

/-- `LV.VALUE` (R233). -/
def execLvValue (v : BitVec 5) (s : State) : Host.Outcome State Fault Refusal := (lvValue v.toNat s).outcome

/-- `M14.LIT` (R240). -/
def execM14Lit (b : Byte) (s : State) : Host.Outcome State Fault Refusal :=
  ((outEmit .m14 b s).bind fun _ s => .ok () (m14SetRem (s.m14.rem - 1) s)).outcome

/-- `M14.START` (R236). -/
def execM14Start (s : State) : Host.Outcome State Fault Refusal := .next (m14Start s)

/-- `M14.BLOCK` (R237). -/
def execM14Block (s : State) : Host.Outcome State Fault Refusal := (m14Block s).outcome

/-- `M14.READLENGTHS` (R222). -/
def execM14ReadLengths (n d : Nat) (s : State) : Host.Outcome State Fault Refusal := .next (m14ReadLengths n d s)

/-- `M14.MATCH.c0` (R242). -/
def execM14MatchC0 (s : State) : Host.Outcome State Fault Refusal := (m14Match 0 s).outcome

/-- `M14.MATCH.c1` (R242). -/
def execM14MatchC1 (s : State) : Host.Outcome State Fault Refusal := (m14Match 1 s).outcome

/-- `M14.MATCH.c2` (R242). -/
def execM14MatchC2 (s : State) : Host.Outcome State Fault Refusal := (m14Match 2 s).outcome

/-- `M14.MATCH.c3` (R242). -/
def execM14MatchC3 (s : State) : Host.Outcome State Fault Refusal := (m14Match 3 s).outcome

/-- `M14.MATCH.c4` (R242). -/
def execM14MatchC4 (s : State) : Host.Outcome State Fault Refusal := (m14Match 4 s).outcome

/-- `M14.MATCH.c5` (R242). -/
def execM14MatchC5 (s : State) : Host.Outcome State Fault Refusal := (m14Match 5 s).outcome

/-- `M14.MATCH.c6` (R242). -/
def execM14MatchC6 (s : State) : Host.Outcome State Fault Refusal := (m14Match 6 s).outcome

/-- `M14.MATCH.c7` (R242). -/
def execM14MatchC7 (s : State) : Host.Outcome State Fault Refusal := (m14Match 7 s).outcome

/-- `M14.MATCH.c8` (R242). -/
def execM14MatchC8 (s : State) : Host.Outcome State Fault Refusal := (m14Match 8 s).outcome

/-- `M14.MATCH.c9` (R242). -/
def execM14MatchC9 (s : State) : Host.Outcome State Fault Refusal := (m14Match 9 s).outcome

/-- `M14.MATCH.c10` (R242). -/
def execM14MatchC10 (s : State) : Host.Outcome State Fault Refusal := (m14Match 10 s).outcome

/-- `M14.MATCH.c11` (R242). -/
def execM14MatchC11 (s : State) : Host.Outcome State Fault Refusal := (m14Match 11 s).outcome

/-- `M14.MATCH.c12` (R242). -/
def execM14MatchC12 (s : State) : Host.Outcome State Fault Refusal := (m14Match 12 s).outcome

/-- `M14.MATCH.c13` (R242). -/
def execM14MatchC13 (s : State) : Host.Outcome State Fault Refusal := (m14Match 13 s).outcome

/-- `M14.MATCH.c14` (R242). -/
def execM14MatchC14 (s : State) : Host.Outcome State Fault Refusal := (m14Match 14 s).outcome

/-- `M14.MATCH.c15` (R242). -/
def execM14MatchC15 (s : State) : Host.Outcome State Fault Refusal := (m14Match 15 s).outcome

/-- `M14.MATCH.c16` (R242). -/
def execM14MatchC16 (s : State) : Host.Outcome State Fault Refusal := (m14Match 16 s).outcome

/-- `M14.MATCH.c17` (R242). -/
def execM14MatchC17 (s : State) : Host.Outcome State Fault Refusal := (m14Match 17 s).outcome

/-- `M14.MATCH.c18` (R242). -/
def execM14MatchC18 (s : State) : Host.Outcome State Fault Refusal := (m14Match 18 s).outcome

/-- `M14.MATCH.c19` (R242). -/
def execM14MatchC19 (s : State) : Host.Outcome State Fault Refusal := (m14Match 19 s).outcome

/-- `M14.MATCH.c20` (R242). -/
def execM14MatchC20 (s : State) : Host.Outcome State Fault Refusal := (m14Match 20 s).outcome

/-- `M14.MATCH.c21` (R242). -/
def execM14MatchC21 (s : State) : Host.Outcome State Fault Refusal := (m14Match 21 s).outcome

/-- `M14.MATCH.c22` (R242). -/
def execM14MatchC22 (s : State) : Host.Outcome State Fault Refusal := (m14Match 22 s).outcome

/-- `M14.MATCH.c23` (R242). -/
def execM14MatchC23 (s : State) : Host.Outcome State Fault Refusal := (m14Match 23 s).outcome

/-- `M14.MATCH.c24` (R242). -/
def execM14MatchC24 (s : State) : Host.Outcome State Fault Refusal := (m14Match 24 s).outcome

/-- `M14.MATCH.c25` (R242). -/
def execM14MatchC25 (s : State) : Host.Outcome State Fault Refusal := (m14Match 25 s).outcome

/-- `M14.MATCH.c26` (R242). -/
def execM14MatchC26 (s : State) : Host.Outcome State Fault Refusal := (m14Match 26 s).outcome

/-- `M14.MATCH.c27` (R242). -/
def execM14MatchC27 (s : State) : Host.Outcome State Fault Refusal := (m14Match 27 s).outcome

/-- `M14.MATCH.c28` (R242). -/
def execM14MatchC28 (s : State) : Host.Outcome State Fault Refusal := (m14Match 28 s).outcome

/-- `M14.MATCH.c29` (R242). -/
def execM14MatchC29 (s : State) : Host.Outcome State Fault Refusal := (m14Match 29 s).outcome

/-- `M14.MATCH.c30` (R242). -/
def execM14MatchC30 (s : State) : Host.Outcome State Fault Refusal := (m14Match 30 s).outcome

/-- `M14.MATCH.c31` (R242). -/
def execM14MatchC31 (s : State) : Host.Outcome State Fault Refusal := (m14Match 31 s).outcome

/-- `M14.MATCH.c32` (R242). -/
def execM14MatchC32 (s : State) : Host.Outcome State Fault Refusal := (m14Match 32 s).outcome

/-- `M14.MATCH.c33` (R242). -/
def execM14MatchC33 (s : State) : Host.Outcome State Fault Refusal := (m14Match 33 s).outcome

/-- `M14.MATCH.c34` (R242). -/
def execM14MatchC34 (s : State) : Host.Outcome State Fault Refusal := (m14Match 34 s).outcome

/-- `M14.MATCH.c35` (R242). -/
def execM14MatchC35 (s : State) : Host.Outcome State Fault Refusal := (m14Match 35 s).outcome

/-- `M14.MATCH.c36` (R242). -/
def execM14MatchC36 (s : State) : Host.Outcome State Fault Refusal := (m14Match 36 s).outcome

/-- `M14.MATCH.c37` (R242). -/
def execM14MatchC37 (s : State) : Host.Outcome State Fault Refusal := (m14Match 37 s).outcome

/-- `M14.MATCH.c38` (R242). -/
def execM14MatchC38 (s : State) : Host.Outcome State Fault Refusal := (m14Match 38 s).outcome

/-- `M14.MATCH.c39` (R242). -/
def execM14MatchC39 (s : State) : Host.Outcome State Fault Refusal := (m14Match 39 s).outcome

/-- `M14.MATCH.c40` (R242). -/
def execM14MatchC40 (s : State) : Host.Outcome State Fault Refusal := (m14Match 40 s).outcome

/-- `M14.MATCH.c41` (R242). -/
def execM14MatchC41 (s : State) : Host.Outcome State Fault Refusal := (m14Match 41 s).outcome

/-- `M14.MATCH.c42` (R242). -/
def execM14MatchC42 (s : State) : Host.Outcome State Fault Refusal := (m14Match 42 s).outcome

/-- `M14.MATCH.c43` (R242). -/
def execM14MatchC43 (s : State) : Host.Outcome State Fault Refusal := (m14Match 43 s).outcome

/-- `M14.MATCH.c44` (R242). -/
def execM14MatchC44 (s : State) : Host.Outcome State Fault Refusal := (m14Match 44 s).outcome

/-- `M14.MATCH.c45` (R242). -/
def execM14MatchC45 (s : State) : Host.Outcome State Fault Refusal := (m14Match 45 s).outcome

/-- `M14.MATCH.c46` (R242). -/
def execM14MatchC46 (s : State) : Host.Outcome State Fault Refusal := (m14Match 46 s).outcome

/-- `M14.MATCH.c47` (R242). -/
def execM14MatchC47 (s : State) : Host.Outcome State Fault Refusal := (m14Match 47 s).outcome

/-- `M14.MATCH.c48` (R242). -/
def execM14MatchC48 (s : State) : Host.Outcome State Fault Refusal := (m14Match 48 s).outcome

/-- `M14.MATCH.c49` (R242). -/
def execM14MatchC49 (s : State) : Host.Outcome State Fault Refusal := (m14Match 49 s).outcome

/-- `M14.MATCH.c50` (R242). -/
def execM14MatchC50 (s : State) : Host.Outcome State Fault Refusal := (m14Match 50 s).outcome

/-- `M14.MATCH.c51` (R242). -/
def execM14MatchC51 (s : State) : Host.Outcome State Fault Refusal := (m14Match 51 s).outcome

/-- `M14.DIST.d0` (R108, R242). -/
def execM14DistD0 (s : State) : Host.Outcome State Fault Refusal := m14Dist 0 s

/-- `M14.DIST.d1` (R108, R242). -/
def execM14DistD1 (s : State) : Host.Outcome State Fault Refusal := m14Dist 1 s

/-- `M14.DIST.d2` (R108, R242). -/
def execM14DistD2 (s : State) : Host.Outcome State Fault Refusal := m14Dist 2 s

/-- `M14.DIST.d3` (R108, R242). -/
def execM14DistD3 (s : State) : Host.Outcome State Fault Refusal := m14Dist 3 s

/-- `M14.DIST.d4` (R108, R242). -/
def execM14DistD4 (s : State) : Host.Outcome State Fault Refusal := m14Dist 4 s

/-- `M14.DIST.d5` (R108, R242). -/
def execM14DistD5 (s : State) : Host.Outcome State Fault Refusal := m14Dist 5 s

/-- `M14.DIST.d6` (R108, R242). -/
def execM14DistD6 (s : State) : Host.Outcome State Fault Refusal := m14Dist 6 s

/-- `M14.DIST.d7` (R108, R242). -/
def execM14DistD7 (s : State) : Host.Outcome State Fault Refusal := m14Dist 7 s

/-- `M14.DIST.d8` (R108, R242). -/
def execM14DistD8 (s : State) : Host.Outcome State Fault Refusal := m14Dist 8 s

/-- `M14.DIST.d9` (R108, R242). -/
def execM14DistD9 (s : State) : Host.Outcome State Fault Refusal := m14Dist 9 s

/-- `M14.DIST.d10` (R108, R242). -/
def execM14DistD10 (s : State) : Host.Outcome State Fault Refusal := m14Dist 10 s

/-- `M14.DIST.d11` (R108, R242). -/
def execM14DistD11 (s : State) : Host.Outcome State Fault Refusal := m14Dist 11 s

/-- `M14.DIST.d12` (R108, R242). -/
def execM14DistD12 (s : State) : Host.Outcome State Fault Refusal := m14Dist 12 s

/-- `M14.DIST.d13` (R108, R242). -/
def execM14DistD13 (s : State) : Host.Outcome State Fault Refusal := m14Dist 13 s

/-- `M14.DIST.d14` (R108, R242). -/
def execM14DistD14 (s : State) : Host.Outcome State Fault Refusal := m14Dist 14 s

/-- `M14.DIST.d15` (R108, R242). -/
def execM14DistD15 (s : State) : Host.Outcome State Fault Refusal := m14Dist 15 s

/-- `M14.DIST.d16` (R108, R242). -/
def execM14DistD16 (s : State) : Host.Outcome State Fault Refusal := m14Dist 16 s

/-- `M14.DIST.d17` (R108, R242). -/
def execM14DistD17 (s : State) : Host.Outcome State Fault Refusal := m14Dist 17 s

/-- `M14.DIST.d18` (R108, R242). -/
def execM14DistD18 (s : State) : Host.Outcome State Fault Refusal := m14Dist 18 s

/-- `M14.DIST.d19` (R108, R242). -/
def execM14DistD19 (s : State) : Host.Outcome State Fault Refusal := m14Dist 19 s

/-- `M14.DIST.d20` (R108, R242). -/
def execM14DistD20 (s : State) : Host.Outcome State Fault Refusal := m14Dist 20 s

/-- `M14.DIST.d21` (R108, R242). -/
def execM14DistD21 (s : State) : Host.Outcome State Fault Refusal := m14Dist 21 s

/-- `M14.DIST.d22` (R108, R242). -/
def execM14DistD22 (s : State) : Host.Outcome State Fault Refusal := m14Dist 22 s

/-- `M14.DIST.d23` (R108, R242). -/
def execM14DistD23 (s : State) : Host.Outcome State Fault Refusal := m14Dist 23 s

/-- `M14.DIST.d24` (R108, R242). -/
def execM14DistD24 (s : State) : Host.Outcome State Fault Refusal := m14Dist 24 s

/-- `M14.DIST.d25` (R108, R242). -/
def execM14DistD25 (s : State) : Host.Outcome State Fault Refusal := m14Dist 25 s

/-- `M14.DIST.d26` (R108, R242). -/
def execM14DistD26 (s : State) : Host.Outcome State Fault Refusal := m14Dist 26 s

/-- `M14.DIST.d27` (R108, R242). -/
def execM14DistD27 (s : State) : Host.Outcome State Fault Refusal := m14Dist 27 s

/-- `M14.DIST.d28` (R108, R242). -/
def execM14DistD28 (s : State) : Host.Outcome State Fault Refusal := m14Dist 28 s

/-- `M14.DIST.d29` (R108, R242). -/
def execM14DistD29 (s : State) : Host.Outcome State Fault Refusal := m14Dist 29 s

/-- `M14.DIST.d30` (R108, R242). -/
def execM14DistD30 (s : State) : Host.Outcome State Fault Refusal := m14Dist 30 s

/-- `M14.DIST.d31` (R108, R242). -/
def execM14DistD31 (s : State) : Host.Outcome State Fault Refusal := m14Dist 31 s

/-- `M14.DIST.d32` (R108, R242). -/
def execM14DistD32 (s : State) : Host.Outcome State Fault Refusal := m14Dist 32 s

/-- `M14.DIST.d33` (R108, R242). -/
def execM14DistD33 (s : State) : Host.Outcome State Fault Refusal := m14Dist 33 s

/-- `M14.DIST.d34` (R108, R242). -/
def execM14DistD34 (s : State) : Host.Outcome State Fault Refusal := m14Dist 34 s

/-- `M14.DIST.d35` (R108, R242). -/
def execM14DistD35 (s : State) : Host.Outcome State Fault Refusal := m14Dist 35 s

/-- `M14.DIST.d36` (R108, R242). -/
def execM14DistD36 (s : State) : Host.Outcome State Fault Refusal := m14Dist 36 s

/-- `M14.DIST.d37` (R108, R242). -/
def execM14DistD37 (s : State) : Host.Outcome State Fault Refusal := m14Dist 37 s

/-- `M14.DIST.d38` (R108, R242). -/
def execM14DistD38 (s : State) : Host.Outcome State Fault Refusal := m14Dist 38 s

/-- `M14.DIST.d39` (R108, R242). -/
def execM14DistD39 (s : State) : Host.Outcome State Fault Refusal := m14Dist 39 s

/-- `M14.DIST.d40` (R108, R242). -/
def execM14DistD40 (s : State) : Host.Outcome State Fault Refusal := m14Dist 40 s

/-- `M14.DIST.d41` (R108, R242). -/
def execM14DistD41 (s : State) : Host.Outcome State Fault Refusal := m14Dist 41 s

/-- `M14.DIST.d42` (R108, R242). -/
def execM14DistD42 (s : State) : Host.Outcome State Fault Refusal := m14Dist 42 s

/-- `M14.DIST.d43` (R108, R242). -/
def execM14DistD43 (s : State) : Host.Outcome State Fault Refusal := m14Dist 43 s

/-- `M14.DIST.d44` (R108, R242). -/
def execM14DistD44 (s : State) : Host.Outcome State Fault Refusal := m14Dist 44 s

/-- `M14.DIST.d45` (R108, R242). -/
def execM14DistD45 (s : State) : Host.Outcome State Fault Refusal := m14Dist 45 s

/-- `M14.DIST.d46` (R108, R242). -/
def execM14DistD46 (s : State) : Host.Outcome State Fault Refusal := m14Dist 46 s

/-- `M14.DIST.d47` (R108, R242). -/
def execM14DistD47 (s : State) : Host.Outcome State Fault Refusal := m14Dist 47 s

/-- `M14.DIST.d48` (R108, R242). -/
def execM14DistD48 (s : State) : Host.Outcome State Fault Refusal := m14Dist 48 s

/-- `M14.DIST.d49` (R108, R242). -/
def execM14DistD49 (s : State) : Host.Outcome State Fault Refusal := m14Dist 49 s

/-- `M14.DIST.d50` (R108, R242). -/
def execM14DistD50 (s : State) : Host.Outcome State Fault Refusal := m14Dist 50 s

/-- `M14.DIST.d51` (R108, R242). -/
def execM14DistD51 (s : State) : Host.Outcome State Fault Refusal := m14Dist 51 s

/-- `M14.DIST.d52` (R108, R242). -/
def execM14DistD52 (s : State) : Host.Outcome State Fault Refusal := m14Dist 52 s

/-- `M14.DIST.d53` (R108, R242). -/
def execM14DistD53 (s : State) : Host.Outcome State Fault Refusal := m14Dist 53 s

/-- `M14.DIST.d54` (R108, R242). -/
def execM14DistD54 (s : State) : Host.Outcome State Fault Refusal := m14Dist 54 s

/-- `M14.DIST.d55` (R108, R242). -/
def execM14DistD55 (s : State) : Host.Outcome State Fault Refusal := m14Dist 55 s

/-- `M14.DIST.d56` (R108, R242). -/
def execM14DistD56 (s : State) : Host.Outcome State Fault Refusal := m14Dist 56 s

/-- `M14.DIST.d57` (R108, R242). -/
def execM14DistD57 (s : State) : Host.Outcome State Fault Refusal := m14Dist 57 s

/-- `M14.DIST.d58` (R108, R242). -/
def execM14DistD58 (s : State) : Host.Outcome State Fault Refusal := m14Dist 58 s

/-- `M14.DIST.d59` (R108, R242). -/
def execM14DistD59 (s : State) : Host.Outcome State Fault Refusal := m14Dist 59 s

/-- `M14.DIST.d60` (R108, R242). -/
def execM14DistD60 (s : State) : Host.Outcome State Fault Refusal := m14Dist 60 s

/-- `M14.DIST.d61` (R108, R242). -/
def execM14DistD61 (s : State) : Host.Outcome State Fault Refusal := m14Dist 61 s

/-- `M14.DIST.d62` (R108, R242). -/
def execM14DistD62 (s : State) : Host.Outcome State Fault Refusal := m14Dist 62 s

/-- `M14.DIST.d63` (R108, R242). -/
def execM14DistD63 (s : State) : Host.Outcome State Fault Refusal := m14Dist 63 s

/-- `M14.DIST.d64` (R108, R242). -/
def execM14DistD64 (s : State) : Host.Outcome State Fault Refusal := m14Dist 64 s

/-- `M14.DIST.d65` (R108, R242). -/
def execM14DistD65 (s : State) : Host.Outcome State Fault Refusal := m14Dist 65 s

/-- `M14.DIST.d66` (R108, R242). -/
def execM14DistD66 (s : State) : Host.Outcome State Fault Refusal := m14Dist 66 s

/-- `M14.DIST.d67` (R108, R242). -/
def execM14DistD67 (s : State) : Host.Outcome State Fault Refusal := m14Dist 67 s

/-- `M14.DIST.d68` (R108, R242). -/
def execM14DistD68 (s : State) : Host.Outcome State Fault Refusal := m14Dist 68 s

/-- `M14.DIST.d69` (R108, R242). -/
def execM14DistD69 (s : State) : Host.Outcome State Fault Refusal := m14Dist 69 s

/-- `M14.DIST.d70` (R108, R242). -/
def execM14DistD70 (s : State) : Host.Outcome State Fault Refusal := m14Dist 70 s

/-- `M14.DIST.d71` (R108, R242). -/
def execM14DistD71 (s : State) : Host.Outcome State Fault Refusal := m14Dist 71 s

/-- `M14.DIST.d72` (R108, R242). -/
def execM14DistD72 (s : State) : Host.Outcome State Fault Refusal := m14Dist 72 s

/-- `M14.DIST.d73` (R108, R242). -/
def execM14DistD73 (s : State) : Host.Outcome State Fault Refusal := m14Dist 73 s

/-- `M14.DIST.d74` (R108, R242). -/
def execM14DistD74 (s : State) : Host.Outcome State Fault Refusal := m14Dist 74 s

end Sys2Proof.Machine
end

