-- ==== Sys2Proof/Machine/Facade.lean ====
section
/-! DEFINITION. The archive facade and the decompression dispatch (46_facade_dispatch.md). -/

namespace Sys2Proof.Machine

/-- `OPEN(src, size, flatten_tree)` (R291, R51): the previous index is discarded, the stream bound, the parse begun. -/
def openArchive (src : Bytes) (size : Nat) (flatten : Bool) (s : State) : State :=
  pushTasks [.op .cpParse, .openEnd]
    (((s.withSrc (Memory.ofBytes 0 (src.take size))).withH { valid := false, flatten := flatten, size := size }).withIdx
      { entries := [], metadata := [] })

/-- The stored paths of all entries, in an order of the draw's choosing (R294). -/
def listPaths (s : State) : List Bytes := arrange (Config.listRank s.draws) (s.idx.entries.map (·.path))

/-- The first lines of `READ` and `READ_RSRC` (R295, R296): find the entry, then dispatch on one of its forks. -/
def readFork (path : Bytes) (fork : Entry → ForkDesc) (deliver : Task) (s : State) : Res Unit :=
  match findEntry s (norm s path) with
  | none => .raised .notFound s
  | some e => .ok () (pushTasks [.op (.dispatch (fork e)), deliver] s)

/-- `DISPATCH(f)` (R300): nothing for an absent fork; else fresh read state, the method's control word, the CRC, the bytes. An
encrypted fork is refused by its control word before any read state is set. -/
def dispatchFork (f : ForkDesc) (s : State) : State :=
  if f.usize = 0 then s.withRet .noFork
  else
    let s := s.withFork f
    pushTasks [.fetch .cmpr, .op (.crcVerify f), .dispatchRet]
      (if f.compression &&& 0xF0#8 = 0#8 then resetRead f s else s)

/-- The last line of R300. -/
def dispatchRet (s : State) : State := s.withRet (.bytes (outBytes s))

/-- The bytes that `DISPATCH` returned; none for the no-fork signal. -/
def returnedBytes (s : State) : Option Bytes :=
  match s.ret with
  | .bytes bs => some bs
  | _ => none

/-- The end of `READ` (R295): an absent fork is the empty byte sequence. -/
def deliverData (s : State) : State := endCommand (.bytes ((returnedBytes s).getD [])) s

/-- The end of `READ_RSRC` (R296): an absent fork is `absent`. -/
def deliverRsrc (s : State) : State :=
  endCommand (match returnedBytes s with | some bs => .bytes bs | none => .absent) s

/-- The decoder that runs from here on, and its first step (R304, R305). -/
def startDecoder (d : Decoder) (start : Instr) (s : State) : State := pushTasks [.op start] (s.withDec d)

/-! ## Meanings -/

/-- `OPEN` (R291); a size beyond the bytes there are is outside the spec (R353). -/
def execHostOpen (src : Bytes) (size : BitVec 64) (flatten : Bool) (s : State) : Host.Outcome State Fault Refusal :=
  if src.length < size.toNat then .refused .sizeBeyondSource else .next (openArchive src size.toNat flatten s)

/-- `HAS` (R293). -/
def execHostHas (path : Bytes) (s : State) : Host.Outcome State Fault Refusal :=
  .next (endCommand (.flag (findEntry s (norm s path)).isSome) s)

/-- `LIST` (R294). -/
def execHostList (s : State) : Host.Outcome State Fault Refusal :=
  .next ((endCommand (.paths (listPaths s)) s).withDraws (s.draws + 1))

/-- `READ` (R295). -/
def execHostRead (path : Bytes) (s : State) : Host.Outcome State Fault Refusal :=
  (readFork path Entry.dataFork .deliverData s).outcome

/-- `READ_RSRC` (R296). -/
def execHostReadRsrc (path : Bytes) (s : State) : Host.Outcome State Fault Refusal :=
  (readFork path Entry.resFork .deliverRsrc s).outcome

/-- `READ_FINFO` (R297). -/
def execHostReadFinfo (path : Bytes) (s : State) : Host.Outcome State Fault Refusal :=
  .next (endCommand (match findFinder s (norm s path) with | some m => .bytes m.info | none => .absent) s)

/-- `DISPATCH` (R300). -/
def execDispatch (f : ForkDesc) (s : State) : Host.Outcome State Fault Refusal := .next (dispatchFork f s)

/-- `CMPR.ENCRYPTED` (R301). -/
def execCmprEncrypted (_b : Byte) (s : State) : Host.Outcome State Fault Refusal := .next (takeError .encrypted s)

/-- `CMPR.M0` (R302): `M0.COPY` of the fork being dispatched. -/
def execCmprM0 (s : State) : Host.Outcome State Fault Refusal := (m0Copy s.fork s).outcome

/-- `CMPR.M13` (R304): `M13.START` with the 65536-byte window. -/
def execCmprM13 (s : State) : Host.Outcome State Fault Refusal := .next (startDecoder .m13 .m13Start s)

/-- `CMPR.M14` (R305): `M14.START` with the 0x40000-byte window. -/
def execCmprM14 (s : State) : Host.Outcome State Fault Refusal := .next (startDecoder .m14 .m14Start s)

/-- `CMPR.UNSUPPORTED` (R303). -/
def execCmprUnsupported (_b : Byte) (s : State) : Host.Outcome State Fault Refusal := .next (takeError .unsupportedMethod s)

end Sys2Proof.Machine
end

