-- ==== Sys2Proof/Machine/Dispatch.lean ====
section
/-! DEFINITION. One arm per instruction of the opcode table, each a call of its meaning. -/

namespace Sys2Proof.Machine

def exec (i : Instr) (s : State) : Host.Outcome State Fault Refusal :=
  match i with
  | .magicSit => Sys2Proof.Machine.execMagicSit s
  | .magicSt65 => Sys2Proof.Machine.execMagicSt65 s
  | .magicSt50 => Sys2Proof.Machine.execMagicSt50 s
  | .magicSt60 => Sys2Proof.Machine.execMagicSt60 s
  | .magicStin => Sys2Proof.Machine.execMagicStin s
  | .magicSti2 => Sys2Proof.Machine.execMagicSti2 s
  | .magicSti3 => Sys2Proof.Machine.execMagicSti3 s
  | .magicSti4 => Sys2Proof.Machine.execMagicSti4 s
  | .magicSt46 => Sys2Proof.Machine.execMagicSt46 s
  | .magicRLau => Sys2Proof.Machine.execMagicRLau s
  | .magicOther w => Sys2Proof.Machine.execMagicOther w s
  | .arch h => Sys2Proof.Machine.execArch h s
  | .entFolderStart h => Sys2Proof.Machine.execEntFolderStart h s
  | .entFolderEnd h => Sys2Proof.Machine.execEntFolderEnd h s
  | .entFile h => Sys2Proof.Machine.execEntFile h s
  | .cmprEncrypted b => Sys2Proof.Machine.execCmprEncrypted b s
  | .cmprM0 => Sys2Proof.Machine.execCmprM0 s
  | .cmprM13 => Sys2Proof.Machine.execCmprM13 s
  | .cmprM14 => Sys2Proof.Machine.execCmprM14 s
  | .cmprUnsupported b => Sys2Proof.Machine.execCmprUnsupported b s
  | .m13CtrlDynamic copy nofs => Sys2Proof.Machine.execM13CtrlDynamic copy nofs s
  | .m13CtrlStatic0 low => Sys2Proof.Machine.execM13CtrlStatic0 low s
  | .m13CtrlStatic1 low => Sys2Proof.Machine.execM13CtrlStatic1 low s
  | .m13CtrlStatic2 low => Sys2Proof.Machine.execM13CtrlStatic2 low s
  | .m13CtrlStatic3 low => Sys2Proof.Machine.execM13CtrlStatic3 low s
  | .m13CtrlStatic4 low => Sys2Proof.Machine.execM13CtrlStatic4 low s
  | .m13CtrlIllegal b => Sys2Proof.Machine.execM13CtrlIllegal b s
  | .m13Lit b => Sys2Proof.Machine.execM13Lit b s
  | .m13Len sym => Sys2Proof.Machine.execM13Len sym s
  | .m13Med => Sys2Proof.Machine.execM13Med s
  | .m13Long => Sys2Proof.Machine.execM13Long s
  | .m13Eos => Sys2Proof.Machine.execM13Eos s
  | .metaSet sym => Sys2Proof.Machine.execMetaSet sym s
  | .metaAbsent => Sys2Proof.Machine.execMetaAbsent s
  | .metaInc => Sys2Proof.Machine.execMetaInc s
  | .metaDec => Sys2Proof.Machine.execMetaDec s
  | .metaRep1 => Sys2Proof.Machine.execMetaRep1 s
  | .metaRep3 => Sys2Proof.Machine.execMetaRep3 s
  | .metaRep6 => Sys2Proof.Machine.execMetaRep6 s
  | .m13Ofs v => Sys2Proof.Machine.execM13Ofs v s
  | .m14Hdr k j o sel => Sys2Proof.Machine.execM14Hdr k j o sel s
  | .lvZero => Sys2Proof.Machine.execLvZero s
  | .lvRepeat => Sys2Proof.Machine.execLvRepeat s
  | .lvValue v => Sys2Proof.Machine.execLvValue v s
  | .m14Lit b => Sys2Proof.Machine.execM14Lit b s
  | .m14MatchC0 => Sys2Proof.Machine.execM14MatchC0 s
  | .m14MatchC1 => Sys2Proof.Machine.execM14MatchC1 s
  | .m14MatchC2 => Sys2Proof.Machine.execM14MatchC2 s
  | .m14MatchC3 => Sys2Proof.Machine.execM14MatchC3 s
  | .m14MatchC4 => Sys2Proof.Machine.execM14MatchC4 s
  | .m14MatchC5 => Sys2Proof.Machine.execM14MatchC5 s
  | .m14MatchC6 => Sys2Proof.Machine.execM14MatchC6 s
  | .m14MatchC7 => Sys2Proof.Machine.execM14MatchC7 s
  | .m14MatchC8 => Sys2Proof.Machine.execM14MatchC8 s
  | .m14MatchC9 => Sys2Proof.Machine.execM14MatchC9 s
  | .m14MatchC10 => Sys2Proof.Machine.execM14MatchC10 s
  | .m14MatchC11 => Sys2Proof.Machine.execM14MatchC11 s
  | .m14MatchC12 => Sys2Proof.Machine.execM14MatchC12 s
  | .m14MatchC13 => Sys2Proof.Machine.execM14MatchC13 s
  | .m14MatchC14 => Sys2Proof.Machine.execM14MatchC14 s
  | .m14MatchC15 => Sys2Proof.Machine.execM14MatchC15 s
  | .m14MatchC16 => Sys2Proof.Machine.execM14MatchC16 s
  | .m14MatchC17 => Sys2Proof.Machine.execM14MatchC17 s
  | .m14MatchC18 => Sys2Proof.Machine.execM14MatchC18 s
  | .m14MatchC19 => Sys2Proof.Machine.execM14MatchC19 s
  | .m14MatchC20 => Sys2Proof.Machine.execM14MatchC20 s
  | .m14MatchC21 => Sys2Proof.Machine.execM14MatchC21 s
  | .m14MatchC22 => Sys2Proof.Machine.execM14MatchC22 s
  | .m14MatchC23 => Sys2Proof.Machine.execM14MatchC23 s
  | .m14MatchC24 => Sys2Proof.Machine.execM14MatchC24 s
  | .m14MatchC25 => Sys2Proof.Machine.execM14MatchC25 s
  | .m14MatchC26 => Sys2Proof.Machine.execM14MatchC26 s
  | .m14MatchC27 => Sys2Proof.Machine.execM14MatchC27 s
  | .m14MatchC28 => Sys2Proof.Machine.execM14MatchC28 s
  | .m14MatchC29 => Sys2Proof.Machine.execM14MatchC29 s
  | .m14MatchC30 => Sys2Proof.Machine.execM14MatchC30 s
  | .m14MatchC31 => Sys2Proof.Machine.execM14MatchC31 s
  | .m14MatchC32 => Sys2Proof.Machine.execM14MatchC32 s
  | .m14MatchC33 => Sys2Proof.Machine.execM14MatchC33 s
  | .m14MatchC34 => Sys2Proof.Machine.execM14MatchC34 s
  | .m14MatchC35 => Sys2Proof.Machine.execM14MatchC35 s
  | .m14MatchC36 => Sys2Proof.Machine.execM14MatchC36 s
  | .m14MatchC37 => Sys2Proof.Machine.execM14MatchC37 s
  | .m14MatchC38 => Sys2Proof.Machine.execM14MatchC38 s
  | .m14MatchC39 => Sys2Proof.Machine.execM14MatchC39 s
  | .m14MatchC40 => Sys2Proof.Machine.execM14MatchC40 s
  | .m14MatchC41 => Sys2Proof.Machine.execM14MatchC41 s
  | .m14MatchC42 => Sys2Proof.Machine.execM14MatchC42 s
  | .m14MatchC43 => Sys2Proof.Machine.execM14MatchC43 s
  | .m14MatchC44 => Sys2Proof.Machine.execM14MatchC44 s
  | .m14MatchC45 => Sys2Proof.Machine.execM14MatchC45 s
  | .m14MatchC46 => Sys2Proof.Machine.execM14MatchC46 s
  | .m14MatchC47 => Sys2Proof.Machine.execM14MatchC47 s
  | .m14MatchC48 => Sys2Proof.Machine.execM14MatchC48 s
  | .m14MatchC49 => Sys2Proof.Machine.execM14MatchC49 s
  | .m14MatchC50 => Sys2Proof.Machine.execM14MatchC50 s
  | .m14MatchC51 => Sys2Proof.Machine.execM14MatchC51 s
  | .m14DistD0 => Sys2Proof.Machine.execM14DistD0 s
  | .m14DistD1 => Sys2Proof.Machine.execM14DistD1 s
  | .m14DistD2 => Sys2Proof.Machine.execM14DistD2 s
  | .m14DistD3 => Sys2Proof.Machine.execM14DistD3 s
  | .m14DistD4 => Sys2Proof.Machine.execM14DistD4 s
  | .m14DistD5 => Sys2Proof.Machine.execM14DistD5 s
  | .m14DistD6 => Sys2Proof.Machine.execM14DistD6 s
  | .m14DistD7 => Sys2Proof.Machine.execM14DistD7 s
  | .m14DistD8 => Sys2Proof.Machine.execM14DistD8 s
  | .m14DistD9 => Sys2Proof.Machine.execM14DistD9 s
  | .m14DistD10 => Sys2Proof.Machine.execM14DistD10 s
  | .m14DistD11 => Sys2Proof.Machine.execM14DistD11 s
  | .m14DistD12 => Sys2Proof.Machine.execM14DistD12 s
  | .m14DistD13 => Sys2Proof.Machine.execM14DistD13 s
  | .m14DistD14 => Sys2Proof.Machine.execM14DistD14 s
  | .m14DistD15 => Sys2Proof.Machine.execM14DistD15 s
  | .m14DistD16 => Sys2Proof.Machine.execM14DistD16 s
  | .m14DistD17 => Sys2Proof.Machine.execM14DistD17 s
  | .m14DistD18 => Sys2Proof.Machine.execM14DistD18 s
  | .m14DistD19 => Sys2Proof.Machine.execM14DistD19 s
  | .m14DistD20 => Sys2Proof.Machine.execM14DistD20 s
  | .m14DistD21 => Sys2Proof.Machine.execM14DistD21 s
  | .m14DistD22 => Sys2Proof.Machine.execM14DistD22 s
  | .m14DistD23 => Sys2Proof.Machine.execM14DistD23 s
  | .m14DistD24 => Sys2Proof.Machine.execM14DistD24 s
  | .m14DistD25 => Sys2Proof.Machine.execM14DistD25 s
  | .m14DistD26 => Sys2Proof.Machine.execM14DistD26 s
  | .m14DistD27 => Sys2Proof.Machine.execM14DistD27 s
  | .m14DistD28 => Sys2Proof.Machine.execM14DistD28 s
  | .m14DistD29 => Sys2Proof.Machine.execM14DistD29 s
  | .m14DistD30 => Sys2Proof.Machine.execM14DistD30 s
  | .m14DistD31 => Sys2Proof.Machine.execM14DistD31 s
  | .m14DistD32 => Sys2Proof.Machine.execM14DistD32 s
  | .m14DistD33 => Sys2Proof.Machine.execM14DistD33 s
  | .m14DistD34 => Sys2Proof.Machine.execM14DistD34 s
  | .m14DistD35 => Sys2Proof.Machine.execM14DistD35 s
  | .m14DistD36 => Sys2Proof.Machine.execM14DistD36 s
  | .m14DistD37 => Sys2Proof.Machine.execM14DistD37 s
  | .m14DistD38 => Sys2Proof.Machine.execM14DistD38 s
  | .m14DistD39 => Sys2Proof.Machine.execM14DistD39 s
  | .m14DistD40 => Sys2Proof.Machine.execM14DistD40 s
  | .m14DistD41 => Sys2Proof.Machine.execM14DistD41 s
  | .m14DistD42 => Sys2Proof.Machine.execM14DistD42 s
  | .m14DistD43 => Sys2Proof.Machine.execM14DistD43 s
  | .m14DistD44 => Sys2Proof.Machine.execM14DistD44 s
  | .m14DistD45 => Sys2Proof.Machine.execM14DistD45 s
  | .m14DistD46 => Sys2Proof.Machine.execM14DistD46 s
  | .m14DistD47 => Sys2Proof.Machine.execM14DistD47 s
  | .m14DistD48 => Sys2Proof.Machine.execM14DistD48 s
  | .m14DistD49 => Sys2Proof.Machine.execM14DistD49 s
  | .m14DistD50 => Sys2Proof.Machine.execM14DistD50 s
  | .m14DistD51 => Sys2Proof.Machine.execM14DistD51 s
  | .m14DistD52 => Sys2Proof.Machine.execM14DistD52 s
  | .m14DistD53 => Sys2Proof.Machine.execM14DistD53 s
  | .m14DistD54 => Sys2Proof.Machine.execM14DistD54 s
  | .m14DistD55 => Sys2Proof.Machine.execM14DistD55 s
  | .m14DistD56 => Sys2Proof.Machine.execM14DistD56 s
  | .m14DistD57 => Sys2Proof.Machine.execM14DistD57 s
  | .m14DistD58 => Sys2Proof.Machine.execM14DistD58 s
  | .m14DistD59 => Sys2Proof.Machine.execM14DistD59 s
  | .m14DistD60 => Sys2Proof.Machine.execM14DistD60 s
  | .m14DistD61 => Sys2Proof.Machine.execM14DistD61 s
  | .m14DistD62 => Sys2Proof.Machine.execM14DistD62 s
  | .m14DistD63 => Sys2Proof.Machine.execM14DistD63 s
  | .m14DistD64 => Sys2Proof.Machine.execM14DistD64 s
  | .m14DistD65 => Sys2Proof.Machine.execM14DistD65 s
  | .m14DistD66 => Sys2Proof.Machine.execM14DistD66 s
  | .m14DistD67 => Sys2Proof.Machine.execM14DistD67 s
  | .m14DistD68 => Sys2Proof.Machine.execM14DistD68 s
  | .m14DistD69 => Sys2Proof.Machine.execM14DistD69 s
  | .m14DistD70 => Sys2Proof.Machine.execM14DistD70 s
  | .m14DistD71 => Sys2Proof.Machine.execM14DistD71 s
  | .m14DistD72 => Sys2Proof.Machine.execM14DistD72 s
  | .m14DistD73 => Sys2Proof.Machine.execM14DistD73 s
  | .m14DistD74 => Sys2Proof.Machine.execM14DistD74 s
  | .m0Copy f => Sys2Proof.Machine.execM0Copy f s
  | .m13Start => Sys2Proof.Machine.execM13Start s
  | .m14Start => Sys2Proof.Machine.execM14Start s
  | .m14Block => Sys2Proof.Machine.execM14Block s
  | .hostOpen src size flatten => Sys2Proof.Machine.execHostOpen src size flatten s
  | .hostHas path => Sys2Proof.Machine.execHostHas path s
  | .hostList => Sys2Proof.Machine.execHostList s
  | .hostRead path => Sys2Proof.Machine.execHostRead path s
  | .hostReadRsrc path => Sys2Proof.Machine.execHostReadRsrc path s
  | .hostReadFinfo path => Sys2Proof.Machine.execHostReadFinfo path s
  | .brInit base len => Sys2Proof.Machine.execBrInit base len s
  | .brPeek n => Sys2Proof.Machine.execBrPeek n s
  | .brTake n => Sys2Proof.Machine.execBrTake n s
  | .brTake1 => Sys2Proof.Machine.execBrTake1 s
  | .brAlign => Sys2Proof.Machine.execBrAlign s
  | .brEos => Sys2Proof.Machine.execBrEos s
  | .brReadBits n => Sys2Proof.Machine.execBrReadBits n s
  | .crcInit => Sys2Proof.Machine.execCrcInit s
  | .crcUpdate b => Sys2Proof.Machine.execCrcUpdate b s
  | .crcRange sp a n => Sys2Proof.Machine.execCrcRange sp a n s
  | .crcVerify f => Sys2Proof.Machine.execCrcVerify f s
  | .h12Build t n ls => Sys2Proof.Machine.execH12Build t n ls s
  | .h12Buildx t es => Sys2Proof.Machine.execH12Buildx t es s
  | .h12Decode t => Sys2Proof.Machine.execH12Decode t s
  | .outEmit b => Sys2Proof.Machine.execOutEmit b s
  | .outCopy len off => Sys2Proof.Machine.execOutCopy len off s
  | .cpParse => Sys2Proof.Machine.execCpParse s
  | .cpArchdr => Sys2Proof.Machine.execCpArchdr s
  | .cpFetch => Sys2Proof.Machine.execCpFetch s
  | .cpKey name => Sys2Proof.Machine.execCpKey name s
  | .cpInsert key path res data finfo => Sys2Proof.Machine.execCpInsert key path res data finfo s
  | .dispatch f => Sys2Proof.Machine.execDispatch f s
  | .m13Static p => Sys2Proof.Machine.execM13Static p s
  | .m13Dynamic => Sys2Proof.Machine.execM13Dynamic s
  | .m13ReadLengths n => Sys2Proof.Machine.execM13ReadLengths n s
  | .m13EmitLen n => Sys2Proof.Machine.execM13EmitLen n s
  | .m13Run => Sys2Proof.Machine.execM13Run s
  | .m14ReadLengths n depth => Sys2Proof.Machine.execM14ReadLengths n depth s

end Sys2Proof.Machine
end

