-- ==== Sys2Proof/Machine/Fetch.lean ====
section
/-! DEFINITION. Fetching one word of a format from where the machine stands (R29, R112), and placing a word there. -/

namespace Sys2Proof.Machine

/-- A magic of the archive header, read big-endian (R95, R262). -/
def fetchMagic (a : Nat) (s : State) : Res Raw :=
  if s.h.size < a + 4 then .raised .truncated s else .ok (.num (be32At (srcBytes s a 4) 0).toNat) s

/-- The next symbol of a table as a word (R167). -/
def fetchSymbol (t : TableId) (s : State) : Res Raw := (h12Decode t s).bind fun v s => .ok (.num v) s

/-- The next word of a format: a record of `SRC`, the header register, a control byte, or a symbol at `BR.pos`, which moves past
it. -/
def fetchRaw (f : Format) (s : State) : Res Raw :=
  match f with
  | .magic1 => fetchMagic 0 s
  | .magic2 => fetchMagic 10 s
  | .arch => if s.h.size < 22 then .raised .truncated s else .ok (.bytes (srcBytes s 0 22)) s
  | .ent => .ok (.bytes s.cp.hdr) s
  | .cmpr => .ok (.num s.fork.compression.toNat) s
  | .m13Ctrl => .ok (.num s.m13.ctrl.toNat) s
  | .m13Meta => fetchSymbol .tMeta s
  | .m13Sym => fetchSymbol (activeTable s) s
  | .m13Ofs => fetchSymbol .tOfs s
  | .m14Hdr => .ok (.num (brTake 8 s).1) (brTake 8 s).2
  | .m14LenVal _ => (lvNext s).bind fun v s => .ok (.num v) s
  | .m14Sym => fetchSymbol .tl s
  | .m14Dist => fetchSymbol .td s

/-- A table whose only code, one zero bit read at the end of an empty payload, stands for `v`. -/
def oneCodeTable (v : Nat) : Table := { Table.empty with slot := [(0, { value := v, bits := 1 })] }

/-- Put a magic at a position of a 22-byte stream. -/
def placeMagic (a v : Nat) (s : State) : State :=
  (s.withSrc (Memory.ofBytes a (be32Bytes (BitVec.ofNat 32 v)))).withH { s.h with size := 22 }

/-- Put a symbol before the BitReader: the table that is to decode it, and an empty payload, which reads as zeros. -/
def placeSymbol (t : TableId) (v : Nat) (s : State) : State :=
  withTable (s.withBr { base := 0, len := 0, pos := 0 }) t (oneCodeTable v)

/-- Put a word where a fetch of its format finds it. -/
def placeWord (f : Format) (v : Nat) (s : State) : State :=
  match f with
  | .magic1 => placeMagic 0 v s
  | .magic2 => placeMagic 10 v s
  | .cmpr => s.withFork { s.fork with compression := BitVec.ofNat 8 v }
  | .m13Ctrl => s.withM13 { s.m13 with ctrl := BitVec.ofNat 8 v }
  | .m13Meta => placeSymbol .tMeta v s
  | .m13Sym => placeSymbol .t1 v (m13SetActive .first s)
  | .m13Ofs => placeSymbol .tOfs v s
  | .m14Sym => placeSymbol .tl v s
  | .m14Dist => placeSymbol .td v s
  | _ => s

/-- `s` about to fetch a word of the opcode table: the word in place, the sequencer at its fetch. -/
def placeTableWord (nbits w : Nat) (s : State) : State :=
  match tableFormat nbits w with
  | none => s
  | some f => (placeWord f (tableValue f w) s).withSeq [.fetch f]

end Sys2Proof.Machine
end

