-- ==== Sys2Proof/Machine/Sequencer.lean ====
section
/-! DEFINITION. The pending lines of the pseudocode: what each does when its turn comes (R13, R75). -/

namespace Sys2Proof.Machine

/-- A line of pseudocode other than an instruction or a fetch, each by its rule (see `Task`). -/
def runLine (t : Task) (s : State) : Res Unit :=
  match t with
  | .op _ => .ok () s
  | .fetch _ => .ok () s
  | .archRest => archRest s
  | .parseLoop => .ok () (parseLoop s)
  | .openEnd => .ok () (endCommand .none s)
  | .dispatchRet => .ok () (dispatchRet s)
  | .deliverData => .ok () (deliverData s)
  | .deliverRsrc => .ok () (deliverRsrc s)
  | .m13Begin => .ok () (m13Begin s)
  | .metaLoop => .ok () (m13MetaLoop s)
  | .m13BuildT1 => h12Build .t1 (m13Lens s 321) s
  | .m13CopyT2 => .ok () (withTable s .t2 (tableAt s .t1))
  | .m13BuildT2 => h12Build .t2 (m13Lens s 321) s
  | .m13BuildTO n => h12Build .tOfs (m13Lens s n) s
  | .m13Loop => .ok () (m13Loop s)
  | .m13End => checkComplete s
  | .m14Mode d => m14Mode d s
  | .m14BuildTN d => m14BuildTN d s
  | .lvLoop => .ok () (lvLoop s)
  | .m14Blocks => .ok () (m14Blocks s)
  | .m14End => checkComplete s
  | .m14BuildTL => h12Build .tl (m14Lens s 0 308) s
  | .m14BuildTD => h12Build .td (m14Lens s 0 75) s
  | .m14SetRem n => .ok () (m14SetRem n s)
  | .m14Loop => m14Loop s
  | .m14BlockEnd => .ok () (m14BlockEnd s)

/-- A word that is no instruction: an undefined symbol is `CorruptStream` (R320); anything else is no word of its format. -/
def rejected (r : Reject) (s : State) : Host.Outcome State Fault Refusal :=
  match r with
  | .undefinedSymbol => .next (takeError .corruptStream s)
  | .wrongShape => .refused .illegalCall
  | .wrongWidth => .refused .illegalCall

/-- The instruction a host command is (R290). -/
def commandInstr : Cmd → Instr
  | .openArchive src size flatten => .hostOpen src size flatten
  | .has p => .hostHas p
  | .list => .hostList
  | .read p => .hostRead p
  | .readRsrc p => .hostReadRsrc p
  | .readFinfo p => .hostReadFinfo p

end Sys2Proof.Machine
end

