-- ==== Sys2Proof/Machine/Step.lean ====
section
/-! DEFINITION. One step: the next pending line of the pseudocode, or the host's next command when the block is idle. -/

namespace Sys2Proof.Machine

/-- Perform an instruction whose operands are legal. -/
def perform (i : Instr) (s : State) : Host.Outcome State Fault Refusal :=
  if i.wf then exec i s else .refused .illegalCall

/-- Fetch a word of a format, decode it and perform it. -/
def fetchPerform (f : Format) (s : State) : Host.Outcome State Fault Refusal :=
  match fetchRaw f s with
  | .ok w s' =>
    match decode f w with
    | .ok i => perform i s'
    | .error r => rejected r s'
  | .raised k s' => .next (takeError k s')
  | .fault e => .fault e
  | .refused e => .refused e

/-- One pending line (R13). -/
def stepTask (t : Task) (s : State) : Host.Outcome State Fault Refusal :=
  match t with
  | .op i => perform i s
  | .fetch f => fetchPerform f s
  | t => (runLine t s).outcome

/-- One step. The idle block with no command pending waits (R52). -/
def step (s : State) : Host.Outcome State Fault Refusal :=
  match s.seq with
  | t :: ts => stepTask t (s.withSeq ts)
  | [] =>
    match s.host with
    | [] => .next s
    | c :: cs => perform (commandInstr c) (s.withHost cs)

/-- `s` with a word of the opcode table stored where the next step fetches (log 15). -/
def State.withFetchWord (s : State) (nbits w : Nat) : State := placeTableWord nbits w s

end Sys2Proof.Machine
end

