-- ==== Sys2Proof/Safety.lean ====
section
/-! DEFINITION. The terms of the claims: the invariants of the state, what a legal state of the sequencer is, and what a safe run
is (one that neither faults nor is refused). -/

namespace Sys2Proof.Machine

/-! ## Canonical memories -/

/-- Both memories of a table are canonical. -/
def Table.memWf (t : Table) : Bool := Memory.wf t.slot && Memory.wf t.node

/-- The memories of a nesting level are canonical. -/
def Level.memWf (l : Level) : Bool := Memory.wf l.lens && l.tn.memWf

/-- Every memory of the machine is in its canonical form. -/
def State.memWf (s : State) : Bool :=
  Memory.wf s.src && Memory.wf s.win && Memory.wf s.outMem && Memory.wf s.m13.lens && Memory.wf s.m14.level
    && s.m13.t1.memWf && s.m13.t2.memWf && s.m13.tOfs.memWf && s.m13.tMeta.memWf && s.m14.tl.memWf && s.m14.td.memWf
    && s.m14.level.all fun p => p.2.memWf

/-! ## Registers in range -/

/-- A node's child is a later node that is allocated (R164: nodes are numbered as they are allocated). -/
def childOk (id nnodes : Nat) : Option Nat → Bool
  | none => true
  | some c => id < c && c < nnodes

/-- A table is what R160 and R164 make it, within a pool of `pool` nodes (R65, R170): 4096 slots, each empty, a leaf or an overflow
to an allocated node; every node allocated and its children later than itself. -/
def Table.inRange (pool : Nat) (t : Table) : Bool :=
  t.nnodes ≤ pool
    && (t.slot.all fun p => p.1 < 4096 && p.2.bits ≤ 13 && (p.2.bits != 13 || p.2.value < t.nnodes))
    && t.node.all fun p => p.1 < t.nnodes && childOk p.1 t.nnodes p.2.zeroChild && childOk p.1 t.nnodes p.2.oneChild

/-- A codelength memory holds only lengths of 0 to 32 (R24, R25). -/
def lensInRange (m : Memory Nat) : Bool := m.all fun p => p.2 ≤ 32

/-- The header fields of a level keep the widths of R25 and R43, its lengths and its table their ranges. -/
def Level.inRange (pool : Nat) (l : Level) : Bool :=
  l.w ≤ 5 && l.m ≤ 31 && l.bias ≤ 8 && l.r ≤ 31 && lensInRange l.lens && l.tn.inRange pool

/-- A sequence size that method 13 uses (R99, R187), or none yet. -/
def seqSizeOk (n : Nat) : Bool := n == 0 || n == 321 || (10 ≤ n && n ≤ 17)

/-- Every register the spec gives a width or a range keeps it (10_state.md R21 to R28). -/
def State.inRange (s : State) : Bool :=
  s.br.len < 2 ^ 32 && s.out.size < 2 ^ 32 && s.out.cnt ≤ s.out.size
    && s.m13.idx ≤ 321 && seqSizeOk s.m13.n && lensInRange s.m13.lens
    && s.m13.t1.inRange s.par.poolSlots && s.m13.t2.inRange s.par.poolSlots
    && s.m13.tOfs.inRange s.par.poolSlots && s.m13.tMeta.inRange s.par.poolSlots
    && s.m14.nblk < 2 ^ 16 && s.m14.skip < 2 ^ 32 && s.m14.tl.inRange s.par.poolSlots && s.m14.td.inRange s.par.poolSlots
    && (s.m14.level.all fun p => p.2.inRange s.par.poolSlots)
    && s.cp.asize < 2 ^ 32 && s.cp.hdr.length == 112 && s.cp.depth == s.cp.stack.length && s.h.size < 2 ^ 64

/-! ## The index -/

/-- The index as R28 and R32 have it: the two maps have the same keys, no key twice, every entry has a fork that is not empty, and
every Finder info is 16 bytes. -/
def State.indexOk (s : State) : Bool :=
  s.idx.entries.map (·.key) == s.idx.metadata.map (·.key)
    && decide (s.idx.entries.map (·.key)).Nodup
    && (s.idx.entries.all fun e => e.dataFork.usize != 0 || e.resFork.usize != 0)
    && s.idx.metadata.all fun m => m.info.length == 16

/-! ## The sequencer -/

/-- A fork's payload lies in a stream of `size` bytes (R32). -/
def forkInside (size : Nat) (f : ForkDesc) : Bool := f.offset + f.csize.toNat ≤ size

/-- An entry as `OPEN` makes it: keyed by its folded path, which is a last component when the tree is flattened, its payloads in
the stream (R32, R117, R270). -/
def Entry.wellMade (size : Nat) (flatten : Bool) (e : Entry) : Bool :=
  e.key == fold e.path && (!flatten || lastComponent e.path == e.path) && forkInside size e.dataFork && forkInside size e.resFork

/-- The pending lines of an `OPEN` in progress, at each point of R261, R262 and R291. -/
def openAgendas : List (List Task) :=
  [[.op .cpParse, .openEnd],
   [.op .cpArchdr, .parseLoop, .openEnd],
   [.fetch .magic1, .archRest, .parseLoop, .openEnd],
   [.archRest, .parseLoop, .openEnd],
   [.fetch .arch, .parseLoop, .openEnd],
   [.fetch .magic2, .parseLoop, .openEnd],
   [.parseLoop, .openEnd],
   [.op .cpFetch, .fetch .ent, .parseLoop, .openEnd],
   [.fetch .ent, .parseLoop, .openEnd],
   [.openEnd]]

/-- A pending line of a read, of an archive of `size` bytes. -/
def Task.ofRead (size : Nat) : Task → Bool
  | .op (.dispatch f) => forkInside size f
  | .op (.crcVerify _) | .op .m13Start | .op .m13Run | .op .m14Start | .op .m14Block => true
  | .op (.m13ReadLengths n) => (Instr.m13ReadLengths n).wf
  | .op (.m13EmitLen n) => (Instr.m13EmitLen n).wf
  | .op (.m14ReadLengths n d) => (Instr.m14ReadLengths n d).wf
  | .op _ => false
  | .fetch .magic1 | .fetch .magic2 | .fetch .arch | .fetch .ent => false
  | .fetch _ => true
  | .archRest | .parseLoop | .openEnd => false
  | _ => true

/-- A host command the host may issue: `OPEN` with no more bytes than the stream has (R353). -/
def Cmd.legal : Cmd → Bool
  | .openArchive src size _ => size.toNat ≤ src.length
  | _ => true

/-- A state in which one command is in progress or none: the pending lines are those of an `OPEN` or of a read, the fork about to
be read lies in the stream, the index is well made and stays hidden while the handle is invalid, and the host's pending commands
are legal. -/
def State.legal (s : State) : Bool :=
  (decide (s.seq ∈ openAgendas) || s.seq.all (Task.ofRead s.h.size))
    && (!decide (Task.fetch .cmpr ∈ s.seq) || forkInside s.h.size s.fork)
    && (s.idx.entries.all fun e => e.wellMade s.h.size s.h.flatten)
    && (s.h.valid || s.idx.entries.isEmpty || decide (Task.parseLoop ∈ s.seq))
    && s.host.all Cmd.legal

/-- Everything the spec says of the state between two steps. -/
def State.Inv (s : State) : Prop :=
  s.memWf = true ∧ s.inRange = true ∧ s.indexOk = true ∧ s.legal = true

/-! ## What the claims speak of -/

/-- Bit `k` of the payload the BitReader is on, from the bytes of `SRC` (R69, R130): off at and past the payload's end. -/
def payloadBit (s : State) (k : Nat) : Bool :=
  decide (k < 8 * s.br.len) && decide (s.br.base + k / 8 < s.h.size) && (Memory.read s.src (s.br.base + k / 8)).getLsbD (k % 8)

/-- The Kraft sum of a length list in units of `2 ^ -32` (R162): at most `2 ^ 32` when the lengths are not over-subscribed. -/
def kraftSum (ls : List Nat) : Nat := (ls.map fun l => if l = 0 then 0 else 2 ^ (32 - l)).sum

/-- How many of the symbols have codes longer than the 12-bit lookup (R164). -/
def longCodes (ls : List Nat) : Nat := ls.countP (12 < ·)

/-- The bit prefixes of a code at which R164 puts a node: each of its first 12 bits or more, down to the whole of it; none for a
code of 12 bits or fewer. A prefix is its length and its bits in stream order. -/
def nodePrefixes (c : Config.CodeEntry) : List (Nat × Nat) :=
  if 12 < c.len then (List.range (c.len - 11)).map fun k => (12 + k, c.pattern % 2 ^ (12 + k)) else []

/-- How many overflow nodes the table of a code needs: one for each such prefix, however many codes share it (R164, R170). -/
def poolNodes (cs : List Config.CodeEntry) : Nat := (cs.flatMap nodePrefixes).dedup.length

/-- `t` is `s` but for the output buffer, the window and the positions a decoder's `OUT.EMIT` writes (R308). -/
def SameButOutput (d : Decoder) (s t : State) : Prop :=
  match d with
  | .m13 => t = { s with win := t.win, outMem := t.outMem, out := { s.out with cnt := t.out.cnt },
                         m13 := { s.m13 with wp := t.m13.wp } }
  | .m14 => t = { s with win := t.win, outMem := t.outMem, out := { s.out with cnt := t.out.cnt },
                         m14 := { s.m14 with wp := t.m14.wp } }

/-- `t` is `s` after the bytes `bs` were emitted one after another (R308): they stand in the output buffer from `OUT.cnt` on and in
the window from the write position on, modulo its size, each until a later one of them overwrites it; every other byte of both
is as before, and so is everything else. -/
def Appended (d : Decoder) (bs : Bytes) (s t : State) : Prop :=
  SameButOutput d s t
  ∧ t.out.cnt = s.out.cnt + bs.length
  ∧ windowPos d t = (windowPos d s + bs.length) % windowSize d
  ∧ (∀ i b, bs[i]? = some b → Memory.read t.outMem (s.out.cnt + i) = b)
  ∧ (∀ a, a < s.out.cnt ∨ s.out.cnt + bs.length ≤ a → Memory.read t.outMem a = Memory.read s.outMem a)
  ∧ (∀ i b, bs[i]? = some b → bs.length ≤ i + windowSize d → Memory.read t.win ((windowPos d s + i) % windowSize d) = b)
  ∧ ∀ a, (∀ i, i < bs.length → a ≠ (windowPos d s + i) % windowSize d) → Memory.read t.win a = Memory.read s.win a

/-- How far behind the write position a copy's first byte is: the offset reduced to `1 ..` the window's size (R241, R309). -/
def copyReach (d : Decoder) (off : Nat) : Nat := (off - 1) % windowSize d + 1

/-- The bytes a copy of `len` bytes at offset `off` appends, all from the window as it is before the copy: the last `copyReach`
bytes, again and again (R76, R309). -/
def copyBytes (d : Decoder) (len off : Nat) (s : State) : Bytes :=
  (List.range len).map fun i =>
    Memory.read s.win ((windowPos d s + windowSize d - copyReach d off + i % copyReach d off) % windowSize d)

/-- The profile that a static control word or `M13.STATIC` selects (R93, R183). -/
def staticProfile : Instr → Option Nat
  | .m13Static p => some p.val
  | .m13CtrlStatic0 _ => some 0
  | .m13CtrlStatic1 _ => some 1
  | .m13CtrlStatic2 _ => some 2
  | .m13CtrlStatic3 _ => some 3
  | .m13CtrlStatic4 _ => some 4
  | _ => none

/-- `t` is `s` after the length sequence of the level in progress got `k` more entries `v` (R232 to R234): nothing else of that
level changes, no other level, and nothing else. -/
def LengthsPut (v k : Nat) (s t : State) : Prop :=
  t = { s with m14 := { s.m14 with level := t.m14.level } }
  ∧ (∀ d, d ≠ s.m14.depth → levelAt t d = levelAt s d)
  ∧ curLevel t = { curLevel s with lens := (curLevel t).lens, i := (curLevel s).i + k }
  ∧ ∀ j, Memory.read (curLevel t).lens j
      = if (curLevel s).i ≤ j ∧ j < (curLevel s).i + k then v else Memory.read (curLevel s).lens j

/-- The memories of method 14's levels are canonical. -/
def levelsWf (s : State) : Bool := Memory.wf s.m14.level && s.m14.level.all fun p => p.2.memWf

/-! ## Safe runs -/

/-- Every open parameter is supplied in the form R9 gives it. -/
def paramsSupplied (p : Config.Params) : Bool :=
  (match p.romMeta with
    | some es => metaRomSound es && soundEntries es
    | none => false)
  && (match p.romStatic with
    | some ls => ls.length == 5 && ls.all profileSound
    | none => false)
  && (match p.romStaticBits with
    | some bs => bs.length == 5 && bs.all profileBitsSound
    | none => false)
  && p.lenOfSym.length == 31
  && p.errCode.distinct

/-- A run of any length from `s` goes on: no step faults, none is refused. -/
def RunsForever (s : State) : Prop := ∀ n, ∃ t, Host.Core.run Sys2Proof.core n s = .next t

end Sys2Proof.Machine
end

