-- ==== Sys2Proof/Certificates/Slice0/Obligations.lean ====
section
/-! DEFINITION. The statements for the provers, family by family. Every docstring names the rule of spec/ that the statement
formalises, and the log entry where a clause is the model's own. Where a clause gives the whole state after an error, what the
read state and the parse state hold there is the model's (log 11, and log 32 for a table being built): R326 leaves it open. -/

open Sys2Proof Sys2Proof.Machine

/-! ## Encoding -/

/-- A word of each format of R92 to R97, R102, R104 to R106, R108 and R109, written out from the format's table, is the instruction
that the table gives it. -/
def Obligations.SpecWordsDecode : Prop :=
  decode .magic1 (.num 0x53495421) = .ok .magicSit
  ∧ decode .magic1 (.num 0x53543436) = .ok .magicSt46
  ∧ decode .magic2 (.num 0x724C6175) = .ok .magicRLau
  ∧ decode .magic1 (.num 0x5A495021) = .ok (.magicOther 0x5A495021#32)
  ∧ decode .arch (.bytes [0x53#8, 0x49#8, 0x54#8, 0x21#8, 0x00#8, 0x01#8, 0x00#8, 0x00#8, 0x00#8, 0x8C#8, 0x72#8, 0x4C#8, 0x61#8,
      0x75#8, 0x01#8, 0#8, 0#8, 0#8, 0#8, 0#8, 0#8, 0#8])
    = .ok (.arch { magic := 0x53495421#32, count := 1#16, asize := 140#32, magic2 := 0x724C6175#32, version := 1#8, reserved := 0#56 })
  ∧ decode .ent (.bytes ([0x00#8, 0x20#8, 0x01#8, 0x41#8] ++ List.replicate 106 0#8 ++ [0x12#8, 0x34#8]))
    = .ok (.entFolderStart {
        resCompr := 0#8, dataCompr := 0x20#8, nameLen := 1#8, nameArea := 0x41#8 :: List.replicate 62 0#8, finderType := 0#32
        finderCreator := 0#32, finderFlags := 0#16, cdate := 0#32, mdate := 0#32, resUsize := 0#32, dataUsize := 0#32
        resCsize := 0#32, dataCsize := 0#32, resCrc := 0#16, dataCrc := 0#16, unknown := 0#48, headerCrc := 0x1234#16 })
  ∧ decode .cmpr (.num 0x8D) = .ok (.cmprEncrypted 0x8D#8)
  ∧ decode .cmpr (.num 0x0E) = .ok .cmprM14
  ∧ decode .cmpr (.num 0x05) = .ok (.cmprUnsupported 0x05#8)
  ∧ decode .m13Ctrl (.num 0x08) = .ok (.m13CtrlDynamic true 0#3)
  ∧ decode .m13Ctrl (.num 0x53) = .ok (.m13CtrlStatic4 3#4)
  ∧ decode .m13Ctrl (.num 0x60) = .ok (.m13CtrlIllegal 0x60#8)
  ∧ decode .m13Meta (.num 36) = .ok .metaRep6
  ∧ decode .m13Sym (.num 0x103) = .ok (.m13Len 0x103#9)
  ∧ decode .m13Sym (.num 0x140) = .ok .m13Eos
  ∧ decode .m13Ofs (.num 16) = .ok (.m13Ofs 16)
  ∧ decode .m14Hdr (.num 0x44) = .ok (.m14Hdr false 2#2 0#3 1#2)
  ∧ decode (.m14LenVal 15) (.num 15) = .ok .lvRepeat
  ∧ decode .m14Sym (.num 0x133) = .ok .m14MatchC51
  ∧ decode .m14Dist (.num 74) = .ok .m14DistD74

/-- Decode and encode agree: the word that spells a well-formed instruction in a format decodes to that instruction (R90 to R97,
R102 to R109). No bit of an operand is dropped. -/
def Obligations.DecodeOfEncode : Prop := ∀ f i w, i.wf = true → encode f i = some w → decode f w = .ok i

/-- Every word that decodes is the word the encoder writes for the instruction decoded: no instruction has two words in a format
and no bit of a word is ignored by the decoder (R90 to R97, R102 to R109). -/
def Obligations.EncodeOfDecode : Prop := ∀ f w i, decode f w = .ok i → encode f i = some w

/-- The decoder answers only instructions whose operands are in the ranges their rules give (R92 to R97, R102 to R109). -/
def Obligations.DecodedIsWellFormed : Prop := ∀ f w i, decode f w = .ok i → i.wf = true

/-! ## The sequencer -/

/-- Four of the things a step does: it performs the instruction that the next fetched word decodes to; it performs the instruction
that is the next line of the pseudocode; when no line is left, it takes the host's next command; with no command it waits
(R13, R52, R75, R360; the sequencer itself is the model's, log 1 and log 2). What it does where a fetch raises is in
FaultsAreTaken, and the lines that are no instruction are in the statements of their units. -/
def Obligations.StepRunsTheDecodedInstruction : Prop :=
  (∀ s f ts w t i, s.seq = .fetch f :: ts → fetchRaw f { s with seq := ts } = .ok w t → decode f w = .ok i → i.wf = true →
      step s = exec i t)
  ∧ (∀ s i ts, s.seq = .op i :: ts → i.wf = true → step s = exec i { s with seq := ts })
  ∧ (∀ s c cs, s.seq = [] → s.host = c :: cs → step s = exec (commandInstr c) { s with host := cs })
  ∧ ∀ s, s.seq = [] → s.host = [] → step s = .next s

/-- Where each format's word is fetched from: a magic big-endian from bytes 0 or 10 of `SRC`, the header record, the header
register, the fork's compression byte, the control byte, an 8-bit header or a raw value from the bit stream, a symbol of the
table in force (R10, R43, R94 to R97, R112, R167, R196, R222, R227, R230, R239). The model's own in this: the tree header is
read as one take of its eight bits, the sum of the takes of R223 (log 24); the two records are fetched whole, that of `ENT` from
`CP.hdr` (log 30). -/
def Obligations.FetchReadsTheWord : Prop :=
  (∀ s f a, (f = Format.magic1 ∧ a = 0) ∨ (f = Format.magic2 ∧ a = 10) → a + 4 ≤ s.h.size →
      fetchRaw f s = .ok (.num ((((Memory.read s.src a).toNat * 256 + (Memory.read s.src (a + 1)).toNat) * 256
        + (Memory.read s.src (a + 2)).toNat) * 256 + (Memory.read s.src (a + 3)).toNat)) s)
  ∧ (∀ s, 22 ≤ s.h.size → fetchRaw .arch s = .ok (.bytes (Memory.slice s.src 0 22)) s)
  ∧ (∀ s, fetchRaw .ent s = .ok (.bytes s.cp.hdr) s)
  ∧ (∀ s, fetchRaw .cmpr s = .ok (.num s.fork.compression.toNat) s)
  ∧ (∀ s, fetchRaw .m13Ctrl s = .ok (.num s.m13.ctrl.toNat) s)
  ∧ (∀ s, fetchRaw .m14Hdr s
      = .ok (.num (brField s s.br.pos 8)) { s with br := { s.br with pos := s.br.pos + 8 } })
  ∧ (∀ s r, (curLevel s).nested = false → fetchRaw (.m14LenVal r) s
      = .ok (.num (brField s s.br.pos (curLevel s).w)) { s with br := { s.br with pos := s.br.pos + (curLevel s).w } })
  ∧ ∀ s v t,
      (h12Decode .tMeta s = .ok v t → fetchRaw .m13Meta s = .ok (.num v) t)
      ∧ (s.m13.active = .first → h12Decode .t1 s = .ok v t → fetchRaw .m13Sym s = .ok (.num v) t)
      ∧ (s.m13.active = .second → h12Decode .t2 s = .ok v t → fetchRaw .m13Sym s = .ok (.num v) t)
      ∧ (h12Decode .tOfs s = .ok v t → fetchRaw .m13Ofs s = .ok (.num v) t)
      ∧ (h12Decode .tl s = .ok v t → fetchRaw .m14Sym s = .ok (.num v) t)
      ∧ (h12Decode .td s = .ok v t → fetchRaw .m14Dist s = .ok (.num v) t)
      ∧ ∀ r, (curLevel s).nested = true → h12Decode (.tn s.m14.depth) s = .ok v t →
          fetchRaw (.m14LenVal r) s = .ok (.num v) t

/-- What `raise` does (R320, R326): the command ends, no line of it is left, no result is delivered; `OPEN`'s kinds leave the
handle invalid and the index empty, a read's kinds leave both as they were; a fault of a fetch is taken so, and so is a symbol that
the format does not have. The model's own in this: that the kind tells which command it was, read off the last column of R320
(log 12); the read state being left as the pseudocode had it (log 11); `CorruptStream` for an undefined symbol of every format
(log 13). And the number the host reads as `ST.err` (R9, R44, R321): the kind's number by `ERR_CODE`, that of `OK` after a normal
end; by default the numbers of R321; different for different kinds whatever numbers were supplied, as R9 has the map injective. -/
def Obligations.FaultsAreTaken : Prop :=
  (∀ k, k ∈ [ErrKind.badMagic, .truncated, .nameTooLong, .headerCrcMismatch, .folderUnderflow, .duplicatePath] → ∀ s,
      takeError k s = { s with seq := [], st := { err := k, result := .none }, h := { s.h with valid := false },
                               idx := { entries := [], metadata := [] } })
  ∧ (∀ k, k ∈ [ErrKind.encrypted, .unsupportedMethod, .corruptStream, .payloadCrcMismatch, .notFound] → ∀ s,
      takeError k s = { s with seq := [], st := { err := k, result := .none } })
  ∧ (∀ s f ts k t, s.seq = .fetch f :: ts → fetchRaw f { s with seq := ts } = .raised k t → step s = .next (takeError k t))
  ∧ (∀ s f ts w t, s.seq = .fetch f :: ts → fetchRaw f { s with seq := ts } = .ok w t → decode f w = .error .undefinedSymbol →
      step s = .next (takeError .corruptStream t))
  ∧ (∀ k s, statusCode (takeError k s) = kindCode s.par.errCode k)
  ∧ (∀ r s, statusCode (endCommand r s) = s.par.errCode.ok)
  ∧ [ErrKind.ok, .badMagic, .truncated, .nameTooLong, .headerCrcMismatch, .encrypted, .unsupportedMethod, .corruptStream,
      .payloadCrcMismatch, .notFound, .folderUnderflow, .duplicatePath].map (kindCode Config.defaults.errCode)
    = [0, 1, 2, 3, 4, 5, 6, 7, 8, 9, 10, 11]
  ∧ ∀ p k k', paramsSupplied p = true → kindCode p.errCode k = kindCode p.errCode k' → k = k'

/-- After reset there is no handle, the index is empty, `ST.err` is `OK`, and the block waits: a step changes nothing (R51, R52;
log 10: the two queues being empty, and `CP.pos`, `CP.stack` and `CP.depth`, which R51 gives at the start of an `OPEN` only). -/
def Obligations.ResetIsIdle : Prop :=
  State.reset.h.valid = false ∧ State.reset.h.flatten = false ∧ State.reset.idx.entries = [] ∧ State.reset.idx.metadata = []
  ∧ State.reset.st.err = .ok ∧ State.reset.br.pos = 0 ∧ State.reset.cp.pos = 0 ∧ State.reset.cp.stack = []
  ∧ State.reset.cp.depth = 0 ∧ step State.reset = .next State.reset

/-! ## Invariants -/

/-- The reset state meets the invariant, whatever the open parameters are and whatever legal commands wait (R9, R50 to R52). -/
def Obligations.ResetMeetsInvariant : Prop :=
  ∀ p cs, cs.all Cmd.legal = true → State.Inv { State.reset with par := p, host := cs }

/-- Every step keeps the invariant: memories stay canonical, registers in their widths, tables well formed (R160, R164), the index
as R28 and R32 have it, the pending lines those of one command (R360). -/
def Obligations.InvariantKeptByEveryStep : Prop := ∀ s t, s.Inv → step s = .next t → t.Inv

/-- With every open parameter supplied no step from a state that meets the invariant faults or is refused (R335). -/
def Obligations.NoStopWithParameters : Prop := ∀ s, s.Inv → paramsSupplied s.par = true → ∃ t, step s = .next t

/-- With every open parameter supplied a run from reset goes on for ever, whatever legal commands the host has queued (R335). -/
def Obligations.RunsForeverFromReset : Prop :=
  ∀ p cs, paramsSupplied p = true → cs.all Cmd.legal = true → RunsForever { State.reset with par := p, host := cs }

/-- With every open parameter supplied every command ends: from any state that meets the invariant the lines in progress (or, when
idle, those of the host's next command) are used up after some number of steps, and no further command has been taken by then
(R312, R335, R358, R360). -/
def Obligations.EveryCommandEnds : Prop :=
  ∀ (s : State), s.Inv → paramsSupplied s.par = true →
    ∃ n t, 0 < n ∧ Host.Core.run Sys2Proof.core n s = .next t ∧ t.seq = []
      ∧ t.host = if s.seq = [] then s.host.tail else s.host

/-- No step changes an open parameter, and none changes `SRC` but one that performs an `OPEN` (R61, R352). -/
def Obligations.ParametersAndSourceKept : Prop :=
  ∀ s t, step s = .next t →
    t.par = s.par
    ∧ (t.src = s.src
        ∨ (s.seq = [] ∧ ∃ src size fl cs, s.host = .openArchive src size fl :: cs)
        ∨ ∃ src size fl ts, s.seq = .op (.hostOpen src size fl) :: ts)

/-- While a read runs, and through any number of commands after it that are not `OPEN`, the handle, the index and `SRC` stay as
they are, failed reads included (R299, R326, R327). -/
def Obligations.ReadsKeepTheHandle : Prop :=
  ∀ (s : State), s.Inv → s.seq.all (Task.ofRead s.h.size) = true → (∀ src size fl, Cmd.openArchive src size fl ∉ s.host) →
    ∀ n t, Host.Core.run Sys2Proof.core n s = .next t → t.h = s.h ∧ t.idx = s.idx ∧ t.src = s.src

/-- With no valid handle the commands see an empty index: `HAS` gives 0, `LIST` nothing, `READ` and `READ_RSRC` `NotFound`,
`READ_FINFO` `absent` (R290, D51). -/
def Obligations.InvalidHandleShowsEmptyIndex : Prop :=
  ∀ s, s.Inv → s.h.valid = false → s.seq = [] →
    (∀ p, exec (.hostHas p) s = .next { s with st := { err := .ok, result := .flag false } })
    ∧ exec .hostList s = .next { s with st := { err := .ok, result := .paths [] }, draws := s.draws + 1 }
    ∧ (∀ p, exec (.hostRead p) s = .next (takeError .notFound s))
    ∧ (∀ p, exec (.hostReadRsrc p) s = .next (takeError .notFound s))
    ∧ ∀ p, exec (.hostReadFinfo p) s = .next { s with st := { err := .ok, result := .absent } }

/-! ## BitReader -/

/-- `BR.PEEK` (R132): the result is the `n`-bit value whose bit `k` is the payload bit at `BR.pos + k`; nothing moves. -/
def Obligations.PeekReadsPayloadBits : Prop :=
  ∀ s n, 1 ≤ n → n ≤ 16 → ∃ v, exec (.brPeek n) s = .next { s with ret := .num v } ∧ v < 2 ^ n
    ∧ ∀ k, k < n → v.testBit k = payloadBit s (s.br.pos + k)

/-- `BR.INIT`, `BR.TAKE` and `BR.READBITS` (R131, R133, R137): the reader is set on a payload, at its end at once when it is empty;
the `n`-bit field at `BR.pos` is returned, whose bit `k` is the payload bit at `BR.pos + k`, and `BR.pos` moves `n` bits on, past
the end too; a field wider than a take is read in two, low piece first, with the same result. -/
def Obligations.TakeAndWideReadReturnOneField : Prop :=
  (∀ s base len, exec (.brInit base len) s = .next { s with br := { base := base, len := len, pos := 0 } })
  ∧ (∀ s base t, exec (.brInit base 0) s = .next t → exec .brEos t = .next { t with ret := .flag true })
  ∧ ∀ s i n, (i = .brTake n ∧ n ≤ 16) ∨ (i = .brReadBits n ∧ n ≤ 32) →
      ∃ v, exec i s = .next { s with br := { s.br with pos := s.br.pos + n }, ret := .num v } ∧ v < 2 ^ n
        ∧ ∀ k, k < n → v.testBit k = payloadBit s (s.br.pos + k)

/-- `BR.TAKE1`, `BR.ALIGN` and `BR.EOS` (R134, R135, R136): one bit; up to the next byte boundary and never past one; whether no
bit of the payload is left. -/
def Obligations.TakeOneAlignAndEndOfStream : Prop :=
  (∀ s, exec .brTake1 s = .next { s with br := { s.br with pos := s.br.pos + 1 },
                                         ret := .num (if payloadBit s s.br.pos then 1 else 0) })
  ∧ (∀ s, exec .brAlign s = .next { s with br := { s.br with pos := (s.br.pos + 7) / 8 * 8 } })
  ∧ ∀ s, exec .brEos s = .next { s with ret := .flag (decide (8 * s.br.len ≤ s.br.pos)) }

/-- The laws of R139: pieces of a field concatenate; a peek is the low part of a 16-bit peek; at a byte boundary inside the payload
a take of 8 is the next byte, the last one included, and one of 16 the next two little-endian; after an alignment the position is a whole byte. -/
def Obligations.ReaderLaws : Prop :=
  (∀ s a b, a + b ≤ 16 → (brTake a s).1 ||| ((brTake b (brTake a s).2).1 <<< a) = (brTake (a + b) s).1)
  ∧ (∀ s n, n ≤ 16 → brPeek n s = brPeek 16 s &&& ((1 <<< n) - 1))
  ∧ (∀ s p, s.br.pos = 8 * p → s.br.base + s.br.len ≤ s.h.size →
      (p + 1 ≤ s.br.len → (brTake 8 s).1 = (Memory.read s.src (s.br.base + p)).toNat)
      ∧ (p + 2 ≤ s.br.len →
        (brTake 16 s).1 = (Memory.read s.src (s.br.base + p)).toNat + 256 * (Memory.read s.src (s.br.base + p + 1)).toNat))
  ∧ ∀ s, (brAlign s).br.pos % 8 = 0

/-- The reader sees only its subrange: whatever stands in `SRC` outside `[BR.base, BR.base + BR.len)`, a read of bits or of a
symbol does the same (R80, R130). -/
def Obligations.ReaderSeesOnlyItsPayload : Prop :=
  ∀ s m, (∀ a, s.br.base ≤ a → a < s.br.base + s.br.len → Memory.read m a = Memory.read s.src a) →
    ∀ i, (∃ n, i = .brPeek n) ∨ (∃ n, i = .brTake n) ∨ i = .brTake1 ∨ (∃ n, i = .brReadBits n) ∨ (∃ T, i = .h12Decode T) →
      ∀ t, exec i s = .next t → exec i { s with src := m } = .next { t with src := m }

/-! ## CRC16 -/

/-- `CRC.INIT` and `CRC.UPDATE` (R151, R152): the accumulator is cleared; a byte enters at the low end and eight shifts follow,
each with the polynomial 0xA001 when a 1 falls out. The bit-serial form is the spec's general knowledge (log 23). -/
def Obligations.CrcInitAndUpdate : Prop :=
  (∀ s, exec .crcInit s = .next { s with crc := 0x0000#16 })
  ∧ (∀ s b, exec (.crcUpdate b) s = .next { s with crc := crcShifts 8 (s.crc ^^^ b.setWidth 16) })
  ∧ (∀ c, crcShifts 0 c = c ∧ ∀ n, crcShifts (n + 1) c = crcShifts n (if c.getLsbD 0 then (c >>> 1) ^^^ 0xA001#16 else c >>> 1))
  ∧ crcBytes 0 [0x31#8, 0x32#8, 0x33#8, 0x34#8, 0x35#8, 0x36#8, 0x37#8, 0x38#8, 0x39#8] = 0xBB3D#16

/-- `CRC.RANGE` (R153) over a range of each byte space: the CRC from zero of its bytes in address order, left in `CRC.acc` and
returned. -/
def Obligations.CrcOfARange : Prop :=
  (∀ s a n, a + n ≤ s.h.size → exec (.crcRange .src a n) s
      = .next { s with crc := crcBytes 0 (Memory.slice s.src a n), ret := .num (crcBytes 0 (Memory.slice s.src a n)).toNat })
  ∧ (∀ s a n, a + n ≤ s.out.size → exec (.crcRange .out a n) s
      = .next { s with crc := crcBytes 0 (Memory.slice s.outMem a n), ret := .num (crcBytes 0 (Memory.slice s.outMem a n)).toNat })
  ∧ (∀ s a n, a + n ≤ windowSize s.dec → exec (.crcRange .win a n) s
      = .next { s with crc := crcBytes 0 (Memory.slice s.win a n), ret := .num (crcBytes 0 (Memory.slice s.win a n)).toNat })
  ∧ ∀ s a n, a + n ≤ s.cp.hdr.length → exec (.crcRange .hdr a n) s
      = .next { s with crc := crcBytes 0 ((s.cp.hdr.drop a).take n), ret := .num (crcBytes 0 ((s.cp.hdr.drop a).take n)).toNat }

/-- The laws of R155: the CRC is linear over xor, and appending its two bytes low byte first gives 0; and a change of one byte always
changes the CRC, so that a header with one byte changed fails its check (R266). -/
def Obligations.CrcLaws : Prop :=
  (∀ xs ys : Bytes, xs.length = ys.length → crcBytes 0 (List.zipWith (· ^^^ ·) xs ys) = crcBytes 0 xs ^^^ crcBytes 0 ys)
  ∧ (∀ bs, crcBytes 0 (bs ++ [(crcBytes 0 bs).setWidth 8, (crcBytes 0 bs >>> 8).setWidth 8]) = 0#16)
  ∧ ∀ (xs ys : Bytes) (b c : Byte), crcBytes 0 (xs ++ b :: ys) = crcBytes 0 (xs ++ c :: ys) → b = c

/-- `CRC.VERIFY` (R306): the CRC of the whole output buffer is the fork's, or the read ends with `PayloadCrcMismatch`, the
accumulator then as the computation left it (the model's choice, log 11). -/
def Obligations.ForkCrcIsVerified : Prop :=
  ∀ s f, (crcBytes 0 (Memory.slice s.outMem 0 s.out.size) = f.crc → exec (.crcVerify f) s = .next { s with crc := f.crc })
    ∧ (crcBytes 0 (Memory.slice s.outMem 0 s.out.size) ≠ f.crc →
        exec (.crcVerify f) s
          = .next (takeError .payloadCrcMismatch { s with crc := crcBytes 0 (Memory.slice s.outMem 0 s.out.size) }))

/-! ## Huffman12 -/

/-- The canonical code (R161, R162, R163): codes come by length, then by symbol; the first is all zeros; each next one is the last
one plus one, shifted to its length (the `+ 1` is the spec's general knowledge, log 23); a symbol has a code exactly when
its length is not zero, of that length; `pattern` is the code with its first bit lowest. -/
def Obligations.CanonicalCodesFollowTheRule : Prop :=
  ∀ ls cs, (∀ l, l ∈ ls → l ≤ 32) → canonicalCodes ls = some cs →
    (cs.Pairwise fun a b => a.len < b.len ∨ (a.len = b.len ∧ a.sym < b.sym))
    ∧ (∀ a, cs.head? = some a → a.pattern = 0)
    ∧ (∀ i a b, cs[i]? = some a → cs[i + 1]? = some b →
        revBits b.pattern b.len = (revBits a.pattern a.len + 1) <<< (b.len - a.len))
    ∧ (∀ c, c ∈ cs → c.pattern < 2 ^ c.len)
    ∧ ∀ sym, (cs.filter fun c => c.sym = sym).map (fun c => c.len) = (ls[sym]?.toList.filter fun l => l ≠ 0)

/-- `H12.BUILD` (R165, R169, R170). Lengths of at most 32 whose Kraft sum is at most 1 have codes, and their table needs `poolNodes`
overflow nodes: no more than 21 for each code longer than 12 bits, and no more than two for each and 20. With so many in the
pool the table is made, of just so many nodes, and nothing else changes; with fewer the read ends with `CorruptStream`, as it
does for over-subscribed lengths and for a length above 32. That the old table stays after an error is the model's choice
(log 32; log 11 for the rest of the read state), where R165 clears it first. -/
def Obligations.BuildSucceedsWithinKraft : Prop :=
  ∀ s T ls, ls.length ≤ 321 →
    ((∀ l, l ∈ ls → l ≤ 32) → kraftSum ls ≤ 2 ^ 32 → ∃ cs, canonicalCodes ls = some cs
      ∧ poolNodes cs ≤ 21 * longCodes ls ∧ poolNodes cs ≤ 2 * longCodes ls + 20
      ∧ (poolNodes cs ≤ s.par.poolSlots → ∃ v, buildTable s.par.poolSlots ls = some v ∧ v.nnodes = poolNodes cs
          ∧ exec (.h12Build T ls.length ls) s = .next (withTable s T v))
      ∧ (s.par.poolSlots < poolNodes cs → exec (.h12Build T ls.length ls) s = .next (takeError .corruptStream s)))
    ∧ ((∀ l, l ∈ ls → l ≤ 32) → 2 ^ 32 < kraftSum ls →
      exec (.h12Build T ls.length ls) s = .next (takeError .corruptStream s))
    ∧ ((∃ l, l ∈ ls ∧ 32 < l) → exec (.h12Build T ls.length ls) s = .next (takeError .corruptStream s))

/-- `H12.BUILDX` (R166): a prefix-free code makes a table when the pool has the nodes it needs, at most 21 for each entry (R170), so
the default pool for every 37 of them; with fewer the read ends with `CorruptStream` (R164, R169; the old table staying is
log 32); a list that is no prefix code is refused. -/
def Obligations.BuildOfAnExplicitCode : Prop :=
  ∀ s T es,
    (soundEntries es = true → poolNodes es ≤ 21 * es.length
      ∧ (poolNodes es ≤ s.par.poolSlots → ∃ v, buildTableX s.par.poolSlots es = some v ∧ v.nnodes = poolNodes es
          ∧ exec (.h12Buildx T es) s = .next (withTable s T v))
      ∧ (s.par.poolSlots < poolNodes es → exec (.h12Buildx T es) s = .next (takeError .corruptStream s)))
    ∧ (soundEntries es = false → exec (.h12Buildx T es) s = .refused .badRom)

/-- `H12.DECODE` of a table that `H12.BUILD` made of lengths, or `H12.BUILDX` of explicit patterns (R166 to R168): when the next bits
of the stream are a code, its symbol is returned and `BR.pos` moves past it; when they are no code's, the read ends with
`CorruptStream`. -/
def Obligations.DecodeReadsExactlyTheCodes : Prop :=
  ∀ s T cs v, ((∃ ls, canonicalCodes ls = some cs ∧ buildTable s.par.poolSlots ls = some v)
      ∨ (soundEntries cs = true ∧ buildTableX s.par.poolSlots cs = some v)) → tableAt s T = v →
    (∀ c, c ∈ cs → brField s s.br.pos c.len = c.pattern →
      exec (.h12Decode T) s = .next { s with br := { s.br with pos := s.br.pos + c.len }, ret := .num c.sym })
    ∧ ((∀ c, c ∈ cs → brField s s.br.pos c.len ≠ c.pattern) →
      ∃ n, exec (.h12Decode T) s = .next (takeError .corruptStream { s with br := { s.br with pos := s.br.pos + n } }))

/-! ## Output -/

/-- `OUT.EMIT` (R308): with room, the byte stands in the buffer and in the window and both positions move on; without, the read
ends with `CorruptStream` before anything is written. -/
def Obligations.EmitWritesBufferAndWindow : Prop :=
  (∀ s b, Memory.wf s.win = true → Memory.wf s.outMem = true → s.out.cnt < s.out.size →
      ∃ t, exec (.outEmit b) s = .next t ∧ Appended s.dec [b] s t)
  ∧ ∀ s b, s.out.size ≤ s.out.cnt → exec (.outEmit b) s = .next (takeError .corruptStream s)

/-- `OUT.COPY` (R76, R309): byte after byte, so that with an offset shorter than the length the copy repeats the last bytes; a copy
that does not fit ends the read with `CorruptStream`. -/
def Obligations.CopyRepeatsTheWindow : Prop :=
  ∀ s len off, 1 ≤ len → 1 ≤ off →
    (Memory.wf s.win = true → Memory.wf s.outMem = true → s.out.cnt + len ≤ s.out.size →
      ∃ t, exec (.outCopy len off) s = .next t ∧ Appended s.dec (copyBytes s.dec len off s) s t)
    ∧ (s.out.size < s.out.cnt + len → ∃ t, exec (.outCopy len off) s = .next (takeError .corruptStream t) ∧ t.h = s.h
        ∧ t.idx = s.idx ∧ t.src = s.src)

/-- `M0.COPY` and `CMPR.M0` (R302): the fork's bytes are copied to the start of the buffer; sizes that differ are
`CorruptStream`. -/
def Obligations.StoredForkIsCopied : Prop :=
  ∀ s i f, (i = .m0Copy f ∨ (i = .cmprM0 ∧ f = s.fork)) →
    (f.csize = f.usize → f.offset + f.usize.toNat ≤ s.h.size → Memory.wf s.outMem = true →
      ∃ t, exec i s = .next t ∧ t = { s with outMem := t.outMem, out := { s.out with cnt := s.out.size } }
        ∧ (∀ k, k < f.usize.toNat → Memory.read t.outMem k = Memory.read s.src (f.offset + k))
        ∧ ∀ k, f.usize.toNat ≤ k → Memory.read t.outMem k = Memory.read s.outMem k)
    ∧ (f.csize ≠ f.usize → exec i s = .next (takeError .corruptStream s))

/-! ## Method 13 -/

/-- `M13.STATIC` and the static control words (R93, R118, R183): the three tables are built from the profile's lengths; no bit of
the stream is read and the control word's low nibble is not looked at. -/
def Obligations.StaticProfileBuildsTables : Prop :=
  ∀ s i p ls bs l nb a b c, staticProfile i = some p → s.par.romStatic = some ls → s.par.romStaticBits = some bs →
    ls[p]? = some l → bs[p]? = some nb → l.length = 658 → (∀ x, x ∈ l → x ≤ 32) → 11 ≤ nb → nb ≤ 14 →
    buildTable s.par.poolSlots (l.take 321) = some a → buildTable s.par.poolSlots ((l.drop 321).take 321) = some b →
    buildTable s.par.poolSlots ((l.drop 642).take nb) = some c →
    exec i s = .next { s with m13 := { s.m13 with t1 := a, t2 := b, tOfs := c } }

/-- `M13.DYNAMIC` and its control word (R93, R186): the meta table is built from ROM, and what follows is, in order, a sequence of
321 lengths and the first tree, the second tree as a copy or from another 321 lengths, a sequence of `nofs + 10` lengths and
the offset tree. -/
def Obligations.DynamicModeReadsItsTrees : Prop :=
  ∀ s i copy nofs es, (i = .m13CtrlDynamic copy nofs ∨
      (i = .m13Dynamic ∧ copy = s.m13.ctrl.getLsbD 3 ∧ nofs = s.m13.ctrl.extractLsb' 0 3)) →
    s.par.romMeta = some es → es.length = 37 → (∀ sym, sym < 37 → ∃ e, e ∈ es ∧ e.sym = sym) → soundEntries es = true →
    777 ≤ s.par.poolSlots →
    ∃ v, buildTableX s.par.poolSlots es = some v ∧ exec i s = .next { s with
      m13 := { s.m13 with tMeta := v }
      seq := [.op (.m13ReadLengths 321), .m13BuildT1]
        ++ (if copy then [.m13CopyT2] else [.op (.m13ReadLengths 321), .m13BuildT2])
        ++ [.op (.m13ReadLengths (nofs.toNat + 10)), .m13BuildTO (nofs.toNat + 10)] ++ s.seq }

/-- A method-13 read whose ROM parameter was not supplied is refused, by that name and without an error kind (R14, R183, R186,
R335). One that is not of the form R9 gives it, a profile with a length above 32 or a meta code without one of its 37 symbols, is
refused by another name (the model's choice, log 17). -/
def Obligations.MissingRomIsRefused : Prop :=
  (∀ s copy nofs, s.par.romMeta = none →
      exec (.m13CtrlDynamic copy nofs) s = .refused .noRom ∧ exec .m13Dynamic s = .refused .noRom)
  ∧ (∀ s i p, staticProfile i = some p → s.par.romStatic = none ∨ s.par.romStaticBits = none → exec i s = .refused .noRom)
  ∧ (∀ s copy nofs es sym, s.par.romMeta = some es → sym < 37 → (∀ e, e ∈ es → e.sym ≠ sym) →
      exec (.m13CtrlDynamic copy nofs) s = .refused .badRom ∧ exec .m13Dynamic s = .refused .badRom)
  ∧ ∀ s i p ls bs l x, staticProfile i = some p → s.par.romStatic = some ls → s.par.romStaticBits = some bs → ls[p]? = some l →
      x ∈ l → 32 < x → exec i s = .refused .badRom

/-- `META.ABSENT`, `META.INC` and `META.DEC` (R189 to R191): the current length becomes -1, one more, one less. -/
def Obligations.MetaChangesTheCurrentLength : Prop :=
  ∀ s, exec .metaAbsent s = .next { s with m13 := { s.m13 with cur := -1 } }
    ∧ exec .metaInc s = .next { s with m13 := { s.m13 with cur := s.m13.cur + 1 } }
    ∧ exec .metaDec s = .next { s with m13 := { s.m13 with cur := s.m13.cur - 1 } }

/-- `META.SET` (R188): the current length becomes `M13_LEN_OF_SYM` of the symbol; with the parameter's default that is `s + 1`, the
spec's own recollection (log 5). -/
def Obligations.MetaSetsTheCurrentLength : Prop :=
  (∀ s (sym : Fin 31) v, s.par.lenOfSym[sym.val]? = some v → exec (.metaSet sym) s = .next { s with m13 := { s.m13 with cur := v } })
  ∧ ∀ sym : Fin 31, Config.defaults.lenOfSym[sym.val]? = some (sym.val + 1 : Int)

/-- `M13.EMITLEN` and the repeats (R192 to R195): the current length, as 0 where it is not positive, is written at the next `r`
indices; `r` is 1, or what the extra bits say; an emission past the sequence or of a length above 32 is `CorruptStream`. -/
def Obligations.RepeatsEmitTheCurrentLength : Prop :=
  ∀ s i n bits r,
    ((i = .m13EmitLen n ∧ bits = 0 ∧ r = 1) ∨ (i = .metaRep1 ∧ n = s.m13.n ∧ bits = 1 ∧ r = brPeek 1 s)
      ∨ (i = .metaRep3 ∧ n = s.m13.n ∧ bits = 3 ∧ r = brPeek 3 s + 2)
      ∨ (i = .metaRep6 ∧ n = s.m13.n ∧ bits = 6 ∧ r = brPeek 6 s + 10)) →
    (Memory.wf s.m13.lens = true → s.m13.cur ≤ 32 → s.m13.idx + r ≤ n →
      ∃ t, exec i s = .next t
        ∧ t = { s with br := { s.br with pos := s.br.pos + bits },
                       m13 := { s.m13 with lens := t.m13.lens, idx := s.m13.idx + r } }
        ∧ ∀ k, Memory.read t.m13.lens k
            = if s.m13.idx ≤ k ∧ k < s.m13.idx + r then s.m13.cur.toNat else Memory.read s.m13.lens k)
    ∧ (1 ≤ r → n < s.m13.idx + r ∨ 32 < s.m13.cur → ∃ t, exec i s = .next (takeError .corruptStream t))

/-- `M13.LIT` and `M13.EOS` (R200, R201): a literal is emitted and the first tree is next; the end symbol leaves the symbol loop
and changes nothing else. -/
def Obligations.Method13LiteralAndEnd : Prop :=
  (∀ s b, Memory.wf s.win = true → Memory.wf s.outMem = true → s.out.cnt < s.out.size →
      ∃ u, Appended .m13 [b] s u ∧ exec (.m13Lit b) s = .next { u with m13 := { u.m13 with active := .first } })
  ∧ (∀ s b, s.out.size ≤ s.out.cnt → exec (.m13Lit b) s = .next (takeError .corruptStream s))
  ∧ (∀ s ts, s.seq = .m13Loop :: ts → exec .m13Eos s = .next { s with seq := ts })
  ∧ ∀ s, (∀ ts, s.seq ≠ .m13Loop :: ts) → exec .m13Eos s = .next s

/-- `M13.LEN`, `M13.MED` and `M13.LONG` (R102, R103, R197 to R199, R202): the length from the symbol or from 10 or 15 extra bits,
then the offset prefix and its extra bits, then the copy; the second tree is next. A copy that does not fit the output ends the
read with `CorruptStream` (R308, R309, R324), and so does an offset code that cannot be decoded (R167), or one that is no prefix
(log 13). -/
def Obligations.Method13MatchCopies : Prop :=
  ∀ s i len bits,
    ((∃ sym, i = .m13Len sym ∧ 0x100 ≤ sym.toNat ∧ sym.toNat ≤ 0x13D ∧ bits = 0 ∧ len = sym.toNat - 0x100 + 3)
      ∨ (i = .m13Med ∧ bits = 10 ∧ len = brPeek 10 s + 65) ∨ (i = .m13Long ∧ bits = 15 ∧ len = brPeek 15 s + 65)) →
    (∀ v u, h12Decode .tOfs { s with br := { s.br with pos := s.br.pos + bits } } = .ok v u →
      (v < 17 → Memory.wf s.win = true → Memory.wf s.outMem = true → s.out.cnt + len ≤ s.out.size →
        ∃ off w, off = (if v = 0 then 0 else 2 ^ (v - 1) + brPeek (v - 1) u) + 1
          ∧ Appended .m13 (copyBytes .m13 len off s) { s with br := { s.br with pos := u.br.pos + (v - 1) } } w
          ∧ exec i s = .next { w with m13 := { w.m13 with active := .second } })
      ∧ (v < 17 → s.out.size < s.out.cnt + len → ∃ t, exec i s = .next (takeError .corruptStream t) ∧ t.h = s.h ∧ t.idx = s.idx
          ∧ t.src = s.src)
      ∧ (17 ≤ v → exec i s = .next (takeError .corruptStream u)))
    ∧ ∀ k u, h12Decode .tOfs { s with br := { s.br with pos := s.br.pos + bits } } = .raised k u →
        k = .corruptStream ∧ exec i s = .next (takeError .corruptStream u)

/-- `M13.OFS` of a prefix (R104, R202): prefix 0 is offset 1, prefix `v` the offsets `2 ^ (v - 1) + 1` to `2 ^ v`, by `v - 1` extra
bits. As an instruction by itself it leaves the offset in the model's `ret` (log 31). -/
def Obligations.Method13OffsetOfAPrefix : Prop :=
  ∀ s (v : Fin 17), ∃ off, exec (.m13Ofs v) s
      = .next { s with br := { s.br with pos := s.br.pos + (v.val - 1) }, ret := .num off }
    ∧ (v.val = 0 → off = 1)
    ∧ (v.val ≠ 0 → off = 2 ^ (v.val - 1) + brPeek (v.val - 1) s + 1 ∧ 2 ^ (v.val - 1) + 1 ≤ off ∧ off ≤ 2 ^ v.val)

/-- The frame of method 13 (R181, R187, R196, R304): the dispatch runs `M13.START`, which takes the control byte, decodes it, selects the first
tree and runs the symbol loop; a length sequence starts at length 0 and index 0; an illegal control byte is `CorruptStream`. -/
def Obligations.Method13Frame : Prop :=
  (∀ s, exec .cmprM13 s = .next { s with dec := .m13, seq := .op .m13Start :: s.seq })
  ∧ (∀ s, exec .m13Start s = .next { s with
      br := { s.br with pos := s.br.pos + 8 }
      m13 := { s.m13 with ctrl := BitVec.ofNat 8 (brPeek 8 s) }
      seq := .fetch .m13Ctrl :: .m13Begin :: s.seq })
  ∧ (∀ s ts, s.seq = .m13Begin :: ts →
      step s = .next { s with m13 := { s.m13 with active := .first, wp := 0 }, seq := .op .m13Run :: ts })
  ∧ (∀ s, exec .m13Run s = .next { s with seq := .m13Loop :: .m13End :: s.seq })
  ∧ (∀ s n, exec (.m13ReadLengths n) s = .next { s with m13 := { s.m13 with cur := 0, idx := 0, n := n }, seq := .metaLoop :: s.seq })
  ∧ ∀ s b, exec (.m13CtrlIllegal b) s = .next (takeError .corruptStream s)

/-! ## Method 14 -/

/-- `M14.HDR` (R43, R223 to R226): the level's width, largest value, bias, repeat marker and mode; selector bit 1 is ignored. -/
def Obligations.TreeHeaderSetsItsFields : Prop :=
  ∀ s k (j : BitVec 2) (o : BitVec 3) (sel : BitVec 2), levelsWf s = true →
    ∃ t, exec (.m14Hdr k j o sel) s = .next t
      ∧ t = { s with m14 := { s.m14 with level := t.m14.level } }
      ∧ (∀ d, d ≠ s.m14.depth → levelAt t d = levelAt s d)
      ∧ curLevel t = { curLevel s with
          k := k
          w := j.toNat + 2
          m := 2 ^ (j.toNat + 2) - 1
          bias := o.toNat + 1
          r := if k then 2 ^ (j.toNat + 2) - 2 else 2 ^ (j.toNat + 2) - 1
          nested := sel.getLsbD 0 }

/-- `LV.ZERO`, `LV.VALUE` and `LV.REPEAT` (R232 to R234): the next length is 0, or the value plus the bias, or the previous length
`e + 3` times where `e` is one more value; a length above 32, a repeat with nothing before it or past the sequence, and a count
that cannot be decoded (nested mode, R230) are `CorruptStream`. Where `BR.pos` stands after the last is the model's choice (log 11). -/
def Obligations.LengthValuesSetLengths : Prop :=
  (∀ s, levelsWf s = true → ∃ t, exec .lvZero s = .next t ∧ LengthsPut 0 1 s t)
  ∧ (∀ s (v : BitVec 5), levelsWf s = true → v.toNat + (curLevel s).bias ≤ 32 →
      ∃ t, exec (.lvValue v) s = .next t ∧ LengthsPut (v.toNat + (curLevel s).bias) 1 s t)
  ∧ (∀ s (v : BitVec 5), 32 < v.toNat + (curLevel s).bias → exec (.lvValue v) s = .next (takeError .corruptStream s))
  ∧ (∀ s e u, levelsWf s = true → 1 ≤ (curLevel s).i → lvNext s = .ok e u → (curLevel s).i + (e + 3) ≤ (curLevel s).n →
      ∃ t, exec .lvRepeat s = .next t
        ∧ LengthsPut (Memory.read (curLevel s).lens ((curLevel s).i - 1)) (e + 3) { s with br := { s.br with pos := u.br.pos } } t)
  ∧ (∀ s, (curLevel s).i = 0 → exec .lvRepeat s = .next (takeError .corruptStream s))
  ∧ (∀ s e u, levelsWf s = true → 1 ≤ (curLevel s).i → lvNext s = .ok e u → (curLevel s).n < (curLevel s).i + (e + 3) →
      ∃ t, exec .lvRepeat s = .next (takeError .corruptStream t))
  ∧ ∀ s k u, 1 ≤ (curLevel s).i → lvNext s = .raised k u →
      k = .corruptStream ∧ exec .lvRepeat s = .next (takeError .corruptStream u)

/-- The two tables of method 14 (R107, R108): the length codes with their extra bits tile `4 .. 16387` and the offset codes
`1 .. 1048575`, every value by one code and one extra field only. -/
def Obligations.Method14TablesTile : Prop :=
  (∀ len, (∃ c e, c < 52 ∧ e < 2 ^ extra14 c ∧ base14 c + e = len) ↔ 4 ≤ len ∧ len ≤ 16387)
  ∧ (∀ c e c' e', c < 52 → e < 2 ^ extra14 c → c' < 52 → e' < 2 ^ extra14 c' → base14 c + e = base14 c' + e' → c = c' ∧ e = e')
  ∧ (∀ off, (∃ d e, d < 75 ∧ e < 2 ^ extra14o d ∧ base14o d + e = off) ↔ 1 ≤ off ∧ off ≤ 1048575)
  ∧ ∀ d e d' e', d < 75 → e < 2 ^ extra14o d → d' < 75 → e' < 2 ^ extra14o d' → base14o d + e = base14o d' + e' → d = d' ∧ e = e'

/-- The 75 `M14.DIST` rows (R108, R242): base and extra bits of the code. As an instruction by itself a row leaves the offset in
the model's `ret` (log 31). -/
def Obligations.OffsetRowsReadTheirExtraBits : Prop :=
  ∀ s i d, i.distCode = some d → ∃ e, e < 2 ^ extra14o d
    ∧ (∀ k, k < extra14o d → e.testBit k = payloadBit s (s.br.pos + k))
    ∧ exec i s = .next { s with br := { s.br with pos := s.br.pos + extra14o d }, ret := .num (base14o d + e) }

/-- `M14.LIT` and the 52 `M14.MATCH` rows (R106, R240 to R242): a literal is emitted; a match reads its length, an offset code and its
offset, and copies; the block's count goes down by what was produced. A match longer than the block's rest, or one that does not
fit the output (R308, R309, R324), ends the read with `CorruptStream`, as does an offset code that cannot be decoded (R167) or is
none of the 75 (log 13). Where `BR.pos` stands after such an end is the model's choice (log 11). -/
def Obligations.Method14LiteralAndMatch : Prop :=
  (∀ s b, Memory.wf s.win = true → Memory.wf s.outMem = true → s.out.cnt < s.out.size →
      ∃ u, Appended .m14 [b] s u ∧ exec (.m14Lit b) s = .next { u with m14 := { u.m14 with rem := s.m14.rem - 1 } })
  ∧ (∀ s b, s.out.size ≤ s.out.cnt → exec (.m14Lit b) s = .next (takeError .corruptStream s))
  ∧ (∀ s i c d u, i.matchCode = some c →
      h12Decode .td { s with br := { s.br with pos := s.br.pos + extra14 c } } = .ok d u → d < 75 →
      ∃ len off, len = base14 c + (brReadBits (extra14 c) s).1 ∧ off = base14o d + (brReadBits (extra14o d) u).1
        ∧ (len ≤ s.m14.rem → Memory.wf s.win = true → Memory.wf s.outMem = true → s.out.cnt + len ≤ s.out.size →
            ∃ w, Appended .m14 (copyBytes .m14 len off s) { s with br := { s.br with pos := u.br.pos + extra14o d } } w
              ∧ exec i s = .next { w with m14 := { w.m14 with rem := s.m14.rem - len } })
        ∧ (s.m14.rem < len →
            exec i s = .next (takeError .corruptStream { s with br := { s.br with pos := u.br.pos + extra14o d } }))
        ∧ (s.out.size < s.out.cnt + len → ∃ t, exec i s = .next (takeError .corruptStream t) ∧ t.h = s.h ∧ t.idx = s.idx
            ∧ t.src = s.src))
  ∧ (∀ s i c d u, i.matchCode = some c →
      h12Decode .td { s with br := { s.br with pos := s.br.pos + extra14 c } } = .ok d u → 75 ≤ d →
      exec i s = .next (takeError .corruptStream u))
  ∧ ∀ s i c k u, i.matchCode = some c →
      h12Decode .td { s with br := { s.br with pos := s.br.pos + extra14 c } } = .raised k u →
      k = .corruptStream ∧ exec i s = .next (takeError .corruptStream u)

/-- The frame of method 14 (R222, R236 to R238, R305): the dispatch runs `M14.START`, which takes the block count; a block takes the
skipped size and its count, and an empty block reads no trees; a block with no stream left is `CorruptStream`. -/
def Obligations.Method14FrameAndBlocks : Prop :=
  (∀ s, exec .cmprM14 s = .next { s with dec := .m14, seq := .op .m14Start :: s.seq })
  ∧ (∀ s, exec .m14Start s = .next { s with
      br := { s.br with pos := s.br.pos + 16 }
      m14 := { s.m14 with nblk := brPeek 16 s, wp := 0, depth := 0 }
      seq := .m14Blocks :: .m14End :: s.seq })
  ∧ (∀ s, 8 * s.br.len ≤ s.br.pos → exec .m14Block s = .next (takeError .corruptStream s))
  ∧ (∀ s n, s.br.pos < 8 * s.br.len → n = brField s (s.br.pos + 32) 32 → exec .m14Block s = .next { s with
      br := { s.br with pos := s.br.pos + 64 }
      m14 := { s.m14 with skip := brField s s.br.pos 32 }
      seq := (if n = 0 then [.m14BlockEnd]
        else [.op (.m14ReadLengths 308 0), .m14BuildTL, .op (.m14ReadLengths 75 0), .m14BuildTD, .m14SetRem n, .m14Loop,
              .m14BlockEnd]) ++ s.seq })
  ∧ ∀ s n d, levelsWf s = true → ∃ t, exec (.m14ReadLengths n d) s = .next t
      ∧ t = { s with m14 := { s.m14 with level := t.m14.level, depth := d }, seq := .fetch .m14Hdr :: .m14Mode d :: s.seq }
      ∧ (∀ d', d' ≠ d → levelAt t d' = levelAt s d') ∧ levelAt t d = { levelAt s d with n := n, i := 0 }

/-- The lines of the decoders between their instructions (R186, R187, R196, R203, R222, R228, R229, R236, R237, R239, R243): when a
loop goes on and when it ends, when the nesting is too deep, and when the output falls short; the lengths read become the tables
of both methods, or the read ends with `CorruptStream` where they make none; the nested table is that of the outer level, which
is in progress again; the second tree may be a copy of the first; a block's count is set. -/
def Obligations.DecoderLoopLines : Prop :=
  (∀ s ts, s.seq = .metaLoop :: ts → step s = .next (if s.m13.idx < s.m13.n
      then { s with seq := .fetch .m13Meta :: .op (.m13EmitLen s.m13.n) :: .metaLoop :: ts }
      else { s with seq := ts, ret := .lens (Memory.slice s.m13.lens 0 s.m13.n) }))
  ∧ (∀ s ts, s.seq = .m13Loop :: ts → step s = .next (if 8 * s.br.len ≤ s.br.pos then { s with seq := ts }
      else { s with seq := .fetch .m13Sym :: .m13Loop :: ts }))
  ∧ (∀ s ts e, s.seq = e :: ts → e = .m13End ∨ e = .m14End → step s = .next (if s.out.cnt = s.out.size
      then { s with seq := ts } else takeError .corruptStream { s with seq := ts }))
  ∧ (∀ s d ts, s.seq = .m14Mode d :: ts → step s = .next (if (levelAt s d).nested = false
      then { s with seq := .lvLoop :: ts }
      else if s.par.nestMax ≤ d then takeError .corruptStream { s with seq := ts }
      else { s with seq := .op (.m14ReadLengths 32 (d + 1)) :: .m14BuildTN d :: .lvLoop :: ts }))
  ∧ (∀ s ts, s.seq = .lvLoop :: ts → step s = .next (if (curLevel s).i < (curLevel s).n
      then { s with seq := .fetch (.m14LenVal (curLevel s).r) :: .lvLoop :: ts }
      else { s with seq := ts, ret := .lens (Memory.slice (curLevel s).lens 0 (curLevel s).n) }))
  ∧ (∀ s ts, s.seq = .m14Blocks :: ts → step s = .next (if s.m14.nblk = 0 then { s with seq := ts }
      else { s with seq := .op .m14Block :: .m14Blocks :: ts }))
  ∧ (∀ s ts, s.seq = .m14Loop :: ts → step s = .next (if s.m14.rem = 0 then { s with seq := ts }
      else if 8 * s.br.len ≤ s.br.pos then takeError .corruptStream { s with seq := ts }
      else { s with seq := .fetch .m14Sym :: .m14Loop :: ts }))
  ∧ (∀ s ts, s.seq = .m14BlockEnd :: ts → step s = .next { s with
      seq := ts
      br := { s.br with pos := (s.br.pos + 7) / 8 * 8 }
      m14 := { s.m14 with nblk := s.m14.nblk - 1 } })
  ∧ (∀ s ts e v t, s.seq = e :: ts →
      ((e = .m13BuildT1 ∧ buildTable s.par.poolSlots (Memory.slice s.m13.lens 0 321) = some v
          ∧ t = { s with seq := ts, m13 := { s.m13 with t1 := v } })
        ∨ (e = .m13BuildT2 ∧ buildTable s.par.poolSlots (Memory.slice s.m13.lens 0 321) = some v
          ∧ t = { s with seq := ts, m13 := { s.m13 with t2 := v } })
        ∨ (∃ n, e = .m13BuildTO n ∧ buildTable s.par.poolSlots (Memory.slice s.m13.lens 0 n) = some v
          ∧ t = { s with seq := ts, m13 := { s.m13 with tOfs := v } })
        ∨ (e = .m14BuildTL ∧ buildTable s.par.poolSlots (Memory.slice (levelAt s 0).lens 0 308) = some v
          ∧ t = { s with seq := ts, m14 := { s.m14 with tl := v } })
        ∨ (e = .m14BuildTD ∧ buildTable s.par.poolSlots (Memory.slice (levelAt s 0).lens 0 75) = some v
          ∧ t = { s with seq := ts, m14 := { s.m14 with td := v } })) →
      step s = .next t)
  ∧ (∀ s ts d v, s.seq = .m14BuildTN d :: ts → levelsWf s = true →
      buildTable s.par.poolSlots (Memory.slice (levelAt s (d + 1)).lens 0 32) = some v →
      ∃ t, step s = .next t ∧ t = { s with seq := ts, m14 := { s.m14 with level := t.m14.level, depth := d } }
        ∧ (∀ d', d' ≠ d → levelAt t d' = levelAt s d') ∧ levelAt t d = { levelAt s d with tn := v })
  ∧ (∀ s ts e ls, s.seq = e :: ts → buildTable s.par.poolSlots ls = none →
      (((e = .m13BuildT1 ∨ e = .m13BuildT2) ∧ ls = Memory.slice s.m13.lens 0 321)
        ∨ (∃ n, e = .m13BuildTO n ∧ ls = Memory.slice s.m13.lens 0 n)
        ∨ (∃ d, e = .m14BuildTN d ∧ ls = Memory.slice (levelAt s (d + 1)).lens 0 32)
        ∨ (e = .m14BuildTL ∧ ls = Memory.slice (levelAt s 0).lens 0 308)
        ∨ (e = .m14BuildTD ∧ ls = Memory.slice (levelAt s 0).lens 0 75)) →
      ∃ t, step s = .next (takeError .corruptStream t) ∧ t.h = s.h ∧ t.idx = s.idx ∧ t.src = s.src)
  ∧ (∀ s ts, s.seq = .m13CopyT2 :: ts → step s = .next { s with seq := ts, m13 := { s.m13 with t2 := s.m13.t1 } })
  ∧ ∀ s ts n, s.seq = .m14SetRem n :: ts → step s = .next { s with seq := ts, m14 := { s.m14 with rem := n } }

/-! ## Container -/

/-- The magics and the archive header (R95, R96, R262): each of the nine primary magics is accepted alike, `rLau` ends the header
at position 22, any other value is `BadMagic`; the header record gives the archive size; a stream too short for the magic is
`Truncated`, and after the magic so is one of fewer than 22 bytes; the parse starts from nothing. -/
def Obligations.MagicsAndArchiveHeader : Prop :=
  (∀ s i w, magicValue i = some w → exec i s = .next s)
  ∧ (∀ s, exec .magicRLau s = .next { s with cp := { s.cp with pos := 22 } })
  ∧ (∀ s w, exec (.magicOther w) s = .next (takeError .badMagic s))
  ∧ (∀ s h i, primaryMagic h.magic.toNat = some i →
      exec (.arch h) s = .next { s with cp := { s.cp with asize := h.asize.toNat }, seq := .fetch .magic2 :: s.seq })
  ∧ (∀ s h, primaryMagic h.magic.toNat = none → exec (.arch h) s = .next (takeError .badMagic s))
  ∧ (∀ s, s.h.size < 4 → exec .cpArchdr s = .next (takeError .truncated s))
  ∧ (∀ s, 4 ≤ s.h.size → exec .cpArchdr s = .next { s with seq := .fetch .magic1 :: .archRest :: s.seq })
  ∧ (∀ s ts, s.seq = .archRest :: ts → step s = .next (if s.h.size < 22 then takeError .truncated s
      else { s with seq := .fetch .arch :: ts }))
  ∧ ∀ s, exec .cpParse s = .next { s with
      cp := { s.cp with pos := 0, stack := [], depth := 0 }
      idx := { entries := [], metadata := [] }
      seq := .op .cpArchdr :: .parseLoop :: s.seq }

/-- `CP.ARCHDR` as a whole (R95, R96, R262): a stream of at least 22 bytes that starts with one of the nine magics and has `rLau` at 10
is accepted: the archive size is the big-endian field at 6, the parser stands at 22, and nothing else has changed. With another word
at 10 it is `BadMagic`, `CP.asize` then read (the model's choice, log 11). A stream of 4 to 21 bytes that starts with one of the nine
is `Truncated`, and one that starts with none of them is `BadMagic`, however short. -/
def Obligations.ArchiveHeaderIsAccepted : Prop :=
  ∀ (s : State) ts, s.seq = .op .cpArchdr :: ts → 4 ≤ s.h.size →
    (∀ i asize, 22 ≤ s.h.size → primaryMagic (be32At (Memory.slice s.src 0 22) 0).toNat = some i →
      asize = (((Memory.read s.src 6).toNat * 256 + (Memory.read s.src 7).toNat) * 256 + (Memory.read s.src 8).toNat) * 256
        + (Memory.read s.src 9).toNat →
      (Memory.slice s.src 10 4 = [0x72#8, 0x4C#8, 0x61#8, 0x75#8] →
        Host.Core.run Sys2Proof.core 5 s = .next { s with cp := { s.cp with asize := asize, pos := 22 }, seq := ts })
      ∧ (Memory.slice s.src 10 4 ≠ [0x72#8, 0x4C#8, 0x61#8, 0x75#8] →
        Host.Core.run Sys2Proof.core 5 s = .next (takeError .badMagic { s with cp := { s.cp with asize := asize } })))
    ∧ (∀ i, s.h.size < 22 → primaryMagic (be32At (Memory.slice s.src 0 4) 0).toNat = some i →
      Host.Core.run Sys2Proof.core 3 s = .next (takeError .truncated s))
    ∧ (primaryMagic (be32At (Memory.slice s.src 0 4) 0).toNat = none →
      Host.Core.run Sys2Proof.core 2 s = .next (takeError .badMagic s))

/-- `CP.FETCH` and the loop around it (R261, R264 to R267, R273): the next header when the archive goes on, the end when it does
not, with the folders still open discarded; then `Truncated`, `HeaderCrcMismatch`, `NameTooLong` in that order, or the header in `CP.hdr` and the position past it. What
`CRC.acc`, `CP.hdr` and `CP.pos` hold after one of these errors is the model's choice (log 11); that a discarded stack is empty and
`CP.depth` 0 is deduced from R27 (log 37). -/
def Obligations.EntryHeaderIsFetched : Prop :=
  (∀ s ts, s.seq = .parseLoop :: ts → step s = .next (if s.cp.pos < s.cp.asize ∧ s.cp.pos < s.h.size
      then { s with seq := .op .cpFetch :: .fetch .ent :: .parseLoop :: ts }
      else { s with seq := ts, h := { s.h with valid := true }, cp := { s.cp with stack := [], depth := 0 } }))
  ∧ (∀ s, s.h.size < s.cp.pos + 112 → exec .cpFetch s = .next (takeError .truncated s))
  ∧ ∀ s hdr crc, s.cp.pos + 112 ≤ s.h.size → hdr = Memory.slice s.src s.cp.pos 112 → crc = crcBytes 0 (hdr.take 110) →
      (crc = be16At hdr 110 → (hdr.getD 2 0).toNat ≤ 31 →
        exec .cpFetch s = .next { s with crc := crc, cp := { s.cp with hdr := hdr, pos := s.cp.pos + 112 } })
      ∧ (crc ≠ be16At hdr 110 → exec .cpFetch s
          = .next (takeError .headerCrcMismatch { s with crc := crc, cp := { s.cp with hdr := hdr, pos := s.cp.pos + 112 } }))
      ∧ (crc = be16At hdr 110 → 31 < (hdr.getD 2 0).toNat → exec .cpFetch s
          = .next (takeError .nameTooLong { s with crc := crc, cp := { s.cp with hdr := hdr, pos := s.cp.pos + 112 } }))

/-- `ENT.FOLDER_START` and `ENT.FOLDER_END` (R268, R269): the marker's name and a `:` are pushed, the innermost folder is popped; an
end with no folder open is `FolderUnderflow`; a flattened archive keeps no folders. -/
def Obligations.FolderMarkersPushAndPop : Prop :=
  ∀ s h,
    (s.h.flatten = false → exec (.entFolderStart h) s = .next { s with cp := { s.cp with
        stack := s.cp.stack ++ [h.nameArea.take h.nameLen.toNat ++ [0x3A#8]], depth := s.cp.depth + 1 } })
    ∧ (s.h.flatten = true → exec (.entFolderStart h) s = .next s ∧ exec (.entFolderEnd h) s = .next s)
    ∧ (s.h.flatten = false → s.cp.depth ≠ 0 → exec (.entFolderEnd h) s = .next { s with cp := { s.cp with
        stack := s.cp.stack.dropLast, depth := s.cp.depth - 1 } })
    ∧ (s.h.flatten = false → s.cp.depth = 0 → exec (.entFolderEnd h) s = .next (takeError .folderUnderflow s))

/-- `CP.KEY` (R117, R270): the path is the open folders and the name, or the name's last component in a flattened archive, and
then has no `:`; the key is the path with `A` to `Z` made small. -/
def Obligations.KeyOfAName : Prop :=
  ∀ s name, ∃ path, exec (.cpKey name) s
      = .next { s with ret := .keyPath (path.map fun b => if 0x41 ≤ b.toNat ∧ b.toNat ≤ 0x5A then b + 0x20#8 else b) path }
    ∧ (s.h.flatten = false → path = s.cp.stack.flatten ++ name)
    ∧ (s.h.flatten = true → 0x3A#8 ∉ path ∧ ∃ pre, name = pre ++ path ∧ (pre = [] ∨ pre.getLast? = some 0x3A#8))

/-- `CP.INSERT` (R272): an entry with no data in either fork goes nowhere; a new key goes into both maps, the Finder info's last six
bytes a draw (log 6); a key that is there is a `DuplicatePath`, a replacement of both values, or nothing, as the policy says. -/
def Obligations.InsertFollowsThePolicy : Prop :=
  ∀ s key path res data finfo,
    (res.usize = 0 ∧ data.usize = 0 → exec (.cpInsert key path res data finfo) s = .next s)
    ∧ (¬ (res.usize = 0 ∧ data.usize = 0) → key ∉ s.idx.entries.map (·.key) →
        ∃ tail : Bytes, tail.length = 6 ∧ exec (.cpInsert key path res data finfo) s = .next { s with
          idx := { entries := s.idx.entries ++ [{ key := key, path := path, dataFork := data, resFork := res }]
                   metadata := s.idx.metadata ++ [{ key := key, info := finfo ++ tail }] }
          draws := s.draws + 1 })
    ∧ (¬ (res.usize = 0 ∧ data.usize = 0) → key ∈ s.idx.entries.map (·.key) →
        (s.par.dupPolicy = .refuse → exec (.cpInsert key path res data finfo) s = .next (takeError .duplicatePath s))
        ∧ (s.par.dupPolicy = .firstWins → exec (.cpInsert key path res data finfo) s = .next s)
        ∧ (s.par.dupPolicy = .lastWins → ∃ tail : Bytes, tail.length = 6
            ∧ exec (.cpInsert key path res data finfo) s = .next { s with
              idx := { entries := s.idx.entries.map fun e =>
                         if e.key = key then { key := key, path := path, dataFork := data, resFork := res } else e
                       metadata := s.idx.metadata.map fun m => if m.key = key then { key := key, info := finfo ++ tail } else m }
              draws := s.draws + 1 }))

/-- `ENT.FILE` (R116, R271, R272): the payloads are skipped, the resource fork's first, and the entry is inserted with both forks'
descriptors and the first ten bytes of Finder info; payloads beyond the stream are `Truncated`. -/
def Obligations.FileEntryIsIndexed : Prop :=
  ∀ s h, h.wf = true →
    (s.h.size < s.cp.pos + h.resCsize.toNat + h.dataCsize.toNat → exec (.entFile h) s = .next (takeError .truncated s))
    ∧ ∀ u name path, s.cp.pos + h.resCsize.toNat + h.dataCsize.toNat ≤ s.h.size →
        u = { s with cp := { s.cp with pos := s.cp.pos + h.resCsize.toNat + h.dataCsize.toNat } } →
        name = h.nameArea.take h.nameLen.toNat →
        path = (if s.h.flatten then lastComponent name else s.cp.stack.flatten ++ name) →
        (h.resUsize = 0 ∧ h.dataUsize = 0 → exec (.entFile h) s = .next u)
        ∧ exec (.entFile h) s = exec (.cpInsert (fold path) path
            { usize := h.resUsize, csize := h.resCsize, offset := s.cp.pos, crc := h.resCrc, compression := h.resCompr }
            { usize := h.dataUsize, csize := h.dataCsize, offset := s.cp.pos + h.resCsize.toNat, crc := h.dataCrc,
              compression := h.dataCompr }
            ((entBytes h).drop 66 |>.take 10)) u
        ∧ (¬ (h.resUsize = 0 ∧ h.dataUsize = 0) → fold path ∉ s.idx.entries.map (·.key) →
            ∃ e m, e.key = fold path ∧ e.path = path ∧ m.key = fold path ∧ m.info.take 10 = ((entBytes h).drop 66 |>.take 10)
              ∧ exec (.entFile h) s = .next { u with
                  idx := { entries := s.idx.entries ++ [e], metadata := s.idx.metadata ++ [m] }, draws := s.draws + 1 })

/-! ## Facade -/

/-- `OPEN` (R51, R291): the old index goes, the handle is invalid until the parse has ended well, `SRC` holds the host's bytes, and
the parse begins; when it has ended well, the last line gives `OK`. A size beyond the bytes given is outside the spec (R353) and
refused, a smaller size binds the first bytes only (both log 18); that `SRC` reads 0 beyond its size is the model's choice
(log 9), and so is what the parser's registers hold after that line (log 36). -/
def Obligations.OpenBindsTheStream : Prop :=
  (∀ s src (size : BitVec 64) flatten,
    (size.toNat ≤ src.length → ∃ t, exec (.hostOpen src size flatten) s = .next t
      ∧ t = { s with src := t.src, h := { valid := false, flatten := flatten, size := size.toNat },
                     idx := { entries := [], metadata := [] }, seq := .op .cpParse :: .openEnd :: s.seq }
      ∧ ∀ a, Memory.read t.src a = if a < size.toNat then src.getD a 0#8 else 0#8)
    ∧ (src.length < size.toNat → exec (.hostOpen src size flatten) s = .refused .sizeBeyondSource))
  ∧ ∀ s ts, s.seq = .openEnd :: ts → step s = .next { s with seq := ts, st := { err := .ok, result := .none } }

/-- `HAS`, `LIST` and `READ_FINFO` (R293, R294, R297): membership of the normalised path; every stored path once, in any order
(log 7), each of which is there again and has no `:` in a flattened archive; the Finder info, or `absent`. The normalised path
is the path with `A` to `Z` made small; of a flattened archive it is that of what follows the path's last `:`. -/
def Obligations.IndexQueries : Prop :=
  (∀ s p, exec (.hostHas p) s
      = .next { s with st := { err := .ok, result := .flag (decide (norm s p ∈ s.idx.entries.map (·.key))) } })
  ∧ (∀ s, ∃ ps, exec .hostList s = .next { s with st := { err := .ok, result := .paths ps }, draws := s.draws + 1 }
      ∧ ps.Perm (s.idx.entries.map (·.path))
      ∧ (s.Inv → ∀ q, q ∈ ps → norm s q ∈ s.idx.entries.map (·.key) ∧ (s.h.flatten = true → 0x3A#8 ∉ q)))
  ∧ (∀ s p m, s.indexOk = true → m ∈ s.idx.metadata → m.key = norm s p →
      exec (.hostReadFinfo p) s = .next { s with st := { err := .ok, result := .bytes m.info } })
  ∧ (∀ s p, norm s p ∉ s.idx.metadata.map (·.key) →
      exec (.hostReadFinfo p) s = .next { s with st := { err := .ok, result := .absent } })
  ∧ (∀ s p, s.h.flatten = false →
      norm s p = p.map fun b => if 0x41 ≤ b.toNat ∧ b.toNat ≤ 0x5A then b + 0x20#8 else b)
  ∧ ∀ s p, s.h.flatten = true → ∃ pre last, p = pre ++ last ∧ (pre = [] ∨ pre.getLast? = some 0x3A#8) ∧ 0x3A#8 ∉ last
      ∧ norm s p = last.map fun b => if 0x41 ≤ b.toNat ∧ b.toNat ≤ 0x5A then b + 0x20#8 else b

/-- `READ`, `READ_RSRC`, `DISPATCH` and its control words (R97, R295, R296, R300, R301, R303): the entry's fork is dispatched, an unknown
path is `NotFound`; an absent fork is no fork; an encrypted one is `Encrypted` before anything else; every other starts from
reset read state, its method's word next, then the CRC, then the bytes; the word is the compression byte, 0, 13 and 14 for the three
decoders; an unknown method is `UnsupportedMethod`. Where R50 leaves
reset read state unspecified, `OUT` and some of the decoders' registers, it is zero by the model's choice (logs 9 and 10). -/
def Obligations.ReadsDispatchTheirFork : Prop :=
  (∀ s p e, findEntry s (norm s p) = some e →
      exec (.hostRead p) s = .next { s with seq := .op (.dispatch e.dataFork) :: .deliverData :: s.seq }
      ∧ exec (.hostReadRsrc p) s = .next { s with seq := .op (.dispatch e.resFork) :: .deliverRsrc :: s.seq })
  ∧ (∀ s p, norm s p ∉ s.idx.entries.map (·.key) →
      exec (.hostRead p) s = .next (takeError .notFound s) ∧ exec (.hostReadRsrc p) s = .next (takeError .notFound s))
  ∧ (∀ s f, f.usize = 0 → exec (.dispatch f) s = .next { s with ret := .noFork })
  ∧ (∀ s f, f.usize ≠ 0 → f.compression &&& 0xF0#8 ≠ 0 →
      exec (.dispatch f) s = .next { s with fork := f, seq := .fetch .cmpr :: .op (.crcVerify f) :: .dispatchRet :: s.seq })
  ∧ (∀ s f, f.usize ≠ 0 → f.compression &&& 0xF0#8 = 0 → exec (.dispatch f) s = .next { s with
      fork := f
      br := { base := f.offset, len := f.csize.toNat, pos := 0 }
      crc := 0
      win := []
      outMem := []
      out := { size := f.usize.toNat, cnt := 0 }
      m13 := M13.reset
      m14 := M14.reset
      seq := .fetch .cmpr :: .op (.crcVerify f) :: .dispatchRet :: s.seq })
  ∧ (∀ s ts i b, s.seq = .fetch .cmpr :: ts → b = s.fork.compression →
      (i = .cmprEncrypted b ∧ b &&& 0xF0#8 ≠ 0) ∨ (i = .cmprM0 ∧ b = 0x00#8) ∨ (i = .cmprM13 ∧ b = 0x0D#8)
        ∨ (i = .cmprM14 ∧ b = 0x0E#8) ∨ (i = .cmprUnsupported b ∧ b &&& 0xF0#8 = 0 ∧ b ∉ [0x00#8, 0x0D#8, 0x0E#8]) →
      step s = exec i { s with seq := ts })
  ∧ (∀ s b, exec (.cmprEncrypted b) s = .next (takeError .encrypted s))
  ∧ ∀ s b, exec (.cmprUnsupported b) s = .next (takeError .unsupportedMethod s)

/-- Reads from the command to the result (R295, R296, R298, R300, R302, R306, R307): a stored fork's bytes are the stream's bytes
at its offset when their CRC is the entry's, and no result but `PayloadCrcMismatch` when it is not; an absent data fork is
empty, an absent resource fork `absent`. What the read state holds after a read is the model's choice (log 36). -/
def Obligations.ReadsOfStoredAndAbsentForks : Prop :=
  (∀ (s : State) path cs e f bs, s.Inv → s.seq = [] → findEntry s (norm s path) = some e →
      ((f = e.dataFork ∧ s.host = .read path :: cs) ∨ (f = e.resFork ∧ s.host = .readRsrc path :: cs)) →
      f.usize ≠ 0 → f.compression = 0x00#8 → f.csize = f.usize → bs = Memory.slice s.src f.offset f.usize.toNat →
      (crcBytes 0 bs = f.crc → ∃ t, Host.Core.run Sys2Proof.core 6 s = .next t
        ∧ t.st = { err := .ok, result := .bytes bs } ∧ t.seq = [] ∧ t.host = cs ∧ t.h = s.h ∧ t.idx = s.idx ∧ t.src = s.src)
      ∧ (crcBytes 0 bs ≠ f.crc → ∃ t, Host.Core.run Sys2Proof.core 4 s = .next t
        ∧ t.st = { err := .payloadCrcMismatch, result := .none } ∧ t.seq = [] ∧ t.host = cs ∧ t.h = s.h ∧ t.idx = s.idx))
  ∧ (∀ (s : State) path cs e, s.seq = [] → findEntry s (norm s path) = some e → s.host = .read path :: cs → e.dataFork.usize = 0 →
      Host.Core.run Sys2Proof.core 3 s
        = .next { s with host := cs, ret := .noFork, st := { err := .ok, result := .bytes [] } })
  ∧ ∀ (s : State) path cs e, s.seq = [] → findEntry s (norm s path) = some e → s.host = .readRsrc path :: cs → e.resFork.usize = 0 →
      Host.Core.run Sys2Proof.core 3 s
        = .next { s with host := cs, ret := .noFork, st := { err := .ok, result := .absent } }
end

