-- ==== Sys2Proof/Laws/Memory.lean ====
section
/-! SUPPORT. Sparse memories: a read after a write, and the canonical form, which every memory operation keeps. -/

namespace Sys2Proof.Machine

variable {α : Type} [Inhabited α] [DecidableEq α]

@[simp] theorem Memory.read_nil (a : Nat) : Memory.read ([] : Memory α) a = default := rfl

@[simp] theorem Memory.wf_nil : Memory.wf ([] : Memory α) = true := rfl

/-- The canonical form, unfolded at the head. -/
theorem Memory.wf_cons (a : Nat) (v : α) (t : Memory α) :
    Memory.wf ((a, v) :: t) = true ↔ v ≠ default ∧ (∀ p ∈ t, a < p.1) ∧ Memory.wf t = true := by
  induction t generalizing a v with
  | nil => simp [Memory.wf]
  | cons p t ih =>
    obtain ⟨b, w⟩ := p
    have hb := ih b w
    simp only [Memory.wf, Bool.and_eq_true, bne_iff_ne, ne_eq, decide_eq_true_eq, List.mem_cons, forall_eq_or_imp]
    constructor
    · rintro ⟨⟨hv, hab⟩, ht⟩
      exact ⟨hv, ⟨hab, fun q hq => hab.trans ((hb.1 ht).2.1 q hq)⟩, ht⟩
    · rintro ⟨hv, ⟨hab, -⟩, ht⟩
      exact ⟨⟨hv, hab⟩, ht⟩

/-- Below every listed address a memory reads `default`. -/
theorem Memory.read_below (m : Memory α) (a : Nat) (h : ∀ p ∈ m, a < p.1) : Memory.read m a = default := by
  induction m with
  | nil => rfl
  | cons p t ih =>
    obtain ⟨b, w⟩ := p
    have hb : a < b := h (b, w) (by simp)
    simp only [Memory.read, if_neg (Nat.ne_of_lt hb)]
    exact ih fun q hq => h q (by simp [hq])

/-- A write leaves every other address as it was. -/
theorem Memory.read_write_of_ne (m : Memory α) {a b : Nat} (v : α) (h : b ≠ a) :
    Memory.read (Memory.write m a v) b = Memory.read m b := by
  induction m with
  | nil => by_cases hv : v = default <;> simp [Memory.write, Memory.read, hv, h]
  | cons p t ih =>
    obtain ⟨c, w⟩ := p
    by_cases hac : a < c
    · by_cases hv : v = default <;> simp [Memory.write, Memory.read, hac, hv, h]
    · by_cases he : a = c
      · subst he
        by_cases hv : v = default <;> simp [Memory.write, Memory.read, hv, h]
      · simp [Memory.write, Memory.read, hac, he, ih]

/-- In a canonical memory a read after a write to the same address gives the value written. -/
theorem Memory.read_write_self (m : Memory α) (a : Nat) (v : α) (h : Memory.wf m = true) :
    Memory.read (Memory.write m a v) a = v := by
  induction m with
  | nil => by_cases hv : v = default <;> simp [Memory.write, Memory.read, hv]
  | cons p t ih =>
    obtain ⟨c, w⟩ := p
    obtain ⟨-, hlt, ht⟩ := (Memory.wf_cons c w t).1 h
    by_cases hac : a < c
    · by_cases hv : v = default
      · simp only [Memory.write, hac, hv, if_true]
        refine Memory.read_below _ _ fun q hq => ?_
        rcases List.mem_cons.1 hq with rfl | hq
        · exact hac
        · exact hac.trans (hlt q hq)
      · simp [Memory.write, Memory.read, hac, hv]
    · by_cases he : a = c
      · subst he
        by_cases hv : v = default
        · simpa [Memory.write, hv] using Memory.read_below t a hlt
        · simp [Memory.write, Memory.read, hv]
      · simp [Memory.write, Memory.read, hac, he, ih ht]

/-- Every address listed after a write was listed before or is the one written. -/
theorem Memory.mem_write (m : Memory α) (a : Nat) (v : α) (p : Nat × α) (hp : p ∈ Memory.write m a v) :
    p = (a, v) ∨ p ∈ m := by
  induction m with
  | nil => by_cases hv : v = default <;> simp_all [Memory.write]
  | cons q t ih =>
    obtain ⟨c, w⟩ := q
    by_cases hac : a < c
    · by_cases hv : v = default <;> simp_all [Memory.write]
    · by_cases he : a = c
      · by_cases hv : v = default <;> simp_all [Memory.write] <;> tauto
      · simp only [Memory.write, hac, he, if_false, List.mem_cons] at hp
        rcases hp with rfl | hp
        · simp
        · rcases ih hp with h | h <;> simp [h]

/-- A write keeps the canonical form. -/
theorem Memory.write_wf (m : Memory α) (a : Nat) (v : α) (h : Memory.wf m = true) :
    Memory.wf (Memory.write m a v) = true := by
  induction m with
  | nil => by_cases hv : v = default <;> simp [Memory.write, Memory.wf, hv]
  | cons p t ih =>
    obtain ⟨c, w⟩ := p
    obtain ⟨hw, hlt, ht⟩ := (Memory.wf_cons c w t).1 h
    by_cases hac : a < c
    · by_cases hv : v = default
      · simpa [Memory.write, hac, hv] using h
      · simp only [Memory.write, hac, hv, if_true, if_false, Memory.wf_cons a]
        refine ⟨hv, fun q hq => ?_, h⟩
        rcases List.mem_cons.1 hq with rfl | hq
        · exact hac
        · exact hac.trans (hlt q hq)
    · by_cases he : a = c
      · subst he
        by_cases hv : v = default
        · simpa [Memory.write, hv] using ht
        · simp only [Memory.write, lt_irrefl, hv, if_true, if_false, Memory.wf_cons a]
          exact ⟨hv, hlt, ht⟩
      · have hca : c < a := by omega
        simp only [Memory.write, hac, he, if_false, Memory.wf_cons c]
        refine ⟨hw, fun q hq => ?_, ih ht⟩
        rcases Memory.mem_write t a v q hq with rfl | hq
        · exact hca
        · exact hlt q hq

/-- Canonical memories that read alike are equal data. -/
theorem Memory.ext_read (m m' : Memory α) (h : Memory.wf m = true) (h' : Memory.wf m' = true)
    (hr : ∀ a, Memory.read m a = Memory.read m' a) : m = m' := by
  induction m generalizing m' with
  | nil =>
    cases m' with
    | nil => rfl
    | cons p t =>
      obtain ⟨b, w⟩ := p
      have := hr b
      simp only [Memory.read, if_true] at this
      exact absurd this.symm ((Memory.wf_cons b w t).1 h').1
  | cons p t ih =>
    obtain ⟨a, v⟩ := p
    obtain ⟨hv, hlt, ht⟩ := (Memory.wf_cons a v t).1 h
    cases m' with
    | nil =>
      have := hr a
      simp only [Memory.read, if_true] at this
      exact absurd this hv
    | cons q t' =>
      obtain ⟨b, w⟩ := q
      obtain ⟨hw, hlt', ht'⟩ := (Memory.wf_cons b w t').1 h'
      have hab : a = b := by
        rcases lt_trichotomy a b with hl | he | hg
        · have := hr a
          rw [Memory.read_below ((b, w) :: t') a (by
            intro r hr'
            rcases List.mem_cons.1 hr' with rfl | hr'
            · exact hl
            · exact hl.trans (hlt' r hr'))] at this
          simp only [Memory.read, if_true] at this
          exact absurd this hv
        · exact he
        · have := hr b
          rw [Memory.read_below ((a, v) :: t) b (by
            intro r hr'
            rcases List.mem_cons.1 hr' with rfl | hr'
            · exact hg
            · exact hg.trans (hlt r hr'))] at this
          simp only [Memory.read, if_true] at this
          exact absurd this.symm hw
      subst hab
      have hvw : v = w := by simpa [Memory.read] using hr a
      subst hvw
      congr 1
      refine ih t' ht ht' fun c => ?_
      by_cases hc : c = a
      · subst hc; rw [Memory.read_below t c hlt, Memory.read_below t' c hlt']
      · have := hr c
        simpa only [Memory.read, if_neg hc] using this

@[simp] theorem Memory.slice_length (m : Memory α) (a n : Nat) : (Memory.slice m a n).length = n := by
  simp [Memory.slice]

/-- The elements of a slice are the reads, in address order. -/
theorem Memory.slice_getElem (m : Memory α) (a n i : Nat) (h : i < (Memory.slice m a n).length) :
    (Memory.slice m a n)[i] = Memory.read m (a + i) := by
  simp [Memory.slice]

theorem Memory.mem_ofBytes (a : Nat) (bs : Bytes) (p : Nat × Byte) (hp : p ∈ Memory.ofBytes a bs) :
    a ≤ p.1 ∧ p.1 < a + bs.length := by
  induction bs generalizing a with
  | nil => simp [Memory.ofBytes] at hp
  | cons b t ih =>
    simp only [Memory.ofBytes] at hp
    split at hp
    · have := ih (a + 1) hp
      simp only [List.length_cons]; omega
    · rcases List.mem_cons.1 hp with rfl | hp
      · simp
      · have := ih (a + 1) hp
        simp only [List.length_cons]; omega

/-- The memory of a byte string is canonical. -/
theorem Memory.ofBytes_wf (a : Nat) (bs : Bytes) : Memory.wf (Memory.ofBytes a bs) = true := by
  induction bs generalizing a with
  | nil => rfl
  | cons b t ih =>
    simp only [Memory.ofBytes]
    split
    · exact ih (a + 1)
    · rename_i hb
      rw [Memory.wf_cons]
      exact ⟨hb, fun p hp => (Memory.mem_ofBytes (a + 1) t p hp).1, ih (a + 1)⟩

/-- The memory of a byte string reads it back, and reads zero elsewhere. -/
theorem Memory.read_ofBytes (a : Nat) (bs : Bytes) (c : Nat) :
    Memory.read (Memory.ofBytes a bs) c = if a ≤ c then bs.getD (c - a) default else default := by
  induction bs generalizing a with
  | nil => simp [Memory.ofBytes]
  | cons b t ih =>
    simp only [Memory.ofBytes]
    by_cases hb : b = default
    · rw [if_pos hb, ih]
      rcases lt_trichotomy c a with h | h | h
      · simp [show ¬ a + 1 ≤ c by omega, show ¬ a ≤ c by omega]
      · subst h; simp [hb]
      · obtain ⟨k, rfl⟩ : ∃ k, c = a + 1 + k := ⟨c - a - 1, by omega⟩
        simp [show a ≤ a + 1 + k by omega, show a + 1 + k - a = k + 1 by omega]
    · rw [if_neg hb]
      simp only [Memory.read]
      rcases lt_trichotomy c a with h | h | h
      · simp [show c ≠ a by omega, show ¬ a ≤ c by omega, ih, show ¬ a + 1 ≤ c by omega]
      · subst h; simp
      · obtain ⟨k, rfl⟩ : ∃ k, c = a + 1 + k := ⟨c - a - 1, by omega⟩
        simp [ih, show a + 1 + k ≠ a by omega, show a ≤ a + 1 + k by omega, show a + 1 + k - a = k + 1 by omega]

end Sys2Proof.Machine
end

