-- ==== Sys2Proof/Laws/State.lean ====
section
/-! SUPPORT. One lemma per field per update of State, and the same for the operations made of one update: no later proof unfolds
a record update. -/

namespace Sys2Proof.Machine

/-! ## `withSrc` -/

@[simp] theorem State.withSrc_src (s : State) (v : Memory Byte) : (s.withSrc v).src = v := rfl
@[simp] theorem State.withSrc_win (s : State) (v : Memory Byte) : (s.withSrc v).win = s.win := rfl
@[simp] theorem State.withSrc_outMem (s : State) (v : Memory Byte) : (s.withSrc v).outMem = s.outMem := rfl
@[simp] theorem State.withSrc_br (s : State) (v : Memory Byte) : (s.withSrc v).br = s.br := rfl
@[simp] theorem State.withSrc_crc (s : State) (v : Memory Byte) : (s.withSrc v).crc = s.crc := rfl
@[simp] theorem State.withSrc_out (s : State) (v : Memory Byte) : (s.withSrc v).out = s.out := rfl
@[simp] theorem State.withSrc_m13 (s : State) (v : Memory Byte) : (s.withSrc v).m13 = s.m13 := rfl
@[simp] theorem State.withSrc_m14 (s : State) (v : Memory Byte) : (s.withSrc v).m14 = s.m14 := rfl
@[simp] theorem State.withSrc_cp (s : State) (v : Memory Byte) : (s.withSrc v).cp = s.cp := rfl
@[simp] theorem State.withSrc_h (s : State) (v : Memory Byte) : (s.withSrc v).h = s.h := rfl
@[simp] theorem State.withSrc_idx (s : State) (v : Memory Byte) : (s.withSrc v).idx = s.idx := rfl
@[simp] theorem State.withSrc_st (s : State) (v : Memory Byte) : (s.withSrc v).st = s.st := rfl
@[simp] theorem State.withSrc_seq (s : State) (v : Memory Byte) : (s.withSrc v).seq = s.seq := rfl
@[simp] theorem State.withSrc_host (s : State) (v : Memory Byte) : (s.withSrc v).host = s.host := rfl
@[simp] theorem State.withSrc_fork (s : State) (v : Memory Byte) : (s.withSrc v).fork = s.fork := rfl
@[simp] theorem State.withSrc_dec (s : State) (v : Memory Byte) : (s.withSrc v).dec = s.dec := rfl
@[simp] theorem State.withSrc_ret (s : State) (v : Memory Byte) : (s.withSrc v).ret = s.ret := rfl
@[simp] theorem State.withSrc_draws (s : State) (v : Memory Byte) : (s.withSrc v).draws = s.draws := rfl
@[simp] theorem State.withSrc_par (s : State) (v : Memory Byte) : (s.withSrc v).par = s.par := rfl
@[simp] theorem State.withSrc_withSrc (s : State) (v w : Memory Byte) : (s.withSrc v).withSrc w = s.withSrc w := rfl
@[simp] theorem State.withSrc_self (s : State) : s.withSrc s.src = s := rfl

/-! ## `withWin` -/

@[simp] theorem State.withWin_src (s : State) (v : Memory Byte) : (s.withWin v).src = s.src := rfl
@[simp] theorem State.withWin_win (s : State) (v : Memory Byte) : (s.withWin v).win = v := rfl
@[simp] theorem State.withWin_outMem (s : State) (v : Memory Byte) : (s.withWin v).outMem = s.outMem := rfl
@[simp] theorem State.withWin_br (s : State) (v : Memory Byte) : (s.withWin v).br = s.br := rfl
@[simp] theorem State.withWin_crc (s : State) (v : Memory Byte) : (s.withWin v).crc = s.crc := rfl
@[simp] theorem State.withWin_out (s : State) (v : Memory Byte) : (s.withWin v).out = s.out := rfl
@[simp] theorem State.withWin_m13 (s : State) (v : Memory Byte) : (s.withWin v).m13 = s.m13 := rfl
@[simp] theorem State.withWin_m14 (s : State) (v : Memory Byte) : (s.withWin v).m14 = s.m14 := rfl
@[simp] theorem State.withWin_cp (s : State) (v : Memory Byte) : (s.withWin v).cp = s.cp := rfl
@[simp] theorem State.withWin_h (s : State) (v : Memory Byte) : (s.withWin v).h = s.h := rfl
@[simp] theorem State.withWin_idx (s : State) (v : Memory Byte) : (s.withWin v).idx = s.idx := rfl
@[simp] theorem State.withWin_st (s : State) (v : Memory Byte) : (s.withWin v).st = s.st := rfl
@[simp] theorem State.withWin_seq (s : State) (v : Memory Byte) : (s.withWin v).seq = s.seq := rfl
@[simp] theorem State.withWin_host (s : State) (v : Memory Byte) : (s.withWin v).host = s.host := rfl
@[simp] theorem State.withWin_fork (s : State) (v : Memory Byte) : (s.withWin v).fork = s.fork := rfl
@[simp] theorem State.withWin_dec (s : State) (v : Memory Byte) : (s.withWin v).dec = s.dec := rfl
@[simp] theorem State.withWin_ret (s : State) (v : Memory Byte) : (s.withWin v).ret = s.ret := rfl
@[simp] theorem State.withWin_draws (s : State) (v : Memory Byte) : (s.withWin v).draws = s.draws := rfl
@[simp] theorem State.withWin_par (s : State) (v : Memory Byte) : (s.withWin v).par = s.par := rfl
@[simp] theorem State.withWin_withWin (s : State) (v w : Memory Byte) : (s.withWin v).withWin w = s.withWin w := rfl
@[simp] theorem State.withWin_self (s : State) : s.withWin s.win = s := rfl

/-! ## `withOutMem` -/

@[simp] theorem State.withOutMem_src (s : State) (v : Memory Byte) : (s.withOutMem v).src = s.src := rfl
@[simp] theorem State.withOutMem_win (s : State) (v : Memory Byte) : (s.withOutMem v).win = s.win := rfl
@[simp] theorem State.withOutMem_outMem (s : State) (v : Memory Byte) : (s.withOutMem v).outMem = v := rfl
@[simp] theorem State.withOutMem_br (s : State) (v : Memory Byte) : (s.withOutMem v).br = s.br := rfl
@[simp] theorem State.withOutMem_crc (s : State) (v : Memory Byte) : (s.withOutMem v).crc = s.crc := rfl
@[simp] theorem State.withOutMem_out (s : State) (v : Memory Byte) : (s.withOutMem v).out = s.out := rfl
@[simp] theorem State.withOutMem_m13 (s : State) (v : Memory Byte) : (s.withOutMem v).m13 = s.m13 := rfl
@[simp] theorem State.withOutMem_m14 (s : State) (v : Memory Byte) : (s.withOutMem v).m14 = s.m14 := rfl
@[simp] theorem State.withOutMem_cp (s : State) (v : Memory Byte) : (s.withOutMem v).cp = s.cp := rfl
@[simp] theorem State.withOutMem_h (s : State) (v : Memory Byte) : (s.withOutMem v).h = s.h := rfl
@[simp] theorem State.withOutMem_idx (s : State) (v : Memory Byte) : (s.withOutMem v).idx = s.idx := rfl
@[simp] theorem State.withOutMem_st (s : State) (v : Memory Byte) : (s.withOutMem v).st = s.st := rfl
@[simp] theorem State.withOutMem_seq (s : State) (v : Memory Byte) : (s.withOutMem v).seq = s.seq := rfl
@[simp] theorem State.withOutMem_host (s : State) (v : Memory Byte) : (s.withOutMem v).host = s.host := rfl
@[simp] theorem State.withOutMem_fork (s : State) (v : Memory Byte) : (s.withOutMem v).fork = s.fork := rfl
@[simp] theorem State.withOutMem_dec (s : State) (v : Memory Byte) : (s.withOutMem v).dec = s.dec := rfl
@[simp] theorem State.withOutMem_ret (s : State) (v : Memory Byte) : (s.withOutMem v).ret = s.ret := rfl
@[simp] theorem State.withOutMem_draws (s : State) (v : Memory Byte) : (s.withOutMem v).draws = s.draws := rfl
@[simp] theorem State.withOutMem_par (s : State) (v : Memory Byte) : (s.withOutMem v).par = s.par := rfl
@[simp] theorem State.withOutMem_withOutMem (s : State) (v w : Memory Byte) : (s.withOutMem v).withOutMem w = s.withOutMem w := rfl
@[simp] theorem State.withOutMem_self (s : State) : s.withOutMem s.outMem = s := rfl

/-! ## `withBr` -/

@[simp] theorem State.withBr_src (s : State) (v : BitReader) : (s.withBr v).src = s.src := rfl
@[simp] theorem State.withBr_win (s : State) (v : BitReader) : (s.withBr v).win = s.win := rfl
@[simp] theorem State.withBr_outMem (s : State) (v : BitReader) : (s.withBr v).outMem = s.outMem := rfl
@[simp] theorem State.withBr_br (s : State) (v : BitReader) : (s.withBr v).br = v := rfl
@[simp] theorem State.withBr_crc (s : State) (v : BitReader) : (s.withBr v).crc = s.crc := rfl
@[simp] theorem State.withBr_out (s : State) (v : BitReader) : (s.withBr v).out = s.out := rfl
@[simp] theorem State.withBr_m13 (s : State) (v : BitReader) : (s.withBr v).m13 = s.m13 := rfl
@[simp] theorem State.withBr_m14 (s : State) (v : BitReader) : (s.withBr v).m14 = s.m14 := rfl
@[simp] theorem State.withBr_cp (s : State) (v : BitReader) : (s.withBr v).cp = s.cp := rfl
@[simp] theorem State.withBr_h (s : State) (v : BitReader) : (s.withBr v).h = s.h := rfl
@[simp] theorem State.withBr_idx (s : State) (v : BitReader) : (s.withBr v).idx = s.idx := rfl
@[simp] theorem State.withBr_st (s : State) (v : BitReader) : (s.withBr v).st = s.st := rfl
@[simp] theorem State.withBr_seq (s : State) (v : BitReader) : (s.withBr v).seq = s.seq := rfl
@[simp] theorem State.withBr_host (s : State) (v : BitReader) : (s.withBr v).host = s.host := rfl
@[simp] theorem State.withBr_fork (s : State) (v : BitReader) : (s.withBr v).fork = s.fork := rfl
@[simp] theorem State.withBr_dec (s : State) (v : BitReader) : (s.withBr v).dec = s.dec := rfl
@[simp] theorem State.withBr_ret (s : State) (v : BitReader) : (s.withBr v).ret = s.ret := rfl
@[simp] theorem State.withBr_draws (s : State) (v : BitReader) : (s.withBr v).draws = s.draws := rfl
@[simp] theorem State.withBr_par (s : State) (v : BitReader) : (s.withBr v).par = s.par := rfl
@[simp] theorem State.withBr_withBr (s : State) (v w : BitReader) : (s.withBr v).withBr w = s.withBr w := rfl
@[simp] theorem State.withBr_self (s : State) : s.withBr s.br = s := rfl

/-! ## `withCrc` -/

@[simp] theorem State.withCrc_src (s : State) (v : U16) : (s.withCrc v).src = s.src := rfl
@[simp] theorem State.withCrc_win (s : State) (v : U16) : (s.withCrc v).win = s.win := rfl
@[simp] theorem State.withCrc_outMem (s : State) (v : U16) : (s.withCrc v).outMem = s.outMem := rfl
@[simp] theorem State.withCrc_br (s : State) (v : U16) : (s.withCrc v).br = s.br := rfl
@[simp] theorem State.withCrc_crc (s : State) (v : U16) : (s.withCrc v).crc = v := rfl
@[simp] theorem State.withCrc_out (s : State) (v : U16) : (s.withCrc v).out = s.out := rfl
@[simp] theorem State.withCrc_m13 (s : State) (v : U16) : (s.withCrc v).m13 = s.m13 := rfl
@[simp] theorem State.withCrc_m14 (s : State) (v : U16) : (s.withCrc v).m14 = s.m14 := rfl
@[simp] theorem State.withCrc_cp (s : State) (v : U16) : (s.withCrc v).cp = s.cp := rfl
@[simp] theorem State.withCrc_h (s : State) (v : U16) : (s.withCrc v).h = s.h := rfl
@[simp] theorem State.withCrc_idx (s : State) (v : U16) : (s.withCrc v).idx = s.idx := rfl
@[simp] theorem State.withCrc_st (s : State) (v : U16) : (s.withCrc v).st = s.st := rfl
@[simp] theorem State.withCrc_seq (s : State) (v : U16) : (s.withCrc v).seq = s.seq := rfl
@[simp] theorem State.withCrc_host (s : State) (v : U16) : (s.withCrc v).host = s.host := rfl
@[simp] theorem State.withCrc_fork (s : State) (v : U16) : (s.withCrc v).fork = s.fork := rfl
@[simp] theorem State.withCrc_dec (s : State) (v : U16) : (s.withCrc v).dec = s.dec := rfl
@[simp] theorem State.withCrc_ret (s : State) (v : U16) : (s.withCrc v).ret = s.ret := rfl
@[simp] theorem State.withCrc_draws (s : State) (v : U16) : (s.withCrc v).draws = s.draws := rfl
@[simp] theorem State.withCrc_par (s : State) (v : U16) : (s.withCrc v).par = s.par := rfl
@[simp] theorem State.withCrc_withCrc (s : State) (v w : U16) : (s.withCrc v).withCrc w = s.withCrc w := rfl
@[simp] theorem State.withCrc_self (s : State) : s.withCrc s.crc = s := rfl

/-! ## `withOut` -/

@[simp] theorem State.withOut_src (s : State) (v : Output) : (s.withOut v).src = s.src := rfl
@[simp] theorem State.withOut_win (s : State) (v : Output) : (s.withOut v).win = s.win := rfl
@[simp] theorem State.withOut_outMem (s : State) (v : Output) : (s.withOut v).outMem = s.outMem := rfl
@[simp] theorem State.withOut_br (s : State) (v : Output) : (s.withOut v).br = s.br := rfl
@[simp] theorem State.withOut_crc (s : State) (v : Output) : (s.withOut v).crc = s.crc := rfl
@[simp] theorem State.withOut_out (s : State) (v : Output) : (s.withOut v).out = v := rfl
@[simp] theorem State.withOut_m13 (s : State) (v : Output) : (s.withOut v).m13 = s.m13 := rfl
@[simp] theorem State.withOut_m14 (s : State) (v : Output) : (s.withOut v).m14 = s.m14 := rfl
@[simp] theorem State.withOut_cp (s : State) (v : Output) : (s.withOut v).cp = s.cp := rfl
@[simp] theorem State.withOut_h (s : State) (v : Output) : (s.withOut v).h = s.h := rfl
@[simp] theorem State.withOut_idx (s : State) (v : Output) : (s.withOut v).idx = s.idx := rfl
@[simp] theorem State.withOut_st (s : State) (v : Output) : (s.withOut v).st = s.st := rfl
@[simp] theorem State.withOut_seq (s : State) (v : Output) : (s.withOut v).seq = s.seq := rfl
@[simp] theorem State.withOut_host (s : State) (v : Output) : (s.withOut v).host = s.host := rfl
@[simp] theorem State.withOut_fork (s : State) (v : Output) : (s.withOut v).fork = s.fork := rfl
@[simp] theorem State.withOut_dec (s : State) (v : Output) : (s.withOut v).dec = s.dec := rfl
@[simp] theorem State.withOut_ret (s : State) (v : Output) : (s.withOut v).ret = s.ret := rfl
@[simp] theorem State.withOut_draws (s : State) (v : Output) : (s.withOut v).draws = s.draws := rfl
@[simp] theorem State.withOut_par (s : State) (v : Output) : (s.withOut v).par = s.par := rfl
@[simp] theorem State.withOut_withOut (s : State) (v w : Output) : (s.withOut v).withOut w = s.withOut w := rfl
@[simp] theorem State.withOut_self (s : State) : s.withOut s.out = s := rfl

/-! ## `withM13` -/

@[simp] theorem State.withM13_src (s : State) (v : M13) : (s.withM13 v).src = s.src := rfl
@[simp] theorem State.withM13_win (s : State) (v : M13) : (s.withM13 v).win = s.win := rfl
@[simp] theorem State.withM13_outMem (s : State) (v : M13) : (s.withM13 v).outMem = s.outMem := rfl
@[simp] theorem State.withM13_br (s : State) (v : M13) : (s.withM13 v).br = s.br := rfl
@[simp] theorem State.withM13_crc (s : State) (v : M13) : (s.withM13 v).crc = s.crc := rfl
@[simp] theorem State.withM13_out (s : State) (v : M13) : (s.withM13 v).out = s.out := rfl
@[simp] theorem State.withM13_m13 (s : State) (v : M13) : (s.withM13 v).m13 = v := rfl
@[simp] theorem State.withM13_m14 (s : State) (v : M13) : (s.withM13 v).m14 = s.m14 := rfl
@[simp] theorem State.withM13_cp (s : State) (v : M13) : (s.withM13 v).cp = s.cp := rfl
@[simp] theorem State.withM13_h (s : State) (v : M13) : (s.withM13 v).h = s.h := rfl
@[simp] theorem State.withM13_idx (s : State) (v : M13) : (s.withM13 v).idx = s.idx := rfl
@[simp] theorem State.withM13_st (s : State) (v : M13) : (s.withM13 v).st = s.st := rfl
@[simp] theorem State.withM13_seq (s : State) (v : M13) : (s.withM13 v).seq = s.seq := rfl
@[simp] theorem State.withM13_host (s : State) (v : M13) : (s.withM13 v).host = s.host := rfl
@[simp] theorem State.withM13_fork (s : State) (v : M13) : (s.withM13 v).fork = s.fork := rfl
@[simp] theorem State.withM13_dec (s : State) (v : M13) : (s.withM13 v).dec = s.dec := rfl
@[simp] theorem State.withM13_ret (s : State) (v : M13) : (s.withM13 v).ret = s.ret := rfl
@[simp] theorem State.withM13_draws (s : State) (v : M13) : (s.withM13 v).draws = s.draws := rfl
@[simp] theorem State.withM13_par (s : State) (v : M13) : (s.withM13 v).par = s.par := rfl
@[simp] theorem State.withM13_withM13 (s : State) (v w : M13) : (s.withM13 v).withM13 w = s.withM13 w := rfl
@[simp] theorem State.withM13_self (s : State) : s.withM13 s.m13 = s := rfl

/-! ## `withM14` -/

@[simp] theorem State.withM14_src (s : State) (v : M14) : (s.withM14 v).src = s.src := rfl
@[simp] theorem State.withM14_win (s : State) (v : M14) : (s.withM14 v).win = s.win := rfl
@[simp] theorem State.withM14_outMem (s : State) (v : M14) : (s.withM14 v).outMem = s.outMem := rfl
@[simp] theorem State.withM14_br (s : State) (v : M14) : (s.withM14 v).br = s.br := rfl
@[simp] theorem State.withM14_crc (s : State) (v : M14) : (s.withM14 v).crc = s.crc := rfl
@[simp] theorem State.withM14_out (s : State) (v : M14) : (s.withM14 v).out = s.out := rfl
@[simp] theorem State.withM14_m13 (s : State) (v : M14) : (s.withM14 v).m13 = s.m13 := rfl
@[simp] theorem State.withM14_m14 (s : State) (v : M14) : (s.withM14 v).m14 = v := rfl
@[simp] theorem State.withM14_cp (s : State) (v : M14) : (s.withM14 v).cp = s.cp := rfl
@[simp] theorem State.withM14_h (s : State) (v : M14) : (s.withM14 v).h = s.h := rfl
@[simp] theorem State.withM14_idx (s : State) (v : M14) : (s.withM14 v).idx = s.idx := rfl
@[simp] theorem State.withM14_st (s : State) (v : M14) : (s.withM14 v).st = s.st := rfl
@[simp] theorem State.withM14_seq (s : State) (v : M14) : (s.withM14 v).seq = s.seq := rfl
@[simp] theorem State.withM14_host (s : State) (v : M14) : (s.withM14 v).host = s.host := rfl
@[simp] theorem State.withM14_fork (s : State) (v : M14) : (s.withM14 v).fork = s.fork := rfl
@[simp] theorem State.withM14_dec (s : State) (v : M14) : (s.withM14 v).dec = s.dec := rfl
@[simp] theorem State.withM14_ret (s : State) (v : M14) : (s.withM14 v).ret = s.ret := rfl
@[simp] theorem State.withM14_draws (s : State) (v : M14) : (s.withM14 v).draws = s.draws := rfl
@[simp] theorem State.withM14_par (s : State) (v : M14) : (s.withM14 v).par = s.par := rfl
@[simp] theorem State.withM14_withM14 (s : State) (v w : M14) : (s.withM14 v).withM14 w = s.withM14 w := rfl
@[simp] theorem State.withM14_self (s : State) : s.withM14 s.m14 = s := rfl

/-! ## `withCp` -/

@[simp] theorem State.withCp_src (s : State) (v : Parser) : (s.withCp v).src = s.src := rfl
@[simp] theorem State.withCp_win (s : State) (v : Parser) : (s.withCp v).win = s.win := rfl
@[simp] theorem State.withCp_outMem (s : State) (v : Parser) : (s.withCp v).outMem = s.outMem := rfl
@[simp] theorem State.withCp_br (s : State) (v : Parser) : (s.withCp v).br = s.br := rfl
@[simp] theorem State.withCp_crc (s : State) (v : Parser) : (s.withCp v).crc = s.crc := rfl
@[simp] theorem State.withCp_out (s : State) (v : Parser) : (s.withCp v).out = s.out := rfl
@[simp] theorem State.withCp_m13 (s : State) (v : Parser) : (s.withCp v).m13 = s.m13 := rfl
@[simp] theorem State.withCp_m14 (s : State) (v : Parser) : (s.withCp v).m14 = s.m14 := rfl
@[simp] theorem State.withCp_cp (s : State) (v : Parser) : (s.withCp v).cp = v := rfl
@[simp] theorem State.withCp_h (s : State) (v : Parser) : (s.withCp v).h = s.h := rfl
@[simp] theorem State.withCp_idx (s : State) (v : Parser) : (s.withCp v).idx = s.idx := rfl
@[simp] theorem State.withCp_st (s : State) (v : Parser) : (s.withCp v).st = s.st := rfl
@[simp] theorem State.withCp_seq (s : State) (v : Parser) : (s.withCp v).seq = s.seq := rfl
@[simp] theorem State.withCp_host (s : State) (v : Parser) : (s.withCp v).host = s.host := rfl
@[simp] theorem State.withCp_fork (s : State) (v : Parser) : (s.withCp v).fork = s.fork := rfl
@[simp] theorem State.withCp_dec (s : State) (v : Parser) : (s.withCp v).dec = s.dec := rfl
@[simp] theorem State.withCp_ret (s : State) (v : Parser) : (s.withCp v).ret = s.ret := rfl
@[simp] theorem State.withCp_draws (s : State) (v : Parser) : (s.withCp v).draws = s.draws := rfl
@[simp] theorem State.withCp_par (s : State) (v : Parser) : (s.withCp v).par = s.par := rfl
@[simp] theorem State.withCp_withCp (s : State) (v w : Parser) : (s.withCp v).withCp w = s.withCp w := rfl
@[simp] theorem State.withCp_self (s : State) : s.withCp s.cp = s := rfl

/-! ## `withH` -/

@[simp] theorem State.withH_src (s : State) (v : Handle) : (s.withH v).src = s.src := rfl
@[simp] theorem State.withH_win (s : State) (v : Handle) : (s.withH v).win = s.win := rfl
@[simp] theorem State.withH_outMem (s : State) (v : Handle) : (s.withH v).outMem = s.outMem := rfl
@[simp] theorem State.withH_br (s : State) (v : Handle) : (s.withH v).br = s.br := rfl
@[simp] theorem State.withH_crc (s : State) (v : Handle) : (s.withH v).crc = s.crc := rfl
@[simp] theorem State.withH_out (s : State) (v : Handle) : (s.withH v).out = s.out := rfl
@[simp] theorem State.withH_m13 (s : State) (v : Handle) : (s.withH v).m13 = s.m13 := rfl
@[simp] theorem State.withH_m14 (s : State) (v : Handle) : (s.withH v).m14 = s.m14 := rfl
@[simp] theorem State.withH_cp (s : State) (v : Handle) : (s.withH v).cp = s.cp := rfl
@[simp] theorem State.withH_h (s : State) (v : Handle) : (s.withH v).h = v := rfl
@[simp] theorem State.withH_idx (s : State) (v : Handle) : (s.withH v).idx = s.idx := rfl
@[simp] theorem State.withH_st (s : State) (v : Handle) : (s.withH v).st = s.st := rfl
@[simp] theorem State.withH_seq (s : State) (v : Handle) : (s.withH v).seq = s.seq := rfl
@[simp] theorem State.withH_host (s : State) (v : Handle) : (s.withH v).host = s.host := rfl
@[simp] theorem State.withH_fork (s : State) (v : Handle) : (s.withH v).fork = s.fork := rfl
@[simp] theorem State.withH_dec (s : State) (v : Handle) : (s.withH v).dec = s.dec := rfl
@[simp] theorem State.withH_ret (s : State) (v : Handle) : (s.withH v).ret = s.ret := rfl
@[simp] theorem State.withH_draws (s : State) (v : Handle) : (s.withH v).draws = s.draws := rfl
@[simp] theorem State.withH_par (s : State) (v : Handle) : (s.withH v).par = s.par := rfl
@[simp] theorem State.withH_withH (s : State) (v w : Handle) : (s.withH v).withH w = s.withH w := rfl
@[simp] theorem State.withH_self (s : State) : s.withH s.h = s := rfl

/-! ## `withIdx` -/

@[simp] theorem State.withIdx_src (s : State) (v : Index) : (s.withIdx v).src = s.src := rfl
@[simp] theorem State.withIdx_win (s : State) (v : Index) : (s.withIdx v).win = s.win := rfl
@[simp] theorem State.withIdx_outMem (s : State) (v : Index) : (s.withIdx v).outMem = s.outMem := rfl
@[simp] theorem State.withIdx_br (s : State) (v : Index) : (s.withIdx v).br = s.br := rfl
@[simp] theorem State.withIdx_crc (s : State) (v : Index) : (s.withIdx v).crc = s.crc := rfl
@[simp] theorem State.withIdx_out (s : State) (v : Index) : (s.withIdx v).out = s.out := rfl
@[simp] theorem State.withIdx_m13 (s : State) (v : Index) : (s.withIdx v).m13 = s.m13 := rfl
@[simp] theorem State.withIdx_m14 (s : State) (v : Index) : (s.withIdx v).m14 = s.m14 := rfl
@[simp] theorem State.withIdx_cp (s : State) (v : Index) : (s.withIdx v).cp = s.cp := rfl
@[simp] theorem State.withIdx_h (s : State) (v : Index) : (s.withIdx v).h = s.h := rfl
@[simp] theorem State.withIdx_idx (s : State) (v : Index) : (s.withIdx v).idx = v := rfl
@[simp] theorem State.withIdx_st (s : State) (v : Index) : (s.withIdx v).st = s.st := rfl
@[simp] theorem State.withIdx_seq (s : State) (v : Index) : (s.withIdx v).seq = s.seq := rfl
@[simp] theorem State.withIdx_host (s : State) (v : Index) : (s.withIdx v).host = s.host := rfl
@[simp] theorem State.withIdx_fork (s : State) (v : Index) : (s.withIdx v).fork = s.fork := rfl
@[simp] theorem State.withIdx_dec (s : State) (v : Index) : (s.withIdx v).dec = s.dec := rfl
@[simp] theorem State.withIdx_ret (s : State) (v : Index) : (s.withIdx v).ret = s.ret := rfl
@[simp] theorem State.withIdx_draws (s : State) (v : Index) : (s.withIdx v).draws = s.draws := rfl
@[simp] theorem State.withIdx_par (s : State) (v : Index) : (s.withIdx v).par = s.par := rfl
@[simp] theorem State.withIdx_withIdx (s : State) (v w : Index) : (s.withIdx v).withIdx w = s.withIdx w := rfl
@[simp] theorem State.withIdx_self (s : State) : s.withIdx s.idx = s := rfl

/-! ## `withSt` -/

@[simp] theorem State.withSt_src (s : State) (v : Status) : (s.withSt v).src = s.src := rfl
@[simp] theorem State.withSt_win (s : State) (v : Status) : (s.withSt v).win = s.win := rfl
@[simp] theorem State.withSt_outMem (s : State) (v : Status) : (s.withSt v).outMem = s.outMem := rfl
@[simp] theorem State.withSt_br (s : State) (v : Status) : (s.withSt v).br = s.br := rfl
@[simp] theorem State.withSt_crc (s : State) (v : Status) : (s.withSt v).crc = s.crc := rfl
@[simp] theorem State.withSt_out (s : State) (v : Status) : (s.withSt v).out = s.out := rfl
@[simp] theorem State.withSt_m13 (s : State) (v : Status) : (s.withSt v).m13 = s.m13 := rfl
@[simp] theorem State.withSt_m14 (s : State) (v : Status) : (s.withSt v).m14 = s.m14 := rfl
@[simp] theorem State.withSt_cp (s : State) (v : Status) : (s.withSt v).cp = s.cp := rfl
@[simp] theorem State.withSt_h (s : State) (v : Status) : (s.withSt v).h = s.h := rfl
@[simp] theorem State.withSt_idx (s : State) (v : Status) : (s.withSt v).idx = s.idx := rfl
@[simp] theorem State.withSt_st (s : State) (v : Status) : (s.withSt v).st = v := rfl
@[simp] theorem State.withSt_seq (s : State) (v : Status) : (s.withSt v).seq = s.seq := rfl
@[simp] theorem State.withSt_host (s : State) (v : Status) : (s.withSt v).host = s.host := rfl
@[simp] theorem State.withSt_fork (s : State) (v : Status) : (s.withSt v).fork = s.fork := rfl
@[simp] theorem State.withSt_dec (s : State) (v : Status) : (s.withSt v).dec = s.dec := rfl
@[simp] theorem State.withSt_ret (s : State) (v : Status) : (s.withSt v).ret = s.ret := rfl
@[simp] theorem State.withSt_draws (s : State) (v : Status) : (s.withSt v).draws = s.draws := rfl
@[simp] theorem State.withSt_par (s : State) (v : Status) : (s.withSt v).par = s.par := rfl
@[simp] theorem State.withSt_withSt (s : State) (v w : Status) : (s.withSt v).withSt w = s.withSt w := rfl
@[simp] theorem State.withSt_self (s : State) : s.withSt s.st = s := rfl

/-! ## `withSeq` -/

@[simp] theorem State.withSeq_src (s : State) (v : List Task) : (s.withSeq v).src = s.src := rfl
@[simp] theorem State.withSeq_win (s : State) (v : List Task) : (s.withSeq v).win = s.win := rfl
@[simp] theorem State.withSeq_outMem (s : State) (v : List Task) : (s.withSeq v).outMem = s.outMem := rfl
@[simp] theorem State.withSeq_br (s : State) (v : List Task) : (s.withSeq v).br = s.br := rfl
@[simp] theorem State.withSeq_crc (s : State) (v : List Task) : (s.withSeq v).crc = s.crc := rfl
@[simp] theorem State.withSeq_out (s : State) (v : List Task) : (s.withSeq v).out = s.out := rfl
@[simp] theorem State.withSeq_m13 (s : State) (v : List Task) : (s.withSeq v).m13 = s.m13 := rfl
@[simp] theorem State.withSeq_m14 (s : State) (v : List Task) : (s.withSeq v).m14 = s.m14 := rfl
@[simp] theorem State.withSeq_cp (s : State) (v : List Task) : (s.withSeq v).cp = s.cp := rfl
@[simp] theorem State.withSeq_h (s : State) (v : List Task) : (s.withSeq v).h = s.h := rfl
@[simp] theorem State.withSeq_idx (s : State) (v : List Task) : (s.withSeq v).idx = s.idx := rfl
@[simp] theorem State.withSeq_st (s : State) (v : List Task) : (s.withSeq v).st = s.st := rfl
@[simp] theorem State.withSeq_seq (s : State) (v : List Task) : (s.withSeq v).seq = v := rfl
@[simp] theorem State.withSeq_host (s : State) (v : List Task) : (s.withSeq v).host = s.host := rfl
@[simp] theorem State.withSeq_fork (s : State) (v : List Task) : (s.withSeq v).fork = s.fork := rfl
@[simp] theorem State.withSeq_dec (s : State) (v : List Task) : (s.withSeq v).dec = s.dec := rfl
@[simp] theorem State.withSeq_ret (s : State) (v : List Task) : (s.withSeq v).ret = s.ret := rfl
@[simp] theorem State.withSeq_draws (s : State) (v : List Task) : (s.withSeq v).draws = s.draws := rfl
@[simp] theorem State.withSeq_par (s : State) (v : List Task) : (s.withSeq v).par = s.par := rfl
@[simp] theorem State.withSeq_withSeq (s : State) (v w : List Task) : (s.withSeq v).withSeq w = s.withSeq w := rfl
@[simp] theorem State.withSeq_self (s : State) : s.withSeq s.seq = s := rfl

/-! ## `withHost` -/

@[simp] theorem State.withHost_src (s : State) (v : List Cmd) : (s.withHost v).src = s.src := rfl
@[simp] theorem State.withHost_win (s : State) (v : List Cmd) : (s.withHost v).win = s.win := rfl
@[simp] theorem State.withHost_outMem (s : State) (v : List Cmd) : (s.withHost v).outMem = s.outMem := rfl
@[simp] theorem State.withHost_br (s : State) (v : List Cmd) : (s.withHost v).br = s.br := rfl
@[simp] theorem State.withHost_crc (s : State) (v : List Cmd) : (s.withHost v).crc = s.crc := rfl
@[simp] theorem State.withHost_out (s : State) (v : List Cmd) : (s.withHost v).out = s.out := rfl
@[simp] theorem State.withHost_m13 (s : State) (v : List Cmd) : (s.withHost v).m13 = s.m13 := rfl
@[simp] theorem State.withHost_m14 (s : State) (v : List Cmd) : (s.withHost v).m14 = s.m14 := rfl
@[simp] theorem State.withHost_cp (s : State) (v : List Cmd) : (s.withHost v).cp = s.cp := rfl
@[simp] theorem State.withHost_h (s : State) (v : List Cmd) : (s.withHost v).h = s.h := rfl
@[simp] theorem State.withHost_idx (s : State) (v : List Cmd) : (s.withHost v).idx = s.idx := rfl
@[simp] theorem State.withHost_st (s : State) (v : List Cmd) : (s.withHost v).st = s.st := rfl
@[simp] theorem State.withHost_seq (s : State) (v : List Cmd) : (s.withHost v).seq = s.seq := rfl
@[simp] theorem State.withHost_host (s : State) (v : List Cmd) : (s.withHost v).host = v := rfl
@[simp] theorem State.withHost_fork (s : State) (v : List Cmd) : (s.withHost v).fork = s.fork := rfl
@[simp] theorem State.withHost_dec (s : State) (v : List Cmd) : (s.withHost v).dec = s.dec := rfl
@[simp] theorem State.withHost_ret (s : State) (v : List Cmd) : (s.withHost v).ret = s.ret := rfl
@[simp] theorem State.withHost_draws (s : State) (v : List Cmd) : (s.withHost v).draws = s.draws := rfl
@[simp] theorem State.withHost_par (s : State) (v : List Cmd) : (s.withHost v).par = s.par := rfl
@[simp] theorem State.withHost_withHost (s : State) (v w : List Cmd) : (s.withHost v).withHost w = s.withHost w := rfl
@[simp] theorem State.withHost_self (s : State) : s.withHost s.host = s := rfl

/-! ## `withFork` -/

@[simp] theorem State.withFork_src (s : State) (v : ForkDesc) : (s.withFork v).src = s.src := rfl
@[simp] theorem State.withFork_win (s : State) (v : ForkDesc) : (s.withFork v).win = s.win := rfl
@[simp] theorem State.withFork_outMem (s : State) (v : ForkDesc) : (s.withFork v).outMem = s.outMem := rfl
@[simp] theorem State.withFork_br (s : State) (v : ForkDesc) : (s.withFork v).br = s.br := rfl
@[simp] theorem State.withFork_crc (s : State) (v : ForkDesc) : (s.withFork v).crc = s.crc := rfl
@[simp] theorem State.withFork_out (s : State) (v : ForkDesc) : (s.withFork v).out = s.out := rfl
@[simp] theorem State.withFork_m13 (s : State) (v : ForkDesc) : (s.withFork v).m13 = s.m13 := rfl
@[simp] theorem State.withFork_m14 (s : State) (v : ForkDesc) : (s.withFork v).m14 = s.m14 := rfl
@[simp] theorem State.withFork_cp (s : State) (v : ForkDesc) : (s.withFork v).cp = s.cp := rfl
@[simp] theorem State.withFork_h (s : State) (v : ForkDesc) : (s.withFork v).h = s.h := rfl
@[simp] theorem State.withFork_idx (s : State) (v : ForkDesc) : (s.withFork v).idx = s.idx := rfl
@[simp] theorem State.withFork_st (s : State) (v : ForkDesc) : (s.withFork v).st = s.st := rfl
@[simp] theorem State.withFork_seq (s : State) (v : ForkDesc) : (s.withFork v).seq = s.seq := rfl
@[simp] theorem State.withFork_host (s : State) (v : ForkDesc) : (s.withFork v).host = s.host := rfl
@[simp] theorem State.withFork_fork (s : State) (v : ForkDesc) : (s.withFork v).fork = v := rfl
@[simp] theorem State.withFork_dec (s : State) (v : ForkDesc) : (s.withFork v).dec = s.dec := rfl
@[simp] theorem State.withFork_ret (s : State) (v : ForkDesc) : (s.withFork v).ret = s.ret := rfl
@[simp] theorem State.withFork_draws (s : State) (v : ForkDesc) : (s.withFork v).draws = s.draws := rfl
@[simp] theorem State.withFork_par (s : State) (v : ForkDesc) : (s.withFork v).par = s.par := rfl
@[simp] theorem State.withFork_withFork (s : State) (v w : ForkDesc) : (s.withFork v).withFork w = s.withFork w := rfl
@[simp] theorem State.withFork_self (s : State) : s.withFork s.fork = s := rfl

/-! ## `withDec` -/

@[simp] theorem State.withDec_src (s : State) (v : Decoder) : (s.withDec v).src = s.src := rfl
@[simp] theorem State.withDec_win (s : State) (v : Decoder) : (s.withDec v).win = s.win := rfl
@[simp] theorem State.withDec_outMem (s : State) (v : Decoder) : (s.withDec v).outMem = s.outMem := rfl
@[simp] theorem State.withDec_br (s : State) (v : Decoder) : (s.withDec v).br = s.br := rfl
@[simp] theorem State.withDec_crc (s : State) (v : Decoder) : (s.withDec v).crc = s.crc := rfl
@[simp] theorem State.withDec_out (s : State) (v : Decoder) : (s.withDec v).out = s.out := rfl
@[simp] theorem State.withDec_m13 (s : State) (v : Decoder) : (s.withDec v).m13 = s.m13 := rfl
@[simp] theorem State.withDec_m14 (s : State) (v : Decoder) : (s.withDec v).m14 = s.m14 := rfl
@[simp] theorem State.withDec_cp (s : State) (v : Decoder) : (s.withDec v).cp = s.cp := rfl
@[simp] theorem State.withDec_h (s : State) (v : Decoder) : (s.withDec v).h = s.h := rfl
@[simp] theorem State.withDec_idx (s : State) (v : Decoder) : (s.withDec v).idx = s.idx := rfl
@[simp] theorem State.withDec_st (s : State) (v : Decoder) : (s.withDec v).st = s.st := rfl
@[simp] theorem State.withDec_seq (s : State) (v : Decoder) : (s.withDec v).seq = s.seq := rfl
@[simp] theorem State.withDec_host (s : State) (v : Decoder) : (s.withDec v).host = s.host := rfl
@[simp] theorem State.withDec_fork (s : State) (v : Decoder) : (s.withDec v).fork = s.fork := rfl
@[simp] theorem State.withDec_dec (s : State) (v : Decoder) : (s.withDec v).dec = v := rfl
@[simp] theorem State.withDec_ret (s : State) (v : Decoder) : (s.withDec v).ret = s.ret := rfl
@[simp] theorem State.withDec_draws (s : State) (v : Decoder) : (s.withDec v).draws = s.draws := rfl
@[simp] theorem State.withDec_par (s : State) (v : Decoder) : (s.withDec v).par = s.par := rfl
@[simp] theorem State.withDec_withDec (s : State) (v w : Decoder) : (s.withDec v).withDec w = s.withDec w := rfl
@[simp] theorem State.withDec_self (s : State) : s.withDec s.dec = s := rfl

/-! ## `withRet` -/

@[simp] theorem State.withRet_src (s : State) (v : Ret) : (s.withRet v).src = s.src := rfl
@[simp] theorem State.withRet_win (s : State) (v : Ret) : (s.withRet v).win = s.win := rfl
@[simp] theorem State.withRet_outMem (s : State) (v : Ret) : (s.withRet v).outMem = s.outMem := rfl
@[simp] theorem State.withRet_br (s : State) (v : Ret) : (s.withRet v).br = s.br := rfl
@[simp] theorem State.withRet_crc (s : State) (v : Ret) : (s.withRet v).crc = s.crc := rfl
@[simp] theorem State.withRet_out (s : State) (v : Ret) : (s.withRet v).out = s.out := rfl
@[simp] theorem State.withRet_m13 (s : State) (v : Ret) : (s.withRet v).m13 = s.m13 := rfl
@[simp] theorem State.withRet_m14 (s : State) (v : Ret) : (s.withRet v).m14 = s.m14 := rfl
@[simp] theorem State.withRet_cp (s : State) (v : Ret) : (s.withRet v).cp = s.cp := rfl
@[simp] theorem State.withRet_h (s : State) (v : Ret) : (s.withRet v).h = s.h := rfl
@[simp] theorem State.withRet_idx (s : State) (v : Ret) : (s.withRet v).idx = s.idx := rfl
@[simp] theorem State.withRet_st (s : State) (v : Ret) : (s.withRet v).st = s.st := rfl
@[simp] theorem State.withRet_seq (s : State) (v : Ret) : (s.withRet v).seq = s.seq := rfl
@[simp] theorem State.withRet_host (s : State) (v : Ret) : (s.withRet v).host = s.host := rfl
@[simp] theorem State.withRet_fork (s : State) (v : Ret) : (s.withRet v).fork = s.fork := rfl
@[simp] theorem State.withRet_dec (s : State) (v : Ret) : (s.withRet v).dec = s.dec := rfl
@[simp] theorem State.withRet_ret (s : State) (v : Ret) : (s.withRet v).ret = v := rfl
@[simp] theorem State.withRet_draws (s : State) (v : Ret) : (s.withRet v).draws = s.draws := rfl
@[simp] theorem State.withRet_par (s : State) (v : Ret) : (s.withRet v).par = s.par := rfl
@[simp] theorem State.withRet_withRet (s : State) (v w : Ret) : (s.withRet v).withRet w = s.withRet w := rfl
@[simp] theorem State.withRet_self (s : State) : s.withRet s.ret = s := rfl

/-! ## `withDraws` -/

@[simp] theorem State.withDraws_src (s : State) (v : Nat) : (s.withDraws v).src = s.src := rfl
@[simp] theorem State.withDraws_win (s : State) (v : Nat) : (s.withDraws v).win = s.win := rfl
@[simp] theorem State.withDraws_outMem (s : State) (v : Nat) : (s.withDraws v).outMem = s.outMem := rfl
@[simp] theorem State.withDraws_br (s : State) (v : Nat) : (s.withDraws v).br = s.br := rfl
@[simp] theorem State.withDraws_crc (s : State) (v : Nat) : (s.withDraws v).crc = s.crc := rfl
@[simp] theorem State.withDraws_out (s : State) (v : Nat) : (s.withDraws v).out = s.out := rfl
@[simp] theorem State.withDraws_m13 (s : State) (v : Nat) : (s.withDraws v).m13 = s.m13 := rfl
@[simp] theorem State.withDraws_m14 (s : State) (v : Nat) : (s.withDraws v).m14 = s.m14 := rfl
@[simp] theorem State.withDraws_cp (s : State) (v : Nat) : (s.withDraws v).cp = s.cp := rfl
@[simp] theorem State.withDraws_h (s : State) (v : Nat) : (s.withDraws v).h = s.h := rfl
@[simp] theorem State.withDraws_idx (s : State) (v : Nat) : (s.withDraws v).idx = s.idx := rfl
@[simp] theorem State.withDraws_st (s : State) (v : Nat) : (s.withDraws v).st = s.st := rfl
@[simp] theorem State.withDraws_seq (s : State) (v : Nat) : (s.withDraws v).seq = s.seq := rfl
@[simp] theorem State.withDraws_host (s : State) (v : Nat) : (s.withDraws v).host = s.host := rfl
@[simp] theorem State.withDraws_fork (s : State) (v : Nat) : (s.withDraws v).fork = s.fork := rfl
@[simp] theorem State.withDraws_dec (s : State) (v : Nat) : (s.withDraws v).dec = s.dec := rfl
@[simp] theorem State.withDraws_ret (s : State) (v : Nat) : (s.withDraws v).ret = s.ret := rfl
@[simp] theorem State.withDraws_draws (s : State) (v : Nat) : (s.withDraws v).draws = v := rfl
@[simp] theorem State.withDraws_par (s : State) (v : Nat) : (s.withDraws v).par = s.par := rfl
@[simp] theorem State.withDraws_withDraws (s : State) (v w : Nat) : (s.withDraws v).withDraws w = s.withDraws w := rfl
@[simp] theorem State.withDraws_self (s : State) : s.withDraws s.draws = s := rfl

/-! ## `pushTasks` -/

@[simp] theorem pushTasks_src (ts : List Task) (s : State) : (pushTasks ts s).src = s.src := rfl
@[simp] theorem pushTasks_win (ts : List Task) (s : State) : (pushTasks ts s).win = s.win := rfl
@[simp] theorem pushTasks_outMem (ts : List Task) (s : State) : (pushTasks ts s).outMem = s.outMem := rfl
@[simp] theorem pushTasks_br (ts : List Task) (s : State) : (pushTasks ts s).br = s.br := rfl
@[simp] theorem pushTasks_crc (ts : List Task) (s : State) : (pushTasks ts s).crc = s.crc := rfl
@[simp] theorem pushTasks_out (ts : List Task) (s : State) : (pushTasks ts s).out = s.out := rfl
@[simp] theorem pushTasks_m13 (ts : List Task) (s : State) : (pushTasks ts s).m13 = s.m13 := rfl
@[simp] theorem pushTasks_m14 (ts : List Task) (s : State) : (pushTasks ts s).m14 = s.m14 := rfl
@[simp] theorem pushTasks_cp (ts : List Task) (s : State) : (pushTasks ts s).cp = s.cp := rfl
@[simp] theorem pushTasks_h (ts : List Task) (s : State) : (pushTasks ts s).h = s.h := rfl
@[simp] theorem pushTasks_idx (ts : List Task) (s : State) : (pushTasks ts s).idx = s.idx := rfl
@[simp] theorem pushTasks_st (ts : List Task) (s : State) : (pushTasks ts s).st = s.st := rfl
@[simp] theorem pushTasks_seq (ts : List Task) (s : State) : (pushTasks ts s).seq = ts ++ s.seq := rfl
@[simp] theorem pushTasks_host (ts : List Task) (s : State) : (pushTasks ts s).host = s.host := rfl
@[simp] theorem pushTasks_fork (ts : List Task) (s : State) : (pushTasks ts s).fork = s.fork := rfl
@[simp] theorem pushTasks_dec (ts : List Task) (s : State) : (pushTasks ts s).dec = s.dec := rfl
@[simp] theorem pushTasks_ret (ts : List Task) (s : State) : (pushTasks ts s).ret = s.ret := rfl
@[simp] theorem pushTasks_draws (ts : List Task) (s : State) : (pushTasks ts s).draws = s.draws := rfl
@[simp] theorem pushTasks_par (ts : List Task) (s : State) : (pushTasks ts s).par = s.par := rfl

/-! ## `endCommand` -/

@[simp] theorem endCommand_src (r : Result) (s : State) : (endCommand r s).src = s.src := rfl
@[simp] theorem endCommand_win (r : Result) (s : State) : (endCommand r s).win = s.win := rfl
@[simp] theorem endCommand_outMem (r : Result) (s : State) : (endCommand r s).outMem = s.outMem := rfl
@[simp] theorem endCommand_br (r : Result) (s : State) : (endCommand r s).br = s.br := rfl
@[simp] theorem endCommand_crc (r : Result) (s : State) : (endCommand r s).crc = s.crc := rfl
@[simp] theorem endCommand_out (r : Result) (s : State) : (endCommand r s).out = s.out := rfl
@[simp] theorem endCommand_m13 (r : Result) (s : State) : (endCommand r s).m13 = s.m13 := rfl
@[simp] theorem endCommand_m14 (r : Result) (s : State) : (endCommand r s).m14 = s.m14 := rfl
@[simp] theorem endCommand_cp (r : Result) (s : State) : (endCommand r s).cp = s.cp := rfl
@[simp] theorem endCommand_h (r : Result) (s : State) : (endCommand r s).h = s.h := rfl
@[simp] theorem endCommand_idx (r : Result) (s : State) : (endCommand r s).idx = s.idx := rfl
@[simp] theorem endCommand_st (r : Result) (s : State) : (endCommand r s).st = { err := .ok, result := r } := rfl
@[simp] theorem endCommand_seq (r : Result) (s : State) : (endCommand r s).seq = s.seq := rfl
@[simp] theorem endCommand_host (r : Result) (s : State) : (endCommand r s).host = s.host := rfl
@[simp] theorem endCommand_fork (r : Result) (s : State) : (endCommand r s).fork = s.fork := rfl
@[simp] theorem endCommand_dec (r : Result) (s : State) : (endCommand r s).dec = s.dec := rfl
@[simp] theorem endCommand_ret (r : Result) (s : State) : (endCommand r s).ret = s.ret := rfl
@[simp] theorem endCommand_draws (r : Result) (s : State) : (endCommand r s).draws = s.draws := rfl
@[simp] theorem endCommand_par (r : Result) (s : State) : (endCommand r s).par = s.par := rfl

/-! ## `brAdvance` -/

@[simp] theorem brAdvance_src (n : Nat) (s : State) : (brAdvance n s).src = s.src := rfl
@[simp] theorem brAdvance_win (n : Nat) (s : State) : (brAdvance n s).win = s.win := rfl
@[simp] theorem brAdvance_outMem (n : Nat) (s : State) : (brAdvance n s).outMem = s.outMem := rfl
@[simp] theorem brAdvance_br (n : Nat) (s : State) : (brAdvance n s).br = { s.br with pos := s.br.pos + n } := rfl
@[simp] theorem brAdvance_crc (n : Nat) (s : State) : (brAdvance n s).crc = s.crc := rfl
@[simp] theorem brAdvance_out (n : Nat) (s : State) : (brAdvance n s).out = s.out := rfl
@[simp] theorem brAdvance_m13 (n : Nat) (s : State) : (brAdvance n s).m13 = s.m13 := rfl
@[simp] theorem brAdvance_m14 (n : Nat) (s : State) : (brAdvance n s).m14 = s.m14 := rfl
@[simp] theorem brAdvance_cp (n : Nat) (s : State) : (brAdvance n s).cp = s.cp := rfl
@[simp] theorem brAdvance_h (n : Nat) (s : State) : (brAdvance n s).h = s.h := rfl
@[simp] theorem brAdvance_idx (n : Nat) (s : State) : (brAdvance n s).idx = s.idx := rfl
@[simp] theorem brAdvance_st (n : Nat) (s : State) : (brAdvance n s).st = s.st := rfl
@[simp] theorem brAdvance_seq (n : Nat) (s : State) : (brAdvance n s).seq = s.seq := rfl
@[simp] theorem brAdvance_host (n : Nat) (s : State) : (brAdvance n s).host = s.host := rfl
@[simp] theorem brAdvance_fork (n : Nat) (s : State) : (brAdvance n s).fork = s.fork := rfl
@[simp] theorem brAdvance_dec (n : Nat) (s : State) : (brAdvance n s).dec = s.dec := rfl
@[simp] theorem brAdvance_ret (n : Nat) (s : State) : (brAdvance n s).ret = s.ret := rfl
@[simp] theorem brAdvance_draws (n : Nat) (s : State) : (brAdvance n s).draws = s.draws := rfl
@[simp] theorem brAdvance_par (n : Nat) (s : State) : (brAdvance n s).par = s.par := rfl

/-! ## `brInit` -/

@[simp] theorem brInit_src (base len : Nat) (s : State) : (brInit base len s).src = s.src := rfl
@[simp] theorem brInit_win (base len : Nat) (s : State) : (brInit base len s).win = s.win := rfl
@[simp] theorem brInit_outMem (base len : Nat) (s : State) : (brInit base len s).outMem = s.outMem := rfl
@[simp] theorem brInit_br (base len : Nat) (s : State) : (brInit base len s).br = { base := base, len := len, pos := 0 } := rfl
@[simp] theorem brInit_crc (base len : Nat) (s : State) : (brInit base len s).crc = s.crc := rfl
@[simp] theorem brInit_out (base len : Nat) (s : State) : (brInit base len s).out = s.out := rfl
@[simp] theorem brInit_m13 (base len : Nat) (s : State) : (brInit base len s).m13 = s.m13 := rfl
@[simp] theorem brInit_m14 (base len : Nat) (s : State) : (brInit base len s).m14 = s.m14 := rfl
@[simp] theorem brInit_cp (base len : Nat) (s : State) : (brInit base len s).cp = s.cp := rfl
@[simp] theorem brInit_h (base len : Nat) (s : State) : (brInit base len s).h = s.h := rfl
@[simp] theorem brInit_idx (base len : Nat) (s : State) : (brInit base len s).idx = s.idx := rfl
@[simp] theorem brInit_st (base len : Nat) (s : State) : (brInit base len s).st = s.st := rfl
@[simp] theorem brInit_seq (base len : Nat) (s : State) : (brInit base len s).seq = s.seq := rfl
@[simp] theorem brInit_host (base len : Nat) (s : State) : (brInit base len s).host = s.host := rfl
@[simp] theorem brInit_fork (base len : Nat) (s : State) : (brInit base len s).fork = s.fork := rfl
@[simp] theorem brInit_dec (base len : Nat) (s : State) : (brInit base len s).dec = s.dec := rfl
@[simp] theorem brInit_ret (base len : Nat) (s : State) : (brInit base len s).ret = s.ret := rfl
@[simp] theorem brInit_draws (base len : Nat) (s : State) : (brInit base len s).draws = s.draws := rfl
@[simp] theorem brInit_par (base len : Nat) (s : State) : (brInit base len s).par = s.par := rfl

/-! ## `brTake` -/

@[simp] theorem brTake_snd_src (n : Nat) (s : State) : ((brTake n s).2).src = s.src := rfl
@[simp] theorem brTake_snd_win (n : Nat) (s : State) : ((brTake n s).2).win = s.win := rfl
@[simp] theorem brTake_snd_outMem (n : Nat) (s : State) : ((brTake n s).2).outMem = s.outMem := rfl
@[simp] theorem brTake_snd_br (n : Nat) (s : State) : ((brTake n s).2).br = { s.br with pos := s.br.pos + n } := rfl
@[simp] theorem brTake_snd_crc (n : Nat) (s : State) : ((brTake n s).2).crc = s.crc := rfl
@[simp] theorem brTake_snd_out (n : Nat) (s : State) : ((brTake n s).2).out = s.out := rfl
@[simp] theorem brTake_snd_m13 (n : Nat) (s : State) : ((brTake n s).2).m13 = s.m13 := rfl
@[simp] theorem brTake_snd_m14 (n : Nat) (s : State) : ((brTake n s).2).m14 = s.m14 := rfl
@[simp] theorem brTake_snd_cp (n : Nat) (s : State) : ((brTake n s).2).cp = s.cp := rfl
@[simp] theorem brTake_snd_h (n : Nat) (s : State) : ((brTake n s).2).h = s.h := rfl
@[simp] theorem brTake_snd_idx (n : Nat) (s : State) : ((brTake n s).2).idx = s.idx := rfl
@[simp] theorem brTake_snd_st (n : Nat) (s : State) : ((brTake n s).2).st = s.st := rfl
@[simp] theorem brTake_snd_seq (n : Nat) (s : State) : ((brTake n s).2).seq = s.seq := rfl
@[simp] theorem brTake_snd_host (n : Nat) (s : State) : ((brTake n s).2).host = s.host := rfl
@[simp] theorem brTake_snd_fork (n : Nat) (s : State) : ((brTake n s).2).fork = s.fork := rfl
@[simp] theorem brTake_snd_dec (n : Nat) (s : State) : ((brTake n s).2).dec = s.dec := rfl
@[simp] theorem brTake_snd_ret (n : Nat) (s : State) : ((brTake n s).2).ret = s.ret := rfl
@[simp] theorem brTake_snd_draws (n : Nat) (s : State) : ((brTake n s).2).draws = s.draws := rfl
@[simp] theorem brTake_snd_par (n : Nat) (s : State) : ((brTake n s).2).par = s.par := rfl

/-! ## `withLevel` -/

@[simp] theorem withLevel_src (d : Nat) (l : Level) (s : State) : (withLevel s d l).src = s.src := rfl
@[simp] theorem withLevel_win (d : Nat) (l : Level) (s : State) : (withLevel s d l).win = s.win := rfl
@[simp] theorem withLevel_outMem (d : Nat) (l : Level) (s : State) : (withLevel s d l).outMem = s.outMem := rfl
@[simp] theorem withLevel_br (d : Nat) (l : Level) (s : State) : (withLevel s d l).br = s.br := rfl
@[simp] theorem withLevel_crc (d : Nat) (l : Level) (s : State) : (withLevel s d l).crc = s.crc := rfl
@[simp] theorem withLevel_out (d : Nat) (l : Level) (s : State) : (withLevel s d l).out = s.out := rfl
@[simp] theorem withLevel_m13 (d : Nat) (l : Level) (s : State) : (withLevel s d l).m13 = s.m13 := rfl
@[simp] theorem withLevel_m14 (d : Nat) (l : Level) (s : State) : (withLevel s d l).m14 = { s.m14 with level := Memory.write s.m14.level d l } := rfl
@[simp] theorem withLevel_cp (d : Nat) (l : Level) (s : State) : (withLevel s d l).cp = s.cp := rfl
@[simp] theorem withLevel_h (d : Nat) (l : Level) (s : State) : (withLevel s d l).h = s.h := rfl
@[simp] theorem withLevel_idx (d : Nat) (l : Level) (s : State) : (withLevel s d l).idx = s.idx := rfl
@[simp] theorem withLevel_st (d : Nat) (l : Level) (s : State) : (withLevel s d l).st = s.st := rfl
@[simp] theorem withLevel_seq (d : Nat) (l : Level) (s : State) : (withLevel s d l).seq = s.seq := rfl
@[simp] theorem withLevel_host (d : Nat) (l : Level) (s : State) : (withLevel s d l).host = s.host := rfl
@[simp] theorem withLevel_fork (d : Nat) (l : Level) (s : State) : (withLevel s d l).fork = s.fork := rfl
@[simp] theorem withLevel_dec (d : Nat) (l : Level) (s : State) : (withLevel s d l).dec = s.dec := rfl
@[simp] theorem withLevel_ret (d : Nat) (l : Level) (s : State) : (withLevel s d l).ret = s.ret := rfl
@[simp] theorem withLevel_draws (d : Nat) (l : Level) (s : State) : (withLevel s d l).draws = s.draws := rfl
@[simp] theorem withLevel_par (d : Nat) (l : Level) (s : State) : (withLevel s d l).par = s.par := rfl

/-! ## `resetRead` -/

@[simp] theorem resetRead_src (f : ForkDesc) (s : State) : (resetRead f s).src = s.src := rfl
@[simp] theorem resetRead_win (f : ForkDesc) (s : State) : (resetRead f s).win = [] := rfl
@[simp] theorem resetRead_outMem (f : ForkDesc) (s : State) : (resetRead f s).outMem = [] := rfl
@[simp] theorem resetRead_br (f : ForkDesc) (s : State) : (resetRead f s).br = { base := f.offset, len := f.csize.toNat, pos := 0 } := rfl
@[simp] theorem resetRead_crc (f : ForkDesc) (s : State) : (resetRead f s).crc = 0 := rfl
@[simp] theorem resetRead_out (f : ForkDesc) (s : State) : (resetRead f s).out = { size := f.usize.toNat, cnt := 0 } := rfl
@[simp] theorem resetRead_m13 (f : ForkDesc) (s : State) : (resetRead f s).m13 = M13.reset := rfl
@[simp] theorem resetRead_m14 (f : ForkDesc) (s : State) : (resetRead f s).m14 = M14.reset := rfl
@[simp] theorem resetRead_cp (f : ForkDesc) (s : State) : (resetRead f s).cp = s.cp := rfl
@[simp] theorem resetRead_h (f : ForkDesc) (s : State) : (resetRead f s).h = s.h := rfl
@[simp] theorem resetRead_idx (f : ForkDesc) (s : State) : (resetRead f s).idx = s.idx := rfl
@[simp] theorem resetRead_st (f : ForkDesc) (s : State) : (resetRead f s).st = s.st := rfl
@[simp] theorem resetRead_seq (f : ForkDesc) (s : State) : (resetRead f s).seq = s.seq := rfl
@[simp] theorem resetRead_host (f : ForkDesc) (s : State) : (resetRead f s).host = s.host := rfl
@[simp] theorem resetRead_fork (f : ForkDesc) (s : State) : (resetRead f s).fork = s.fork := rfl
@[simp] theorem resetRead_dec (f : ForkDesc) (s : State) : (resetRead f s).dec = s.dec := rfl
@[simp] theorem resetRead_ret (f : ForkDesc) (s : State) : (resetRead f s).ret = s.ret := rfl
@[simp] theorem resetRead_draws (f : ForkDesc) (s : State) : (resetRead f s).draws = s.draws := rfl
@[simp] theorem resetRead_par (f : ForkDesc) (s : State) : (resetRead f s).par = s.par := rfl

/-! ## `crcInit` -/

@[simp] theorem crcInit_src (s : State) : (crcInit s).src = s.src := rfl
@[simp] theorem crcInit_win (s : State) : (crcInit s).win = s.win := rfl
@[simp] theorem crcInit_outMem (s : State) : (crcInit s).outMem = s.outMem := rfl
@[simp] theorem crcInit_br (s : State) : (crcInit s).br = s.br := rfl
@[simp] theorem crcInit_crc (s : State) : (crcInit s).crc = 0 := rfl
@[simp] theorem crcInit_out (s : State) : (crcInit s).out = s.out := rfl
@[simp] theorem crcInit_m13 (s : State) : (crcInit s).m13 = s.m13 := rfl
@[simp] theorem crcInit_m14 (s : State) : (crcInit s).m14 = s.m14 := rfl
@[simp] theorem crcInit_cp (s : State) : (crcInit s).cp = s.cp := rfl
@[simp] theorem crcInit_h (s : State) : (crcInit s).h = s.h := rfl
@[simp] theorem crcInit_idx (s : State) : (crcInit s).idx = s.idx := rfl
@[simp] theorem crcInit_st (s : State) : (crcInit s).st = s.st := rfl
@[simp] theorem crcInit_seq (s : State) : (crcInit s).seq = s.seq := rfl
@[simp] theorem crcInit_host (s : State) : (crcInit s).host = s.host := rfl
@[simp] theorem crcInit_fork (s : State) : (crcInit s).fork = s.fork := rfl
@[simp] theorem crcInit_dec (s : State) : (crcInit s).dec = s.dec := rfl
@[simp] theorem crcInit_ret (s : State) : (crcInit s).ret = s.ret := rfl
@[simp] theorem crcInit_draws (s : State) : (crcInit s).draws = s.draws := rfl
@[simp] theorem crcInit_par (s : State) : (crcInit s).par = s.par := rfl

/-! ## `crcUpdate` -/

@[simp] theorem crcUpdate_src (b : Byte) (s : State) : (crcUpdate b s).src = s.src := rfl
@[simp] theorem crcUpdate_win (b : Byte) (s : State) : (crcUpdate b s).win = s.win := rfl
@[simp] theorem crcUpdate_outMem (b : Byte) (s : State) : (crcUpdate b s).outMem = s.outMem := rfl
@[simp] theorem crcUpdate_br (b : Byte) (s : State) : (crcUpdate b s).br = s.br := rfl
@[simp] theorem crcUpdate_crc (b : Byte) (s : State) : (crcUpdate b s).crc = crcByte s.crc b := rfl
@[simp] theorem crcUpdate_out (b : Byte) (s : State) : (crcUpdate b s).out = s.out := rfl
@[simp] theorem crcUpdate_m13 (b : Byte) (s : State) : (crcUpdate b s).m13 = s.m13 := rfl
@[simp] theorem crcUpdate_m14 (b : Byte) (s : State) : (crcUpdate b s).m14 = s.m14 := rfl
@[simp] theorem crcUpdate_cp (b : Byte) (s : State) : (crcUpdate b s).cp = s.cp := rfl
@[simp] theorem crcUpdate_h (b : Byte) (s : State) : (crcUpdate b s).h = s.h := rfl
@[simp] theorem crcUpdate_idx (b : Byte) (s : State) : (crcUpdate b s).idx = s.idx := rfl
@[simp] theorem crcUpdate_st (b : Byte) (s : State) : (crcUpdate b s).st = s.st := rfl
@[simp] theorem crcUpdate_seq (b : Byte) (s : State) : (crcUpdate b s).seq = s.seq := rfl
@[simp] theorem crcUpdate_host (b : Byte) (s : State) : (crcUpdate b s).host = s.host := rfl
@[simp] theorem crcUpdate_fork (b : Byte) (s : State) : (crcUpdate b s).fork = s.fork := rfl
@[simp] theorem crcUpdate_dec (b : Byte) (s : State) : (crcUpdate b s).dec = s.dec := rfl
@[simp] theorem crcUpdate_ret (b : Byte) (s : State) : (crcUpdate b s).ret = s.ret := rfl
@[simp] theorem crcUpdate_draws (b : Byte) (s : State) : (crcUpdate b s).draws = s.draws := rfl
@[simp] theorem crcUpdate_par (b : Byte) (s : State) : (crcUpdate b s).par = s.par := rfl

/-! ## `m13SetCur` -/

@[simp] theorem m13SetCur_src (v : Int) (s : State) : (m13SetCur v s).src = s.src := rfl
@[simp] theorem m13SetCur_win (v : Int) (s : State) : (m13SetCur v s).win = s.win := rfl
@[simp] theorem m13SetCur_outMem (v : Int) (s : State) : (m13SetCur v s).outMem = s.outMem := rfl
@[simp] theorem m13SetCur_br (v : Int) (s : State) : (m13SetCur v s).br = s.br := rfl
@[simp] theorem m13SetCur_crc (v : Int) (s : State) : (m13SetCur v s).crc = s.crc := rfl
@[simp] theorem m13SetCur_out (v : Int) (s : State) : (m13SetCur v s).out = s.out := rfl
@[simp] theorem m13SetCur_m13 (v : Int) (s : State) : (m13SetCur v s).m13 = { s.m13 with cur := v } := rfl
@[simp] theorem m13SetCur_m14 (v : Int) (s : State) : (m13SetCur v s).m14 = s.m14 := rfl
@[simp] theorem m13SetCur_cp (v : Int) (s : State) : (m13SetCur v s).cp = s.cp := rfl
@[simp] theorem m13SetCur_h (v : Int) (s : State) : (m13SetCur v s).h = s.h := rfl
@[simp] theorem m13SetCur_idx (v : Int) (s : State) : (m13SetCur v s).idx = s.idx := rfl
@[simp] theorem m13SetCur_st (v : Int) (s : State) : (m13SetCur v s).st = s.st := rfl
@[simp] theorem m13SetCur_seq (v : Int) (s : State) : (m13SetCur v s).seq = s.seq := rfl
@[simp] theorem m13SetCur_host (v : Int) (s : State) : (m13SetCur v s).host = s.host := rfl
@[simp] theorem m13SetCur_fork (v : Int) (s : State) : (m13SetCur v s).fork = s.fork := rfl
@[simp] theorem m13SetCur_dec (v : Int) (s : State) : (m13SetCur v s).dec = s.dec := rfl
@[simp] theorem m13SetCur_ret (v : Int) (s : State) : (m13SetCur v s).ret = s.ret := rfl
@[simp] theorem m13SetCur_draws (v : Int) (s : State) : (m13SetCur v s).draws = s.draws := rfl
@[simp] theorem m13SetCur_par (v : Int) (s : State) : (m13SetCur v s).par = s.par := rfl

/-! ## `m13SetActive` -/

@[simp] theorem m13SetActive_src (t : Tree) (s : State) : (m13SetActive t s).src = s.src := rfl
@[simp] theorem m13SetActive_win (t : Tree) (s : State) : (m13SetActive t s).win = s.win := rfl
@[simp] theorem m13SetActive_outMem (t : Tree) (s : State) : (m13SetActive t s).outMem = s.outMem := rfl
@[simp] theorem m13SetActive_br (t : Tree) (s : State) : (m13SetActive t s).br = s.br := rfl
@[simp] theorem m13SetActive_crc (t : Tree) (s : State) : (m13SetActive t s).crc = s.crc := rfl
@[simp] theorem m13SetActive_out (t : Tree) (s : State) : (m13SetActive t s).out = s.out := rfl
@[simp] theorem m13SetActive_m13 (t : Tree) (s : State) : (m13SetActive t s).m13 = { s.m13 with active := t } := rfl
@[simp] theorem m13SetActive_m14 (t : Tree) (s : State) : (m13SetActive t s).m14 = s.m14 := rfl
@[simp] theorem m13SetActive_cp (t : Tree) (s : State) : (m13SetActive t s).cp = s.cp := rfl
@[simp] theorem m13SetActive_h (t : Tree) (s : State) : (m13SetActive t s).h = s.h := rfl
@[simp] theorem m13SetActive_idx (t : Tree) (s : State) : (m13SetActive t s).idx = s.idx := rfl
@[simp] theorem m13SetActive_st (t : Tree) (s : State) : (m13SetActive t s).st = s.st := rfl
@[simp] theorem m13SetActive_seq (t : Tree) (s : State) : (m13SetActive t s).seq = s.seq := rfl
@[simp] theorem m13SetActive_host (t : Tree) (s : State) : (m13SetActive t s).host = s.host := rfl
@[simp] theorem m13SetActive_fork (t : Tree) (s : State) : (m13SetActive t s).fork = s.fork := rfl
@[simp] theorem m13SetActive_dec (t : Tree) (s : State) : (m13SetActive t s).dec = s.dec := rfl
@[simp] theorem m13SetActive_ret (t : Tree) (s : State) : (m13SetActive t s).ret = s.ret := rfl
@[simp] theorem m13SetActive_draws (t : Tree) (s : State) : (m13SetActive t s).draws = s.draws := rfl
@[simp] theorem m13SetActive_par (t : Tree) (s : State) : (m13SetActive t s).par = s.par := rfl

/-! ## `m14SetDepth` -/

@[simp] theorem m14SetDepth_src (d : Nat) (s : State) : (m14SetDepth d s).src = s.src := rfl
@[simp] theorem m14SetDepth_win (d : Nat) (s : State) : (m14SetDepth d s).win = s.win := rfl
@[simp] theorem m14SetDepth_outMem (d : Nat) (s : State) : (m14SetDepth d s).outMem = s.outMem := rfl
@[simp] theorem m14SetDepth_br (d : Nat) (s : State) : (m14SetDepth d s).br = s.br := rfl
@[simp] theorem m14SetDepth_crc (d : Nat) (s : State) : (m14SetDepth d s).crc = s.crc := rfl
@[simp] theorem m14SetDepth_out (d : Nat) (s : State) : (m14SetDepth d s).out = s.out := rfl
@[simp] theorem m14SetDepth_m13 (d : Nat) (s : State) : (m14SetDepth d s).m13 = s.m13 := rfl
@[simp] theorem m14SetDepth_m14 (d : Nat) (s : State) : (m14SetDepth d s).m14 = { s.m14 with depth := d } := rfl
@[simp] theorem m14SetDepth_cp (d : Nat) (s : State) : (m14SetDepth d s).cp = s.cp := rfl
@[simp] theorem m14SetDepth_h (d : Nat) (s : State) : (m14SetDepth d s).h = s.h := rfl
@[simp] theorem m14SetDepth_idx (d : Nat) (s : State) : (m14SetDepth d s).idx = s.idx := rfl
@[simp] theorem m14SetDepth_st (d : Nat) (s : State) : (m14SetDepth d s).st = s.st := rfl
@[simp] theorem m14SetDepth_seq (d : Nat) (s : State) : (m14SetDepth d s).seq = s.seq := rfl
@[simp] theorem m14SetDepth_host (d : Nat) (s : State) : (m14SetDepth d s).host = s.host := rfl
@[simp] theorem m14SetDepth_fork (d : Nat) (s : State) : (m14SetDepth d s).fork = s.fork := rfl
@[simp] theorem m14SetDepth_dec (d : Nat) (s : State) : (m14SetDepth d s).dec = s.dec := rfl
@[simp] theorem m14SetDepth_ret (d : Nat) (s : State) : (m14SetDepth d s).ret = s.ret := rfl
@[simp] theorem m14SetDepth_draws (d : Nat) (s : State) : (m14SetDepth d s).draws = s.draws := rfl
@[simp] theorem m14SetDepth_par (d : Nat) (s : State) : (m14SetDepth d s).par = s.par := rfl

/-! ## `m14SetRem` -/

@[simp] theorem m14SetRem_src (n : Nat) (s : State) : (m14SetRem n s).src = s.src := rfl
@[simp] theorem m14SetRem_win (n : Nat) (s : State) : (m14SetRem n s).win = s.win := rfl
@[simp] theorem m14SetRem_outMem (n : Nat) (s : State) : (m14SetRem n s).outMem = s.outMem := rfl
@[simp] theorem m14SetRem_br (n : Nat) (s : State) : (m14SetRem n s).br = s.br := rfl
@[simp] theorem m14SetRem_crc (n : Nat) (s : State) : (m14SetRem n s).crc = s.crc := rfl
@[simp] theorem m14SetRem_out (n : Nat) (s : State) : (m14SetRem n s).out = s.out := rfl
@[simp] theorem m14SetRem_m13 (n : Nat) (s : State) : (m14SetRem n s).m13 = s.m13 := rfl
@[simp] theorem m14SetRem_m14 (n : Nat) (s : State) : (m14SetRem n s).m14 = { s.m14 with rem := n } := rfl
@[simp] theorem m14SetRem_cp (n : Nat) (s : State) : (m14SetRem n s).cp = s.cp := rfl
@[simp] theorem m14SetRem_h (n : Nat) (s : State) : (m14SetRem n s).h = s.h := rfl
@[simp] theorem m14SetRem_idx (n : Nat) (s : State) : (m14SetRem n s).idx = s.idx := rfl
@[simp] theorem m14SetRem_st (n : Nat) (s : State) : (m14SetRem n s).st = s.st := rfl
@[simp] theorem m14SetRem_seq (n : Nat) (s : State) : (m14SetRem n s).seq = s.seq := rfl
@[simp] theorem m14SetRem_host (n : Nat) (s : State) : (m14SetRem n s).host = s.host := rfl
@[simp] theorem m14SetRem_fork (n : Nat) (s : State) : (m14SetRem n s).fork = s.fork := rfl
@[simp] theorem m14SetRem_dec (n : Nat) (s : State) : (m14SetRem n s).dec = s.dec := rfl
@[simp] theorem m14SetRem_ret (n : Nat) (s : State) : (m14SetRem n s).ret = s.ret := rfl
@[simp] theorem m14SetRem_draws (n : Nat) (s : State) : (m14SetRem n s).draws = s.draws := rfl
@[simp] theorem m14SetRem_par (n : Nat) (s : State) : (m14SetRem n s).par = s.par := rfl

end Sys2Proof.Machine
end

