-- ==== Sys2Proof/Laws/Outcome.lean ====
section
/-! SUPPORT. Outcomes inside an instruction, and taking an error: what each can do, said once. -/

namespace Sys2Proof.Machine

variable {α β : Type}

@[simp] theorem Res.bind_ok (a : α) (s : State) (f : α → State → Res β) : (Res.ok a s).bind f = f a s := rfl
@[simp] theorem Res.bind_raised (k : ErrKind) (s : State) (f : α → State → Res β) : (Res.raised k s).bind f = .raised k s := rfl
@[simp] theorem Res.bind_fault (e : Fault) (f : α → State → Res β) : (Res.fault e).bind f = .fault e := rfl
@[simp] theorem Res.bind_refused (e : Refusal) (f : α → State → Res β) : (Res.refused e).bind f = .refused e := rfl

@[simp] theorem Res.outcome_ok (a : Unit) (s : State) : (Res.ok a s).outcome = .next s := rfl
@[simp] theorem Res.outcome_raised (k : ErrKind) (s : State) : (Res.raised k s).outcome = .next (takeError k s) := rfl
@[simp] theorem Res.outcome_fault (e : Fault) : (Res.fault e).outcome = .fault e := rfl
@[simp] theorem Res.outcome_refused (e : Refusal) : (Res.refused e).outcome = .refused e := rfl

@[simp] theorem Res.outcomeWith_ok (a : α) (s : State) (f : α → Ret) : (Res.ok a s).outcomeWith f = .next (s.withRet (f a)) := rfl
@[simp] theorem Res.outcomeWith_raised (k : ErrKind) (s : State) (f : α → Ret) :
    (Res.raised k s).outcomeWith f = .next (takeError k s) := rfl
@[simp] theorem Res.outcomeWith_fault (e : Fault) (f : α → Ret) : (Res.fault e).outcomeWith f = .fault e := rfl
@[simp] theorem Res.outcomeWith_refused (e : Refusal) (f : α → Ret) : (Res.refused e).outcomeWith f = .refused e := rfl

/-- A sequence returns normally only if both parts do. -/
theorem Res.bind_eq_ok {r : Res α} {f : α → State → Res β} {b : β} {t : State} :
    r.bind f = .ok b t ↔ ∃ a s, r = .ok a s ∧ f a s = .ok b t := by
  cases r <;> simp

/-- A sequence raises where its first part does, or where its second does after the first. -/
theorem Res.bind_eq_raised {r : Res α} {f : α → State → Res β} {k : ErrKind} {t : State} :
    r.bind f = .raised k t ↔ r = .raised k t ∨ ∃ a s, r = .ok a s ∧ f a s = .raised k t := by
  cases r <;> simp

/-- A sequence faults where its first part does, or where its second does after the first. -/
theorem Res.bind_eq_fault {r : Res α} {f : α → State → Res β} {e : Fault} :
    r.bind f = .fault e ↔ r = .fault e ∨ ∃ a s, r = .ok a s ∧ f a s = .fault e := by
  cases r <;> simp

/-- A sequence is refused where its first part is, or where its second is after the first. -/
theorem Res.bind_eq_refused {r : Res α} {f : α → State → Res β} {e : Refusal} :
    r.bind f = .refused e ↔ r = .refused e ∨ ∃ a s, r = .ok a s ∧ f a s = .refused e := by
  cases r <;> simp

/-- The next state is the normal end, or an error taken. -/
theorem Res.outcome_eq_next {r : Res Unit} {t : State} :
    r.outcome = .next t ↔ r = .ok () t ∨ ∃ k s, r = .raised k s ∧ t = takeError k s := by
  cases r <;> simp [eq_comm (a := t)]

/-- The next state is the normal end with the value returned, or an error taken. -/
theorem Res.outcomeWith_eq_next {r : Res α} {f : α → Ret} {t : State} :
    r.outcomeWith f = .next t ↔ (∃ a s, r = .ok a s ∧ t = s.withRet (f a)) ∨ ∃ k s, r = .raised k s ∧ t = takeError k s := by
  cases r <;> simp [eq_comm]

/-! ## Taking an error (R326) -/

/-- The two forms of R326: `OPEN`'s kinds invalidate the handle and empty the index, a read's kinds leave both. -/
theorem takeError_eq (k : ErrKind) (s : State) :
    takeError k s = if k.ofOpen
      then { s with seq := [], st := { err := k, result := .none }, h := { s.h with valid := false },
                    idx := { entries := [], metadata := [] } }
      else { s with seq := [], st := { err := k, result := .none } } := rfl

@[simp] theorem takeError_seq (k : ErrKind) (s : State) : (takeError k s).seq = [] := by
  rw [takeError_eq]; split <;> rfl
@[simp] theorem takeError_st (k : ErrKind) (s : State) : (takeError k s).st = { err := k, result := .none } := by
  rw [takeError_eq]; split <;> rfl
@[simp] theorem takeError_h (k : ErrKind) (s : State) :
    (takeError k s).h = if k.ofOpen then { s.h with valid := false } else s.h := by
  rw [takeError_eq]; split <;> rfl
@[simp] theorem takeError_idx (k : ErrKind) (s : State) :
    (takeError k s).idx = if k.ofOpen then { entries := [], metadata := [] } else s.idx := by
  rw [takeError_eq]; split <;> rfl
@[simp] theorem takeError_src (k : ErrKind) (s : State) : (takeError k s).src = s.src := by
  rw [takeError_eq]; split <;> rfl
@[simp] theorem takeError_win (k : ErrKind) (s : State) : (takeError k s).win = s.win := by
  rw [takeError_eq]; split <;> rfl
@[simp] theorem takeError_outMem (k : ErrKind) (s : State) : (takeError k s).outMem = s.outMem := by
  rw [takeError_eq]; split <;> rfl
@[simp] theorem takeError_br (k : ErrKind) (s : State) : (takeError k s).br = s.br := by
  rw [takeError_eq]; split <;> rfl
@[simp] theorem takeError_crc (k : ErrKind) (s : State) : (takeError k s).crc = s.crc := by
  rw [takeError_eq]; split <;> rfl
@[simp] theorem takeError_out (k : ErrKind) (s : State) : (takeError k s).out = s.out := by
  rw [takeError_eq]; split <;> rfl
@[simp] theorem takeError_m13 (k : ErrKind) (s : State) : (takeError k s).m13 = s.m13 := by
  rw [takeError_eq]; split <;> rfl
@[simp] theorem takeError_m14 (k : ErrKind) (s : State) : (takeError k s).m14 = s.m14 := by
  rw [takeError_eq]; split <;> rfl
@[simp] theorem takeError_cp (k : ErrKind) (s : State) : (takeError k s).cp = s.cp := by
  rw [takeError_eq]; split <;> rfl
@[simp] theorem takeError_host (k : ErrKind) (s : State) : (takeError k s).host = s.host := by
  rw [takeError_eq]; split <;> rfl
@[simp] theorem takeError_fork (k : ErrKind) (s : State) : (takeError k s).fork = s.fork := by
  rw [takeError_eq]; split <;> rfl
@[simp] theorem takeError_dec (k : ErrKind) (s : State) : (takeError k s).dec = s.dec := by
  rw [takeError_eq]; split <;> rfl
@[simp] theorem takeError_ret (k : ErrKind) (s : State) : (takeError k s).ret = s.ret := by
  rw [takeError_eq]; split <;> rfl
@[simp] theorem takeError_draws (k : ErrKind) (s : State) : (takeError k s).draws = s.draws := by
  rw [takeError_eq]; split <;> rfl
@[simp] theorem takeError_par (k : ErrKind) (s : State) : (takeError k s).par = s.par := by
  rw [takeError_eq]; split <;> rfl

end Sys2Proof.Machine
end

