-- ==== Sys2Proof/Laws/Crc.lean ====
section
/-! SUPPORT. The CRC unit and the byte spaces it ranges over: what each operation can do. -/

namespace Sys2Proof.Machine

@[simp] theorem crcBytes_nil (acc : U16) : crcBytes acc [] = acc := rfl
@[simp] theorem crcBytes_cons (acc : U16) (b : Byte) (bs : Bytes) : crcBytes acc (b :: bs) = crcBytes (crcByte acc b) bs := rfl

/-- The CRC of two strings one after the other. -/
theorem crcBytes_append (acc : U16) (xs ys : Bytes) : crcBytes acc (xs ++ ys) = crcBytes (crcBytes acc xs) ys := by
  simp [crcBytes]

/-- Byte after byte through `CRC.UPDATE`, only the accumulator changes. -/
theorem foldl_crcUpdate (bs : Bytes) (s : State) :
    bs.foldl (fun t b => crcUpdate b t) s = s.withCrc (crcBytes s.crc bs) := by
  induction bs generalizing s with
  | nil => rfl
  | cons b t ih => rw [List.foldl_cons, ih]; rfl

/-- `CRC.RANGE` (R153): with all bytes there, the CRC from zero stands in the accumulator; else no such byte. -/
theorem crcRange_eq (sp : ByteSpace) (a n : Nat) (s : State) :
    crcRange sp a n s = match spaceBytes s sp a n with
      | some bs => .ok (crcBytes 0 bs) (s.withCrc (crcBytes 0 bs))
      | none => .fault .noSuchByte := by
  unfold crcRange
  cases spaceBytes s sp a n with
  | none => rfl
  | some bs => simp [foldl_crcUpdate, crcInit]

/-- The bytes of a space, where each is there. -/
theorem spaceBytes_eq_some (s : State) (sp : ByteSpace) (f : Nat → Byte) (a n : Nat)
    (h : ∀ i, i < n → spaceByte s sp (a + i) = some (f (a + i))) :
    spaceBytes s sp a n = some ((List.range n).map fun i => f (a + i)) := by
  induction n generalizing a with
  | zero => rfl
  | succ n ih =>
    have h0 := h 0 (by omega)
    have h1 := ih (a + 1) fun i hi => by
      have := h (i + 1) (by omega)
      rwa [show a + (i + 1) = a + 1 + i by omega] at this
    simp only [Nat.add_zero] at h0
    simp only [spaceBytes, h0, h1, List.range_succ_eq_map, List.map_cons, List.map_map, Nat.add_zero, Option.some.injEq,
      List.cons.injEq, true_and]
    refine List.map_congr_left fun i _ => ?_
    simp [show a + 1 + i = a + (i + 1) by omega]

/-- The finished part of the output buffer. -/
theorem spaceBytes_out (s : State) (a n : Nat) (h : a + n ≤ s.out.size) :
    spaceBytes s .out a n = some (Memory.slice s.outMem a n) :=
  spaceBytes_eq_some s .out (Memory.read s.outMem) a n fun i hi => by simp [spaceByte, show a + i < s.out.size by omega]

/-- A range of the stream. -/
theorem spaceBytes_src (s : State) (a n : Nat) (h : a + n ≤ s.h.size) :
    spaceBytes s .src a n = some (Memory.slice s.src a n) :=
  spaceBytes_eq_some s .src (Memory.read s.src) a n fun i hi => by
    simp [spaceByte, srcByte, show a + i < s.h.size by omega]

/-- A range of the header register. -/
theorem spaceBytes_hdr (s : State) (a n : Nat) (h : a + n ≤ s.cp.hdr.length) :
    spaceBytes s .hdr a n = some ((s.cp.hdr.drop a).take n) := by
  rw [spaceBytes_eq_some s .hdr (fun i => s.cp.hdr.getD i 0) a n fun i hi => by
    simp [spaceByte, List.getElem?_eq_getElem (show a + i < s.cp.hdr.length by omega)]]
  congr 1
  apply List.ext_getElem
  · simp; omega
  · intro i h1 h2
    have : a + i < s.cp.hdr.length := by simp at h1; omega
    simp [this]

/-- The window has a byte at every address (R62). -/
theorem spaceBytes_win (s : State) (a n : Nat) :
    spaceBytes s .win a n = some ((List.range n).map fun i => Memory.read s.win ((a + i) % windowSize s.dec)) :=
  spaceBytes_eq_some s .win (fun i => Memory.read s.win (i % windowSize s.dec)) a n fun _ _ => rfl

/-- `CRC.VERIFY` (R306) of an output buffer: it returns, or raises a mismatch. -/
theorem crcVerify_eq (f : ForkDesc) (s : State) :
    crcVerify f s = if crcBytes 0 (Memory.slice s.outMem 0 s.out.size) = f.crc
      then .ok () (s.withCrc (crcBytes 0 (Memory.slice s.outMem 0 s.out.size)))
      else .raised .payloadCrcMismatch (s.withCrc (crcBytes 0 (Memory.slice s.outMem 0 s.out.size))) := by
  simp [crcVerify, crcRange_eq, spaceBytes_out s 0 s.out.size (by omega)]

end Sys2Proof.Machine
end

