-- ==== Sys2Proof/Laws/Container.lean ====
section
/-! SUPPORT. The container parser: what a header fetch and an index insert can do. -/

namespace Sys2Proof.Machine

@[simp] theorem srcBytes_length (s : State) (a n : Nat) : (srcBytes s a n).length = n := Memory.slice_length s.src a n

/-- The header register after a fetch (R265). -/
def headerFetched (s : State) : State := s.withCp { s.cp with hdr := srcBytes s s.cp.pos 112, pos := s.cp.pos + 112 }

@[simp] theorem headerFetched_hdr (s : State) : (headerFetched s).cp.hdr = srcBytes s s.cp.pos 112 := rfl

@[simp] theorem headerFetched_src (s : State) : (headerFetched s).src = s.src := rfl
@[simp] theorem headerFetched_win (s : State) : (headerFetched s).win = s.win := rfl
@[simp] theorem headerFetched_outMem (s : State) : (headerFetched s).outMem = s.outMem := rfl
@[simp] theorem headerFetched_br (s : State) : (headerFetched s).br = s.br := rfl
@[simp] theorem headerFetched_crc (s : State) : (headerFetched s).crc = s.crc := rfl
@[simp] theorem headerFetched_out (s : State) : (headerFetched s).out = s.out := rfl
@[simp] theorem headerFetched_m13 (s : State) : (headerFetched s).m13 = s.m13 := rfl
@[simp] theorem headerFetched_m14 (s : State) : (headerFetched s).m14 = s.m14 := rfl
@[simp] theorem headerFetched_h (s : State) : (headerFetched s).h = s.h := rfl
@[simp] theorem headerFetched_idx (s : State) : (headerFetched s).idx = s.idx := rfl
@[simp] theorem headerFetched_st (s : State) : (headerFetched s).st = s.st := rfl
@[simp] theorem headerFetched_seq (s : State) : (headerFetched s).seq = s.seq := rfl
@[simp] theorem headerFetched_host (s : State) : (headerFetched s).host = s.host := rfl
@[simp] theorem headerFetched_fork (s : State) : (headerFetched s).fork = s.fork := rfl
@[simp] theorem headerFetched_dec (s : State) : (headerFetched s).dec = s.dec := rfl
@[simp] theorem headerFetched_ret (s : State) : (headerFetched s).ret = s.ret := rfl
@[simp] theorem headerFetched_draws (s : State) : (headerFetched s).draws = s.draws := rfl
@[simp] theorem headerFetched_par (s : State) : (headerFetched s).par = s.par := rfl

/-- The CRC of the fetched header's first 110 bytes (R266). -/
def headerCrc (s : State) : U16 := crcBytes 0 ((srcBytes s s.cp.pos 112).take 110)

/-- `CP.FETCH` (R265 to R267): its three tests in order, and what stands in the registers at each. -/
theorem cpFetch_eq (s : State) :
    cpFetch s =
      if s.h.size < s.cp.pos + 112 then .raised .truncated s
      else if headerCrc s ≠ be16At (srcBytes s s.cp.pos 112) 110 then
        .raised .headerCrcMismatch ((headerFetched s).withCrc (headerCrc s))
      else if 31 < ((srcBytes s s.cp.pos 112).getD 2 0).toNat then
        .raised .nameTooLong ((headerFetched s).withCrc (headerCrc s))
      else .ok () ((headerFetched s).withCrc (headerCrc s)) := by
  unfold cpFetch
  split
  · rfl
  · have e : crcRange .hdr 0 110 (headerFetched s) = .ok (headerCrc s) ((headerFetched s).withCrc (headerCrc s)) := by
      have hl : 0 + 110 ≤ (headerFetched s).cp.hdr.length := by
        rw [headerFetched_hdr, srcBytes_length]; omega
      rw [crcRange_eq, spaceBytes_hdr _ _ _ hl, headerFetched_hdr, List.drop_zero]
      simp only [headerCrc]
    change (crcRange .hdr 0 110 (headerFetched s)).bind (fun c s =>
      if c ≠ be16At s.cp.hdr 110 then .raised .headerCrcMismatch s
      else if 31 < (s.cp.hdr.getD 2 0).toNat then .raised .nameTooLong s
      else .ok () s) = _
    rw [e, Res.bind_ok]
    have hX : ((headerFetched s).withCrc (headerCrc s)).cp.hdr = srcBytes s s.cp.pos 112 := headerFetched_hdr s
    rw [← hX]

/-- What `CP.FETCH` can do, with the CRC left open (cite this one where the CRC's value does not matter). -/
theorem cpFetch_cases (s : State) :
    (s.h.size < s.cp.pos + 112 ∧ cpFetch s = .raised .truncated s)
      ∨ (s.cp.pos + 112 ≤ s.h.size ∧ ∃ v, cpFetch s = .ok () ((headerFetched s).withCrc v)
          ∨ cpFetch s = .raised .headerCrcMismatch ((headerFetched s).withCrc v)
          ∨ cpFetch s = .raised .nameTooLong ((headerFetched s).withCrc v)) := by
  rw [cpFetch_eq]
  by_cases h : s.h.size < s.cp.pos + 112
  · exact Or.inl ⟨h, if_pos h⟩
  · refine Or.inr ⟨Nat.le_of_not_lt h, headerCrc s, ?_⟩
    rw [if_neg h]
    split
    · exact Or.inr (Or.inl rfl)
    · split
      · exact Or.inr (Or.inr rfl)
      · exact Or.inl rfl

/-- `CP.INSERT` (R272): nothing for an entry without data, a new entry, or what the policy says of a key that is there. -/
theorem cpInsert_cases (key path : Bytes) (res data : ForkDesc) (finfo : Bytes) (s : State) :
    (res.usize = 0 ∧ data.usize = 0 ∧ cpInsert key path res data finfo s = .ok () s)
      ∨ (¬ (res.usize = 0 ∧ data.usize = 0) ∧ (findEntry s key).isSome = false
          ∧ cpInsert key path res data finfo s = .ok () (indexAdd key path res data finfo s))
      ∨ (¬ (res.usize = 0 ∧ data.usize = 0) ∧ (findEntry s key).isSome = true ∧ s.par.dupPolicy = .refuse
          ∧ cpInsert key path res data finfo s = .raised .duplicatePath s)
      ∨ (¬ (res.usize = 0 ∧ data.usize = 0) ∧ (findEntry s key).isSome = true ∧ s.par.dupPolicy = .lastWins
          ∧ cpInsert key path res data finfo s = .ok () (indexReplace key path res data finfo s))
      ∨ (¬ (res.usize = 0 ∧ data.usize = 0) ∧ (findEntry s key).isSome = true ∧ s.par.dupPolicy = .firstWins
          ∧ cpInsert key path res data finfo s = .ok () s) := by
  unfold cpInsert
  by_cases hz : res.usize = 0 ∧ data.usize = 0
  · exact Or.inl ⟨hz.1, hz.2, if_pos hz⟩
  · rw [if_neg hz]
    cases hf : (findEntry s key).isSome with
    | false => exact Or.inr (Or.inl ⟨hz, rfl, rfl⟩)
    | true =>
      cases hd : s.par.dupPolicy with
      | refuse => exact Or.inr (Or.inr (Or.inl ⟨hz, rfl, rfl, rfl⟩))
      | lastWins => exact Or.inr (Or.inr (Or.inr (Or.inl ⟨hz, rfl, rfl, rfl⟩)))
      | firstWins => exact Or.inr (Or.inr (Or.inr (Or.inr ⟨hz, rfl, rfl, rfl⟩)))

/-- A key is absent exactly when no entry has it. -/
theorem findEntry_none_iff (s : State) (key : Bytes) :
    (findEntry s key).isSome = false ↔ key ∉ s.idx.entries.map (·.key) := by
  simp only [findEntry, Option.isSome_eq_false_iff, Option.isNone_iff_eq_none, List.find?_eq_none, beq_iff_eq, List.mem_map,
    not_exists, not_and]

/-- An entry found has the key and is in the index. -/
theorem findEntry_mem {s : State} {key : Bytes} {e : Entry} (h : findEntry s key = some e) : e ∈ s.idx.entries ∧ e.key = key :=
  ⟨List.mem_of_find?_eq_some h, by simpa using List.find?_some h⟩

/-- The last component of a last component is itself. -/
theorem lastComponent_idem (p : Bytes) : lastComponent (lastComponent p) = lastComponent p := by
  unfold lastComponent
  rw [List.reverse_reverse]
  congr 1
  exact List.takeWhile_idem

/-- A Finder info is 16 bytes (R116). -/
theorem finderInfo_length (s : State) (finfo : Bytes) (h : finfo.length = 10) : (finderInfo s finfo).length = 16 := by
  simp [finderInfo, h, be48Bytes]

end Sys2Proof.Machine
end

