-- ==== Sys2Proof/Laws/Reader.lean ====
section
/-! SUPPORT. The BitReader: what a field, a take and a wide read can be. -/

namespace Sys2Proof.Machine

/-- A payload bit is 0 or 1. -/
theorem brBit_lt (s : State) (k : Nat) : brBit s k < 2 := by
  unfold brBit
  split
  · split
    · exact Nat.mod_lt _ (by omega)
    · omega
  · omega

/-- Past the end of the payload every bit is zero (R130). -/
theorem brBit_of_le (s : State) (k : Nat) (h : 8 * s.br.len ≤ k) : brBit s k = 0 := by
  simp [brBit, Nat.not_lt.2 h]

/-- A field of `n` bits is below `2 ^ n`. -/
theorem brField_lt (s : State) (k n : Nat) : brField s k n < 2 ^ n := by
  induction n generalizing k with
  | zero => simp [brField]
  | succ n ih =>
    have h1 := brBit_lt s k
    have h2 := ih (k + 1)
    simp only [brField, Nat.pow_succ]
    omega

/-- A field does not depend on where the reader stands. -/
@[simp] theorem brBit_brAdvance (m : Nat) (s : State) (k : Nat) : brBit (brAdvance m s) k = brBit s k := rfl

@[simp] theorem brField_brAdvance (m : Nat) (s : State) (k n : Nat) : brField (brAdvance m s) k n = brField s k n := by
  induction n generalizing k with
  | zero => rfl
  | succ n ih => simp [brField, ih]

@[simp] theorem brAdvance_brAdvance (m n : Nat) (s : State) : brAdvance n (brAdvance m s) = brAdvance (m + n) s := by
  simp [brAdvance, State.withBr, Nat.add_assoc]

@[simp] theorem brAdvance_zero (s : State) : brAdvance 0 s = s := rfl

/-- `BR.TAKE` is the peeked field and a move past it (R133). -/
@[simp] theorem brTake_eq (n : Nat) (s : State) : brTake n s = (brPeek n s, brAdvance n s) := rfl

theorem brPeek_lt (n : Nat) (s : State) : brPeek n s < 2 ^ n := brField_lt s _ n

/-- A wide read moves past as many bits as it reads (R137). -/
@[simp] theorem brReadBits_snd (n : Nat) (s : State) : (brReadBits n s).2 = brAdvance n s := by
  unfold brReadBits
  split
  · rfl
  · rename_i h
    simp [show 16 + (n - 16) = n by omega]

/-- A wide read of `n` bits is below `2 ^ n`. -/
theorem brReadBits_lt (n : Nat) (s : State) : (brReadBits n s).1 < 2 ^ n := by
  unfold brReadBits
  split
  · exact brField_lt s _ n
  · rename_i h
    refine Nat.or_lt_two_pow ?_ ?_
    · exact lt_of_lt_of_le (brPeek_lt 16 s) (Nat.pow_le_pow_right (by omega) (by omega))
    · rw [Nat.shiftLeft_eq]
      calc _ < 2 ^ (n - 16) * 2 ^ 16 := Nat.mul_lt_mul_of_pos_right (brPeek_lt _ _) (by positivity)
        _ = 2 ^ n := by rw [← Nat.pow_add]; congr 1; omega

/-- A field in two pieces, low piece first (R139). -/
theorem brField_add (s : State) (k m n : Nat) : brField s k (m + n) = brField s k m + 2 ^ m * brField s (k + m) n := by
  induction m generalizing k with
  | zero => simp [brField]
  | succ m ih =>
    rw [Nat.succ_add, brField, ih, brField, Nat.pow_succ, show k + 1 + m = k + (m + 1) by omega]
    ring

/-- The low bits of a field are the shorter field. -/
theorem brField_mod (s : State) (k : Nat) {m n : Nat} (h : m ≤ n) : brField s k n % 2 ^ m = brField s k m := by
  obtain ⟨d, rfl⟩ := Nat.exists_eq_add_of_le h
  rw [brField_add s k m d, Nat.add_mul_mod_self_left, Nat.mod_eq_of_lt (brField_lt s k m)]

/-- A wide read is the field at the position (R137). -/
@[simp] theorem brReadBits_fst (n : Nat) (s : State) : (brReadBits n s).1 = brField s s.br.pos n := by
  unfold brReadBits
  split
  · rfl
  · rename_i h
    show brField s s.br.pos 16 ||| (brField (brAdvance 16 s) (s.br.pos + 16) (n - 16) <<< 16) = _
    rw [brField_brAdvance, Nat.or_comm, ← Nat.shiftLeft_add_eq_or_of_lt (brField_lt s s.br.pos 16), Nat.shiftLeft_eq]
    have e := brField_add s s.br.pos 16 (n - 16)
    rw [show 16 + (n - 16) = n by omega] at e
    rw [e, Nat.mul_comm]
    omega

/-- A bit of a field is a bit of the payload (R130, R132). -/
theorem brField_testBit (s : State) (k n i : Nat) (h : i < n) : (brField s k n).testBit i = decide (brBit s (k + i) = 1) := by
  induction n generalizing k i with
  | zero => omega
  | succ n ih =>
    have hb := brBit_lt s k
    cases i with
    | zero =>
      simp only [brField, Nat.testBit_zero, Nat.add_zero]
      congr 1
      exact propext ⟨fun h => by omega, fun h => by omega⟩
    | succ i =>
      rw [brField, Nat.testBit_succ, show (brBit s k + 2 * brField s (k + 1) n) / 2 = brField s (k + 1) n by omega,
        ih (k + 1) i (by omega), show k + 1 + i = k + (i + 1) by omega]

end Sys2Proof.Machine
end

