-- ==== Sys2Proof/Laws/Levels.lean ====
section
/-! SUPPORT. The registers method 14 keeps per nesting level: a read after a write, and the next length of a sequence. -/

namespace Sys2Proof.Machine

/-- A level after one was written. -/
theorem levelAt_withLevel {s : State} (h : levelsWf s = true) (d d' : Nat) (l : Level) :
    levelAt (withLevel s d l) d' = if d' = d then l else levelAt s d' := by
  have hw : Memory.wf s.m14.level = true := by simp only [levelsWf, Bool.and_eq_true] at h; exact h.1
  show Memory.read (Memory.write s.m14.level d l) d' = _
  split
  · rename_i e; subst e; exact Memory.read_write_self _ _ _ hw
  · rename_i e; exact Memory.read_write_of_ne _ _ e

/-- An element of a memory is listed, or is what an unlisted address reads as. -/
theorem Memory.read_mem {α : Type} [Inhabited α] (m : Memory α) (a : Nat) :
    Memory.read m a = default ∨ ∃ p ∈ m, p.2 = Memory.read m a := by
  induction m with
  | nil => exact Or.inl rfl
  | cons p m ih =>
    obtain ⟨b, v⟩ := p
    simp only [Memory.read]
    split
    · exact Or.inr ⟨(b, v), List.mem_cons_self, rfl⟩
    · rcases ih with h | ⟨p, hp, e⟩
      · exact Or.inl h
      · exact Or.inr ⟨p, List.mem_cons_of_mem _ hp, e⟩

/-- The memories of a level are canonical when those of all levels are. -/
theorem levelAt_memWf {s : State} (h : levelsWf s = true) (d : Nat) : (levelAt s d).memWf = true := by
  simp only [levelsWf, Bool.and_eq_true, List.all_eq_true] at h
  rcases Memory.read_mem s.m14.level d with e | ⟨p, hp, e⟩
  · show (Memory.read s.m14.level d).memWf = true
    rw [e]; rfl
  · show (Memory.read s.m14.level d).memWf = true
    rw [← e]; exact h.2 p hp

/-- Writing a level with canonical memories keeps all of them so. -/
theorem levelsWf_withLevel {s : State} (h : levelsWf s = true) (d : Nat) (l : Level) (hl : l.memWf = true) :
    levelsWf (withLevel s d l) = true := by
  simp only [levelsWf, Bool.and_eq_true, List.all_eq_true] at h ⊢
  refine ⟨Memory.write_wf _ _ _ h.1, fun p hp => ?_⟩
  rcases Memory.mem_write _ _ _ _ hp with h1 | h1
  · rw [h1]; exact hl
  · exact h.2 p h1

/-- The level in progress after its next length was set (R232 to R234). -/
theorem curLevel_lvPut {s : State} (h : levelsWf s = true) (v : Nat) :
    curLevel (lvPut v s)
      = { curLevel s with lens := Memory.write (curLevel s).lens (curLevel s).i v, i := (curLevel s).i + 1 } := by
  show levelAt (withLevel s s.m14.depth _) s.m14.depth = _
  rw [levelAt_withLevel h, if_pos rfl]

/-- Setting the next length keeps the levels' memories canonical. -/
theorem levelsWf_lvPut {s : State} (h : levelsWf s = true) (v : Nat) : levelsWf (lvPut v s) = true := by
  have hm := levelAt_memWf h s.m14.depth
  simp only [Level.memWf, Bool.and_eq_true] at hm
  refine levelsWf_withLevel h _ _ ?_
  simp only [Level.memWf, Bool.and_eq_true]
  exact ⟨Memory.write_wf _ _ _ hm.1, hm.2⟩

end Sys2Proof.Machine
end

