-- ==== Sys2Proof/Laws/Output.lean ====
section
/-! SUPPORT. The output path: what an emit, a copy and a stored fork can do. -/

namespace Sys2Proof.Machine

/-- `s` after `OUT.EMIT` of a byte for which there is room (R308). -/
def emitted (d : Decoder) (b : Byte) (s : State) : State :=
  windowStep d (((s.withOutMem (Memory.write s.outMem s.out.cnt b)).withOut
    { s.out with cnt := s.out.cnt + 1 }).withWin (Memory.write s.win (windowPos d s) b))

theorem outEmit_ok {d : Decoder} {b : Byte} {s : State} (h : s.out.cnt < s.out.size) : outEmit d b s = .ok () (emitted d b s) := by
  simp [outEmit, emitted, Nat.not_le.2 h]

theorem outEmit_full {d : Decoder} {b : Byte} {s : State} (h : s.out.size ≤ s.out.cnt) :
    outEmit d b s = .raised .corruptStream s := by
  simp [outEmit, h]

/-- An emit either has room, or raises `CorruptStream` and leaves the state. -/
theorem outEmit_cases (d : Decoder) (b : Byte) (s : State) :
    (s.out.cnt < s.out.size ∧ outEmit d b s = .ok () (emitted d b s))
      ∨ (s.out.size ≤ s.out.cnt ∧ outEmit d b s = .raised .corruptStream s) := by
  rcases Nat.lt_or_ge s.out.cnt s.out.size with h | h
  · exact Or.inl ⟨h, outEmit_ok h⟩
  · exact Or.inr ⟨h, outEmit_full h⟩

/-- `t` is `s` but for the output buffer, the window and their positions. -/
def OnlyOutput (s t : State) : Prop :=
  t = { s with win := t.win, outMem := t.outMem, out := { s.out with cnt := t.out.cnt },
               m13 := { s.m13 with wp := t.m13.wp }, m14 := { s.m14 with wp := t.m14.wp } }

theorem OnlyOutput.refl (s : State) : OnlyOutput s s := rfl

theorem OnlyOutput.trans {s t u : State} (h : OnlyOutput s t) (h' : OnlyOutput t u) : OnlyOutput s u := by
  unfold OnlyOutput at *
  rw [h'.trans (by rw [h])]

theorem emitted_onlyOutput (d : Decoder) (b : Byte) (s : State) : OnlyOutput s (emitted d b s) := by
  cases d <;> rfl

@[simp] theorem emitted_win (d : Decoder) (b : Byte) (s : State) :
    (emitted d b s).win = Memory.write s.win (windowPos d s) b := by cases d <;> rfl
@[simp] theorem emitted_outMem (d : Decoder) (b : Byte) (s : State) :
    (emitted d b s).outMem = Memory.write s.outMem s.out.cnt b := by cases d <;> rfl
@[simp] theorem emitted_out (d : Decoder) (b : Byte) (s : State) :
    (emitted d b s).out = { s.out with cnt := s.out.cnt + 1 } := by cases d <;> rfl
@[simp] theorem emitted_m13_wp (b : Byte) (s : State) : (emitted .m13 b s).m13.wp = s.m13.wp + 1 := rfl
@[simp] theorem emitted_m14_wp (b : Byte) (s : State) : (emitted .m14 b s).m14.wp = s.m14.wp + 1 := rfl

/-- What holds of a state and is kept by every emit with room holds after a copy, whether it returns or overruns the output. -/
theorem outCopy_cases (P : State → Prop) (d : Decoder) (hP : ∀ b s, s.out.cnt < s.out.size → P s → P (emitted d b s))
    (len off : Nat) (s : State) (hs : P s) :
    (∃ t, outCopy d len off s = .ok () t ∧ P t ∧ OnlyOutput s t ∧ t.out.cnt = s.out.cnt + len)
      ∨ ∃ t, outCopy d len off s = .raised .corruptStream t ∧ P t ∧ OnlyOutput s t := by
  induction len generalizing s with
  | zero => exact Or.inl ⟨s, rfl, hs, rfl, rfl⟩
  | succ len ih =>
    simp only [outCopy]
    rcases outEmit_cases d (Memory.read s.win (windowBack d off s)) s with ⟨h, he⟩ | ⟨h, he⟩
    · rw [he, Res.bind_ok]
      have ho := emitted_onlyOutput d (Memory.read s.win (windowBack d off s)) s
      rcases ih (emitted d (Memory.read s.win (windowBack d off s)) s) (hP _ _ h hs) with ⟨t, h1, h2, h3, h4⟩ | ⟨t, h1, h2, h3⟩
      · refine Or.inl ⟨t, h1, h2, ho.trans h3, ?_⟩
        rw [h4, emitted_out]
        show s.out.cnt + 1 + len = s.out.cnt + (len + 1)
        omega
      · exact Or.inr ⟨t, h1, h2, ho.trans h3⟩
    · rw [he]
      exact Or.inr ⟨s, rfl, hs, rfl⟩

/-- With room for all of it a copy returns. -/
theorem outCopy_ok (d : Decoder) (len off : Nat) (s : State) (h : s.out.cnt + len ≤ s.out.size) :
    ∃ t, outCopy d len off s = .ok () t ∧ OnlyOutput s t ∧ t.out.cnt = s.out.cnt + len := by
  induction len generalizing s with
  | zero => exact ⟨s, rfl, rfl, rfl⟩
  | succ len ih =>
    simp only [outCopy]
    rw [outEmit_ok (by omega), Res.bind_ok]
    have ho := emitted_onlyOutput d (Memory.read s.win (windowBack d off s)) s
    obtain ⟨t, h1, h2, h3⟩ := ih (emitted d (Memory.read s.win (windowBack d off s)) s) (by
      rw [emitted_out]
      show s.out.cnt + 1 + len ≤ s.out.size
      omega)
    refine ⟨t, h1, ho.trans h2, ?_⟩
    rw [h3, emitted_out]
    show s.out.cnt + 1 + len = s.out.cnt + (len + 1)
    omega

/-- The buffer after a run of bytes is written from `a` on. -/
theorem foldl_write_wf (bs : Bytes) (k : Nat) (m : Memory Byte) (h : Memory.wf m = true) :
    Memory.wf ((bs.zipIdx k).foldl (fun m p => Memory.write m p.2 p.1) m) = true := by
  induction bs generalizing k m with
  | nil => exact h
  | cons b t ih => exact ih (k + 1) _ (Memory.write_wf m _ _ h)

/-- `M0.COPY` (R302): sizes that differ raise `CorruptStream`; else the buffer is written, if the payload is there. -/
theorem m0Copy_cases (f : ForkDesc) (s : State) :
    (f.csize ≠ f.usize ∧ m0Copy f s = .raised .corruptStream s)
      ∨ (f.csize = f.usize ∧ spaceBytes s .src f.offset f.usize.toNat = none ∧ m0Copy f s = .fault .noSuchByte)
      ∨ ∃ bs, f.csize = f.usize ∧ spaceBytes s .src f.offset f.usize.toNat = some bs
          ∧ m0Copy f s = .ok () ((s.withOutMem (bs.zipIdx.foldl (fun m p => Memory.write m p.2 p.1) s.outMem)).withOut
              { s.out with cnt := s.out.size }) := by
  unfold m0Copy
  by_cases h : f.csize = f.usize
  · cases hb : spaceBytes s .src f.offset f.usize.toNat with
    | none => simp [h]
    | some bs => exact Or.inr (Or.inr ⟨bs, h, rfl, by simp [h]⟩)
  · simp [h]

end Sys2Proof.Machine
end

