-- ==== Sys2Proof/Laws/PerInstr.lean ====
section
/-! SUPPORT. The statements made of every instruction, and their lemma for each constructor. -/

namespace Sys2Proof.Laws

/-- A word has the shape and the width of its format (R90 to R97, R102 to R109). -/
def wordFits : Format → Raw → Prop
  | .magic1, .num w => w < 2 ^ 32
  | .magic2, .num w => w < 2 ^ 32
  | .arch, .bytes bs => bs.length = 22
  | .ent, .bytes bs => bs.length = 112
  | .cmpr, .num v => v < 256
  | .m13Ctrl, .num v => v < 256
  | .m13Meta, .num v => v < 37
  | .m13Sym, .num v => v < 0x141
  | .m13Ofs, .num v => v < 17
  | .m14Hdr, .num v => v < 256
  | .m14LenVal r, .num v => r < 32 → v < 32
  | .m14Sym, .num v => v < 308
  | .m14Dist, .num v => v < 75
  | _, _ => False

theorem matchCode_lt {i : Instr} {c : Nat} (h : i.matchCode = some c) : c < 52 := by
  cases i <;> cases h <;> decide

theorem distCode_lt {i : Instr} {c : Nat} (h : i.distCode = some c) : c < 75 := by
  cases i <;> cases h <;> decide

theorem magicValue_lt {i : Instr} {w : Nat} (h : magicValue i = some w) : w < 2 ^ 32 := by
  cases i <;> cases h <;> decide

/-- Every word that spells a well-formed instruction fits its format. -/
def WordFits.Statement (i : Instr) : Prop :=
  i.wf = true → ∀ f w, encode f i = some w → wordFits f w

/-- The words of the symbol formats of method 14 (R106, R108). -/
theorem encode_m14Sym {i : Instr} {w : Raw} (h : encode .m14Sym i = some w) :
    (∃ b, i = .m14Lit b ∧ w = .num b.toNat) ∨ ∃ c, i.matchCode = some c ∧ w = .num (256 + c) := by
  cases i <;> cases h <;> first | exact Or.inl ⟨_, rfl, rfl⟩ | exact Or.inr ⟨_, rfl, rfl⟩

theorem encode_m14Dist {i : Instr} {w : Raw} (h : encode .m14Dist i = some w) : ∃ c, i.distCode = some c ∧ w = .num c := by
  cases i <;> cases h <;> exact ⟨_, rfl, rfl⟩

/-- A magic other than the ten of R95 is the only instruction of `MAGIC` with an operand. -/
theorem encode_magic1 {i : Instr} {w : Raw} (h : encode .magic1 i = some w) :
    (∃ v, i = .magicOther v ∧ primaryMagic v.toNat = none ∧ w = .num v.toNat) ∨ ∃ v, magicValue i = some v ∧ w = .num v := by
  by_cases hi : ∃ v, i = .magicOther v
  · obtain ⟨v, rfl⟩ := hi
    simp only [encode, encodeMagic1] at h
    split at h
    · cases h; exact Or.inl ⟨v, rfl, ‹_›, rfl⟩
    · cases h
  · have he : encode .magic1 i = (magicValue i).map .num := by
      cases i <;> first | rfl | exact absurd ⟨_, rfl⟩ hi
    rw [he, Option.map_eq_some_iff] at h
    obtain ⟨v, hv, rfl⟩ := h
    exact Or.inr ⟨v, hv, rfl⟩

theorem encode_magic2 {i : Instr} {w : Raw} (h : encode .magic2 i = some w) :
    (∃ v, i = .magicOther v ∧ v.toNat ≠ secondaryMagic ∧ w = .num v.toNat) ∨ (i = .magicRLau ∧ w = .num secondaryMagic) := by
  by_cases hi : ∃ v, i = .magicOther v
  · obtain ⟨v, rfl⟩ := hi
    simp only [encode, encodeMagic2] at h
    split at h
    · cases h
    · cases h; exact Or.inl ⟨v, rfl, ‹_›, rfl⟩
  · by_cases hr : i = .magicRLau
    · subst hr; cases h; exact Or.inr ⟨rfl, rfl⟩
    · have he : encode .magic2 i = none := by
        cases i <;> first | rfl | exact absurd ⟨_, rfl⟩ hi | exact absurd rfl hr
      rw [he] at h; cases h

theorem encode_m14LenVal {r : Nat} {i : Instr} {w : Raw} (h : encode (.m14LenVal r) i = some w) :
    (i = .lvZero ∧ w = .num 0) ∨ (i = .lvRepeat ∧ r ≠ 0 ∧ w = .num r) ∨ ∃ v, i = .lvValue v ∧ v.toNat ≠ r ∧ w = .num v.toNat := by
  by_cases hv : ∃ v, i = .lvValue v
  · obtain ⟨v, rfl⟩ := hv
    simp only [encode, encodeLenVal] at h
    split at h
    · cases h
    · cases h; exact Or.inr (Or.inr ⟨v, rfl, ‹_›, rfl⟩)
  · by_cases hr : i = .lvRepeat
    · subst hr
      simp only [encode, encodeLenVal] at h
      split at h
      · cases h
      · cases h; exact Or.inr (Or.inl ⟨rfl, ‹_›, rfl⟩)
    · by_cases hz : i = .lvZero
      · subst hz; cases h; exact Or.inl ⟨rfl, rfl⟩
      · have he : encode (.m14LenVal r) i = none := by
          cases i <;> first | rfl | exact absurd ⟨_, rfl⟩ hv | exact absurd rfl hr | exact absurd rfl hz
        rw [he] at h; cases h

theorem archBytes_length (h : ArchHdr) : (archBytes h).length = 22 := rfl

theorem entBytes_length {h : EntHdr} (hw : h.wf = true) : (entBytes h).length = 112 := by
  have h63 : h.nameArea.length = 63 := by simpa [EntHdr.wf] using hw
  have ht : (entTailBytes h).length = 46 := rfl
  simp [entBytes, entHeadBytes, h63, ht]

theorem encode_arch {i : Instr} {w : Raw} (h : encode .arch i = some w) : ∃ r, i = .arch r ∧ w = .bytes (archBytes r) := by
  cases i <;> cases h; exact ⟨_, rfl, rfl⟩

theorem encode_ent {i : Instr} {w : Raw} (h : encode .ent i = some w) :
    ∃ r, (i = .entFolderStart r ∨ i = .entFolderEnd r ∨ i = .entFile r) ∧ w = .bytes (entBytes r) := by
  cases i <;> cases h
  · exact ⟨_, Or.inl rfl, rfl⟩
  · exact ⟨_, Or.inr (Or.inl rfl), rfl⟩
  · exact ⟨_, Or.inr (Or.inr rfl), rfl⟩

theorem fits_ent {i : Instr} (hw : i.wf = true) {w : Raw} (h : encode .ent i = some w) : wordFits .ent w := by
  obtain ⟨r, hr, rfl⟩ := encode_ent h
  refine entBytes_length ?_
  rcases hr with rfl | rfl | rfl <;> simp only [Instr.wf, Bool.and_eq_true] at hw
  · exact hw.1
  · exact hw.1
  · exact hw.1.1

theorem fits_cmpr {i : Instr} {w : Raw} (h : encode .cmpr i = some w) : wordFits .cmpr w := by
  cases i <;> cases h <;> first | exact BitVec.isLt _ | (show _ < 256; decide)

theorem fits_m13Ctrl {i : Instr} {w : Raw} (h : encode .m13Ctrl i = some w) : wordFits .m13Ctrl w := by
  cases i <;> cases h
  case m13CtrlIllegal b => exact b.isLt
  case m13CtrlDynamic c n =>
    have := n.isLt
    show 8 * c.toNat + n.toNat < 256
    cases c <;> simp <;> omega
  all_goals
    rename_i l
    have := l.isLt
    show staticCtrl _ l < 256
    unfold staticCtrl
    omega

theorem fits_m13Meta {i : Instr} {w : Raw} (h : encode .m13Meta i = some w) : wordFits .m13Meta w := by
  cases i <;> cases h <;> first | (show _ < 37; decide) | (rename_i s; have := s.isLt; show s.val < 37; omega)

theorem fits_m13Sym {i : Instr} (hw : i.wf = true) {w : Raw} (h : encode .m13Sym i = some w) : wordFits .m13Sym w := by
  cases i <;> cases h
  case m13Lit b => have := b.isLt; show b.toNat < 0x141; omega
  case m13Len s => simp [Instr.wf] at hw; show s.toNat < 0x141; omega
  all_goals show _ < 0x141; decide

theorem fits_m14Hdr {i : Instr} {w : Raw} (h : encode .m14Hdr i = some w) : wordFits .m14Hdr w := by
  cases i <;> cases h
  rename_i k j o sel
  have := j.isLt
  have := o.isLt
  have := sel.isLt
  show k.toNat + 2 * j.toNat + 8 * o.toNat + 64 * sel.toNat < 256
  cases k <;> simp <;> omega

theorem fits_m13Ofs {i : Instr} {w : Raw} (h : encode .m13Ofs i = some w) : wordFits .m13Ofs w := by
  cases i <;> cases h; exact Fin.isLt _

theorem WordFits.all (i : Instr) : WordFits.Statement i := by
  intro hw f w h
  cases f
  case magic1 =>
    rcases encode_magic1 h with ⟨v, rfl, -, rfl⟩ | ⟨v, hv, rfl⟩
    · exact v.isLt
    · exact magicValue_lt hv
  case magic2 =>
    rcases encode_magic2 h with ⟨v, rfl, -, rfl⟩ | ⟨rfl, rfl⟩
    · exact v.isLt
    · show secondaryMagic < 2 ^ 32
      decide
  case arch => obtain ⟨r, rfl, rfl⟩ := encode_arch h; exact archBytes_length r
  case ent => exact fits_ent hw h
  case cmpr => exact fits_cmpr h
  case m13Ctrl => exact fits_m13Ctrl h
  case m13Meta => exact fits_m13Meta h
  case m13Sym => exact fits_m13Sym hw h
  case m13Ofs => exact fits_m13Ofs h
  case m14Hdr => exact fits_m14Hdr h
  case m14LenVal r =>
    rcases encode_m14LenVal h with ⟨rfl, rfl⟩ | ⟨rfl, -, rfl⟩ | ⟨v, rfl, -, rfl⟩
    · exact fun _ => by decide
    · exact id
    · exact fun _ => v.isLt
  case m14Sym =>
    rcases encode_m14Sym h with ⟨b, rfl, rfl⟩ | ⟨c, hc, rfl⟩
    · have := b.isLt
      show b.toNat < 308
      omega
    · have := matchCode_lt hc
      show 256 + c < 308
      omega
  case m14Dist =>
    obtain ⟨c, hc, rfl⟩ := encode_m14Dist h
    exact distCode_lt hc

theorem WordFits.magicSit : WordFits.Statement .magicSit := WordFits.all _
theorem WordFits.magicSt65 : WordFits.Statement .magicSt65 := WordFits.all _
theorem WordFits.magicSt50 : WordFits.Statement .magicSt50 := WordFits.all _
theorem WordFits.magicSt60 : WordFits.Statement .magicSt60 := WordFits.all _
theorem WordFits.magicStin : WordFits.Statement .magicStin := WordFits.all _
theorem WordFits.magicSti2 : WordFits.Statement .magicSti2 := WordFits.all _
theorem WordFits.magicSti3 : WordFits.Statement .magicSti3 := WordFits.all _
theorem WordFits.magicSti4 : WordFits.Statement .magicSti4 := WordFits.all _
theorem WordFits.magicSt46 : WordFits.Statement .magicSt46 := WordFits.all _
theorem WordFits.magicRLau : WordFits.Statement .magicRLau := WordFits.all _
theorem WordFits.magicOther w : WordFits.Statement (.magicOther w) := WordFits.all _
theorem WordFits.arch h : WordFits.Statement (.arch h) := WordFits.all _
theorem WordFits.entFolderStart h : WordFits.Statement (.entFolderStart h) := WordFits.all _
theorem WordFits.entFolderEnd h : WordFits.Statement (.entFolderEnd h) := WordFits.all _
theorem WordFits.entFile h : WordFits.Statement (.entFile h) := WordFits.all _
theorem WordFits.cmprEncrypted b : WordFits.Statement (.cmprEncrypted b) := WordFits.all _
theorem WordFits.cmprM0 : WordFits.Statement .cmprM0 := WordFits.all _
theorem WordFits.cmprM13 : WordFits.Statement .cmprM13 := WordFits.all _
theorem WordFits.cmprM14 : WordFits.Statement .cmprM14 := WordFits.all _
theorem WordFits.cmprUnsupported b : WordFits.Statement (.cmprUnsupported b) := WordFits.all _
theorem WordFits.m13CtrlDynamic copy nofs : WordFits.Statement (.m13CtrlDynamic copy nofs) := WordFits.all _
theorem WordFits.m13CtrlStatic0 low : WordFits.Statement (.m13CtrlStatic0 low) := WordFits.all _
theorem WordFits.m13CtrlStatic1 low : WordFits.Statement (.m13CtrlStatic1 low) := WordFits.all _
theorem WordFits.m13CtrlStatic2 low : WordFits.Statement (.m13CtrlStatic2 low) := WordFits.all _
theorem WordFits.m13CtrlStatic3 low : WordFits.Statement (.m13CtrlStatic3 low) := WordFits.all _
theorem WordFits.m13CtrlStatic4 low : WordFits.Statement (.m13CtrlStatic4 low) := WordFits.all _
theorem WordFits.m13CtrlIllegal b : WordFits.Statement (.m13CtrlIllegal b) := WordFits.all _
theorem WordFits.m13Lit b : WordFits.Statement (.m13Lit b) := WordFits.all _
theorem WordFits.m13Len s : WordFits.Statement (.m13Len s) := WordFits.all _
theorem WordFits.m13Med : WordFits.Statement .m13Med := WordFits.all _
theorem WordFits.m13Long : WordFits.Statement .m13Long := WordFits.all _
theorem WordFits.m13Eos : WordFits.Statement .m13Eos := WordFits.all _
theorem WordFits.metaSet s : WordFits.Statement (.metaSet s) := WordFits.all _
theorem WordFits.metaAbsent : WordFits.Statement .metaAbsent := WordFits.all _
theorem WordFits.metaInc : WordFits.Statement .metaInc := WordFits.all _
theorem WordFits.metaDec : WordFits.Statement .metaDec := WordFits.all _
theorem WordFits.metaRep1 : WordFits.Statement .metaRep1 := WordFits.all _
theorem WordFits.metaRep3 : WordFits.Statement .metaRep3 := WordFits.all _
theorem WordFits.metaRep6 : WordFits.Statement .metaRep6 := WordFits.all _
theorem WordFits.m13Ofs v : WordFits.Statement (.m13Ofs v) := WordFits.all _
theorem WordFits.m14Hdr k j o sel : WordFits.Statement (.m14Hdr k j o sel) := WordFits.all _
theorem WordFits.lvZero : WordFits.Statement .lvZero := WordFits.all _
theorem WordFits.lvRepeat : WordFits.Statement .lvRepeat := WordFits.all _
theorem WordFits.lvValue v : WordFits.Statement (.lvValue v) := WordFits.all _
theorem WordFits.m14Lit b : WordFits.Statement (.m14Lit b) := WordFits.all _
theorem WordFits.m14MatchC0 : WordFits.Statement .m14MatchC0 := WordFits.all _
theorem WordFits.m14MatchC1 : WordFits.Statement .m14MatchC1 := WordFits.all _
theorem WordFits.m14MatchC2 : WordFits.Statement .m14MatchC2 := WordFits.all _
theorem WordFits.m14MatchC3 : WordFits.Statement .m14MatchC3 := WordFits.all _
theorem WordFits.m14MatchC4 : WordFits.Statement .m14MatchC4 := WordFits.all _
theorem WordFits.m14MatchC5 : WordFits.Statement .m14MatchC5 := WordFits.all _
theorem WordFits.m14MatchC6 : WordFits.Statement .m14MatchC6 := WordFits.all _
theorem WordFits.m14MatchC7 : WordFits.Statement .m14MatchC7 := WordFits.all _
theorem WordFits.m14MatchC8 : WordFits.Statement .m14MatchC8 := WordFits.all _
theorem WordFits.m14MatchC9 : WordFits.Statement .m14MatchC9 := WordFits.all _
theorem WordFits.m14MatchC10 : WordFits.Statement .m14MatchC10 := WordFits.all _
theorem WordFits.m14MatchC11 : WordFits.Statement .m14MatchC11 := WordFits.all _
theorem WordFits.m14MatchC12 : WordFits.Statement .m14MatchC12 := WordFits.all _
theorem WordFits.m14MatchC13 : WordFits.Statement .m14MatchC13 := WordFits.all _
theorem WordFits.m14MatchC14 : WordFits.Statement .m14MatchC14 := WordFits.all _
theorem WordFits.m14MatchC15 : WordFits.Statement .m14MatchC15 := WordFits.all _
theorem WordFits.m14MatchC16 : WordFits.Statement .m14MatchC16 := WordFits.all _
theorem WordFits.m14MatchC17 : WordFits.Statement .m14MatchC17 := WordFits.all _
theorem WordFits.m14MatchC18 : WordFits.Statement .m14MatchC18 := WordFits.all _
theorem WordFits.m14MatchC19 : WordFits.Statement .m14MatchC19 := WordFits.all _
theorem WordFits.m14MatchC20 : WordFits.Statement .m14MatchC20 := WordFits.all _
theorem WordFits.m14MatchC21 : WordFits.Statement .m14MatchC21 := WordFits.all _
theorem WordFits.m14MatchC22 : WordFits.Statement .m14MatchC22 := WordFits.all _
theorem WordFits.m14MatchC23 : WordFits.Statement .m14MatchC23 := WordFits.all _
theorem WordFits.m14MatchC24 : WordFits.Statement .m14MatchC24 := WordFits.all _
theorem WordFits.m14MatchC25 : WordFits.Statement .m14MatchC25 := WordFits.all _
theorem WordFits.m14MatchC26 : WordFits.Statement .m14MatchC26 := WordFits.all _
theorem WordFits.m14MatchC27 : WordFits.Statement .m14MatchC27 := WordFits.all _
theorem WordFits.m14MatchC28 : WordFits.Statement .m14MatchC28 := WordFits.all _
theorem WordFits.m14MatchC29 : WordFits.Statement .m14MatchC29 := WordFits.all _
theorem WordFits.m14MatchC30 : WordFits.Statement .m14MatchC30 := WordFits.all _
theorem WordFits.m14MatchC31 : WordFits.Statement .m14MatchC31 := WordFits.all _
theorem WordFits.m14MatchC32 : WordFits.Statement .m14MatchC32 := WordFits.all _
theorem WordFits.m14MatchC33 : WordFits.Statement .m14MatchC33 := WordFits.all _
theorem WordFits.m14MatchC34 : WordFits.Statement .m14MatchC34 := WordFits.all _
theorem WordFits.m14MatchC35 : WordFits.Statement .m14MatchC35 := WordFits.all _
theorem WordFits.m14MatchC36 : WordFits.Statement .m14MatchC36 := WordFits.all _
theorem WordFits.m14MatchC37 : WordFits.Statement .m14MatchC37 := WordFits.all _
theorem WordFits.m14MatchC38 : WordFits.Statement .m14MatchC38 := WordFits.all _
theorem WordFits.m14MatchC39 : WordFits.Statement .m14MatchC39 := WordFits.all _
theorem WordFits.m14MatchC40 : WordFits.Statement .m14MatchC40 := WordFits.all _
theorem WordFits.m14MatchC41 : WordFits.Statement .m14MatchC41 := WordFits.all _
theorem WordFits.m14MatchC42 : WordFits.Statement .m14MatchC42 := WordFits.all _
theorem WordFits.m14MatchC43 : WordFits.Statement .m14MatchC43 := WordFits.all _
theorem WordFits.m14MatchC44 : WordFits.Statement .m14MatchC44 := WordFits.all _
theorem WordFits.m14MatchC45 : WordFits.Statement .m14MatchC45 := WordFits.all _
theorem WordFits.m14MatchC46 : WordFits.Statement .m14MatchC46 := WordFits.all _
theorem WordFits.m14MatchC47 : WordFits.Statement .m14MatchC47 := WordFits.all _
theorem WordFits.m14MatchC48 : WordFits.Statement .m14MatchC48 := WordFits.all _
theorem WordFits.m14MatchC49 : WordFits.Statement .m14MatchC49 := WordFits.all _
theorem WordFits.m14MatchC50 : WordFits.Statement .m14MatchC50 := WordFits.all _
theorem WordFits.m14MatchC51 : WordFits.Statement .m14MatchC51 := WordFits.all _
theorem WordFits.m14DistD0 : WordFits.Statement .m14DistD0 := WordFits.all _
theorem WordFits.m14DistD1 : WordFits.Statement .m14DistD1 := WordFits.all _
theorem WordFits.m14DistD2 : WordFits.Statement .m14DistD2 := WordFits.all _
theorem WordFits.m14DistD3 : WordFits.Statement .m14DistD3 := WordFits.all _
theorem WordFits.m14DistD4 : WordFits.Statement .m14DistD4 := WordFits.all _
theorem WordFits.m14DistD5 : WordFits.Statement .m14DistD5 := WordFits.all _
theorem WordFits.m14DistD6 : WordFits.Statement .m14DistD6 := WordFits.all _
theorem WordFits.m14DistD7 : WordFits.Statement .m14DistD7 := WordFits.all _
theorem WordFits.m14DistD8 : WordFits.Statement .m14DistD8 := WordFits.all _
theorem WordFits.m14DistD9 : WordFits.Statement .m14DistD9 := WordFits.all _
theorem WordFits.m14DistD10 : WordFits.Statement .m14DistD10 := WordFits.all _
theorem WordFits.m14DistD11 : WordFits.Statement .m14DistD11 := WordFits.all _
theorem WordFits.m14DistD12 : WordFits.Statement .m14DistD12 := WordFits.all _
theorem WordFits.m14DistD13 : WordFits.Statement .m14DistD13 := WordFits.all _
theorem WordFits.m14DistD14 : WordFits.Statement .m14DistD14 := WordFits.all _
theorem WordFits.m14DistD15 : WordFits.Statement .m14DistD15 := WordFits.all _
theorem WordFits.m14DistD16 : WordFits.Statement .m14DistD16 := WordFits.all _
theorem WordFits.m14DistD17 : WordFits.Statement .m14DistD17 := WordFits.all _
theorem WordFits.m14DistD18 : WordFits.Statement .m14DistD18 := WordFits.all _
theorem WordFits.m14DistD19 : WordFits.Statement .m14DistD19 := WordFits.all _
theorem WordFits.m14DistD20 : WordFits.Statement .m14DistD20 := WordFits.all _
theorem WordFits.m14DistD21 : WordFits.Statement .m14DistD21 := WordFits.all _
theorem WordFits.m14DistD22 : WordFits.Statement .m14DistD22 := WordFits.all _
theorem WordFits.m14DistD23 : WordFits.Statement .m14DistD23 := WordFits.all _
theorem WordFits.m14DistD24 : WordFits.Statement .m14DistD24 := WordFits.all _
theorem WordFits.m14DistD25 : WordFits.Statement .m14DistD25 := WordFits.all _
theorem WordFits.m14DistD26 : WordFits.Statement .m14DistD26 := WordFits.all _
theorem WordFits.m14DistD27 : WordFits.Statement .m14DistD27 := WordFits.all _
theorem WordFits.m14DistD28 : WordFits.Statement .m14DistD28 := WordFits.all _
theorem WordFits.m14DistD29 : WordFits.Statement .m14DistD29 := WordFits.all _
theorem WordFits.m14DistD30 : WordFits.Statement .m14DistD30 := WordFits.all _
theorem WordFits.m14DistD31 : WordFits.Statement .m14DistD31 := WordFits.all _
theorem WordFits.m14DistD32 : WordFits.Statement .m14DistD32 := WordFits.all _
theorem WordFits.m14DistD33 : WordFits.Statement .m14DistD33 := WordFits.all _
theorem WordFits.m14DistD34 : WordFits.Statement .m14DistD34 := WordFits.all _
theorem WordFits.m14DistD35 : WordFits.Statement .m14DistD35 := WordFits.all _
theorem WordFits.m14DistD36 : WordFits.Statement .m14DistD36 := WordFits.all _
theorem WordFits.m14DistD37 : WordFits.Statement .m14DistD37 := WordFits.all _
theorem WordFits.m14DistD38 : WordFits.Statement .m14DistD38 := WordFits.all _
theorem WordFits.m14DistD39 : WordFits.Statement .m14DistD39 := WordFits.all _
theorem WordFits.m14DistD40 : WordFits.Statement .m14DistD40 := WordFits.all _
theorem WordFits.m14DistD41 : WordFits.Statement .m14DistD41 := WordFits.all _
theorem WordFits.m14DistD42 : WordFits.Statement .m14DistD42 := WordFits.all _
theorem WordFits.m14DistD43 : WordFits.Statement .m14DistD43 := WordFits.all _
theorem WordFits.m14DistD44 : WordFits.Statement .m14DistD44 := WordFits.all _
theorem WordFits.m14DistD45 : WordFits.Statement .m14DistD45 := WordFits.all _
theorem WordFits.m14DistD46 : WordFits.Statement .m14DistD46 := WordFits.all _
theorem WordFits.m14DistD47 : WordFits.Statement .m14DistD47 := WordFits.all _
theorem WordFits.m14DistD48 : WordFits.Statement .m14DistD48 := WordFits.all _
theorem WordFits.m14DistD49 : WordFits.Statement .m14DistD49 := WordFits.all _
theorem WordFits.m14DistD50 : WordFits.Statement .m14DistD50 := WordFits.all _
theorem WordFits.m14DistD51 : WordFits.Statement .m14DistD51 := WordFits.all _
theorem WordFits.m14DistD52 : WordFits.Statement .m14DistD52 := WordFits.all _
theorem WordFits.m14DistD53 : WordFits.Statement .m14DistD53 := WordFits.all _
theorem WordFits.m14DistD54 : WordFits.Statement .m14DistD54 := WordFits.all _
theorem WordFits.m14DistD55 : WordFits.Statement .m14DistD55 := WordFits.all _
theorem WordFits.m14DistD56 : WordFits.Statement .m14DistD56 := WordFits.all _
theorem WordFits.m14DistD57 : WordFits.Statement .m14DistD57 := WordFits.all _
theorem WordFits.m14DistD58 : WordFits.Statement .m14DistD58 := WordFits.all _
theorem WordFits.m14DistD59 : WordFits.Statement .m14DistD59 := WordFits.all _
theorem WordFits.m14DistD60 : WordFits.Statement .m14DistD60 := WordFits.all _
theorem WordFits.m14DistD61 : WordFits.Statement .m14DistD61 := WordFits.all _
theorem WordFits.m14DistD62 : WordFits.Statement .m14DistD62 := WordFits.all _
theorem WordFits.m14DistD63 : WordFits.Statement .m14DistD63 := WordFits.all _
theorem WordFits.m14DistD64 : WordFits.Statement .m14DistD64 := WordFits.all _
theorem WordFits.m14DistD65 : WordFits.Statement .m14DistD65 := WordFits.all _
theorem WordFits.m14DistD66 : WordFits.Statement .m14DistD66 := WordFits.all _
theorem WordFits.m14DistD67 : WordFits.Statement .m14DistD67 := WordFits.all _
theorem WordFits.m14DistD68 : WordFits.Statement .m14DistD68 := WordFits.all _
theorem WordFits.m14DistD69 : WordFits.Statement .m14DistD69 := WordFits.all _
theorem WordFits.m14DistD70 : WordFits.Statement .m14DistD70 := WordFits.all _
theorem WordFits.m14DistD71 : WordFits.Statement .m14DistD71 := WordFits.all _
theorem WordFits.m14DistD72 : WordFits.Statement .m14DistD72 := WordFits.all _
theorem WordFits.m14DistD73 : WordFits.Statement .m14DistD73 := WordFits.all _
theorem WordFits.m14DistD74 : WordFits.Statement .m14DistD74 := WordFits.all _
theorem WordFits.m0Copy f : WordFits.Statement (.m0Copy f) := WordFits.all _
theorem WordFits.m13Start : WordFits.Statement .m13Start := WordFits.all _
theorem WordFits.m14Start : WordFits.Statement .m14Start := WordFits.all _
theorem WordFits.m14Block : WordFits.Statement .m14Block := WordFits.all _
theorem WordFits.hostOpen src size flatten : WordFits.Statement (.hostOpen src size flatten) := WordFits.all _
theorem WordFits.hostHas path : WordFits.Statement (.hostHas path) := WordFits.all _
theorem WordFits.hostList : WordFits.Statement .hostList := WordFits.all _
theorem WordFits.hostRead path : WordFits.Statement (.hostRead path) := WordFits.all _
theorem WordFits.hostReadRsrc path : WordFits.Statement (.hostReadRsrc path) := WordFits.all _
theorem WordFits.hostReadFinfo path : WordFits.Statement (.hostReadFinfo path) := WordFits.all _
theorem WordFits.brInit base len : WordFits.Statement (.brInit base len) := WordFits.all _
theorem WordFits.brPeek n : WordFits.Statement (.brPeek n) := WordFits.all _
theorem WordFits.brTake n : WordFits.Statement (.brTake n) := WordFits.all _
theorem WordFits.brTake1 : WordFits.Statement .brTake1 := WordFits.all _
theorem WordFits.brAlign : WordFits.Statement .brAlign := WordFits.all _
theorem WordFits.brEos : WordFits.Statement .brEos := WordFits.all _
theorem WordFits.brReadBits n : WordFits.Statement (.brReadBits n) := WordFits.all _
theorem WordFits.crcInit : WordFits.Statement .crcInit := WordFits.all _
theorem WordFits.crcUpdate b : WordFits.Statement (.crcUpdate b) := WordFits.all _
theorem WordFits.crcRange sp a n : WordFits.Statement (.crcRange sp a n) := WordFits.all _
theorem WordFits.crcVerify f : WordFits.Statement (.crcVerify f) := WordFits.all _
theorem WordFits.h12Build t n ls : WordFits.Statement (.h12Build t n ls) := WordFits.all _
theorem WordFits.h12Buildx t es : WordFits.Statement (.h12Buildx t es) := WordFits.all _
theorem WordFits.h12Decode t : WordFits.Statement (.h12Decode t) := WordFits.all _
theorem WordFits.outEmit b : WordFits.Statement (.outEmit b) := WordFits.all _
theorem WordFits.outCopy len off : WordFits.Statement (.outCopy len off) := WordFits.all _
theorem WordFits.cpParse : WordFits.Statement .cpParse := WordFits.all _
theorem WordFits.cpArchdr : WordFits.Statement .cpArchdr := WordFits.all _
theorem WordFits.cpFetch : WordFits.Statement .cpFetch := WordFits.all _
theorem WordFits.cpKey name : WordFits.Statement (.cpKey name) := WordFits.all _
theorem WordFits.cpInsert key path res data finfo : WordFits.Statement (.cpInsert key path res data finfo) := WordFits.all _
theorem WordFits.dispatch f : WordFits.Statement (.dispatch f) := WordFits.all _
theorem WordFits.m13Static p : WordFits.Statement (.m13Static p) := WordFits.all _
theorem WordFits.m13Dynamic : WordFits.Statement .m13Dynamic := WordFits.all _
theorem WordFits.m13ReadLengths n : WordFits.Statement (.m13ReadLengths n) := WordFits.all _
theorem WordFits.m13EmitLen n : WordFits.Statement (.m13EmitLen n) := WordFits.all _
theorem WordFits.m13Run : WordFits.Statement .m13Run := WordFits.all _
theorem WordFits.m14ReadLengths n depth : WordFits.Statement (.m14ReadLengths n depth) := WordFits.all _

end Sys2Proof.Laws
end

