-- ==== Sys2Proof/Laws/Tables.lean ====
section
/-! SUPPORT. Huffman12 tables: what a build makes, and what a decode can do. -/

namespace Sys2Proof.Machine

open Config (CodeEntry)

/-! ## Elements of a memory -/

/-- An element read that is not `default` is listed. -/
theorem Memory.mem_of_read {α : Type} [Inhabited α] (m : Memory α) (a : Nat) (h : Memory.read m a ≠ default) :
    (a, Memory.read m a) ∈ m := by
  induction m with
  | nil => simp at h
  | cons p t ih =>
    obtain ⟨b, v⟩ := p
    by_cases hab : a = b
    · simp [Memory.read, hab]
    · simp only [Memory.read, if_neg hab] at h ⊢
      exact List.mem_cons_of_mem _ (ih h)

/-- What holds of `default` and of every listed element holds of every element read. -/
theorem Memory.read_of_all {α : Type} [Inhabited α] (P : Nat → α → Prop) (m : Memory α) (hd : ∀ a, P a default)
    (h : ∀ p ∈ m, P p.1 p.2) (a : Nat) : P a (Memory.read m a) := by
  by_cases hr : Memory.read m a = default
  · rw [hr]; exact hd a
  · exact h _ (Memory.mem_of_read m a hr)

/-- A write adds at most the element written. -/
theorem Memory.all_write {α : Type} [Inhabited α] [DecidableEq α] (P : Nat → α → Prop) (m : Memory α) (a : Nat) (v : α)
    (h : ∀ p ∈ m, P p.1 p.2) (hv : P a v) : ∀ p ∈ Memory.write m a v, P p.1 p.2 := by
  intro p hp
  rcases Memory.mem_write m a v p hp with rfl | hp
  · exact hv
  · exact h p hp

/-! ## The invariant of a table -/

/-- The invariant of a table as a proposition. -/
theorem Table.inRange_iff (pool : Nat) (t : Table) :
    t.inRange pool = true ↔ t.nnodes ≤ pool
      ∧ (∀ p ∈ t.slot, p.1 < 4096 ∧ p.2.bits ≤ 13 ∧ (p.2.bits = 13 → p.2.value < t.nnodes))
      ∧ (∀ p ∈ t.node, p.1 < t.nnodes ∧ (∀ c, p.2.zeroChild = some c → p.1 < c ∧ c < t.nnodes)
          ∧ (∀ c, p.2.oneChild = some c → p.1 < c ∧ c < t.nnodes)) := by
  have hc : ∀ (id n : Nat) (o : Option Nat), childOk id n o = true ↔ ∀ c, o = some c → id < c ∧ c < n := by
    intro id n o; cases o <;> simp [childOk]
  simp only [Table.inRange, Bool.and_eq_true, decide_eq_true_eq, List.all_eq_true, Bool.or_eq_true, bne_iff_ne, ne_eq, hc,
    and_assoc, imp_iff_not_or]

theorem Table.empty_inRange (pool : Nat) : Table.empty.inRange pool = true := by simp [Table.inRange, Table.empty]

theorem Table.default_inRange (pool : Nat) : (default : Table).inRange pool = true := Table.empty_inRange pool

/-- A slot read from a table in range. -/
theorem Table.slot_read {pool : Nat} {t : Table} (h : t.inRange pool = true) (x : Nat) :
    (Memory.read t.slot x).bits ≤ 13 ∧ ((Memory.read t.slot x).bits = 13 → (Memory.read t.slot x).value < t.nnodes) := by
  rw [Table.inRange_iff] at h
  exact Memory.read_of_all (fun _ e => e.bits ≤ 13 ∧ (e.bits = 13 → e.value < t.nnodes)) t.slot
    (fun _ => ⟨by decide, fun hh => absurd hh (by decide)⟩) (fun p hp => (h.2.1 p hp).2) x

/-- A child read from a table in range is a later, allocated node. -/
theorem Table.child_read {pool : Nat} {t : Table} (h : t.inRange pool = true) {n b c : Nat} (hc : childOf t n b = some c) :
    n < c ∧ c < t.nnodes := by
  rw [Table.inRange_iff] at h
  have hr := Memory.read_of_all (fun a e => (∀ c, e.zeroChild = some c → a < c ∧ c < t.nnodes)
      ∧ (∀ c, e.oneChild = some c → a < c ∧ c < t.nnodes)) t.node
    (fun _ => by constructor <;> intro c hh <;> exact absurd hh (by simp [show (default : Node) = ⟨none, none, none⟩ from rfl])) (fun p hp => (h.2.2 p hp).2) n
  unfold childOf at hc
  split at hc
  · exact hr.1 c hc
  · exact hr.2 c hc

/-! ## Construction -/

theorem revBits_lt (c l : Nat) : revBits c l < 2 ^ l := by
  induction l generalizing c with
  | zero => simp [revBits]
  | succ l ih =>
    have := ih (c / 2)
    have h2 : c % 2 < 2 := Nat.mod_lt _ (by omega)
    simp only [revBits, Nat.pow_succ]
    have : c % 2 * 2 ^ l ≤ 1 * 2 ^ l := Nat.mul_le_mul_right _ (by omega)
    omega

/-- Canonical codes are patterns of 1 to 32 bits. -/
theorem assignCodes_pattern_lt {next pl : Nat} {ps : List (Nat × Nat)} {cs : List CodeEntry} (h : assignCodes next pl ps = some cs) :
    ∀ c ∈ cs, c.pattern < 2 ^ c.len := by
  induction ps generalizing next pl cs with
  | nil => simp [assignCodes] at h; subst h; simp
  | cons p t ih =>
    obtain ⟨l, s⟩ := p
    simp only [assignCodes] at h
    split at h
    · obtain ⟨cs', hc, rfl⟩ := Option.map_eq_some_iff.1 h
      intro c hcm
      rcases List.mem_cons.1 hcm with rfl | hcm
      · exact revBits_lt _ _
      · exact ih hc c hcm
    · cases h

/-- Filling the slots of a short code keeps a table in range. -/
theorem fillLeaf_inRange {pool : Nat} {c : CodeEntry} {t : Table} (hl : c.len ≤ 12) (hp : c.pattern < 2 ^ c.len)
    (h : t.inRange pool = true) : ({ t with slot := fillLeaf c t.slot } : Table).inRange pool = true := by
  rw [Table.inRange_iff] at h ⊢
  refine ⟨h.1, ?_, h.2.2⟩
  unfold fillLeaf
  have hk : ∀ k ∈ List.range (2 ^ (12 - c.len)), c.pattern + k <<< c.len < 4096 := by
    intro k hk
    rw [List.mem_range] at hk
    rw [Nat.shiftLeft_eq]
    have e : 2 ^ (12 - c.len) * 2 ^ c.len = 4096 := by
      rw [← Nat.pow_add, show 12 - c.len + c.len = 12 by omega]
    have : (k + 1) * 2 ^ c.len ≤ 2 ^ (12 - c.len) * 2 ^ c.len := Nat.mul_le_mul_right _ hk
    rw [Nat.add_mul] at this
    omega
  generalize List.range (2 ^ (12 - c.len)) = ks at hk
  have h0 := h.2.1
  generalize t.slot = m at h0
  induction ks generalizing m with
  | nil => exact h0
  | cons k ks ih =>
    refine ih (fun j hj => hk j (by simp [hj])) _ ?_
    exact Memory.all_write (fun a e => a < 4096 ∧ e.bits ≤ 13 ∧ (e.bits = 13 → e.value < t.nnodes)) m _
      { value := c.sym, bits := c.len } h0
      ⟨hk k (by simp), Nat.le_succ_of_le hl, fun hb => by have : c.len = 13 := hb; omega⟩

theorem fillLeaf_wf (c : CodeEntry) (m : Memory Slot) (h : Memory.wf m = true) : Memory.wf (fillLeaf c m) = true := by
  unfold fillLeaf
  induction List.range (2 ^ (12 - c.len)) generalizing m with
  | nil => exact h
  | cons k ks ih => exact ih _ (Memory.write_wf m _ _ h)

/-- A table that is in range and canonical. -/
def Table.Ok (pool : Nat) (t : Table) : Prop := t.inRange pool = true ∧ t.memWf = true

theorem Table.memWf_iff (t : Table) : t.memWf = true ↔ Memory.wf t.slot = true ∧ Memory.wf t.node = true := by
  simp [Table.memWf]

theorem allocNode_ok {pool : Nat} {t t' : Table} {i : Nat} (h : allocNode pool t = some (i, t')) (ht : t.Ok pool) :
    t'.Ok pool ∧ i = t.nnodes ∧ t'.nnodes = t.nnodes + 1 ∧ t'.slot = t.slot := by
  unfold allocNode at h
  split at h
  · cases h
  · simp only [Option.some.injEq, Prod.mk.injEq] at h
    obtain ⟨rfl, rfl⟩ := h
    obtain ⟨hr, hw⟩ := ht
    rw [Table.inRange_iff] at hr
    rw [Table.memWf_iff] at hw
    refine ⟨⟨?_, ?_⟩, rfl, rfl, rfl⟩
    · rw [Table.inRange_iff]
      refine ⟨by simp; omega, fun p hp => ?_, ?_⟩
      · have := hr.2.1 p hp
        exact ⟨this.1, this.2.1, fun hb => Nat.lt_succ_of_lt (this.2.2 hb)⟩
      · refine Memory.all_write (fun a e => a < t.nnodes + 1 ∧ (∀ c, e.zeroChild = some c → a < c ∧ c < t.nnodes + 1)
          ∧ (∀ c, e.oneChild = some c → a < c ∧ c < t.nnodes + 1)) t.node _ _ ?_ ?_
        · intro p hp
          obtain ⟨h1, h2, h3⟩ := hr.2.2 p hp
          exact ⟨by omega, fun c hc => ⟨(h2 c hc).1, by have := (h2 c hc).2; omega⟩,
            fun c hc => ⟨(h3 c hc).1, by have := (h3 c hc).2; omega⟩⟩
        · exact ⟨Nat.lt_succ_self _, fun _ hc => (nomatch hc), fun _ hc => (nomatch hc)⟩
    · rw [Table.memWf_iff]
      exact ⟨hw.1, Memory.write_wf _ _ _ hw.2⟩

/-- Writing a node whose children are later and allocated keeps a table in range. -/
theorem writeNode_ok {pool : Nat} {t : Table} {i : Nat} {n : Node} (ht : t.Ok pool) (hi : i < t.nnodes)
    (h0 : ∀ c, n.zeroChild = some c → i < c ∧ c < t.nnodes) (h1 : ∀ c, n.oneChild = some c → i < c ∧ c < t.nnodes) :
    ({ t with node := Memory.write t.node i n } : Table).Ok pool := by
  obtain ⟨hr, hw⟩ := ht
  rw [Table.inRange_iff] at hr
  rw [Table.memWf_iff] at hw
  refine ⟨?_, ?_⟩
  · rw [Table.inRange_iff]
    exact ⟨hr.1, hr.2.1, Memory.all_write (fun a e => a < t.nnodes ∧ (∀ c, e.zeroChild = some c → a < c ∧ c < t.nnodes)
      ∧ (∀ c, e.oneChild = some c → a < c ∧ c < t.nnodes)) t.node _ _ hr.2.2 ⟨hi, h0, h1⟩⟩
  · rw [Table.memWf_iff]
    exact ⟨hw.1, Memory.write_wf _ _ _ hw.2⟩

theorem Table.node_read {pool : Nat} {t : Table} (h : t.inRange pool = true) (i : Nat) :
    (∀ c, (Memory.read t.node i).zeroChild = some c → i < c ∧ c < t.nnodes)
      ∧ (∀ c, (Memory.read t.node i).oneChild = some c → i < c ∧ c < t.nnodes) := by
  refine ⟨fun c hc => Table.child_read h (b := 0) ?_, fun c hc => Table.child_read h (b := 1) ?_⟩ <;> simpa [childOf] using hc

theorem descend_ok {pool n bits node : Nat} {t t' : Table} {i : Nat} (h : descend pool n bits node t = some (i, t'))
    (ht : t.Ok pool) (hn : node < t.nnodes) : t'.Ok pool ∧ i < t'.nnodes := by
  induction n generalizing bits node t with
  | zero =>
    simp only [descend, Option.some.injEq, Prod.mk.injEq] at h
    obtain ⟨rfl, rfl⟩ := h
    exact ⟨ht, hn⟩
  | succ n ih =>
    simp only [descend] at h
    split at h
    · rename_i c hc
      exact ih h ht (Table.child_read ht.1 hc).2
    · split at h
      · cases h
      · rename_i c t1 ha
        obtain ⟨h1, rfl, h3, -⟩ := allocNode_ok ha ht
        have hr := Table.node_read h1.1 node
        refine ih h ?_ (by simp [setChild]; omega)
        unfold setChild
        by_cases hb : bits % 2 = 0
        · exact writeNode_ok h1 (by omega) (by simp [hb]; omega) (by simpa [hb] using hr.2)
        · exact writeNode_ok h1 (by omega) (by simpa [hb] using hr.1) (by simp [hb]; omega)

/-! ## Prefix codes -/

/-- In a list of codes none starts a later one (R164, R166). -/
def PrefixFree (cs : List CodeEntry) : Prop :=
  cs.Pairwise fun a b => a.len ≤ b.len ∧ b.pattern % 2 ^ a.len ≠ a.pattern

theorem revBits_mod (c l k : Nat) (h : k ≤ l) : revBits c l % 2 ^ k = revBits (c / 2 ^ (l - k)) k := by
  induction l generalizing c k with
  | zero =>
    obtain rfl : k = 0 := by omega
    simp [revBits]
  | succ l ih =>
    rcases Nat.eq_or_lt_of_le h with rfl | hk
    · simp [Nat.mod_eq_of_lt (revBits_lt c (l + 1))]
    · have hk' : k ≤ l := by omega
      have e : (2 : Nat) ^ l = 2 ^ k * 2 ^ (l - k) := by rw [← Nat.pow_add]; congr 1; omega
      rw [revBits, e, ← Nat.mul_assoc, Nat.mul_comm _ (2 ^ k), Nat.mul_assoc, Nat.mul_add_mod, ih (c / 2) k hk',
        Nat.div_div_eq_div_mul, Nat.mul_comm 2, ← Nat.pow_succ]
      congr 3
      omega

theorem revBits_inj {c d l : Nat} (hc : c < 2 ^ l) (hd : d < 2 ^ l) (h : revBits c l = revBits d l) : c = d := by
  induction l generalizing c d with
  | zero => simp at hc hd; omega
  | succ l ih =>
    simp only [revBits] at h
    have hc2 := revBits_lt (c / 2) l
    have hd2 := revBits_lt (d / 2) l
    have hp : 0 < 2 ^ l := by positivity
    have hm : c % 2 = d % 2 := by
      rcases Nat.mod_two_eq_zero_or_one c with a | a <;> rcases Nat.mod_two_eq_zero_or_one d with b | b <;>
        simp [a, b] at h ⊢ <;> omega
    rw [hm] at h
    have := ih (c := c / 2) (d := d / 2) (by rw [Nat.pow_succ] at hc; omega) (by rw [Nat.pow_succ] at hd; omega) (by omega)
    omega

/-- Every code assigned from `next` on is past it at the length of the code before. -/
theorem assignCodes_ge {next pl : Nat} {ps : List (Nat × Nat)} {cs : List CodeEntry} (h : assignCodes next pl ps = some cs)
    (hs : (pl :: ps.map Prod.fst).Pairwise (· ≤ ·)) :
    ∀ c ∈ cs, pl ≤ c.len ∧ ∃ v, v < 2 ^ c.len ∧ c.pattern = revBits v c.len ∧ next ≤ v / 2 ^ (c.len - pl) := by
  induction ps generalizing next pl cs with
  | nil => simp [assignCodes] at h; subst h; simp
  | cons p t ih =>
    obtain ⟨l, s⟩ := p
    simp only [assignCodes] at h
    simp only [List.map_cons, List.pairwise_cons, List.mem_cons, forall_eq_or_imp] at hs
    split at h
    · rename_i hlt
      obtain ⟨cs', hc, rfl⟩ := Option.map_eq_some_iff.1 h
      intro c hcm
      rcases List.mem_cons.1 hcm with rfl | hcm
      · refine ⟨hs.1.1, next <<< (l - pl), hlt, rfl, ?_⟩
        rw [Nat.shiftLeft_eq, Nat.mul_div_cancel _ (by positivity)]
      · obtain ⟨h1, v, h2, h3, h4⟩ := ih hc (by simpa using hs.2) c hcm
        refine ⟨hs.1.1.trans h1, v, h2, h3, ?_⟩
        have e : (2 : Nat) ^ (c.len - pl) = 2 ^ (c.len - l) * 2 ^ (l - pl) := by
          rw [← Nat.pow_add]; congr 1; have := hs.1.1; omega
        rw [e, ← Nat.div_div_eq_div_mul, Nat.le_div_iff_mul_le (by positivity)]
        rw [Nat.shiftLeft_eq] at h4
        omega
    · cases h

/-- Canonical codes are prefix-free (R162, R164). -/
theorem assignCodes_prefixFree {next pl : Nat} {ps : List (Nat × Nat)} {cs : List CodeEntry} (h : assignCodes next pl ps = some cs)
    (hs : (pl :: ps.map Prod.fst).Pairwise (· ≤ ·)) : PrefixFree cs := by
  induction ps generalizing next pl cs with
  | nil => simp [assignCodes] at h; subst h; simp [PrefixFree]
  | cons p t ih =>
    obtain ⟨l, s⟩ := p
    simp only [assignCodes] at h
    simp only [List.map_cons, List.pairwise_cons, List.mem_cons, forall_eq_or_imp] at hs
    split at h
    · rename_i hlt
      obtain ⟨cs', hc, rfl⟩ := Option.map_eq_some_iff.1 h
      have hs' : (l :: t.map Prod.fst).Pairwise (· ≤ ·) := by simpa using hs.2
      refine List.pairwise_cons.2 ⟨fun b hb => ?_, ih hc hs'⟩
      obtain ⟨h1, v, h2, h3, h4⟩ := assignCodes_ge hc hs' b hb
      refine ⟨h1, fun he => ?_⟩
      simp only at he
      rw [h3, revBits_mod _ _ _ h1] at he
      have hv : v / 2 ^ (b.len - l) < 2 ^ l := by
        rw [Nat.div_lt_iff_lt_mul (by positivity), ← Nat.pow_add]
        rwa [show l + (b.len - l) = b.len by omega]
      have := revBits_inj hv hlt he
      omega
    · cases h

theorem zipIdx_filter_fst (ls : List Nat) (k : Nat) : ∀ p ∈ ls.zipIdx.filter (fun p => p.1 = k), p.1 = k := by
  intro p hp
  simpa using (List.mem_filter.1 hp).2

/-- The sorted pairs are in order of length (R161). -/
theorem sortedPairs_sorted (ls : List Nat) : ((0 :: (sortedPairs ls).map Prod.fst).Pairwise (· ≤ ·)) := by
  refine List.pairwise_cons.2 ⟨fun _ _ => Nat.zero_le _, ?_⟩
  unfold sortedPairs
  rw [List.pairwise_map]
  refine List.pairwise_flatMap.2 ⟨fun k _ => ?_, ?_⟩
  · refine List.pairwise_of_forall_mem_list fun a ha b hb => ?_
    rw [zipIdx_filter_fst ls _ a ha, zipIdx_filter_fst ls _ b hb]
  · refine List.pairwise_lt_range.imp ?_
    intro i j hij a ha b hb
    rw [zipIdx_filter_fst ls _ a ha, zipIdx_filter_fst ls _ b hb]
    omega

theorem canonicalCodes_prefixFree {ls : List Nat} {cs : List CodeEntry} (h : canonicalCodes ls = some cs) :
    PrefixFree cs ∧ ∀ c ∈ cs, c.pattern < 2 ^ c.len :=
  ⟨assignCodes_prefixFree h (sortedPairs_sorted ls), assignCodes_pattern_lt h⟩

/-! ## Placing codes -/

/-- What a short code leaves in the slots: its own, and the rest as they were (R163). -/
theorem read_fillLeaf {c : CodeEntry} {m : Memory Slot} (hl : c.len ≤ 12) (hp : c.pattern < 2 ^ c.len) (hw : Memory.wf m = true)
    (x : Nat) : Memory.read (fillLeaf c m) x
      = if x < 4096 ∧ x % 2 ^ c.len = c.pattern then { value := c.sym, bits := c.len } else Memory.read m x := by
  have key : ∀ (ks : List Nat) (m : Memory Slot), Memory.wf m = true →
      Memory.read (ks.foldl (fun m k => Memory.write m (c.pattern + k <<< c.len) { value := c.sym, bits := c.len }) m) x
        = if ∃ k ∈ ks, x = c.pattern + k <<< c.len then { value := c.sym, bits := c.len } else Memory.read m x := by
    intro ks
    induction ks with
    | nil => intro m _; simp
    | cons k ks ih =>
      intro m hm
      rw [List.foldl_cons, ih _ (Memory.write_wf m _ _ hm)]
      by_cases hx : x = c.pattern + k <<< c.len
      · subst hx
        rw [Memory.read_write_self m _ _ hm]
        simp
      · rw [Memory.read_write_of_ne m _ hx]
        simp [hx]
  unfold fillLeaf
  rw [key _ m hw]
  congr 1
  rw [eq_iff_iff]
  have e : 2 ^ (12 - c.len) * 2 ^ c.len = 4096 := by
    rw [← Nat.pow_add, show 12 - c.len + c.len = 12 by omega]
  constructor
  · rintro ⟨k, hk, rfl⟩
    rw [List.mem_range] at hk
    rw [Nat.shiftLeft_eq]
    have : (k + 1) * 2 ^ c.len ≤ 2 ^ (12 - c.len) * 2 ^ c.len := Nat.mul_le_mul_right _ hk
    rw [Nat.add_mul] at this
    exact ⟨by omega, by rw [Nat.add_mul_mod_self_right, Nat.mod_eq_of_lt hp]⟩
  · rintro ⟨hx, hm⟩
    refine ⟨x / 2 ^ c.len, List.mem_range.2 ?_, ?_⟩
    · rw [Nat.div_lt_iff_lt_mul (by positivity), e]; exact hx
    · rw [Nat.shiftLeft_eq, ← hm, Nat.mul_comm]; exact (Nat.mod_add_div x _).symm

/-- Every leaf slot of a table is the slot of one of the codes. -/
def LeavesFrom (cs : List CodeEntry) (t : Table) : Prop :=
  ∀ x, 1 ≤ (Memory.read t.slot x).bits → (Memory.read t.slot x).bits ≤ 12 →
    ∃ c ∈ cs, c.len = (Memory.read t.slot x).bits ∧ x % 2 ^ c.len = c.pattern

theorem descend_slot {pool n bits node : Nat} {t t' : Table} {i : Nat} (h : descend pool n bits node t = some (i, t')) :
    t'.slot = t.slot := by
  induction n generalizing bits node t with
  | zero =>
    simp only [descend, Option.some.injEq, Prod.mk.injEq] at h
    exact h.2 ▸ rfl
  | succ n ih =>
    simp only [descend] at h
    split at h
    · exact ih h
    · split at h
      · cases h
      · rename_i c t1 ha
        have h1 := ih h
        unfold allocNode at ha
        split at ha
        · cases ha
        · simp only [Option.some.injEq, Prod.mk.injEq] at ha
          obtain ⟨-, rfl⟩ := ha
          exact h1

/-- Placing a code that none of the earlier ones starts keeps a table in range. -/
theorem placeCode_ok {pool : Nat} {c : CodeEntry} {done : List CodeEntry} {t t' : Table} (h : placeCode pool c t = some t')
    (hp : c.pattern < 2 ^ c.len) (hd : ∀ d ∈ done, d.len ≤ c.len ∧ c.pattern % 2 ^ d.len ≠ d.pattern)
    (ht : t.Ok pool) (hf : LeavesFrom done t) : t'.Ok pool ∧ LeavesFrom (c :: done) t' := by
  unfold placeCode at h
  have hw := (Table.memWf_iff t).1 ht.2
  split at h
  · rename_i hl
    simp only [Option.some.injEq] at h
    subst h
    refine ⟨⟨fillLeaf_inRange hl hp ht.1, (Table.memWf_iff _).2 ⟨fillLeaf_wf c t.slot hw.1, hw.2⟩⟩, ?_⟩
    intro x
    simp only [read_fillLeaf hl hp hw.1]
    split
    · rename_i hx
      exact fun _ _ => ⟨c, by simp, rfl, hx.2⟩
    · intro h1 h2
      obtain ⟨d, hd', h3⟩ := hf x h1 h2
      exact ⟨d, by simp [hd'], h3⟩
  · rename_i hl
    have hleaf : ¬ (1 ≤ (Memory.read t.slot (c.pattern % 4096)).bits ∧ (Memory.read t.slot (c.pattern % 4096)).bits ≤ 12) := by
      rintro ⟨h1, h2⟩
      obtain ⟨d, hdm, h3, h4⟩ := hf _ h1 h2
      refine (hd d hdm).2 ?_
      rw [← h4, show (4096 : Nat) = 2 ^ 12 from rfl, Nat.mod_mod_of_dvd]
      exact Nat.pow_dvd_pow 2 (by omega)
    unfold placeLong at h
    split at h
    · cases h
    · rename_i root t1 hroot
      have h1 : t1.Ok pool ∧ root < t1.nnodes ∧ LeavesFrom done t1 := by
        unfold overflowRoot at hroot
        split at hroot
        · obtain ⟨⟨i, t2⟩, ha, he⟩ := Option.map_eq_some_iff.1 hroot
          simp only [Prod.mk.injEq] at he
          obtain ⟨rfl, rfl⟩ := he
          obtain ⟨h2, rfl, h3, h4⟩ := allocNode_ok ha ht
          have hw2 := (Table.memWf_iff t2).1 h2.2
          refine ⟨⟨?_, (Table.memWf_iff _).2 ⟨Memory.write_wf _ _ _ hw2.1, hw2.2⟩⟩, by simp [h3], ?_⟩
          · have hr := h2.1
            rw [Table.inRange_iff] at hr ⊢
            refine ⟨hr.1, Memory.all_write (fun a e => a < 4096 ∧ e.bits ≤ 13 ∧ (e.bits = 13 → e.value < t2.nnodes)) t2.slot _ _
              hr.2.1 ⟨Nat.mod_lt _ (by omega), by simp, by simp [h3]⟩, hr.2.2⟩
          · intro x
            by_cases hx : x = c.pattern % 4096
            · subst hx
              simp only [Memory.read_write_self _ _ _ hw2.1]
              omega
            · simp only [Memory.read_write_of_ne _ _ hx, h4]
              exact hf x
        · rename_i hb
          simp only [Option.some.injEq, Prod.mk.injEq] at hroot
          obtain ⟨rfl, rfl⟩ := hroot
          have := Table.slot_read ht.1 (c.pattern % 4096)
          exact ⟨ht, this.2 (by omega), hf⟩
      obtain ⟨h1, hr, hf1⟩ := h1
      split at h
      · cases h
      · rename_i node t2 hdsc
        obtain ⟨h2, hn⟩ := descend_ok hdsc h1 hr
        simp only [Option.some.injEq] at h
        subst h
        have hrd := Table.node_read h2.1 node
        refine ⟨writeNode_ok h2 hn hrd.1 hrd.2, ?_⟩
        intro x h3 h4
        simp only [descend_slot hdsc] at h3 h4 ⊢
        obtain ⟨d, hdm, h5⟩ := hf1 x h3 h4
        exact ⟨d, by simp [hdm], h5⟩

theorem placeCodes_ok {pool : Nat} {cs done : List CodeEntry} {t t' : Table} (h : placeCodes pool cs t = some t')
    (hpf : PrefixFree cs) (hp : ∀ c ∈ cs, c.pattern < 2 ^ c.len)
    (hd : ∀ d ∈ done, ∀ c ∈ cs, d.len ≤ c.len ∧ c.pattern % 2 ^ d.len ≠ d.pattern)
    (ht : t.Ok pool) (hf : LeavesFrom done t) : t'.Ok pool := by
  induction cs generalizing t done with
  | nil =>
    simp only [placeCodes, Option.some.injEq] at h
    exact h ▸ ht
  | cons c cs ih =>
    simp only [placeCodes, Option.bind_eq_some_iff] at h
    obtain ⟨t1, h1, h2⟩ := h
    obtain ⟨hc, hcs⟩ := List.pairwise_cons.1 hpf
    obtain ⟨h3, h4⟩ := placeCode_ok h1 (hp c (by simp)) (fun d hdm => hd d hdm c (by simp)) ht hf
    refine ih (done := c :: done) h2 hcs (fun b hb => hp b (by simp [hb])) ?_ h3 h4
    intro d hdm b hb
    rcases List.mem_cons.1 hdm with rfl | hdm
    · exact hc b hb
    · exact hd d hdm b (by simp [hb])

theorem Table.empty_ok (pool : Nat) : Table.empty.Ok pool := ⟨Table.empty_inRange pool, rfl⟩

theorem LeavesFrom_empty : LeavesFrom [] Table.empty := by
  intro x h
  exact absurd (show 1 ≤ 0 from h) (by omega)

/-- A table that `H12.BUILD` makes is in range and canonical (R165). -/
theorem buildTable_ok {pool : Nat} {ls : List Nat} {t : Table} (h : buildTable pool ls = some t) : t.Ok pool := by
  unfold buildTable at h
  split at h
  · cases h
  · obtain ⟨cs, hc, hp⟩ := Option.bind_eq_some_iff.1 h
    obtain ⟨h1, h2⟩ := canonicalCodes_prefixFree hc
    exact placeCodes_ok hp h1 h2 (by simp) (Table.empty_ok pool) LeavesFrom_empty

theorem soundEntries_iff (es : List CodeEntry) : soundEntries es = true ↔
    (∀ e ∈ es, 1 ≤ e.len ∧ e.len ≤ 32 ∧ e.pattern < 2 ^ e.len) ∧ es.Pairwise fun a b => patternsClash a b = false := by
  induction es with
  | nil => simp [soundEntries]
  | cons e es ih =>
    simp only [soundEntries, Bool.and_eq_true, ih, decide_eq_true_eq, List.all_eq_true, Bool.not_eq_true', List.mem_cons,
      forall_eq_or_imp, List.pairwise_cons]
    tauto

/-- A table that `H12.BUILDX` makes of a sound ROM is in range and canonical (R166). -/
theorem buildTableX_ok {pool : Nat} {es : List CodeEntry} {t : Table} (hs : soundEntries es = true)
    (h : buildTableX pool es = some t) : t.Ok pool := by
  unfold buildTableX at h
  obtain ⟨h1, h2⟩ := (soundEntries_iff es).1 hs
  have hperm : (sortedEntries es).Perm es := List.perm_insertionSort _ es
  have hsort : (sortedEntries es).Pairwise fun a b => a.len < b.len ∨ (a.len = b.len ∧ a.sym ≤ b.sym) := by
    have : Std.Total fun a b : CodeEntry => a.len < b.len ∨ (a.len = b.len ∧ a.sym ≤ b.sym) := ⟨fun a b => by omega⟩
    have : IsTrans CodeEntry fun a b => a.len < b.len ∨ (a.len = b.len ∧ a.sym ≤ b.sym) := ⟨fun a b c => by omega⟩
    exact List.pairwise_insertionSort (fun a b : CodeEntry => a.len < b.len ∨ (a.len = b.len ∧ a.sym ≤ b.sym)) es
  have hsym : (sortedEntries es).Pairwise fun a b => patternsClash a b = false := by
    refine (hperm.pairwise_iff ?_).2 h2
    intro a b hab
    rw [← hab]
    simp only [patternsClash, Nat.min_comm b.len a.len, Bool.beq_comm]
  refine placeCodes_ok h ?_ (fun c hc => (h1 c (hperm.mem_iff.1 hc)).2.2) (done := []) (by simp) (Table.empty_ok pool)
    LeavesFrom_empty
  refine (hsort.and hsym).imp_of_mem ?_
  intro a b ha hb hab
  have hl : a.len ≤ b.len := by rcases hab.1 with h | h <;> omega
  refine ⟨hl, fun he => ?_⟩
  have := hab.2
  simp only [patternsClash, Nat.min_eq_left hl, beq_eq_false_iff_ne, ne_eq] at this
  exact this (by rw [he, Nat.mod_eq_of_lt (h1 a (hperm.mem_iff.1 ha)).2.2])

/-! ## Decoding -/

/-- The overflow walk only moves the reader; in a table in range it does not run out of fuel. -/
theorem overflowWalk_cases {pool : Nat} {t : Table} (ht : t.inRange pool = true) (fuel node : Nat) (s : State)
    (hf : (t.node.filter fun p => node ≤ p.1).length < fuel) :
    (∃ v n, overflowWalk t fuel node s = .ok v (brAdvance n s) ∧ 1 ≤ n)
      ∨ ∃ n, overflowWalk t fuel node s = .raised .corruptStream (brAdvance n s) := by
  induction fuel generalizing node s with
  | zero => omega
  | succ fuel ih =>
    simp only [overflowWalk, brTake_eq]
    split
    · exact Or.inr ⟨1, rfl⟩
    · rename_i c hc
      split
      · rename_i v hv
        exact Or.inl ⟨v, 1, rfl, by omega⟩
      · have hlt := (Table.child_read ht hc).1
        have hne : Memory.read t.node node ≠ default := by
          intro he
          unfold childOf at hc
          rw [he] at hc
          split at hc <;> exact (nomatch hc)
        have hmem := Memory.mem_of_read t.node node hne
        have hfuel : (t.node.filter fun p => c ≤ p.1).length < fuel := by
          have hsub : ((t.node.filter fun p => c ≤ p.1).length) < (t.node.filter fun p => node ≤ p.1).length := by
            rw [← List.countP_eq_length_filter, ← List.countP_eq_length_filter]
            have hle : List.countP (fun p : Nat × Node => decide (c ≤ p.1)) t.node
                + List.countP (fun p : Nat × Node => decide (p.1 = node)) t.node
                ≤ List.countP (fun p : Nat × Node => decide (node ≤ p.1)) t.node := by
              clear hmem hf
              induction t.node with
              | nil => simp
              | cons p q ihq =>
                simp only [List.countP_cons, decide_eq_true_eq]
                split <;> split <;> split <;> omega
            have hpos : 0 < List.countP (fun p : Nat × Node => decide (p.1 = node)) t.node :=
              List.countP_pos_iff.2 ⟨_, hmem, by simp⟩
            omega
          omega
        rcases ih c (brAdvance 1 s) hfuel with ⟨v, n, h1, h2⟩ | ⟨n, h1⟩
        · exact Or.inl ⟨v, 1 + n, by rw [h1, brAdvance_brAdvance], by omega⟩
        · exact Or.inr ⟨1 + n, by rw [h1, brAdvance_brAdvance]⟩

/-- `H12.DECODE` (R167) of a table in range: a symbol and a move of the reader, or `CorruptStream`; nothing else changes. -/
theorem h12Decode_cases (id : TableId) (s : State) {pool : Nat} (ht : (tableAt s id).inRange pool = true) :
    (∃ v n, h12Decode id s = .ok v (brAdvance n s) ∧ 1 ≤ n) ∨ ∃ n, h12Decode id s = .raised .corruptStream (brAdvance n s) := by
  unfold h12Decode
  simp only
  split
  · exact Or.inr ⟨0, rfl⟩
  · split
    · exact Or.inl ⟨_, _, rfl, by omega⟩
    · have hl : ((tableAt s id).node.filter fun p =>
          (Memory.read (tableAt s id).slot (brPeek 12 s)).value ≤ p.1).length ≤ (tableAt s id).node.length :=
        List.length_filter_le _ _
      rcases overflowWalk_cases ht (bitsLeft s + (tableAt s id).node.length + 2)
          (Memory.read (tableAt s id).slot (brPeek 12 s)).value (brAdvance 12 s) (by omega)
        with ⟨v, n, h1, h2⟩ | ⟨n, h1⟩
      · exact Or.inl ⟨v, 12 + n, by rw [h1, brAdvance_brAdvance], by omega⟩
      · exact Or.inr ⟨12 + n, by rw [h1, brAdvance_brAdvance]⟩

/-- `H12.BUILD` (R165) puts a table in range, or raises `CorruptStream` and leaves the state. -/
theorem h12Build_cases (id : TableId) (ls : List Nat) (s : State) :
    (∃ v, buildTable s.par.poolSlots ls = some v ∧ v.Ok s.par.poolSlots ∧ h12Build id ls s = .ok () (withTable s id v))
      ∨ (buildTable s.par.poolSlots ls = none ∧ h12Build id ls s = .raised .corruptStream s) := by
  unfold h12Build
  cases h : buildTable s.par.poolSlots ls with
  | none => simp
  | some v => exact Or.inl ⟨v, rfl, buildTable_ok h, rfl⟩

/-- `H12.BUILDX` (R166) does the same, or is refused for a ROM that is no prefix code. -/
theorem h12Buildx_cases (id : TableId) (es : List CodeEntry) (s : State) :
    (∃ v, soundEntries es = true ∧ buildTableX s.par.poolSlots es = some v ∧ v.Ok s.par.poolSlots
        ∧ h12Buildx id es s = .ok () (withTable s id v))
      ∨ (soundEntries es = true ∧ h12Buildx id es s = .raised .corruptStream s)
      ∨ (soundEntries es = false ∧ h12Buildx id es s = .refused .badRom) := by
  unfold h12Buildx
  cases hs : soundEntries es with
  | false => simp
  | true =>
    cases h : buildTableX s.par.poolSlots es with
    | none => simp
    | some v => exact Or.inl ⟨v, rfl, rfl, buildTableX_ok hs h, by simp⟩

end Sys2Proof.Machine
end

