-- ==== Sys2Proof/Laws/Pool.lean ====
section
/-! SUPPORT. What the overflow nodes of a Huffman12 table stand for: each for one bit prefix of the codes placed, and each such prefix
has one (R164). So a build needs `poolNodes` of them and fails exactly when the pool has fewer (R169, R170). -/

namespace Sys2Proof.Machine

open Config (CodeEntry)

/-! ## Prefixes -/

/-- The prefixes of the bits `p` that are longer than `d`, the next `n` of them. -/
def prefixPath (p : Nat) : Nat → Nat → List (Nat × Nat)
  | _, 0 => []
  | d, n + 1 => (d + 1, p % 2 ^ (d + 1)) :: prefixPath p (d + 1) n

theorem mem_prefixPath {p d n : Nat} {q : Nat × Nat} :
    q ∈ prefixPath p d n ↔ d < q.1 ∧ q.1 ≤ d + n ∧ q.2 = p % 2 ^ q.1 := by
  obtain ⟨a, b⟩ := q
  induction n generalizing d with
  | zero => simp [prefixPath]; omega
  | succ n ih =>
    simp only [prefixPath, List.mem_cons, ih, Prod.mk.injEq]
    constructor
    · rintro (⟨rfl, rfl⟩ | ⟨h1, h2, h3⟩)
      · exact ⟨by omega, by omega, rfl⟩
      · exact ⟨by omega, by omega, h3⟩
    · rintro ⟨h1, h2, h3⟩
      by_cases h : a = d + 1
      · subst h; exact Or.inl ⟨rfl, h3⟩
      · exact Or.inr ⟨by omega, by omega, h3⟩

theorem prefixPath_nodup (p d n : Nat) : (prefixPath p d n).Nodup := by
  induction n generalizing d with
  | zero => simp [prefixPath]
  | succ n ih =>
    refine List.nodup_cons.2 ⟨fun h => ?_, ih _⟩
    have := (mem_prefixPath.1 h).1
    simp at this

/-- The prefixes of a long code: its first 12 bits, and each longer one (R164). -/
theorem nodePrefixes_long {c : CodeEntry} (h : 12 < c.len) :
    nodePrefixes c = (12, c.pattern % 4096) :: prefixPath c.pattern 12 (c.len - 12) := by
  have key : ∀ d n, (List.range (n + 1)).map (fun k => (d + k, c.pattern % 2 ^ (d + k)))
      = (d, c.pattern % 2 ^ d) :: prefixPath c.pattern d n := by
    intro d n
    induction n generalizing d with
    | zero => simp [prefixPath]
    | succ n ih =>
      rw [List.range_succ_eq_map, List.map_cons, List.map_map]
      have := ih (d + 1)
      simp only [prefixPath, ← this, Nat.add_zero, List.cons.injEq, true_and]
      refine List.map_congr_left fun k _ => ?_
      simp only [Function.comp, Nat.succ_eq_add_one, Nat.add_comm k 1, ← Nat.add_assoc]
  unfold nodePrefixes
  rw [if_pos h, show c.len - 11 = c.len - 12 + 1 by omega, key]
  rfl

theorem nodePrefixes_short {c : CodeEntry} (h : c.len ≤ 12) : nodePrefixes c = [] := if_neg (by omega)

theorem mem_nodePrefixes {c : CodeEntry} {q : Nat × Nat} :
    q ∈ nodePrefixes c ↔ 12 < c.len ∧ 12 ≤ q.1 ∧ q.1 ≤ c.len ∧ q.2 = c.pattern % 2 ^ q.1 := by
  by_cases h : 12 < c.len
  · rw [nodePrefixes_long h, List.mem_cons, mem_prefixPath]
    obtain ⟨a, b⟩ := q
    simp only [Prod.mk.injEq]
    constructor
    · rintro (⟨rfl, rfl⟩ | ⟨h1, h2, h3⟩)
      · exact ⟨h, by omega, by omega, rfl⟩
      · exact ⟨h, by omega, by omega, h3⟩
    · rintro ⟨-, h1, h2, h3⟩
      by_cases ha : a = 12
      · subst ha; exact Or.inl ⟨rfl, h3⟩
      · exact Or.inr ⟨by omega, by omega, h3⟩
  · rw [nodePrefixes_short (by omega)]
    simp [h]

theorem nodePrefixes_nodup (c : CodeEntry) : (nodePrefixes c).Nodup := by
  by_cases h : 12 < c.len
  · rw [nodePrefixes_long h]
    refine List.nodup_cons.2 ⟨fun hm => ?_, prefixPath_nodup _ _ _⟩
    have := (mem_prefixPath.1 hm).1
    simp at this
  · rw [nodePrefixes_short (by omega)]; exact List.nodup_nil

/-! ## Labelled tables -/

/-- The nodes of a table are labelled: node `i` stands for the prefix `labs[i]`, every prefix listed has one node, and the nodes of
the whole codes in `done` carry their symbols. -/
structure Labelled (done : List CodeEntry) (labs : List (Nat × Nat)) (t : Table) : Prop where
  count : labs.length = t.nnodes
  nodup : labs.Nodup
  canon : t.memWf = true
  /-- An overflow slot leads to the node of its 12 bits. -/
  root : ∀ x, (Memory.read t.slot x).bits = 13 → labs[(Memory.read t.slot x).value]? = some (12, x)
  /-- The 12 bits of a node have an overflow slot. -/
  overflow : ∀ x, (12, x) ∈ labs → (Memory.read t.slot x).bits = 13
  /-- A child stands for one bit more. -/
  child : ∀ i d p b c, labs[i]? = some (d, p) → b < 2 → childOf t i b = some c → labs[c]? = some (d + 1, p + b * 2 ^ d)
  /-- No child, no such prefix. -/
  childless : ∀ i d p b, labs[i]? = some (d, p) → b < 2 → childOf t i b = none → (d + 1, p + b * 2 ^ d) ∉ labs
  range : ∀ q, q ∈ labs → 12 ≤ q.1 ∧ q.2 < 2 ^ q.1
  closed : ∀ d p, 12 ≤ d → (d + 1, p) ∈ labs → (d, p % 2 ^ d) ∈ labs
  covers : ∀ c, c ∈ done → ∀ q, q ∈ nodePrefixes c → q ∈ labs
  symbols : ∀ i d p s, labs[i]? = some (d, p) →
    ((Memory.read t.node i).symbol = some s ↔ ∃ c, c ∈ done ∧ 12 < c.len ∧ c.len = d ∧ c.pattern = p ∧ c.sym = s)

theorem labelled_empty : Labelled [] [] Table.empty where
  count := rfl
  nodup := List.nodup_nil
  canon := rfl
  root := fun x h => absurd (show (0 : Nat) = 13 from h) (by omega)
  overflow := fun x h => absurd h (by simp)
  child := fun i d p b c h => by simp at h
  childless := fun i d p b h => by simp at h
  range := fun q h => absurd h (by simp)
  closed := fun d p _ h => absurd h (by simp)
  covers := fun c h => absurd h (by simp)
  symbols := fun i d p s h => by simp at h

/-- Two nodes of one label are one node. -/
theorem Labelled.inj {done : List CodeEntry} {labs : List (Nat × Nat)} {t : Table} (h : Labelled done labs t) {i j : Nat}
    {q : Nat × Nat} (hi : labs[i]? = some q) (hj : labs[j]? = some q) : i = j := by
  obtain ⟨h1, e1⟩ := List.getElem?_eq_some_iff.1 hi
  obtain ⟨h2, e2⟩ := List.getElem?_eq_some_iff.1 hj
  exact (List.Nodup.getElem_inj_iff h.nodup).1 (e1.trans e2.symm)

/-- A label is a node's. -/
theorem Labelled.lt {done : List CodeEntry} {labs : List (Nat × Nat)} {t : Table} (h : Labelled done labs t) {i : Nat}
    {q : Nat × Nat} (hi : labs[i]? = some q) : i < t.nnodes := by
  rw [← h.count]; exact (List.getElem?_eq_some_iff.1 hi).1

theorem prefix_lt {p d b : Nat} (hp : p < 2 ^ d) (hb : b < 2) : p + b * 2 ^ d < 2 ^ (d + 1) := by
  have : b * 2 ^ d ≤ 1 * 2 ^ d := Nat.mul_le_mul_right _ (by omega)
  rw [Nat.pow_succ]; omega

theorem prefix_mod {p d b : Nat} (hp : p < 2 ^ d) : (p + b * 2 ^ d) % 2 ^ d = p := by
  rw [Nat.add_mul_mod_self_right, Nat.mod_eq_of_lt hp]

theorem prefix_inj {p p' d b b' : Nat} (hp : p < 2 ^ d) (hp' : p' < 2 ^ d) (h : p + b * 2 ^ d = p' + b' * 2 ^ d) :
    p = p' ∧ b = b' := by
  have e : p = p' := by rw [← prefix_mod (b := b) hp, h, prefix_mod hp']
  subst e
  exact ⟨rfl, Nat.eq_of_mul_eq_mul_right (by positivity) (Nat.add_left_cancel h)⟩

/-- A prefix is the prefix one bit shorter and a bit. -/
theorem prefix_succ (p d : Nat) : p % 2 ^ (d + 1) = p % 2 ^ d + p / 2 ^ d % 2 * 2 ^ d := by
  rw [Nat.pow_succ, Nat.mod_mul, Nat.mul_comm]

/-- One more node keeps the labelling: the node of a prefix `q` that had none, hung where `q` belongs. -/
theorem Labelled.extend {done : List CodeEntry} {labs : List (Nat × Nat)} {t t' : Table} {q : Nat × Nat}
    (h : Labelled done labs t) (hq : q ∉ labs) (hr : 12 ≤ q.1 ∧ q.2 < 2 ^ q.1)
    (hcl : ∀ d, 12 ≤ d → q.1 = d + 1 → (d, q.2 % 2 ^ d) ∈ labs) (hn : t'.nnodes = t.nnodes + 1) (hw : t'.memWf = true)
    (hs : ∀ x, Memory.read t'.slot x
      = if q = (12, x) then { value := t.nnodes, bits := 13 } else Memory.read t.slot x)
    (hc1 : ∀ j e d p, labs[j]? = some (d, p) → e < 2 → q = (d + 1, p + e * 2 ^ d) → childOf t' j e = some t.nnodes)
    (hc2 : ∀ j e d p, labs[j]? = some (d, p) → e < 2 → q ≠ (d + 1, p + e * 2 ^ d) → childOf t' j e = childOf t j e)
    (hc3 : ∀ e, e < 2 → childOf t' t.nnodes e = none)
    (hy : ∀ j, (Memory.read t'.node j).symbol = if j = t.nnodes then none else (Memory.read t.node j).symbol) :
    Labelled done (labs ++ [q]) t' := by
  have hlen := h.count
  have hget : ∀ (j : Nat) r, (labs ++ [q])[j]? = some r → labs[j]? = some r ∨ (j = t.nnodes ∧ r = q) := by
    intro j r hr
    by_cases hj : j < labs.length
    · rw [List.getElem?_append_left hj] at hr; exact Or.inl hr
    · obtain ⟨hl, he⟩ := List.getElem?_eq_some_iff.1 hr
      simp only [List.length_append, List.length_singleton] at hl
      obtain rfl : j = labs.length := by omega
      rw [List.getElem_append_right (Nat.le_refl _)] at he
      simp at he
      exact Or.inr ⟨hlen, he.symm⟩
  have hold : ∀ (j : Nat) r, labs[j]? = some r → (labs ++ [q])[j]? = some r := by
    intro j r hr
    rw [List.getElem?_append_left (List.getElem?_eq_some_iff.1 hr).1]; exact hr
  have hlast : (labs ++ [q])[t.nnodes]? = some q := by rw [← hlen]; simp
  -- nothing longer than `q` has a node yet
  have hlong : ∀ e, e < 2 → (q.1 + 1, q.2 + e * 2 ^ q.1) ∉ labs ++ [q] := by
    intro e he hm
    rcases List.mem_append.1 hm with hm | hm
    · have := h.closed q.1 _ hr.1 hm
      rw [prefix_mod hr.2] at this
      exact hq this
    · have := congrArg Prod.fst (List.mem_singleton.1 hm)
      simp at this
  refine ⟨?_, ?_, hw, ?_, ?_, ?_, ?_, ?_, ?_, ?_, ?_⟩
  · simp [hn, hlen]
  · exact List.Nodup.append h.nodup (by simp) (by simpa using hq)
  · intro x hx
    rw [hs] at hx ⊢
    split
    · rename_i e; rw [← e]; exact hlast
    · rename_i e; rw [if_neg e] at hx; exact hold _ _ (h.root x hx)
  · intro x hx
    rw [hs]
    split
    · rfl
    · rename_i e
      rcases List.mem_append.1 hx with hx | hx
      · exact h.overflow x hx
      · exact absurd (List.mem_singleton.1 hx).symm e
  · intro j d p e c hj he hc
    rcases hget _ _ hj with hj | ⟨rfl, -⟩
    · by_cases hqe : q = (d + 1, p + e * 2 ^ d)
      · rw [hc1 j e d p hj he hqe] at hc
        cases hc
        rw [hlast, hqe]
      · rw [hc2 j e d p hj he hqe] at hc
        exact hold _ _ (h.child j d p e c hj he hc)
    · rw [hc3 e he] at hc; cases hc
  · intro j d p e hj he hc
    rcases hget _ _ hj with hj | ⟨rfl, rfl⟩
    · by_cases hqe : q = (d + 1, p + e * 2 ^ d)
      · rw [hc1 j e d p hj he hqe] at hc; cases hc
      · rw [hc2 j e d p hj he hqe] at hc
        intro hm
        rcases List.mem_append.1 hm with hm | hm
        · exact h.childless j d p e hj he hc hm
        · exact hqe (List.mem_singleton.1 hm).symm
    · exact hlong e he
  · intro r hm
    rcases List.mem_append.1 hm with hm | hm
    · exact h.range r hm
    · rw [List.mem_singleton.1 hm]; exact hr
  · intro d p hd hm
    rcases List.mem_append.1 hm with hm | hm
    · exact List.mem_append_left _ (h.closed d p hd hm)
    · have e := List.mem_singleton.1 hm
      subst e
      exact List.mem_append_left _ (hcl d hd rfl)
  · intro c hc r hr
    exact List.mem_append_left _ (h.covers c hc r hr)
  · intro j d p s hj
    rw [hy]
    rcases hget _ _ hj with hj | ⟨rfl, rfl⟩
    · rw [if_neg (Nat.ne_of_lt (h.lt hj))]
      exact h.symbols j d p s hj
    · rw [if_pos rfl]
      refine ⟨fun hh => (nomatch hh), ?_⟩
      rintro ⟨c, hc, hl, rfl, rfl, -⟩
      refine absurd (h.covers c hc (c.len, c.pattern) (mem_nodePrefixes.2 ⟨hl, by simp only; omega, Nat.le_refl _, ?_⟩)) hq
      exact (Nat.mod_eq_of_lt hr.2).symm

/-- A node allocated is empty, and no other changes. -/
theorem read_allocNode {pool c : Nat} {t t' : Table} (h : allocNode pool t = some (c, t')) (hw : t.memWf = true) :
    c = t.nnodes ∧ t.nnodes < pool ∧ t'.nnodes = t.nnodes + 1 ∧ t'.slot = t.slot ∧ t'.memWf = true
      ∧ ∀ j, Memory.read t'.node j = if j = t.nnodes then default else Memory.read t.node j := by
  have hw' := (Table.memWf_iff t).1 hw
  unfold allocNode at h
  split at h
  · cases h
  simp only [Option.some.injEq, Prod.mk.injEq] at h
  obtain ⟨rfl, rfl⟩ := h
  refine ⟨rfl, by omega, rfl, rfl, (Table.memWf_iff _).2 ⟨hw'.1, Memory.write_wf _ _ _ hw'.2⟩, fun j => ?_⟩
  split
  · rename_i e; subst e; exact Memory.read_write_self _ _ _ hw'.2
  · rename_i e; exact Memory.read_write_of_ne _ _ e

theorem allocNode_none {pool : Nat} {t : Table} : allocNode pool t = none ↔ pool ≤ t.nnodes := by
  unfold allocNode; split <;> simp_all

/-- The root of 12 bits that had none. -/
theorem Labelled.root_alloc {done : List CodeEntry} {labs : List (Nat × Nat)} {pool x i : Nat} {t t' : Table}
    (h : Labelled done labs t) (hx : x < 4096) (hm : (12, x) ∉ labs) (ha : allocNode pool t = some (i, t')) :
    Labelled done (labs ++ [(12, x)]) { t' with slot := Memory.write t'.slot x { value := i, bits := 13 } } := by
  obtain ⟨rfl, -, h3, h4, h5, h6⟩ := read_allocNode ha h.canon
  have hw := (Table.memWf_iff t').1 h5
  have hne : ∀ (j : Nat) q, labs[j]? = some q → j ≠ t.nnodes := fun j q hj => Nat.ne_of_lt (h.lt hj)
  have hch : ∀ j e, j ≠ t.nnodes →
      childOf { t' with slot := Memory.write t'.slot x { value := t.nnodes, bits := 13 } } j e = childOf t j e := by
    intro j e hj
    simp only [childOf, h6, if_neg hj]
  refine h.extend hm ⟨Nat.le_refl _, hx⟩ (fun d hd he => absurd he (by simp only; omega)) h3
    ((Table.memWf_iff _).2 ⟨Memory.write_wf _ _ _ hw.1, hw.2⟩) ?_ ?_ ?_ ?_ ?_
  · intro y
    by_cases hy : y = x
    · subst hy; rw [if_pos rfl]; exact Memory.read_write_self _ _ _ hw.1
    · rw [if_neg (by simp [Ne.symm hy])]
      show Memory.read (Memory.write t'.slot x _) y = _
      rw [Memory.read_write_of_ne _ _ hy, h4]
  · intro j e d p hj he hq
    have := (h.range _ (List.mem_of_getElem? hj)).1
    simp only [Prod.mk.injEq] at hq this
    omega
  · intro j e d p hj he hq
    exact hch j e (hne j _ hj)
  · intro e he
    simp only [childOf, h6, if_true]
    split <;> rfl
  · intro j
    show (Memory.read t'.node j).symbol = _
    rw [h6]
    split <;> rfl

/-- A child of a node that had none on that side. -/
theorem Labelled.child_alloc {done : List CodeEntry} {labs : List (Nat × Nat)} {pool i d p b c : Nat} {t t' : Table}
    (h : Labelled done labs t) (hi : labs[i]? = some (d, p)) (hb : b < 2) (hc : childOf t i b = none)
    (ha : allocNode pool t = some (c, t')) : Labelled done (labs ++ [(d + 1, p + b * 2 ^ d)]) (setChild t' i b c) := by
  obtain ⟨rfl, -, h3, h4, h5, h6⟩ := read_allocNode ha h.canon
  have hw := (Table.memWf_iff t').1 h5
  have hil := h.lt hi
  have hpd := h.range _ (List.mem_of_getElem? hi)
  simp only at hpd
  have hrd : ∀ (v : Node) j, Memory.read (Memory.write t'.node i v) j = if j = i then v else Memory.read t'.node j := by
    intro v j
    split
    · rename_i e; subst e; exact Memory.read_write_self _ _ _ hw.2
    · rename_i e; exact Memory.read_write_of_ne _ _ e
  have hself : childOf (setChild t' i b t.nnodes) i b = some t.nnodes := by
    unfold childOf setChild
    simp only [hrd, if_true]
    split <;> rfl
  have hothers : ∀ j e, e < 2 → (j ≠ i ∨ e ≠ b) → childOf (setChild t' i b t.nnodes) j e = childOf t' j e := by
    intro j e he hje
    unfold childOf setChild
    simp only [hrd]
    by_cases hji : j = i
    · subst hji
      have hbe : e ≠ b := by tauto
      by_cases hb0 : b = 0
      · have he1 : e ≠ 0 := by omega
        simp [hb0, he1]
      · have he0 : e = 0 := by omega
        simp [hb0, he0]
    · simp [hji]
  have holds : ∀ j e, j ≠ t.nnodes → childOf t' j e = childOf t j e := by
    intro j e hj
    simp only [childOf, h6, if_neg hj]
  refine h.extend (h.childless i d p b hi hb hc) ⟨by simp only; omega, prefix_lt hpd.2 hb⟩ ?_ h3
    ((Table.memWf_iff _).2 ⟨hw.1, Memory.write_wf _ _ _ hw.2⟩) ?_ ?_ ?_ ?_ ?_
  · intro d' hd' he
    simp only at he
    obtain rfl : d' = d := by omega
    rw [prefix_mod hpd.2]
    exact List.mem_of_getElem? hi
  · intro x
    show Memory.read t'.slot x = _
    have hne : (d + 1, p + b * 2 ^ d) ≠ (12, x) := fun e => by have := congrArg Prod.fst e; simp only at this; omega
    rw [if_neg hne, h4]
  · intro j e d' p' hj he hq
    simp only [Prod.mk.injEq] at hq
    obtain rfl : d' = d := by omega
    have hp' := (h.range _ (List.mem_of_getElem? hj)).2
    obtain ⟨rfl, rfl⟩ := prefix_inj hpd.2 hp' hq.2
    rw [h.inj hj hi]; exact hself
  · intro j e d' p' hj he hq
    rw [hothers j e he, holds j e (Nat.ne_of_lt (h.lt hj))]
    by_contra hcon
    push Not at hcon
    obtain ⟨rfl, rfl⟩ := hcon
    rw [hi] at hj
    cases hj
    exact hq rfl
  · intro e he
    rw [hothers _ e he (Or.inl (by omega))]
    simp only [childOf, h6, if_true]
    split <;> rfl
  · intro j
    have : (Memory.read (setChild t' i b t.nnodes).node j).symbol = (Memory.read t'.node j).symbol := by
      unfold setChild
      simp only [hrd]
      split
      · rename_i e; subst e; split <;> rfl
      · rfl
    rw [this, h6]
    split <;> rfl

/-- The node of a whole code gets its symbol. -/
theorem Labelled.setSymbol {done : List CodeEntry} {labs : List (Nat × Nat)} {t : Table} {i : Nat} {c : CodeEntry}
    (h : Labelled done labs t) (hi : labs[i]? = some (c.len, c.pattern)) (hl : 12 < c.len) (hp : c.pattern < 2 ^ c.len)
    (hcov : ∀ q, q ∈ nodePrefixes c → q ∈ labs) (hd : ∀ d, d ∈ done → ¬ (d.len = c.len ∧ d.pattern = c.pattern)) :
    Labelled (c :: done) labs { t with node := Memory.write t.node i { Memory.read t.node i with symbol := some c.sym } } := by
  have hw := (Table.memWf_iff t).1 h.canon
  have hrd : ∀ j, Memory.read (Memory.write t.node i { Memory.read t.node i with symbol := some c.sym }) j
      = if j = i then { Memory.read t.node i with symbol := some c.sym } else Memory.read t.node j := by
    intro j
    split
    · rename_i e; subst e; exact Memory.read_write_self _ _ _ hw.2
    · rename_i e; exact Memory.read_write_of_ne _ _ e
  have hch : ∀ j e, childOf { t with node := Memory.write t.node i { Memory.read t.node i with symbol := some c.sym } } j e
      = childOf t j e := by
    intro j e
    simp only [childOf, hrd]
    by_cases hj : j = i
    · subst hj; simp
    · simp [hj]
  refine ⟨h.count, h.nodup, (Table.memWf_iff _).2 ⟨hw.1, Memory.write_wf _ _ _ hw.2⟩, h.root, h.overflow, ?_, ?_, h.range,
    h.closed, ?_, ?_⟩
  · intro j d p b k hj hb hk
    rw [hch] at hk
    exact h.child j d p b k hj hb hk
  · intro j d p b hj hb hk
    rw [hch] at hk
    exact h.childless j d p b hj hb hk
  · intro d hd' q hq
    rcases List.mem_cons.1 hd' with rfl | hd'
    · exact hcov q hq
    · exact h.covers d hd' q hq
  · intro j d p s hj
    simp only [hrd]
    split
    · rename_i e
      subst e
      rw [hi] at hj
      cases hj
      simp only [Option.some.injEq, List.mem_cons]
      constructor
      · rintro rfl
        exact ⟨c, Or.inl rfl, hl, rfl, rfl, rfl⟩
      · rintro ⟨d, rfl | hdm, -, h1, h2, h3⟩
        · exact h3
        · exact absurd ⟨h1, h2⟩ (hd d hdm)
    · rename_i e
      rw [h.symbols j d p s hj]
      constructor
      · rintro ⟨k, hk, h1⟩
        exact ⟨k, List.mem_cons_of_mem _ hk, h1⟩
      · rintro ⟨k, hk, h1, rfl, rfl, h4⟩
        rcases List.mem_cons.1 hk with rfl | hk
        · exact absurd (h.inj hj hi) e
        · exact ⟨k, hk, h1, rfl, rfl, h4⟩

/-! ## Placing codes -/

/-- What `descend` does in a labelled table: it makes just the prefixes that have no node yet, or the pool has too few. -/
theorem descend_labelled {done : List CodeEntry} {pool p d n bits i : Nat} {labs : List (Nat × Nat)} {t : Table}
    (h : Labelled done labs t) (hle : t.nnodes ≤ pool) (hi : labs[i]? = some (d, p % 2 ^ d)) (hb : bits = p / 2 ^ d) :
    if t.nnodes + ((prefixPath p d n).filter (· ∉ labs)).length ≤ pool then
      ∃ j t', descend pool n bits i t = some (j, t') ∧ Labelled done (labs ++ (prefixPath p d n).filter (· ∉ labs)) t'
        ∧ (labs ++ (prefixPath p d n).filter (· ∉ labs))[j]? = some (d + n, p % 2 ^ (d + n))
    else descend pool n bits i t = none := by
  induction n generalizing labs t i d bits with
  | zero =>
    simp only [prefixPath, List.filter_nil, List.length_nil, Nat.add_zero, hle, if_true, List.append_nil]
    exact ⟨i, t, rfl, h, hi⟩
  | succ n ih =>
    have hbit : bits % 2 < 2 := Nat.mod_lt _ (by omega)
    have hq : (d + 1, p % 2 ^ d + bits % 2 * 2 ^ d) = (d + 1, p % 2 ^ (d + 1)) := by rw [hb, ← prefix_succ]
    have hb' : bits / 2 = p / 2 ^ (d + 1) := by rw [hb, Nat.div_div_eq_div_mul, ← Nat.pow_succ]
    have harith : d + (n + 1) = d + 1 + n := by omega
    simp only [descend, prefixPath, List.filter_cons, harith]
    cases hc : childOf t i (bits % 2) with
    | some c =>
      have hcl := h.child i d _ _ c hi hbit hc
      rw [hq] at hcl
      have hmem : (d + 1, p % 2 ^ (d + 1)) ∈ labs := List.mem_of_getElem? hcl
      simp only [hmem, not_true_eq_false, decide_false, Bool.false_eq_true, if_false]
      exact ih h hle hcl hb'
    | none =>
      have hno := h.childless i d _ _ hi hbit hc
      rw [hq] at hno
      simp only [hno, not_false_eq_true, decide_true, if_true, List.length_cons]
      cases ha : allocNode pool t with
      | none =>
        have := allocNode_none.1 ha
        rw [if_neg (by omega)]
      | some a =>
        obtain ⟨c, t1⟩ := a
        have h1 := h.child_alloc hi hbit hc ha
        rw [hq] at h1
        obtain ⟨rfl, hlt, hn1, -, -, -⟩ := read_allocNode ha h.canon
        have hn : (setChild t1 i (bits % 2) t.nnodes).nnodes = t.nnodes + 1 := hn1
        have hf : (prefixPath p (d + 1) n).filter (· ∉ labs ++ [(d + 1, p % 2 ^ (d + 1))])
            = (prefixPath p (d + 1) n).filter (· ∉ labs) := by
          refine List.filter_congr fun q hqm => ?_
          have := (mem_prefixPath.1 hqm).1
          have hne : q ≠ (d + 1, p % 2 ^ (d + 1)) := by rintro rfl; simp at this
          simp [hne]
        have hi1 : (labs ++ [(d + 1, p % 2 ^ (d + 1))])[t.nnodes]? = some (d + 1, p % 2 ^ (d + 1)) := by
          rw [← h.count]; simp
        have := ih h1 (by omega) hi1 hb'
        rw [hf, hn] at this
        simp only [List.append_assoc, List.singleton_append] at this
        rw [show t.nnodes + (((prefixPath p (d + 1) n).filter (· ∉ labs)).length + 1)
          = t.nnodes + 1 + ((prefixPath p (d + 1) n).filter (· ∉ labs)).length by omega]
        exact this

/-- What placing a long code does in a labelled table whose slot for its first 12 bits is no leaf. -/
theorem placeLong_labelled {done : List CodeEntry} {pool : Nat} {labs : List (Nat × Nat)} {t : Table} {c : CodeEntry}
    (h : Labelled done labs t) (hle : t.nnodes ≤ pool) (hl : 12 < c.len) (hp : c.pattern < 2 ^ c.len)
    (hd : ∀ d, d ∈ done → ¬ (d.len = c.len ∧ d.pattern = c.pattern))
    (hslot : (Memory.read t.slot (c.pattern % 4096)).bits = 0 ∨ (Memory.read t.slot (c.pattern % 4096)).bits = 13) :
    if t.nnodes + ((nodePrefixes c).filter (· ∉ labs)).length ≤ pool then
      ∃ t', placeLong pool c t = some t' ∧ Labelled (c :: done) (labs ++ (nodePrefixes c).filter (· ∉ labs)) t'
    else placeLong pool c t = none := by
  have hx : c.pattern % 4096 < 4096 := Nat.mod_lt _ (by omega)
  -- the part after the root
  have rest : ∀ (labs1 : List (Nat × Nat)) (t1 : Table) (root : Nat), Labelled done labs1 t1 → t1.nnodes ≤ pool →
      labs1[root]? = some (12, c.pattern % 4096) →
      if t1.nnodes + ((prefixPath c.pattern 12 (c.len - 12)).filter (· ∉ labs1)).length ≤ pool then
        ∃ j t2, descend pool (c.len - 12) (c.pattern / 4096) root t1 = some (j, t2)
          ∧ Labelled (c :: done) (labs1 ++ (prefixPath c.pattern 12 (c.len - 12)).filter (· ∉ labs1))
            { t2 with node := Memory.write t2.node j { Memory.read t2.node j with symbol := some c.sym } }
      else descend pool (c.len - 12) (c.pattern / 4096) root t1 = none := by
    intro labs1 t1 root h1 hle1 hroot
    have := descend_labelled (p := c.pattern) (d := 12) (n := c.len - 12) (bits := c.pattern / 4096) h1 hle1 hroot rfl
    split
    · rename_i hfit
      rw [if_pos hfit] at this
      obtain ⟨j, t2, hdsc, h2, hj⟩ := this
      rw [show 12 + (c.len - 12) = c.len by omega, Nat.mod_eq_of_lt hp] at hj
      refine ⟨j, t2, hdsc, h2.setSymbol hj hl hp ?_ hd⟩
      intro q hq
      rw [nodePrefixes_long hl] at hq
      rcases List.mem_cons.1 hq with rfl | hq
      · exact List.mem_append_left _ (List.mem_of_getElem? hroot)
      · by_cases hm : q ∈ labs1
        · exact List.mem_append_left _ hm
        · exact List.mem_append_right _ (List.mem_filter.2 ⟨hq, by simpa using hm⟩)
    · rename_i hfit
      rw [if_neg hfit] at this
      exact this
  rw [nodePrefixes_long hl, List.filter_cons]
  unfold placeLong overflowRoot
  rcases hslot with hb | hb
  · have hno : (12, c.pattern % 4096) ∉ labs := fun hm => by rw [h.overflow _ hm] at hb; omega
    simp only [hb, if_true, hno, not_false_eq_true, decide_true, List.length_cons]
    cases ha : allocNode pool t with
    | none =>
      have := allocNode_none.1 ha
      rw [if_neg (by omega)]
      rfl
    | some a =>
      obtain ⟨i, t1⟩ := a
      have h1 := h.root_alloc hx hno ha
      obtain ⟨rfl, hlt, hn1, -, -, -⟩ := read_allocNode ha h.canon
      have hroot : (labs ++ [(12, c.pattern % 4096)])[t.nnodes]? = some (12, c.pattern % 4096) := by rw [← h.count]; simp
      have hf : (prefixPath c.pattern 12 (c.len - 12)).filter (· ∉ labs ++ [(12, c.pattern % 4096)])
          = (prefixPath c.pattern 12 (c.len - 12)).filter (· ∉ labs) := by
        refine List.filter_congr fun q hqm => ?_
        have := (mem_prefixPath.1 hqm).1
        have hne : q ≠ (12, c.pattern % 4096) := by rintro rfl; simp at this
        simp [hne]
      have := rest _ _ _ h1 (by show t1.nnodes ≤ pool; omega) hroot
      rw [hf] at this
      simp only [List.append_assoc, List.singleton_append] at this
      rw [show t.nnodes + (((prefixPath c.pattern 12 (c.len - 12)).filter (· ∉ labs)).length + 1)
        = t1.nnodes + ((prefixPath c.pattern 12 (c.len - 12)).filter (· ∉ labs)).length by omega]
      simp only [Option.map_some]
      split
      · rename_i hfit
        rw [if_pos hfit] at this
        obtain ⟨j, t2, e, h2⟩ := this
        rw [e]
        exact ⟨_, rfl, h2⟩
      · rename_i hfit
        rw [if_neg hfit] at this
        rw [this]
  · have hroot := h.root _ hb
    have hmem := List.mem_of_getElem? hroot
    simp only [hb, show ¬ (13 = 0) by omega, if_false, hmem, not_true_eq_false, decide_false, Bool.false_eq_true]
    have := rest _ _ _ h hle hroot
    split
    · rename_i hfit
      rw [if_pos hfit] at this
      obtain ⟨j, t2, e, h2⟩ := this
      rw [e]
      exact ⟨_, rfl, h2⟩
    · rename_i hfit
      rw [if_neg hfit] at this
      rw [this]

/-- A long code changes no slot but an empty one, which becomes an overflow. -/
theorem placeLong_slot {pool : Nat} {t t' : Table} {c : CodeEntry} (h : placeLong pool c t = some t') (hw : t.memWf = true)
    (x : Nat) : Memory.read t'.slot x = Memory.read t.slot x
      ∨ ((Memory.read t.slot x).bits = 0 ∧ (Memory.read t'.slot x).bits = 13) := by
  unfold placeLong at h
  split at h
  · cases h
  · rename_i root t1 hroot
    split at h
    · cases h
    · rename_i node t2 hdsc
      simp only [Option.some.injEq] at h
      subst h
      simp only [descend_slot hdsc]
      unfold overflowRoot at hroot
      split at hroot
      · rename_i hb
        obtain ⟨⟨i, t3⟩, ha, he⟩ := Option.map_eq_some_iff.1 hroot
        simp only [Prod.mk.injEq] at he
        obtain ⟨rfl, rfl⟩ := he
        obtain ⟨-, -, -, h4, h5, -⟩ := read_allocNode ha hw
        by_cases hx : x = c.pattern % 4096
        · subst hx
          right
          exact ⟨hb, by rw [Memory.read_write_self _ _ _ ((Table.memWf_iff _).1 h5).1]⟩
        · left
          rw [Memory.read_write_of_ne _ _ hx, h4]
      · simp only [Option.some.injEq, Prod.mk.injEq] at hroot
        obtain ⟨-, rfl⟩ := hroot
        exact Or.inl rfl

/-- A table that holds the codes of `done` and nothing else: the short ones in its leaves, the long ones in its labelled nodes. -/
structure Holds (done : List CodeEntry) (labs : List (Nat × Nat)) (t : Table) : Prop where
  nodes : Labelled done labs t
  bits : ∀ x, (Memory.read t.slot x).bits ≤ 13
  leaf : ∀ c, c ∈ done → c.len ≤ 12 → ∀ x, x < 4096 → x % 2 ^ c.len = c.pattern →
    Memory.read t.slot x = { value := c.sym, bits := c.len }
  leaves : LeavesFrom done t
  /-- The nodes are those of the long codes. -/
  used : ∀ q, q ∈ labs → ∃ c, c ∈ done ∧ q ∈ nodePrefixes c

theorem holds_empty : Holds [] [] Table.empty where
  nodes := labelled_empty
  bits := fun x => Nat.zero_le _
  leaf := fun c h => absurd h (by simp)
  leaves := LeavesFrom_empty
  used := fun q h => absurd h (by simp)

/-- Placing the next code of a prefix-free list: just its new prefixes get nodes, or the pool has too few (R163, R164, R169). -/
theorem placeCode_holds {done : List CodeEntry} {pool : Nat} {labs : List (Nat × Nat)} {t : Table} {c : CodeEntry}
    (h : Holds done labs t) (hle : t.nnodes ≤ pool) (h1 : 1 ≤ c.len) (hp : c.pattern < 2 ^ c.len)
    (hd : ∀ d, d ∈ done → d.len ≤ c.len ∧ c.pattern % 2 ^ d.len ≠ d.pattern) :
    if t.nnodes + ((nodePrefixes c).filter (· ∉ labs)).length ≤ pool then
      ∃ t', placeCode pool c t = some t' ∧ Holds (c :: done) (labs ++ (nodePrefixes c).filter (· ∉ labs)) t'
    else placeCode pool c t = none := by
  have hw := (Table.memWf_iff t).1 h.nodes.canon
  unfold placeCode
  by_cases hl : c.len ≤ 12
  · have hlabs : labs = [] := by
      refine List.eq_nil_iff_forall_not_mem.2 fun q hq => ?_
      obtain ⟨d, hdm, hqd⟩ := h.used q hq
      have := (mem_nodePrefixes.1 hqd).1
      have := (hd d hdm).1
      omega
    subst hlabs
    have hrd := read_fillLeaf hl hp hw.1
    rw [nodePrefixes_short hl]
    simp only [List.filter_nil, List.length_nil, Nat.add_zero, hle, hl, if_true, List.append_nil]
    refine ⟨_, rfl, ⟨?_, ?_, ?_, ?_, ?_⟩⟩
    · refine { labelled_empty with
        count := h.nodes.count
        canon := (Table.memWf_iff _).2 ⟨fillLeaf_wf c t.slot hw.1, hw.2⟩
        root := ?_
        overflow := fun x hx => absurd hx (by simp)
        child := fun i d p b k hi => by simp at hi
        childless := fun i d p b hi => by simp at hi
        covers := ?_
        symbols := fun i d p s hi => by simp at hi }
      · intro x hx
        rw [hrd] at hx
        split at hx
        · simp only at hx; omega
        · have := h.nodes.root x hx
          simp at this
      · intro d hdm q hq
        have hlen : 12 < d.len := (mem_nodePrefixes.1 hq).1
        rcases List.mem_cons.1 hdm with rfl | hdm
        · omega
        · have := (hd d hdm).1; omega
    · intro x
      rw [hrd]
      split
      · simp only; omega
      · exact h.bits x
    · intro d hdm hdl x hx hxd
      rw [hrd]
      rcases List.mem_cons.1 hdm with rfl | hdm
      · rw [if_pos ⟨hx, hxd⟩]
      · rw [if_neg, h.leaf d hdm hdl x hx hxd]
        rintro ⟨-, hxc⟩
        refine (hd d hdm).2 ?_
        rw [← hxc, Nat.mod_mod_of_dvd _ (Nat.pow_dvd_pow 2 (hd d hdm).1), hxd]
    · intro x
      simp only [hrd]
      split
      · rename_i hx
        exact fun _ _ => ⟨c, by simp, rfl, hx.2⟩
      · intro h2 h3
        obtain ⟨d, hd', h4⟩ := h.leaves x h2 h3
        exact ⟨d, by simp [hd'], h4⟩
    · exact fun q hq => absurd hq (by simp)
  · rw [if_neg hl]
    have hslot : (Memory.read t.slot (c.pattern % 4096)).bits = 0 ∨ (Memory.read t.slot (c.pattern % 4096)).bits = 13 := by
      by_contra hcon
      have hb := h.bits (c.pattern % 4096)
      obtain ⟨d, hdm, h3, h4⟩ := h.leaves (c.pattern % 4096) (by omega) (by omega)
      refine (hd d hdm).2 ?_
      rw [← h4, show (4096 : Nat) = 2 ^ 12 from rfl, Nat.mod_mod_of_dvd]
      exact Nat.pow_dvd_pow 2 (by omega)
    have hne : ∀ d, d ∈ done → ¬ (d.len = c.len ∧ d.pattern = c.pattern) := by
      rintro d hdm ⟨h2, h3⟩
      refine (hd d hdm).2 ?_
      rw [h2, h3, Nat.mod_eq_of_lt hp]
    have := placeLong_labelled h.nodes hle (by omega) hp hne hslot
    split
    · rename_i hfit
      rw [if_pos hfit] at this
      obtain ⟨t', ht', hlab⟩ := this
      have hsl := placeLong_slot ht' h.nodes.canon
      refine ⟨t', ht', hlab, ?_, ?_, ?_, ?_⟩
      · intro x
        rcases hsl x with e | ⟨-, e⟩
        · rw [e]; exact h.bits x
        · omega
      · intro d hdm hdl x hx hxd
        rcases List.mem_cons.1 hdm with rfl | hdm
        · omega
        · have e1 := h.leaf d hdm hdl x hx hxd
          rcases hsl x with e | ⟨e, -⟩
          · rw [e, e1]
          · rw [e1] at e
            simp only at e
            have := (hd d hdm).2
            rw [e, Nat.pow_zero, Nat.mod_one] at hxd this
            exact absurd hxd this
      · intro x h2 h3
        rcases hsl x with e | ⟨-, e⟩
        · rw [e] at h2 h3 ⊢
          obtain ⟨d, hd', h4⟩ := h.leaves x h2 h3
          exact ⟨d, by simp [hd'], h4⟩
        · omega
      · intro q hq
        rcases List.mem_append.1 hq with hq | hq
        · obtain ⟨d, hdm, hqd⟩ := h.used q hq
          exact ⟨d, by simp [hdm], hqd⟩
        · exact ⟨c, by simp, (List.mem_filter.1 hq).1⟩
    · rename_i hfit
      rw [if_neg hfit] at this
      exact this

/-- The labels after the codes `cs` were placed one after another. -/
def growLabels : List (Nat × Nat) → List CodeEntry → List (Nat × Nat)
  | labs, [] => labs
  | labs, c :: cs => growLabels (labs ++ (nodePrefixes c).filter (· ∉ labs)) cs

theorem growLabels_length_ge (labs : List (Nat × Nat)) (cs : List CodeEntry) : labs.length ≤ (growLabels labs cs).length := by
  induction cs generalizing labs with
  | nil => exact Nat.le_refl _
  | cons c cs ih => exact Nat.le_trans (by simp) (ih _)

theorem mem_growLabels {labs : List (Nat × Nat)} {cs : List CodeEntry} {q : Nat × Nat} :
    q ∈ growLabels labs cs ↔ q ∈ labs ∨ q ∈ cs.flatMap nodePrefixes := by
  induction cs generalizing labs with
  | nil => simp [growLabels]
  | cons c cs ih =>
    simp only [growLabels, ih, List.mem_append, List.mem_filter, decide_eq_true_eq, List.flatMap_cons]
    by_cases hq : q ∈ labs <;> simp [hq]

theorem growLabels_nodup {labs : List (Nat × Nat)} {cs : List CodeEntry} (h : labs.Nodup) : (growLabels labs cs).Nodup := by
  induction cs generalizing labs with
  | nil => exact h
  | cons c cs ih =>
    refine ih (List.Nodup.append h ((nodePrefixes_nodup c).filter _) ?_)
    intro q h1 h2
    have := (List.mem_filter.1 h2).2
    simp [h1] at this

/-- There are as many labels as the codes need nodes. -/
theorem growLabels_length (cs : List CodeEntry) : (growLabels [] cs).length = poolNodes cs := by
  unfold poolNodes
  refine List.Perm.length_eq ((List.perm_ext_iff_of_nodup (growLabels_nodup List.nodup_nil) (List.nodup_dedup _)).2 fun q => ?_)
  rw [mem_growLabels, List.mem_dedup]
  simp

/-- Placing a prefix-free list of codes: the table holds them all, or the pool has too few nodes for their prefixes. -/
theorem placeCodes_holds {cs done : List CodeEntry} {pool : Nat} {labs : List (Nat × Nat)} {t : Table} (h : Holds done labs t)
    (hle : t.nnodes ≤ pool) (hpf : PrefixFree cs) (hp : ∀ c ∈ cs, 1 ≤ c.len ∧ c.pattern < 2 ^ c.len)
    (hd : ∀ d ∈ done, ∀ c ∈ cs, d.len ≤ c.len ∧ c.pattern % 2 ^ d.len ≠ d.pattern) :
    if (growLabels labs cs).length ≤ pool then
      ∃ t', placeCodes pool cs t = some t' ∧ Holds (cs.reverse ++ done) (growLabels labs cs) t'
    else placeCodes pool cs t = none := by
  induction cs generalizing labs t done with
  | nil =>
    have : labs.length ≤ pool := by rw [h.nodes.count]; exact hle
    simp only [growLabels, this, if_true]
    exact ⟨t, rfl, by simpa using h⟩
  | cons c cs ih =>
    obtain ⟨hc, hcs⟩ := List.pairwise_cons.1 hpf
    have hpc := hp c (by simp)
    have := placeCode_holds h hle hpc.1 hpc.2 (fun d hdm => hd d hdm c (by simp))
    rw [show growLabels labs (c :: cs) = growLabels (labs ++ (nodePrefixes c).filter (· ∉ labs)) cs from rfl]
    simp only [placeCodes]
    split at this
    · rename_i hfit
      obtain ⟨t1, ht1, h1⟩ := this
      rw [ht1]
      simp only [Option.bind_some]
      have hle1 : t1.nnodes ≤ pool := by
        rw [← h1.nodes.count, List.length_append, h.nodes.count]; exact hfit
      have := ih h1 hle1 hcs (fun b hb => hp b (by simp [hb])) (by
        intro d hdm b hb
        rcases List.mem_cons.1 hdm with rfl | hdm
        · exact hc b hb
        · exact hd d hdm b (by simp [hb]))
      simpa using this
    · rename_i hfit
      rw [this]
      have := growLabels_length_ge (labs ++ (nodePrefixes c).filter (· ∉ labs)) cs
      rw [List.length_append, h.nodes.count] at this
      split
      · omega
      · rfl

/-- What building the table of a prefix-free list of codes does (R163 to R166, R169, R170): with `poolNodes` nodes in the pool the
table holds the codes and has just so many nodes; with fewer there is none. -/
theorem placeCodes_table {cs : List CodeEntry} (pool : Nat) (hpf : PrefixFree cs)
    (hp : ∀ c ∈ cs, 1 ≤ c.len ∧ c.pattern < 2 ^ c.len) :
    (poolNodes cs ≤ pool → ∃ t labs, placeCodes pool cs .empty = some t ∧ t.nnodes = poolNodes cs ∧ Holds cs.reverse labs t)
      ∧ (pool < poolNodes cs → placeCodes pool cs .empty = none) := by
  have := placeCodes_holds (pool := pool) holds_empty (Nat.zero_le _) hpf hp (by simp)
  rw [growLabels_length] at this
  refine ⟨fun hfit => ?_, fun hfit => ?_⟩
  · rw [if_pos hfit] at this
    obtain ⟨t, ht, hh⟩ := this
    rw [List.append_nil] at hh
    exact ⟨t, _, ht, by rw [← hh.nodes.count, growLabels_length], hh⟩
  · rw [if_neg (by omega)] at this
    exact this

/-! ## Decoding -/

/-- The overflow walk from the node of the first `d` bits at `pos`: a symbol is that of a longer code that the stream begins with,
and an error means that the stream begins with none (R167). -/
theorem overflowWalk_labelled {done : List CodeEntry} {labs : List (Nat × Nat)} {t : Table} (h : Labelled done labs t)
    {fuel i d pos : Nat} {s : State} (hi : labs[i]? = some (d, brField s pos d))
    (hpos : s.br.pos = pos + d) :
    (∀ v u, overflowWalk t fuel i s = .ok v u → ∃ c, c ∈ done ∧ 12 < c.len ∧ brField s pos c.len = c.pattern ∧ v = c.sym
        ∧ u = { s with br := { s.br with pos := pos + c.len } })
      ∧ ∀ k u, overflowWalk t fuel i s = .raised k u → ∀ c, c ∈ done → d < c.len → brField s pos c.len ≠ c.pattern := by
  induction fuel generalizing i d s with
  | zero => exact ⟨fun v u hw => (nomatch hw), fun k u hw => (nomatch hw)⟩
  | succ fuel ih =>
    have hb : brPeek 1 s < 2 := brPeek_lt 1 s
    have hd12 : 12 ≤ d := (h.range _ (List.mem_of_getElem? hi)).1
    have hext : brField s pos (d + 1) = brField s pos d + brPeek 1 s * 2 ^ d := by
      rw [brField_add, brPeek, hpos, Nat.mul_comm]
    have hcov : ∀ c, c ∈ done → d < c.len → brField s pos c.len = c.pattern → (d + 1, brField s pos (d + 1)) ∈ labs := by
      intro c hc hl he
      refine h.covers c hc _ (mem_nodePrefixes.2 ⟨by omega, by simp only; omega, hl, ?_⟩)
      simp only
      rw [← he, brField_mod s pos hl]
    simp only [overflowWalk, brTake_eq]
    cases hch : childOf t i (brPeek 1 s) with
    | none =>
      refine ⟨fun v u hw => (nomatch hw), fun k u _ c hc hl he => ?_⟩
      have := h.childless i d _ _ hi hb hch
      rw [← hext] at this
      exact this (hcov c hc hl he)
    | some j =>
      have hj := h.child i d _ _ j hi hb hch
      rw [← hext] at hj
      simp only
      cases hsy : (Memory.read t.node j).symbol with
      | some v =>
        refine ⟨fun v' u hw => ?_, fun k u hw => (nomatch hw)⟩
        simp only [Res.ok.injEq] at hw
        obtain ⟨rfl, rfl⟩ := hw
        obtain ⟨c, hc, h12, hl, hpt, rfl⟩ := (h.symbols j _ _ _ hj).1 hsy
        refine ⟨c, hc, h12, by rw [hl, hpt], rfl, ?_⟩
        rw [hl, show pos + (d + 1) = s.br.pos + 1 by omega]
        rfl
      | none =>
        obtain ⟨g1, g2⟩ := ih (i := j) (d := d + 1) (s := brAdvance 1 s) (by rw [brField_brAdvance]; exact hj)
          (by show s.br.pos + 1 = _; omega)
        simp only [brField_brAdvance] at g1 g2
        refine ⟨fun v u hw => ?_, fun k u hw c hc hl he => ?_⟩
        · exact g1 v u hw
        · rcases Nat.lt_or_ge (d + 1) c.len with h1 | h1
          · exact g2 k u hw c hc h1 he
          · have e : c.len = d + 1 := by omega
            have := (h.symbols j _ _ c.sym hj).2 ⟨c, hc, by omega, e, by rw [← he, e], rfl⟩
            rw [hsy] at this
            cases this

/-- Decoding with a table that holds the codes of `done` (R167): a symbol is that of a code the stream begins with, and the reader
stands behind that code; an error means that the stream begins with no code. -/
theorem h12Decode_holds {done : List CodeEntry} {labs : List (Nat × Nat)} {id : TableId} {s : State}
    (h : Holds done labs (tableAt s id)) (h1 : ∀ c ∈ done, 1 ≤ c.len) :
    (∀ v u, h12Decode id s = .ok v u → ∃ c, c ∈ done ∧ brField s s.br.pos c.len = c.pattern ∧ v = c.sym
        ∧ u = { s with br := { s.br with pos := s.br.pos + c.len } })
      ∧ ∀ k u, h12Decode id s = .raised k u → ∀ c, c ∈ done → brField s s.br.pos c.len ≠ c.pattern := by
  have hx : brPeek 12 s < 4096 := brPeek_lt 12 s
  have hmod : ∀ m, m ≤ 12 → brPeek 12 s % 2 ^ m = brField s s.br.pos m := fun m hm => brField_mod s s.br.pos hm
  have hshort : ∀ c, c ∈ done → c.len ≤ 12 → brField s s.br.pos c.len = c.pattern →
      (Memory.read (tableAt s id).slot (brPeek 12 s)).bits = c.len := fun c hc hl he => by
    rw [h.leaf c hc hl _ hx (by rw [hmod _ hl, he])]
  have hlong : ∀ c, c ∈ done → 12 < c.len → brField s s.br.pos c.len = c.pattern →
      (Memory.read (tableAt s id).slot (brPeek 12 s)).bits = 13 := fun c hc hl he =>
    h.nodes.overflow _ (h.nodes.covers c hc _ (mem_nodePrefixes.2
      ⟨hl, Nat.le_refl _, by simp only; omega, by simp only; rw [← he, brField_mod s s.br.pos (by omega)]; rfl⟩))
  unfold h12Decode
  simp only
  split
  · rename_i hb
    refine ⟨fun v u hw => (nomatch hw), fun k u _ c hc he => ?_⟩
    rcases Nat.lt_or_ge 12 c.len with hl | hl
    · have := hlong c hc hl he; omega
    · have := hshort c hc hl he; have := h1 c hc; omega
  · split
    · rename_i hb0 hb
      refine ⟨fun v u hw => ?_, fun k u hw => (nomatch hw)⟩
      simp only [Res.ok.injEq] at hw
      obtain ⟨rfl, rfl⟩ := hw
      obtain ⟨c, hc, he, hm⟩ := h.leaves _ (by omega) hb
      have hcl : c.len ≤ 12 := by omega
      rw [hmod _ hcl] at hm
      refine ⟨c, hc, hm, ?_, ?_⟩
      · rw [h.leaf c hc hcl _ hx (by rw [hmod _ hcl, hm])]
      · rw [he]; rfl
    · rename_i hb0 hb
      have h13 : (Memory.read (tableAt s id).slot (brPeek 12 s)).bits = 13 := by
        have := h.bits (brPeek 12 s); omega
      obtain ⟨g1, g2⟩ := overflowWalk_labelled h.nodes (fuel := bitsLeft s + (tableAt s id).node.length + 2) (pos := s.br.pos)
        (s := brAdvance 12 s) (d := 12) (h.nodes.root _ h13) rfl
      simp only [brField_brAdvance] at g1 g2
      refine ⟨fun v u hw => ?_, fun k u hw c hc he => ?_⟩
      · obtain ⟨c, hc, -, he, hv, hu⟩ := g1 v u hw
        exact ⟨c, hc, he, hv, hu⟩
      · rcases Nat.lt_or_ge 12 c.len with hl | hl
        · exact g2 k u hw c hc hl he
        · have := hshort c hc hl he; omega

end Sys2Proof.Machine
end

