-- ==== Sys2Proof/Laws/Rows.lean ====
section
/-! SUPPORT. The 52 length rows and the 75 offset rows of method 14: each is its code's operation, and the row lists hold them in
order. -/

namespace Sys2Proof.Machine

/-- Every `M14.MATCH` row is the match of its length code. -/
theorem exec_of_matchCode {i : Instr} {c : Nat} (h : i.matchCode = some c) (s : State) : exec i s = (m14Match c s).outcome := by
  cases i <;> cases h <;> rfl

/-- Every `M14.DIST` row is the offset of its code. -/
theorem exec_of_distCode {i : Instr} {d : Nat} (h : i.distCode = some d) (s : State) : exec i s = m14Dist d s := by
  cases i <;> cases h <;> rfl

/-- The rows have no operand that could be out of range. -/
theorem wf_of_matchCode {i : Instr} {c : Nat} (h : i.matchCode = some c) : i.wf = true := by
  cases i <;> cases h <;> rfl

theorem wf_of_distCode {i : Instr} {d : Nat} (h : i.distCode = some d) : i.wf = true := by
  cases i <;> cases h <;> rfl

/-- The `c`-th length row has code `c` (R106). -/
theorem matchCode_matchRows {i : Instr} {c : Nat} (h : matchRows[c]? = some i) : i.matchCode = some c := by
  have hc : c < 52 := (List.getElem?_eq_some_iff.1 h).1
  have key : ∀ k < 52, (matchRows[k]?.bind Instr.matchCode) = some k := by decide
  simpa [h] using key c hc

/-- The `d`-th offset row has code `d` (R108). -/
theorem distCode_distRows {i : Instr} {d : Nat} (h : distRows[d]? = some i) : i.distCode = some d := by
  have hd : d < 75 := (List.getElem?_eq_some_iff.1 h).1
  have key : ∀ k < 75, (distRows[k]?.bind Instr.distCode) = some k := by decide
  simpa [h] using key d hd

end Sys2Proof.Machine
end

