-- ==== Sys2Proof/Laws/Run.lean ====
section
/-! SUPPORT. Runs of the machine, and what a step does in the cases a proof meets. -/

namespace Sys2Proof.Machine

theorem run_zero (s : State) : Host.Core.run Sys2Proof.core 0 s = .next s := rfl

/-- The first step of a run. -/
theorem run_next {s t : State} (h : step s = .next t) (n : Nat) :
    Host.Core.run Sys2Proof.core (n + 1) s = Host.Core.run Sys2Proof.core n t := by
  have h' : Sys2Proof.core.step s = .next t := h
  simp only [Host.Core.run, h']

/-- A run in two parts. -/
theorem run_add {m : Nat} {s t : State} (h : Host.Core.run Sys2Proof.core m s = .next t) (n : Nat) :
    Host.Core.run Sys2Proof.core (m + n) s = Host.Core.run Sys2Proof.core n t := by
  induction m generalizing s with
  | zero => cases h; rw [Nat.zero_add]
  | succ m ih =>
    rw [Nat.succ_add]
    simp only [Host.Core.run] at h ⊢
    cases hs : Sys2Proof.core.step s with
    | next u => rw [hs] at h; exact ih h
    | fault _ => rw [hs] at h; cases h
    | refused _ => rw [hs] at h; cases h

/-- A pending line is the next step's. -/
theorem step_cons {s : State} {e : Task} {ts : List Task} (h : s.seq = e :: ts) : step s = stepTask e (s.withSeq ts) := by
  simp only [step, h]

/-- An idle block takes the host's next command. -/
theorem step_command {s : State} {c : Cmd} {cs : List Cmd} (h : s.seq = []) (hc : s.host = c :: cs) :
    step s = perform (commandInstr c) (s.withHost cs) := by
  simp only [step, h, hc]

/-- An idle block with no command waits. -/
theorem step_idle {s : State} (h : s.seq = []) (hc : s.host = []) : step s = .next s := by
  simp only [step, h, hc]

/-- An instruction with legal operands is performed. -/
theorem perform_of_wf {i : Instr} (h : i.wf = true) (s : State) : perform i s = exec i s := by
  simp only [perform, h, if_true]

/-- A fetch that answers a word of its format performs the instruction it is. -/
theorem fetchPerform_of_decode {f : Format} {w : Raw} {i : Instr} {s t : State} (hf : fetchRaw f s = .ok w t)
    (hd : decode f w = .ok i) : fetchPerform f s = perform i t := by
  simp only [fetchPerform, hf, hd]

end Sys2Proof.Machine
end

