-- ==== Sys2Proof/Tests/Slice0.lean ====
section
/-! SUPPORT. The author's tests: terms that WellFormed refuses, words written out from the spec's encodings, single steps with the
results that 95_test_vectors.md or a hand calculation gives, and for every statement with hypotheses a state that meets
them. -/

namespace Sys2Proof.Tests

open Sys2Proof Sys2Proof.Machine

set_option Elab.async false

/-! ## Helpers -/

/-- A look at the next state, if there is one. -/
def after {α : Type} (o : Host.Outcome State Fault Refusal) (f : State → α) : Option α :=
  match o with
  | .next t => some (f t)
  | _ => none

/-- The reason of a refusal, if it is one. -/
def refusal (o : Host.Outcome State Fault Refusal) : Option Refusal :=
  match o with
  | .refused r => some r
  | _ => none

/-- The test ROM of 95_test_vectors.md (37 six-bit codes), static profiles whose trees are empty, and the other parameters at their
defaults. -/
def testParams : Config.Params where
  romMeta := some ((List.range 37).map fun s => { sym := s, pattern := s, len := 6 })
  romStatic := some (List.replicate 5 (List.replicate 658 0))
  romStaticBits := some [11, 12, 13, 14, 14]
  lenOfSym := Config.defaults.lenOfSym
  poolSlots := 3608
  nestMax := 1
  dupPolicy := .refuse
  errCode := Config.defaults.errCode

/-- The machine after reset with the test parameters. -/
def boot : State := { State.reset with par := testParams }

/-- A machine whose BitReader is at the start of a payload, with room for `size` bytes of output. -/
def reading (bs : Bytes) (size : Nat) : State :=
  { boot with
    src := Memory.ofBytes 0 bs
    h := { valid := true, flatten := false, size := bs.length }
    br := { base := 0, len := bs.length, pos := 0 }
    out := { size := size, cnt := 0 } }

/-- An archive handle on a stream that is only `hello\n`, with one entry `README`: scenario S1's file with its payload at 0. -/
def oneFile : State :=
  { boot with
    src := Memory.ofBytes 0 [0x68#8, 0x65#8, 0x6C#8, 0x6C#8, 0x6F#8, 0x0A#8]
    h := { valid := true, flatten := false, size := 6 }
    idx :=
      { entries := [
          { key := [0x72#8, 0x65#8, 0x61#8, 0x64#8, 0x6D#8, 0x65#8]
            path := [0x52#8, 0x45#8, 0x41#8, 0x44#8, 0x4D#8, 0x45#8]
            dataFork := { usize := 6, csize := 6, offset := 0, crc := 0x5A34, compression := 0 }
            resFork := { usize := 0, csize := 0, offset := 0, crc := 0, compression := 0 } }]
        metadata := [
          { key := [0x72#8, 0x65#8, 0x61#8, 0x64#8, 0x6D#8, 0x65#8], info := List.replicate 16 0#8 }] } }

/-- The name `README`. -/
def readme : Bytes := [0x52#8, 0x45#8, 0x41#8, 0x44#8, 0x4D#8, 0x45#8]

/-- The entry of `oneFile`. -/
def readmeEntry : Entry where
  key := [0x72#8, 0x65#8, 0x61#8, 0x64#8, 0x6D#8, 0x65#8]
  path := readme
  dataFork := { usize := 6, csize := 6, offset := 0, crc := 0x5A34, compression := 0 }
  resFork := { usize := 0, csize := 0, offset := 0, crc := 0, compression := 0 }

/-- An entry header of zeros but for its name length, its data compression byte and its CRC field. -/
def header (compression nameLen : Byte) (hi lo : Byte) : Bytes :=
  [0#8, compression, nameLen] ++ List.replicate 107 0#8 ++ [hi, lo]

/-- The record of such a header. -/
def entry (compression nameLen : Byte) : EntHdr := entOfBytes (header compression nameLen 0 0)

/-- A machine about to fetch an entry header at position 0. -/
def atHeader (bs : Bytes) : State :=
  { boot with src := Memory.ofBytes 0 bs, h := { valid := false, flatten := false, size := bs.length } }

/-! ## What WellFormed refuses -/

theorem test_wf_folder_start : (Instr.entFolderStart (entry 0x21 1)).wf = false := by decide
theorem test_wf_folder_end : (Instr.entFolderEnd (entry 0x20 1)).wf = false := by decide
theorem test_wf_file : (Instr.entFile (entry 0xA0 1)).wf = false ∧ (Instr.entFile (entry 0xB1 1)).wf = false := by decide
theorem test_wf_name_area : (Instr.entFile { entry 0 1 with nameArea := [] }).wf = false := by decide
theorem test_wf_encrypted : (Instr.cmprEncrypted 0x0D).wf = false := by decide
theorem test_wf_unsupported : (Instr.cmprUnsupported 0x0D).wf = false ∧ (Instr.cmprUnsupported 0x15).wf = false := by decide
theorem test_wf_illegal_ctrl : (Instr.m13CtrlIllegal 0x5F).wf = false := by decide
theorem test_wf_m13_len : (Instr.m13Len 0x0FF).wf = false ∧ (Instr.m13Len 0x13E).wf = false := by decide
theorem test_wf_lv_value : (Instr.lvValue 0).wf = false := by decide
theorem test_wf_br_init : (Instr.brInit (2 ^ 64) 0).wf = false ∧ (Instr.brInit 0 (2 ^ 32)).wf = false := by decide
theorem test_wf_br_peek : (Instr.brPeek 0).wf = false ∧ (Instr.brPeek 17).wf = false := by decide
theorem test_wf_br_take : (Instr.brTake 17).wf = false := by decide
theorem test_wf_br_readbits : (Instr.brReadBits 33).wf = false := by decide
theorem test_wf_h12_build : (Instr.h12Build .tl 2 [1]).wf = false ∧ (Instr.h12Build .tl 322 (List.replicate 322 0)).wf = false := by
  decide +kernel
theorem test_wf_h12_buildx : (Instr.h12Buildx .tl [{ sym := 0, pattern := 2, len := 1 }]).wf = false := by decide
theorem test_wf_out_copy : (Instr.outCopy 0 1).wf = false ∧ (Instr.outCopy 1 0).wf = false := by decide
theorem test_wf_cp_key : (Instr.cpKey (List.replicate 32 0)).wf = false := by decide
theorem test_wf_cp_insert : (Instr.cpInsert [] [] ForkDesc.reset ForkDesc.reset []).wf = false := by decide
theorem test_wf_m13_readlengths : (Instr.m13ReadLengths 9).wf = false ∧ (Instr.m13ReadLengths 18).wf = false := by decide
theorem test_wf_m13_emitlen : (Instr.m13EmitLen 320).wf = false := by decide
theorem test_wf_m14_readlengths : (Instr.m14ReadLengths 307 0).wf = false := by decide

/-- An operand outside its range is not performed (log 19). -/
theorem test_illegal_call : refusal (step { boot with seq := [.op (.brPeek 0)] }) = some .illegalCall := by decide

/-! ## Words written out from the encoding tables -/

/-- The words of R106 for the length codes, 256 + c. Part 1. -/
def matchWords1 : List (Nat × Instr) :=
  [(0x100, .m14MatchC0), (0x101, .m14MatchC1), (0x102, .m14MatchC2), (0x103, .m14MatchC3), (0x104, .m14MatchC4), (0x105, .m14MatchC5), (0x106,
   .m14MatchC6), (0x107, .m14MatchC7), (0x108, .m14MatchC8), (0x109, .m14MatchC9), (0x10A, .m14MatchC10), (0x10B, .m14MatchC11), (0x10C,
   .m14MatchC12), (0x10D, .m14MatchC13), (0x10E, .m14MatchC14), (0x10F, .m14MatchC15), (0x110, .m14MatchC16), (0x111, .m14MatchC17), (0x112,
   .m14MatchC18), (0x113, .m14MatchC19), (0x114, .m14MatchC20), (0x115, .m14MatchC21), (0x116, .m14MatchC22), (0x117, .m14MatchC23), (0x118,
   .m14MatchC24), (0x119, .m14MatchC25)]

/-- The words of R106 for the length codes, 256 + c. Part 2. -/
def matchWords2 : List (Nat × Instr) :=
  [(0x11A, .m14MatchC26), (0x11B, .m14MatchC27), (0x11C, .m14MatchC28), (0x11D, .m14MatchC29), (0x11E, .m14MatchC30), (0x11F, .m14MatchC31), (0x120,
   .m14MatchC32), (0x121, .m14MatchC33), (0x122, .m14MatchC34), (0x123, .m14MatchC35), (0x124, .m14MatchC36), (0x125, .m14MatchC37), (0x126,
   .m14MatchC38), (0x127, .m14MatchC39), (0x128, .m14MatchC40), (0x129, .m14MatchC41), (0x12A, .m14MatchC42), (0x12B, .m14MatchC43), (0x12C,
   .m14MatchC44), (0x12D, .m14MatchC45), (0x12E, .m14MatchC46), (0x12F, .m14MatchC47), (0x130, .m14MatchC48), (0x131, .m14MatchC49), (0x132,
   .m14MatchC50), (0x133, .m14MatchC51)]

/-- The words of R108 for the offset codes. Part 1. -/
def distWords1 : List (Nat × Instr) :=
  [(0x00, .m14DistD0), (0x01, .m14DistD1), (0x02, .m14DistD2), (0x03, .m14DistD3), (0x04, .m14DistD4), (0x05, .m14DistD5), (0x06, .m14DistD6), (0x07,
   .m14DistD7), (0x08, .m14DistD8), (0x09, .m14DistD9), (0x0A, .m14DistD10), (0x0B, .m14DistD11), (0x0C, .m14DistD12), (0x0D, .m14DistD13), (0x0E,
   .m14DistD14), (0x0F, .m14DistD15), (0x10, .m14DistD16), (0x11, .m14DistD17), (0x12, .m14DistD18), (0x13, .m14DistD19), (0x14, .m14DistD20), (0x15,
   .m14DistD21), (0x16, .m14DistD22), (0x17, .m14DistD23), (0x18, .m14DistD24), (0x19, .m14DistD25)]

/-- The words of R108 for the offset codes. Part 2. -/
def distWords2 : List (Nat × Instr) :=
  [(0x1A, .m14DistD26), (0x1B, .m14DistD27), (0x1C, .m14DistD28), (0x1D, .m14DistD29), (0x1E, .m14DistD30), (0x1F, .m14DistD31), (0x20, .m14DistD32),
   (0x21, .m14DistD33), (0x22, .m14DistD34), (0x23, .m14DistD35), (0x24, .m14DistD36), (0x25, .m14DistD37), (0x26, .m14DistD38), (0x27, .m14DistD39),
   (0x28, .m14DistD40), (0x29, .m14DistD41), (0x2A, .m14DistD42), (0x2B, .m14DistD43), (0x2C, .m14DistD44), (0x2D, .m14DistD45), (0x2E, .m14DistD46),
   (0x2F, .m14DistD47), (0x30, .m14DistD48), (0x31, .m14DistD49), (0x32, .m14DistD50), (0x33, .m14DistD51)]

/-- The words of R108 for the offset codes. Part 3. -/
def distWords3 : List (Nat × Instr) :=
  [(0x34, .m14DistD52), (0x35, .m14DistD53), (0x36, .m14DistD54), (0x37, .m14DistD55), (0x38, .m14DistD56), (0x39, .m14DistD57), (0x3A, .m14DistD58),
   (0x3B, .m14DistD59), (0x3C, .m14DistD60), (0x3D, .m14DistD61), (0x3E, .m14DistD62), (0x3F, .m14DistD63), (0x40, .m14DistD64), (0x41, .m14DistD65),
   (0x42, .m14DistD66), (0x43, .m14DistD67), (0x44, .m14DistD68), (0x45, .m14DistD69), (0x46, .m14DistD70), (0x47, .m14DistD71), (0x48, .m14DistD72),
   (0x49, .m14DistD73), (0x4A, .m14DistD74)]

/-- Each word is the instruction beside it, in its format. -/
def reads (f : Format) (ws : List (Nat × Instr)) : Bool := ws.all fun p => (decode f (.num p.1)).toOption == some p.2

theorem test_decode_m14_match : reads .m14Sym (matchWords1 ++ matchWords2) = true := by decide +kernel

theorem test_decode_m14_dist : reads .m14Dist (distWords1 ++ distWords2 ++ distWords3) = true := by decide +kernel

/-- The nine primary magics in ASCII, and `rLau` (R95). -/
theorem test_decode_magic :
    reads .magic1 [(0x53495421, .magicSit), (0x53543635, .magicSt65), (0x53543530, .magicSt50), (0x53543630, .magicSt60),
      (0x5354696E, .magicStin), (0x53546932, .magicSti2), (0x53546933, .magicSti3), (0x53546934, .magicSti4),
      (0x53543436, .magicSt46), (0x5A495021, .magicOther 0x5A495021), (0x724C6175, .magicOther 0x724C6175)] = true
    ∧ reads .magic2 [(0x724C6175, .magicRLau), (0x53495421, .magicOther 0x53495421)] = true := by decide +kernel

/-- Scenario S1's archive header (P1a): size 0x8C, version 1 (R96). -/
theorem test_decode_arch :
    decode .arch (.bytes [0x53, 0x49, 0x54, 0x21, 0x00, 0x01, 0x00, 0x00, 0x00, 0x8C, 0x72, 0x4C, 0x61, 0x75, 0x01,
        0, 0, 0, 0, 0, 0, 0])
      = .ok (.arch { magic := 0x53495421, count := 1, asize := 140, magic2 := 0x724C6175, version := 1, reserved := 0 }) := by
  rfl

/-- An entry header whose byte `k` is `k`, each field at the offset R97 gives it: byte 1 is 01, a file. -/
theorem test_decode_entry :
    decode .ent (.bytes ((List.range 112).map (BitVec.ofNat 8)))
      = .ok (.entFile {
          resCompr := 0x00, dataCompr := 0x01, nameLen := 0x02, nameArea := (List.range 63).map fun k => BitVec.ofNat 8 (k + 3)
          finderType := 0x42434445, finderCreator := 0x46474849, finderFlags := 0x4A4B, cdate := 0x4C4D4E4F
          mdate := 0x50515253, resUsize := 0x54555657, dataUsize := 0x58595A5B, resCsize := 0x5C5D5E5F
          dataCsize := 0x60616263, resCrc := 0x6465, dataCrc := 0x6667, unknown := 0x68696A6B6C6D, headerCrc := 0x6E6F }) := by
  rfl

/-- Encoding that header gives the same bytes back. -/
theorem test_encode_entry :
    encode .ent (.entFile (entOfBytes ((List.range 112).map (BitVec.ofNat 8))))
      = some (.bytes ((List.range 112).map (BitVec.ofNat 8))) := by decide +kernel

/-- The folder markers of P1b and V-C8, encryption flags stripped (R41, R92). -/
theorem test_decode_markers :
    (decode .ent (.bytes (header 0x20 1 0 0))).toOption = some (.entFolderStart (entry 0x20 1))
    ∧ (decode .ent (.bytes (header 0xB0 1 0 0))).toOption = some (.entFolderStart (entry 0xB0 1))
    ∧ (decode .ent (.bytes (header 0x21 1 0 0))).toOption = some (.entFolderEnd (entry 0x21 1))
    ∧ (decode .ent (.bytes (header 0xB1 1 0 0))).toOption = some (.entFolderEnd (entry 0xB1 1))
    ∧ (decode .ent (.bytes (header 0x8D 1 0 0))).toOption = some (.entFile (entry 0x8D 1)) := by decide +kernel

/-- The compression bytes of R92 and V-F8. -/
theorem test_decode_cmpr :
    reads .cmpr [(0x00, .cmprM0), (0x0D, .cmprM13), (0x0E, .cmprM14), (0x8D, .cmprEncrypted 0x8D), (0x1D, .cmprEncrypted 0x1D),
      (0x2D, .cmprEncrypted 0x2D), (0x85, .cmprEncrypted 0x85), (0x05, .cmprUnsupported 5), (0x0F, .cmprUnsupported 15)] = true := by
  decide +kernel

/-- The control bytes of 2.4: high nibble 0 dynamic, 1 to 5 a profile, more illegal (R93). -/
theorem test_decode_m13_ctrl :
    reads .m13Ctrl [(0x08, .m13CtrlDynamic true 0), (0x07, .m13CtrlDynamic false 7), (0x10, .m13CtrlStatic0 0),
      (0x2A, .m13CtrlStatic1 10), (0x35, .m13CtrlStatic2 5), (0x4F, .m13CtrlStatic3 15), (0x5F, .m13CtrlStatic4 15),
      (0x60, .m13CtrlIllegal 0x60), (0xFF, .m13CtrlIllegal 0xFF)] = true := by decide +kernel

/-- The symbols of R102. -/
theorem test_decode_m13_sym :
    reads .m13Sym [(0x000, .m13Lit 0), (0x061, .m13Lit 0x61), (0x0FF, .m13Lit 0xFF), (0x100, .m13Len 0x100), (0x13D, .m13Len 0x13D),
      (0x13E, .m13Med), (0x13F, .m13Long), (0x140, .m13Eos)] = true := by decide +kernel

/-- The meta symbols of R105 and the offset prefixes of R104. -/
theorem test_decode_meta_ofs :
    reads .m13Meta [(0, .metaSet 0), (30, .metaSet 30), (31, .metaAbsent), (32, .metaInc), (33, .metaDec), (34, .metaRep1),
      (35, .metaRep3), (36, .metaRep6)] = true
    ∧ reads .m13Ofs [(0, .m13Ofs 0), (16, .m13Ofs 16)] = true := by decide +kernel

/-- The tree headers of 2.5 (R94). -/
theorem test_decode_m14_hdr :
    reads .m14Hdr [(0x00, .m14Hdr false 0 0 0), (0x04, .m14Hdr false 2 0 0), (0x44, .m14Hdr false 2 0 1), (0x05, .m14Hdr true 2 0 0),
      (0x3F, .m14Hdr true 3 7 0), (0x84, .m14Hdr false 2 0 2)] = true := by decide +kernel

/-- Codelength values under the marker 15 and under the marker 14 (V-L1, V-L5), and the literals of R106. -/
theorem test_decode_len_val :
    reads (.m14LenVal 15) [(0, .lvZero), (1, .lvValue 1), (15, .lvRepeat), (14, .lvValue 14)] = true
    ∧ reads (.m14LenVal 14) [(14, .lvRepeat), (15, .lvValue 15)] = true
    ∧ reads .m14Sym [(0x00, .m14Lit 0), (0xFF, .m14Lit 0xFF)] = true := by decide +kernel

/-- Symbols outside their alphabets, and words of the wrong width or shape, are rejected by name. -/
theorem test_decode_rejects :
    decode .m13Sym (.num 0x141) = .error .undefinedSymbol ∧ decode .m13Meta (.num 37) = .error .undefinedSymbol
    ∧ decode .m13Ofs (.num 17) = .error .undefinedSymbol ∧ decode .m14Sym (.num 308) = .error .undefinedSymbol
    ∧ decode .m14Dist (.num 75) = .error .undefinedSymbol ∧ decode .cmpr (.num 256) = .error .wrongWidth
    ∧ decode .ent (.bytes []) = .error .wrongWidth ∧ decode .ent (.num 0) = .error .wrongShape := ⟨rfl, rfl, rfl, rfl, rfl, rfl, rfl, rfl⟩

/-- Words of the opcode table as the host numbers them (log 14). -/
theorem test_table_words :
    decodeTableWord 32 0x53495421 = some .magicSit ∧ decodeTableWord 32 0x724C6175 = some .magicRLau
    ∧ decodeTableWord 16 0x133 = some .m14MatchC51 ∧ decodeTableWord 16 0x140 = some .m13Eos
    ∧ decodeTableWord 8 0x4A = some .m14DistD74 ∧ decodeTableWord 8 0x50 = some (.m13CtrlStatic4 0) := by decide +kernel

/-- The word placed for the next fetch is the word run: a primary magic, an offset row and the end symbol. -/
theorem test_fetch_word :
    after (step (State.reset.withFetchWord 32 0x53495421)) (fun t => (t.seq, t.st.err)) = some ([], .ok)
    ∧ after (step (State.reset.withFetchWord 8 0x4A)) (fun t => (t.ret, t.br.pos)) = some (.num 917504, 18)
    ∧ after (step (State.reset.withFetchWord 16 0x140)) (fun t => (t.br.pos, t.st.err)) = some (1, .ok) := by decide +kernel

/-! ## Single steps with the spec's results -/

/-- V-B1, V-B4, V-B6 and V-B7: peeks, takes and wide reads. -/
theorem test_reader :
    after (exec (.brPeek 3) (reading [0xB5, 0x01] 0)) (fun t => (t.ret, t.br.pos)) = some (.num 5, 0)
    ∧ after (exec (.brTake 3) (reading [0xB5, 0x01] 0)) (fun t => (t.ret, t.br.pos)) = some (.num 5, 3)
    ∧ after (exec (.brReadBits 32) (brAdvance 24 (reading [0xFF, 0x00, 0x80, 0x12, 0x34, 0x56, 0x78] 0)))
        (fun t => (t.ret, t.br.pos)) = some (.num 0x78563412, 56)
    ∧ after (exec (.brReadBits 17) (brAdvance 3 (reading [0xFF, 0xFF, 0xFF] 0))) (fun t => (t.ret, t.br.pos))
        = some (.num 0x1FFFF, 20)
    ∧ after (exec (.brTake 8) (reading [] 0)) (fun t => (t.ret, t.br.pos)) = some (.num 0, 8) := by decide +kernel

/-- V-B7, V-B8 and the examples of R131, R135 and R136. -/
theorem test_reader_position :
    after (exec .brTake1 (reading [0x02] 0)) (fun t => (t.ret, t.br.pos)) = some (.num 0, 1)
    ∧ after (exec .brAlign (brAdvance 12 (reading [0xB5, 0x01] 0))) (fun t => t.br.pos) = some 16
    ∧ after (exec .brAlign (reading [0x01] 0)) (fun t => t.br.pos) = some 0
    ∧ after (exec .brEos (brAdvance 12 (reading [0xB5, 0x01] 0))) (fun t => t.ret) = some (.flag false)
    ∧ after (exec .brEos (reading [] 0)) (fun t => t.ret) = some (.flag true)
    ∧ after (exec (.brInit 134 24) boot) (fun t => (t.br.base, t.br.len, t.br.pos)) = some (134, 24, 0) := by decide +kernel

/-- The check values of R155 and R152. -/
theorem test_crc :
    after (exec .crcInit { boot with crc := 1 }) (fun t => t.crc) = some 0
    ∧ after (exec (.crcUpdate 0x01) boot) (fun t => t.crc) = some 0xC0C1
    ∧ after (exec (.crcUpdate 0xFF) boot) (fun t => t.crc) = some 0x4040
    ∧ after (exec (.crcRange .src 0 9) (reading [0x31, 0x32, 0x33, 0x34, 0x35, 0x36, 0x37, 0x38, 0x39] 0)) (fun t => t.ret)
        = some (.num 0xBB3D)
    ∧ after (exec (.crcRange .src 0 4) (reading [0x44, 0x41, 0x54, 0x41] 0)) (fun t => t.ret) = some (.num 0x14BA)
    ∧ after (exec (.crcRange .win 65535 0) boot) (fun t => t.ret) = some (.num 0) := by decide +kernel

/-- `CRC.VERIFY` of `x` (0x2200): right, and wrong. -/
theorem test_crc_verify :
    after (exec (.crcVerify { ForkDesc.reset with crc := 0x2200 }) { boot with outMem := [(0, 0x78)], out := { size := 1, cnt := 1 } })
      (fun t => t.st.err) = some .ok
    ∧ after (exec (.crcVerify { ForkDesc.reset with crc := 0x2201 })
        { boot with outMem := [(0, 0x78)], out := { size := 1, cnt := 1 } }) (fun t => t.st.err) = some .payloadCrcMismatch := by
  decide +kernel

/-- The codes of V-H1, most significant bit first `10`, `0`, `110`, `111`, in stream order; V-H4 is over-subscribed. -/
theorem test_canonical_codes :
    canonicalCodes [2, 1, 3, 3, 0] = some [{ sym := 1, pattern := 0, len := 1 }, { sym := 0, pattern := 1, len := 2 },
      { sym := 2, pattern := 3, len := 3 }, { sym := 3, pattern := 7, len := 3 }]
    ∧ canonicalCodes [1, 1, 1] = none := by decide +kernel

/-- Two codes of 13 bits share the 12 zeros before their last bit: a root and two leaves (R164). -/
theorem test_build_long_codes :
    after (exec (.h12Build .tl 2 [13, 13]) boot) (fun t => (t.m14.tl.slot, t.m14.tl.node, t.m14.tl.nnodes))
      = some ([(0, { value := 0, bits := 13 })],
          [(0, { zeroChild := some 1, oneChild := some 2, symbol := none }),
           (1, { zeroChild := none, oneChild := none, symbol := some 0 }),
           (2, { zeroChild := none, oneChild := none, symbol := some 1 })], 3) := by decide +kernel

/-- V-H4, V-H7, V-H6 and a pool that is too small (V-H9). -/
theorem test_build_faults :
    after (exec (.h12Build .tl 3 [1, 1, 1]) boot) (fun t => t.st.err) = some .corruptStream
    ∧ after (exec (.h12Build .tl 1 [33]) boot) (fun t => t.st.err) = some .corruptStream
    ∧ after (exec (.h12Build .tl 2 [0, 0]) boot) (fun t => (t.st.err, t.m14.tl)) = some (.ok, Table.empty)
    ∧ after (exec (.h12Build .tl 2 [13, 13]) { boot with par := { testParams with poolSlots := 2 } }) (fun t => t.st.err)
        = some .corruptStream := by decide +kernel

/-- An explicit code of 12 bits, and one that is no prefix code. -/
theorem test_buildx :
    after (exec (.h12Buildx .tMeta [{ sym := 5, pattern := 0x801, len := 12 }]) boot) (fun t => t.m13.tMeta.slot)
      = some [(0x801, { value := 5, bits := 12 })]
    ∧ refusal (exec (.h12Buildx .tMeta [{ sym := 0, pattern := 0, len := 1 }, { sym := 1, pattern := 2, len := 2 }]) boot)
      = some .badRom := by decide +kernel

/-- The walk of R167 through the table of `test_build_long_codes`: 12 zeros and a 1 are symbol 1; a code that is none is
`CorruptStream`. -/
theorem test_h12_decode :
    (buildTable 3608 [13, 13]).bind (fun v => after (exec (.h12Decode .tl) (withTable (reading [0x00, 0x10] 0) .tl v))
      fun t => (t.ret, t.br.pos)) = some (.num 1, 13)
    ∧ (buildTable 3608 [13, 13]).bind (fun v => after (exec (.h12Decode .tl) (withTable (reading [0x01, 0x00] 0) .tl v))
      fun t => t.st.err) = some .corruptStream := by decide +kernel

/-- The first literal of a read (R308), and a copy that repeats `a b` (R76, R309). -/
theorem test_output :
    after (exec (.outEmit 0x61) (reading [] 1)) (fun t => (t.outMem, t.win, t.m13.wp, t.out.cnt))
      = some ([(0, 0x61)], [(0, 0x61)], 1, 1)
    ∧ after (exec (.outCopy 6 2) { reading [] 8 with
        win := [(0, 0x61), (1, 0x62)], outMem := [(0, 0x61), (1, 0x62)], out := { size := 8, cnt := 2 }
        m13 := { M13.reset with wp := 2 } }) (fun t => Memory.slice t.outMem 0 8)
      = some [0x61, 0x62, 0x61, 0x62, 0x61, 0x62, 0x61, 0x62]
    ∧ after (exec (.outEmit 0x61) (reading [] 0)) (fun t => t.st.err) = some .corruptStream := by decide +kernel

/-- V-O1: at offset 262144 method 14 reads the byte at the write position, at 262145 the one before it. -/
theorem test_window_wrap :
    after (exec (.outCopy 1 262144) { reading [] 1 with dec := .m14, win := [(4, 9), (5, 7)], m14 := { M14.reset with wp := 5 } })
      (fun t => t.outMem) = some [(0, 7)]
    ∧ after (exec (.outCopy 1 262145) { reading [] 1 with dec := .m14, win := [(4, 9), (5, 7)], m14 := { M14.reset with wp := 5 } })
      (fun t => t.outMem) = some [(0, 9)] := by decide +kernel

/-- Scenario S1's stored fork, and V-F5's sizes. -/
theorem test_m0 :
    after (exec (.m0Copy readmeEntry.dataFork) { oneFile with out := { size := 6, cnt := 0 } })
      (fun t => (Memory.slice t.outMem 0 6, t.out.cnt)) = some ([0x68, 0x65, 0x6C, 0x6C, 0x6F, 0x0A], 6)
    ∧ after (exec (.m0Copy { readmeEntry.dataFork with csize := 5 }) oneFile) (fun t => t.st.err) = some .corruptStream
    ∧ after (exec .cmprM0 { oneFile with fork := readmeEntry.dataFork, out := { size := 6, cnt := 0 } }) (fun t => t.out.cnt) = some 6 := by
  decide +kernel

/-- V-M1 to V-M4: the meta instructions that set the current length, from 2. -/
theorem test_meta_current :
    after (exec (.metaSet 3) { boot with m13 := { M13.reset with cur := 2 } }) (fun t => t.m13.cur) = some 4
    ∧ after (exec .metaAbsent { boot with m13 := { M13.reset with cur := 2 } }) (fun t => t.m13.cur) = some (-1)
    ∧ after (exec .metaInc { boot with m13 := { M13.reset with cur := 2 } }) (fun t => t.m13.cur) = some 3
    ∧ after (exec .metaDec { boot with m13 := { M13.reset with cur := 2 } }) (fun t => t.m13.cur) = some 1 := by decide +kernel

/-- A method-13 length sequence of 321 at index 5 with length 2, before extra bits (2.4). -/
def atIndex5 (extra : Byte) : State := { reading [extra] 0 with m13 := { M13.reset with cur := 2, idx := 5, n := 321 } }

/-- V-M5 to V-M9 before the base emission: no, one, seven, ten and seventy-three more. -/
theorem test_meta_repeats :
    after (exec .metaRep1 (atIndex5 0)) (fun t => (t.m13.idx, t.br.pos)) = some (5, 1)
    ∧ after (exec .metaRep1 (atIndex5 1)) (fun t => (t.m13.lens, t.m13.idx)) = some ([(5, 2)], 6)
    ∧ after (exec .metaRep3 (atIndex5 5)) (fun t => (t.m13.idx, t.br.pos)) = some (12, 3)
    ∧ after (exec .metaRep6 (atIndex5 0)) (fun t => (t.m13.idx, t.br.pos)) = some (15, 6)
    ∧ after (exec .metaRep6 (atIndex5 63)) (fun t => (Memory.slice t.m13.lens 76 4, t.m13.idx)) = some ([2, 2, 0, 0], 78) := by
  decide +kernel

/-- The emission of 2.4's corner vectors: -2 is written 0, 33 is a fault, an index at the end is a fault. -/
theorem test_emit_len :
    after (exec (.m13EmitLen 321) (atIndex5 0)) (fun t => (t.m13.lens, t.m13.idx)) = some ([(5, 2)], 6)
    ∧ after (exec (.m13EmitLen 321) { boot with m13 := { M13.reset with cur := -2, lens := [(0, 7)] } }) (fun t => (t.m13.lens, t.m13.idx))
        = some ([], 1)
    ∧ after (exec (.m13EmitLen 321) { boot with m13 := { M13.reset with cur := 33 } }) (fun t => t.st.err) = some .corruptStream
    ∧ after (exec (.m13EmitLen 10) { boot with m13 := { M13.reset with idx := 10 } }) (fun t => t.st.err) = some .corruptStream := by
  decide +kernel

/-- The offsets of 2.4's table: prefix 0, 1, 2 with a 1, 5 with value 5, 16 with fifteen ones. -/
theorem test_m13_ofs :
    after (exec (.m13Ofs 0) (reading [0xFF, 0xFF] 0)) (fun t => (t.ret, t.br.pos)) = some (.num 1, 0)
    ∧ after (exec (.m13Ofs 1) (reading [0xFF, 0xFF] 0)) (fun t => (t.ret, t.br.pos)) = some (.num 2, 0)
    ∧ after (exec (.m13Ofs 2) (reading [0xFF, 0xFF] 0)) (fun t => (t.ret, t.br.pos)) = some (.num 4, 1)
    ∧ after (exec (.m13Ofs 5) (reading [0x05] 0)) (fun t => (t.ret, t.br.pos)) = some (.num 22, 4)
    ∧ after (exec (.m13Ofs 16) (reading [0xFF, 0xFF] 0)) (fun t => (t.ret, t.br.pos)) = some (.num 65536, 15) := by decide +kernel

/-- A machine in method 13 whose offset tree's one code, a zero, is prefix `v`. -/
def inM13 (v : Nat) (bs : Bytes) (size : Nat) : State :=
  withTable { reading bs size with win := [(65535, 0x62)], m13 := { M13.reset with active := .second } } .tOfs (oneCodeTable v)

/-- A literal selects the first tree; a match of length 3 at offset 1 repeats the byte before the write position and selects the
second; `M13.MED` with ten zeros is 65 long; `M13.EOS` leaves the loop. -/
theorem test_m13_stream :
    after (exec (.m13Lit 0x61) (inM13 0 [] 1)) (fun t => (t.outMem, t.m13.active)) = some ([(0, 0x61)], .first)
    ∧ after (exec (.m13Len 0x100) (inM13 0 [] 3)) (fun t => (t.outMem, t.m13.active, t.br.pos))
        = some ([(0, 0x62), (1, 0x62), (2, 0x62)], .second, 1)
    ∧ after (exec .m13Med (inM13 0 [] 65)) (fun t => (t.out.cnt, t.m13.wp, t.br.pos)) = some (65, 65, 11)
    ∧ after (exec .m13Long (inM13 0 [] 65)) (fun t => (t.out.cnt, t.br.pos)) = some (65, 16)
    ∧ after (exec .m13Eos { boot with seq := [.m13Loop, .m13End] }) (fun t => t.seq) = some [.m13End] := by decide +kernel

/-- P2a's control byte: dynamic, the second tree copied, ten offset lengths. -/
theorem test_m13_start :
    after (exec .m13Start (reading [0x08] 1)) (fun t => (t.m13.ctrl, t.br.pos, t.seq)) = some (0x08, 8, [.fetch .m13Ctrl, .m13Begin])
    ∧ after (exec (.m13CtrlIllegal 0x60) (reading [0x60] 1)) (fun t => t.st.err) = some .corruptStream
    ∧ after (exec .m13Run (reading [] 1)) (fun t => t.seq) = some [.m13Loop, .m13End]
    ∧ after (exec (.m13ReadLengths 321) (atIndex5 0)) (fun t => (t.m13.cur, t.m13.idx, t.m13.n, t.seq)) = some (0, 0, 321, [.metaLoop])
    ∧ after (exec .cmprM13 { boot with dec := .m14 }) (fun t => (t.dec, t.seq)) = some (.m13, [.op .m13Start]) := by decide +kernel

/-- V-F14: without ROM both modes are refused by name, and so is a ROM that is not of R9's form. -/
theorem test_no_rom :
    refusal (exec (.m13CtrlDynamic true 0) { boot with par := { testParams with romMeta := none } }) = some .noRom
    ∧ refusal (exec .m13Dynamic { boot with par := { testParams with romMeta := none } }) = some .noRom
    ∧ refusal (exec (.m13Static 0) { boot with par := { testParams with romStatic := none } }) = some .noRom
    ∧ refusal (exec (.m13CtrlStatic4 0) { boot with par := { testParams with romStaticBits := none } }) = some .noRom
    ∧ refusal (exec (.m13Static 0) { boot with par := { testParams with romStatic := some [33 :: List.replicate 657 0] } }) = some .badRom
    ∧ refusal (exec (.m13CtrlDynamic true 0) { boot with par := { testParams with
        romMeta := some ((List.range 37).map fun s => { sym := s + 1, pattern := s, len := 6 }) } }) = some .badRom := by
  decide +kernel

/-- The tree headers 05 and 3F of 2.5: `W`, `m`, `bias`, `R` and the mode. -/
theorem test_m14_hdr :
    after (exec (.m14Hdr true 2 0 0) boot) (fun t => let l := levelAt t 0; (l.w, l.m, l.bias, l.r, l.nested)) = some (4, 15, 1, 14, false)
    ∧ after (exec (.m14Hdr true 3 7 0) boot) (fun t => let l := levelAt t 0; (l.w, l.m, l.bias, l.r, l.nested))
        = some (5, 31, 8, 30, false)
    ∧ after (exec (.m14Hdr false 2 0 1) boot) (fun t => let l := levelAt t 0; (l.w, l.r, l.nested)) = some (4, 15, true) := by
  decide +kernel

/-- A raw length sequence of 8 at index `i` whose last length is 3, bias 1, `W` 4 (header 04 of 2.5). -/
def inLengths (i : Nat) (bs : Bytes) : State :=
  withLevel (reading bs 0) 0 { (default : Level) with w := 4, m := 15, bias := 1, r := 15, n := 8, i := i, lens := [(2, 3)] }

/-- V-L1's values: a zero, a 2 plus the bias, a repeat of the 3 at index 2 three times; V-L2, V-L3 and V-L6's faults. -/
theorem test_lv :
    after (exec .lvZero (inLengths 2 [])) (fun t => ((levelAt t 0).lens, (levelAt t 0).i)) = some ([], 3)
    ∧ after (exec (.lvValue 2) (inLengths 0 [])) (fun t => ((levelAt t 0).lens, (levelAt t 0).i)) = some ([(0, 3), (2, 3)], 1)
    ∧ after (exec .lvRepeat (inLengths 3 [0x00])) (fun t => ((levelAt t 0).lens, (levelAt t 0).i, t.br.pos))
        = some ([(2, 3), (3, 3), (4, 3), (5, 3)], 6, 4)
    ∧ after (exec .lvRepeat (inLengths 0 [0x00])) (fun t => t.st.err) = some .corruptStream
    ∧ after (exec .lvRepeat (inLengths 3 [0x03])) (fun t => t.st.err) = some .corruptStream
    ∧ after (exec (.lvValue 25) (withLevel boot 0 { (default : Level) with bias := 8, n := 8 })) (fun t => t.st.err)
        = some .corruptStream := by decide +kernel

/-- A machine in method 14 whose offset tree's one code, a zero, is `d`, in a block of `rem` bytes. -/
def inM14 (d rem : Nat) (bs : Bytes) (size : Nat) : State :=
  withTable { reading bs size with dec := .m14, win := [(0x3FFFC, 0x61), (0x3FFFD, 0x62), (0x3FFFE, 0x63), (0x3FFFF, 0x64)],
                                   m14 := { M14.reset with rem := rem } } .td (oneCodeTable d)

/-- P3 at 349: `M14.MATCH.c0` with offset code 3 copies `abcd`; at 346 a literal; a match longer than the block's rest. -/
theorem test_m14_stream :
    after (exec .m14MatchC0 (inM14 3 4 [] 4)) (fun t => (Memory.slice t.outMem 0 4, t.m14.rem, t.br.pos))
      = some ([0x61, 0x62, 0x63, 0x64], 0, 1)
    ∧ after (exec (.m14Lit 0x64) (inM14 3 5 [] 4)) (fun t => (t.outMem, t.m14.rem, t.m14.wp)) = some ([(0, 0x64)], 4, 1)
    ∧ after (exec .m14MatchC0 (inM14 3 3 [] 4)) (fun t => t.st.err) = some .corruptStream
    ∧ after (exec .m14MatchC8 (inM14 3 13 [0x01] 13)) (fun t => (t.out.cnt, t.br.pos)) = some (13, 2) := by decide +kernel

/-- The offset codes of 2.5's table: 7 and 67 with extra 1, 74 with seventeen ones. -/
theorem test_m14_dist :
    after (exec .m14DistD7 (reading [0x01] 0)) (fun t => (t.ret, t.br.pos)) = some (.num 9, 1)
    ∧ after (exec .m14DistD67 (reading [0x01] 0)) (fun t => (t.ret, t.br.pos)) = some (.num 262145, 16)
    ∧ after (exec .m14DistD74 (reading [0xFF, 0xFF, 0xFF] 0)) (fun t => (t.ret, t.br.pos)) = some (.num 1048575, 17) := by
  decide +kernel

/-- The length and offset tables of 2.5: first values and extra bits. -/
theorem test_m14_tables :
    ([0, 3, 7, 8, 12, 16, 20, 51].map fun c => (extra14 c, base14 c))
      = [(0, 4), (0, 7), (0, 11), (1, 12), (2, 20), (3, 36), (4, 68), (11, 14340)]
    ∧ ([0, 2, 6, 7, 11, 15, 66, 67, 71, 74].map fun d => (extra14o d, base14o d))
      = [(0, 1), (0, 3), (0, 7), (1, 8), (2, 16), (3, 32), (15, 229376), (16, 262144), (17, 524288), (17, 917504)] := by
  decide +kernel

/-- P3's frame: three blocks; block 1's header with 8 bytes; block 2, which is empty; a block with no stream. -/
theorem test_m14_blocks :
    after (exec .m14Start (reading [0x03, 0x00] 15)) (fun t => (t.m14.nblk, t.br.pos, t.seq)) = some (3, 16, [.m14Blocks, .m14End])
    ∧ after (exec .m14Block (reading [0xEF, 0xBE, 0xAD, 0xDE, 0x08, 0x00, 0x00, 0x00] 15)) (fun t => (t.m14.skip, t.br.pos, t.seq))
        = some (0xDEADBEEF, 64, m14BlockTasks 8)
    ∧ after (exec .m14Block (reading [0xEF, 0xBE, 0xAD, 0xDE, 0x00, 0x00, 0x00, 0x00] 15)) (fun t => t.seq) = some [.m14BlockEnd]
    ∧ after (exec .m14Block (reading [] 15)) (fun t => t.st.err) = some .corruptStream
    ∧ after (exec (.m14ReadLengths 308 0) boot) (fun t => (t.m14.depth, (levelAt t 0).n, t.seq))
        = some (0, 308, [.fetch .m14Hdr, .m14Mode 0])
    ∧ after (exec .cmprM14 boot) (fun t => (t.dec, t.seq)) = some (.m14, [.op .m14Start]) := by decide +kernel

/-- V-C3c, V-E1's order, V-C2 and the archive size of P1a. -/
theorem test_archive_header :
    after (exec .cpArchdr (atHeader [0x53, 0x49, 0x54])) (fun t => t.st.err) = some .truncated
    ∧ after (exec (.magicOther 0x5A495021) boot) (fun t => (t.st.err, t.h.valid)) = some (.badMagic, false)
    ∧ after (exec (.arch { magic := 0x53495421, count := 1, asize := 140, magic2 := 0x724C6175, version := 1, reserved := 0 }) boot)
        (fun t => (t.cp.asize, t.seq)) = some (140, [.fetch .magic2])
    ∧ after (exec .magicRLau boot) (fun t => t.cp.pos) = some 22
    ∧ after (exec .magicSt46 boot) (fun t => t.st.err) = some .ok
    ∧ after (exec .cpParse { boot with cp := { Parser.reset with pos := 9, depth := 1, stack := [[]] } })
        (fun t => (t.cp.pos, t.cp.depth, t.cp.stack, t.seq)) = some (0, 0, [], [.op .cpArchdr, .parseLoop]) := by decide +kernel

/-- A header of zeros but for its name length and the first two bytes of its name, which are the CRC of what stands before them, low
byte first: its CRC is 0 (R155), as its CRC field says. -/
def sealed (nameLen lo hi : Byte) : Bytes := [0#8, 0#8, nameLen, lo, hi] ++ List.replicate 107 0#8

theorem crc_zeros (n : Nat) : crcBytes 0 (List.replicate n 0#8) = 0 := by
  induction n with
  | zero => rfl
  | succ n ih => rw [List.replicate_succ, crcBytes_cons, show crcByte 0 0#8 = 0 by decide, ih]

/-- The CRC of such a header, when its first five bytes have CRC 0. -/
theorem sealed_crc (n lo hi : Byte) (h : crcBytes 0 [0#8, 0#8, n, lo, hi] = 0) : crcBytes 0 ((sealed n lo hi).take 110) = 0 := by
  have : (sealed n lo hi).take 110 = [0#8, 0#8, n, lo, hi] ++ List.replicate 105 0#8 := by rfl
  rw [this, crcBytes_append, h, crc_zeros]

theorem sealed_src (n lo hi : Byte) (h : Memory.slice (Memory.ofBytes 0 (sealed n lo hi)) 0 112 = sealed n lo hi)
    (hc : crcBytes 0 [0#8, 0#8, n, lo, hi] = 0) : headerCrc (atHeader (sealed n lo hi)) = 0 := by
  unfold headerCrc
  rw [show srcBytes (atHeader (sealed n lo hi)) (atHeader (sealed n lo hi)).cp.pos 112 = sealed n lo hi from h]
  exact sealed_crc n lo hi hc

/-- A header with a right CRC and a name of 31 is accepted, one of 32 is `NameTooLong` (R267). -/
theorem test_cp_fetch :
    after (exec .cpFetch (atHeader (sealed 31 0x41 0xc8))) (fun t => (t.st.err, t.cp.pos)) = some (.ok, 112)
    ∧ after (exec .cpFetch (atHeader (sealed 32 0x1 0xd8))) (fun t => t.st.err) = some .nameTooLong := by
  have h1 := sealed_src 31 0x41 0xc8 (by decide +kernel) (by decide +kernel)
  have h2 := sealed_src 32 0x1 0xd8 (by decide +kernel) (by decide +kernel)
  simp only [exec, execCpFetch, cpFetch_eq, h1, h2]
  decide +kernel

/-- A header that is cut is `Truncated` (R265), and one whose stored CRC is wrong is `HeaderCrcMismatch` even with a name of 32
(R266, D33). -/
theorem test_cp_fetch_faults :
    after (exec .cpFetch (atHeader ((sealed 31 0x41 0xc8).take 111))) (fun t => t.st.err) = some .truncated
    ∧ after (exec .cpFetch (atHeader (sealed 32 0x1 0xd8 |>.set 111 1))) (fun t => t.st.err) = some .headerCrcMismatch := by
  refine ⟨by decide +kernel, ?_⟩
  have h : headerCrc (atHeader (sealed 32 0x1 0xd8 |>.set 111 1)) = 0 := by
    unfold headerCrc
    rw [show (srcBytes (atHeader (sealed 32 0x1 0xd8 |>.set 111 1)) (atHeader (sealed 32 0x1 0xd8 |>.set 111 1)).cp.pos 112).take 110
      = (sealed 32 0x1 0xd8).take 110 by decide +kernel]
    exact sealed_crc 32 0x1 0xd8 (by decide +kernel)
  simp only [exec, execCpFetch, cpFetch_eq, h]
  decide +kernel

/-- Scenario S2's folder markers, and V-C10's underflow. -/
theorem test_folders :
    after (exec (.entFolderStart { entry 0x20 1 with nameArea := 0x42 :: List.replicate 62 0 })
      { boot with cp := { Parser.reset with stack := [[0x41, 0x3A]], depth := 1 } }) (fun t => (t.cp.stack, t.cp.depth))
      = some ([[0x41, 0x3A], [0x42, 0x3A]], 2)
    ∧ after (exec (.entFolderEnd (entry 0x21 1)) { boot with cp := { Parser.reset with stack := [[0x41, 0x3A], [0x42, 0x3A]], depth := 2 } })
        (fun t => (t.cp.stack, t.cp.depth)) = some ([[0x41, 0x3A]], 1)
    ∧ after (exec (.entFolderEnd (entry 0x21 1)) boot) (fun t => t.st.err) = some .folderUnderflow
    ∧ after (exec (.entFolderEnd (entry 0x21 1)) { boot with h := { boot.h with flatten := true } }) (fun t => t.st.err) = some .ok := by
  decide +kernel

/-- Scenario S2's file `f.txt` in `A:B:`, and `x:f.T` flattened (R270). -/
theorem test_cp_key :
    after (exec (.cpKey [0x66, 0x2E, 0x54]) { boot with cp := { Parser.reset with stack := [[0x41, 0x3A], [0x42, 0x3A]], depth := 2 } })
      (fun t => t.ret) = some (.keyPath [0x61, 0x3A, 0x62, 0x3A, 0x66, 0x2E, 0x74] [0x41, 0x3A, 0x42, 0x3A, 0x66, 0x2E, 0x54])
    ∧ after (exec (.cpKey [0x78, 0x3A, 0x66, 0x54]) { boot with h := { boot.h with flatten := true } }) (fun t => t.ret)
      = some (.keyPath [0x66, 0x74] [0x66, 0x54]) := by decide +kernel

/-- V-C12's three policies on a second `readme`, and V-C11's empty entry. -/
theorem test_cp_insert :
    after (exec (.cpInsert readmeEntry.key [0x72] ForkDesc.reset readmeEntry.dataFork (List.replicate 10 0)) oneFile)
      (fun t => t.st.err) = some .duplicatePath
    ∧ after (exec (.cpInsert readmeEntry.key [0x72] ForkDesc.reset readmeEntry.dataFork (List.replicate 10 0))
        { oneFile with par := { testParams with dupPolicy := .lastWins } }) (fun t => t.idx.entries.map (·.path)) = some [[0x72]]
    ∧ after (exec (.cpInsert readmeEntry.key [0x72] ForkDesc.reset readmeEntry.dataFork (List.replicate 10 0))
        { oneFile with par := { testParams with dupPolicy := .firstWins } }) (fun t => t.idx.entries.map (·.path)) = some [readme]
    ∧ after (exec (.cpInsert [0x72] [0x72] ForkDesc.reset ForkDesc.reset (List.replicate 10 0)) oneFile)
        (fun t => t.idx.entries.length) = some 1 := by decide +kernel

/-- Scenario S3's file at 134: the resource fork's payload first (R271), then the data fork's; cut, it is `Truncated`. -/
theorem test_ent_file :
    after (exec (.entFile { entry 0 4 with resUsize := 4, dataUsize := 4, resCsize := 4, dataCsize := 4 })
      { boot with h := { boot.h with size := 142 }, cp := { Parser.reset with pos := 134 } })
      (fun t => (t.cp.pos, t.idx.entries.map fun e => (e.resFork.offset, e.dataFork.offset))) = some (142, [(134, 138)])
    ∧ after (exec (.entFile { entry 0 4 with resUsize := 4, dataUsize := 4, resCsize := 4, dataCsize := 4 })
      { boot with h := { boot.h with size := 141 }, cp := { Parser.reset with pos := 134 } }) (fun t => t.st.err)
      = some .truncated := by decide +kernel

/-- The commands on scenario S1's file: V-F1, V-F2, V-F7 and the dispatch of a read. -/
theorem test_commands :
    after (exec (.hostHas [0x52, 0x65, 0x61, 0x64, 0x4D, 0x65]) oneFile) (fun t => t.st.result) = some (.flag true)
    ∧ after (exec (.hostHas [0x6E]) oneFile) (fun t => t.st.result) = some (.flag false)
    ∧ after (exec .hostList oneFile) (fun t => t.st.result) = some (.paths [readme])
    ∧ after (exec (.hostRead [0x6E]) oneFile) (fun t => t.st.err) = some .notFound
    ∧ after (exec (.hostReadRsrc readme) oneFile) (fun t => t.seq) = some [.op (.dispatch readmeEntry.resFork), .deliverRsrc]
    ∧ after (exec (.hostReadFinfo readme) oneFile) (fun t => t.st.result) = some (.bytes (List.replicate 16 0)) := by decide +kernel

/-- `OPEN` binds the stream and hides the old index; more bytes than there are is refused (log 18). -/
theorem test_open :
    after (exec (.hostOpen [0x01, 0x00, 0x03] 3 true) oneFile) (fun t => (t.src, t.h.size, t.h.valid, t.h.flatten, t.idx.entries))
      = some ([(0, 1), (2, 3)], 3, false, true, [])
    ∧ refusal (exec (.hostOpen [0x01] 2 false) oneFile) = some .sizeBeyondSource := by decide +kernel

/-- V-F9 and V-E3: an empty fork before any test, encryption before the method; V-F3's method 5. -/
theorem test_dispatch :
    after (exec (.dispatch { ForkDesc.reset with compression := 0x8D }) boot) (fun t => (t.ret, t.seq)) = some (.noFork, [])
    ∧ after (exec (.dispatch { readmeEntry.dataFork with compression := 0x85 }) boot) (fun t => (t.fork.compression, t.seq.head?))
        = some (0x85, some (.fetch .cmpr))
    ∧ after (exec (.cmprEncrypted 0x85) boot) (fun t => t.st.err) = some .encrypted
    ∧ after (exec (.cmprUnsupported 0x05) boot) (fun t => t.st.err) = some .unsupportedMethod
    ∧ after (exec (.dispatch { readmeEntry.dataFork with compression := 0x0D }) boot) (fun t => (t.br.len, t.out.size)) = some (6, 6) := by
  decide +kernel

/-- The default numbers of R321. -/
theorem test_status_codes :
    ([ErrKind.ok, .badMagic, .truncated, .nameTooLong, .headerCrcMismatch, .encrypted, .unsupportedMethod, .corruptStream,
      .payloadCrcMismatch, .notFound, .folderUnderflow, .duplicatePath].map fun k => statusCode { boot with st := { err := k, result := .none } })
      = List.range 12 := by decide +kernel

/-! ## Witnesses: states and operands that meet the hypotheses of each statement -/

/-- A boot machine with the pending lines `ts` and the host commands `cs`. -/
def pending (ts : List Task) (cs : List Cmd) (s : State) : State := { s with seq := ts, host := cs }

/-- An `OPEN` of one byte waits, then a `READ`: an idle machine that meets the invariant. -/
def waiting : State := pending [] [.openArchive [0x53] 1 false, .read readme] oneFile

theorem wit_DecodeOfEncode :
    (Instr.m13CtrlStatic4 3).wf = true ∧ encode .m13Ctrl (.m13CtrlStatic4 3) = some (.num 0x53)
    ∧ (Instr.lvValue 31).wf = true ∧ encode (.m14LenVal 15) (.lvValue 31) = some (.num 31)
    ∧ (Instr.entFile (entry 0 31)).wf = true ∧ (encode .ent (.entFile (entry 0 31))).isSome = true := by decide +kernel

theorem wit_EncodeOfDecode :
    decode .m13Ofs (.num 16) = .ok (.m13Ofs 16) ∧ decode (.m14LenVal 14) (.num 14) = .ok .lvRepeat
    ∧ decode .magic1 (.num (2 ^ 32 - 1)) = .ok (.magicOther 0xFFFFFFFF) := ⟨rfl, rfl, rfl⟩

theorem wit_DecodedIsWellFormed : decode .m13Sym (.num 0x13D) = .ok (.m13Len 0x13D) ∧ decode .m13Ctrl (.num 0x60) = .ok (.m13CtrlIllegal 0x60) :=
  ⟨rfl, rfl⟩

theorem wit_StepRunsTheDecodedInstruction :
    (∃ s : State, ∃ f ts w t i, s.seq = Task.fetch f :: ts ∧ fetchRaw f { s with seq := ts } = .ok w t ∧ decode f w = .ok i ∧ i.wf = true)
    ∧ (∃ s : State, ∃ i ts, s.seq = Task.op i :: ts ∧ i.wf = true) ∧ (∃ s : State, ∃ c cs, s.seq = [] ∧ s.host = c :: cs)
    ∧ ∃ s : State, s.seq = [] ∧ s.host = [] :=
  ⟨⟨pending [.fetch .cmpr] [] boot, .cmpr, [], .num 0, _, .cmprM0, rfl, rfl, rfl, rfl⟩,
    ⟨pending [.op (.brPeek 16)] [] boot, .brPeek 16, [], rfl, rfl⟩, ⟨pending [] [.list] boot, .list, [], rfl, rfl⟩, ⟨boot, rfl, rfl⟩⟩

/-- A machine at a symbol `v` of the table `T`. -/
def atSymbol (T : TableId) (v : Nat) : State := placeSymbol T v boot

theorem wit_FetchReadsTheWord :
    (0 + 4 ≤ (reading [1, 2, 3, 4] 0).h.size ∧ 10 + 4 ≤ (reading (List.replicate 14 0) 0).h.size
      ∧ 22 ≤ (reading (List.replicate 22 0) 0).h.size ∧ (curLevel boot).nested = false)
    ∧ (∃ t, h12Decode .tMeta (atSymbol .tMeta 36) = .ok 36 t) ∧ (∃ t, h12Decode .tOfs (atSymbol .tOfs 16) = .ok 16 t)
    ∧ ((atSymbol .t1 0x140).m13.active = .first ∧ ∃ t, h12Decode .t1 (atSymbol .t1 0x140) = .ok 0x140 t)
    ∧ ((m13SetActive .second (atSymbol .t2 0)).m13.active = .second ∧ ∃ t, h12Decode .t2 (m13SetActive .second (atSymbol .t2 0)) = .ok 0 t)
    ∧ (∃ t, h12Decode .tl (atSymbol .tl 307) = .ok 307 t) ∧ (∃ t, h12Decode .td (atSymbol .td 74) = .ok 74 t)
    ∧ ((curLevel (withLevel (atSymbol .tl 0) 0 { (default : Level) with nested := true, tn := oneCodeTable 31 })).nested = true
      ∧ ∃ t, h12Decode (.tn 0) (withLevel (atSymbol .tl 0) 0 { (default : Level) with nested := true, tn := oneCodeTable 31 }) = .ok 31 t) := by
  refine ⟨by decide +kernel, ⟨_, rfl⟩, ⟨_, rfl⟩, ⟨rfl, _, rfl⟩, ⟨rfl, _, rfl⟩, ⟨_, rfl⟩, ⟨_, rfl⟩, rfl, _, rfl⟩

theorem wit_FaultsAreTaken :
    (∃ s : State, ∃ f ts k t, s.seq = Task.fetch f :: ts ∧ fetchRaw f { s with seq := ts } = .raised k t)
    ∧ (∃ s : State, ∃ f ts w t, s.seq = Task.fetch f :: ts ∧ fetchRaw f { s with seq := ts } = .ok w t ∧ decode f w = .error .undefinedSymbol)
    ∧ paramsSupplied { testParams with errCode := { testParams.errCode with ok := 12 } } = true :=
  ⟨⟨pending [.fetch .magic1] [] boot, .magic1, [], .truncated, _, rfl, rfl⟩,
    ⟨pending [.fetch .m13Meta] [] (atSymbol .tMeta 37), .m13Meta, [], .num 37, _, rfl, rfl, rfl⟩, by decide +kernel⟩

theorem wit_ResetMeetsInvariant : [Cmd.openArchive [1] 1 false, .openArchive [] 0 true, .list].all Cmd.legal = true := by decide

theorem waiting_inv : waiting.Inv := ⟨by decide +kernel, by decide +kernel, by decide +kernel, by decide +kernel⟩

theorem oneFile_inv : oneFile.Inv := ⟨by decide +kernel, by decide +kernel, by decide +kernel, by decide +kernel⟩

theorem testParams_supplied : paramsSupplied testParams = true := by decide +kernel

/-- What `paramsSupplied` refuses of R9's forms: two kinds with one number, a length of 33, a meta code without one of its symbols. -/
theorem test_params_supplied :
    paramsSupplied { testParams with errCode := { testParams.errCode with badMagic := 0 } } = false
    ∧ paramsSupplied { testParams with romStatic := some (List.replicate 5 (33 :: List.replicate 657 0)) } = false
    ∧ paramsSupplied { testParams with romMeta := testParams.romMeta.map (·.map fun e => { e with sym := e.sym + 1 }) } = false := by
  decide +kernel

theorem wit_InvariantKeptByEveryStep : waiting.Inv ∧ ∃ t, step waiting = .next t := ⟨waiting_inv, _, rfl⟩

theorem wit_NoStopWithParameters : waiting.Inv ∧ paramsSupplied waiting.par = true := ⟨waiting_inv, testParams_supplied⟩

theorem wit_RunsForeverFromReset : paramsSupplied testParams = true ∧ waiting.host.all Cmd.legal = true :=
  ⟨testParams_supplied, by decide⟩

theorem wit_EveryCommandEnds : (waiting.Inv ∧ paramsSupplied waiting.par = true ∧ waiting.seq = [])
    ∧ ∃ s : State, s.Inv ∧ paramsSupplied s.par = true ∧ s.seq ≠ [] :=
  ⟨⟨waiting_inv, testParams_supplied, rfl⟩, pending [.op .cpParse, .openEnd] [] oneFile,
    ⟨by decide +kernel, by decide +kernel, by decide +kernel, by decide +kernel⟩, testParams_supplied, by decide⟩

theorem wit_ParametersAndSourceKept : ∃ t, step waiting = .next t := ⟨_, rfl⟩

theorem wit_ReadsKeepTheHandle :
    (pending [] [.read readme] oneFile).Inv ∧ (pending [] [.read readme] oneFile).seq.all (Task.ofRead 6) = true
    ∧ (∀ src size fl, Cmd.openArchive src size fl ∉ (pending [] [.read readme] oneFile).host)
    ∧ ∃ t, Host.Core.run Sys2Proof.core 1 (pending [] [.read readme] oneFile) = .next t :=
  ⟨⟨by decide +kernel, by decide +kernel, by decide +kernel, by decide +kernel⟩, rfl, fun _ _ _ h => Cmd.noConfusion (List.mem_singleton.1 h), _, rfl⟩

theorem wit_InvalidHandleShowsEmptyIndex : boot.Inv ∧ boot.h.valid = false ∧ boot.seq = [] :=
  ⟨⟨by decide +kernel, by decide +kernel, by decide +kernel, by decide +kernel⟩, rfl, rfl⟩

theorem wit_PeekReadsPayloadBits : after (exec (.brPeek 1) (reading [0xB5] 0)) (·.ret) = some (.num 1)
    ∧ after (exec (.brPeek 16) (reading [0xB5] 0)) (·.ret) = some (.num 0xB5) := by decide +kernel

theorem wit_TakeAndWideReadReturnOneField : (after (exec (.brInit 3 0) boot) (·.br.base) = some 3)
    ∧ after (exec (.brTake 16) (reading [0x34, 0x12] 0)) (·.ret) = some (.num 0x1234)
    ∧ after (exec (.brReadBits 32) (reading [0x34, 0x12, 0x78, 0x56] 0)) (·.ret) = some (.num 0x56781234) := by decide +kernel

theorem wit_ReaderLaws : (8 + 8 ≤ 16) ∧ ((reading [0x34, 0x12] 0).br.pos = 8 * 0 ∧ 0 + 2 ≤ (reading [0x34, 0x12] 0).br.len
    ∧ (reading [0x34, 0x12] 0).br.base + (reading [0x34, 0x12] 0).br.len ≤ (reading [0x34, 0x12] 0).h.size)
    ∧ ((brAdvance 8 (reading [0x34, 0x12] 0)).br.pos = 8 * 1 ∧ 1 + 1 ≤ (brAdvance 8 (reading [0x34, 0x12] 0)).br.len) := by decide +kernel

/-- A payload of one byte in the middle of a stream of three. -/
def middle : State := { reading [1, 2, 3] 0 with br := { base := 1, len := 1, pos := 0 } }

theorem wit_ReaderSeesOnlyItsPayload :
    (∀ a, middle.br.base ≤ a → a < middle.br.base + middle.br.len → Memory.read (Memory.ofBytes 0 [9, 2, 9]) a = Memory.read middle.src a)
    ∧ ∃ t, exec (.brTake 16) middle = .next t := by
  refine ⟨fun a h1 h2 => ?_, _, rfl⟩
  have h1' : 1 ≤ a := h1
  have h2' : a < 1 + 1 := h2
  obtain rfl : a = 1 := by omega
  rfl

theorem wit_CrcOfARange : (0 + 2 ≤ (reading [1, 2] 0).h.size ∧ 1 + 2 ≤ (reading [] 3).out.size)
    ∧ (65535 + 1 ≤ windowSize .m13 ∧ 0x3FFFF + 1 ≤ windowSize .m14) ∧ 110 + 2 ≤ boot.cp.hdr.length := by decide +kernel

theorem wit_CrcLaws : ([1, 2] : Bytes).length = ([3, 4] : Bytes).length
    ∧ crcBytes 0 ([5] ++ (1 : Byte) :: [6]) = crcBytes 0 ([5] ++ (1 : Byte) :: [6]) := ⟨rfl, rfl⟩

theorem wit_ForkCrcIsVerified :
    crcBytes 0 (Memory.slice boot.outMem 0 boot.out.size) = ForkDesc.reset.crc
    ∧ crcBytes 0 (Memory.slice boot.outMem 0 boot.out.size) ≠ readmeEntry.dataFork.crc := by decide +kernel

theorem wit_CanonicalCodesFollowTheRule :
    (∀ l, l ∈ [2, 1, 3, 3, 0, 0] → l ≤ 32) ∧ (canonicalCodes [2, 1, 3, 3, 0, 0]).isSome = true
    ∧ (canonicalCodes [1, 32, 32]).isSome = true := by decide +kernel

/-- Lengths with a Kraft sum of just 1 that need no node; one code of 32 bits, which needs 21; R164's example, which needs 3; pools of
just so many nodes and of one fewer. -/
theorem wit_BuildSucceedsWithinKraft :
    ([1, 1].length ≤ 321 ∧ (∀ l, l ∈ [1, 1] → l ≤ 32) ∧ kraftSum [1, 1] = 2 ^ 32 ∧ (canonicalCodes [1, 1]).map poolNodes = some 0)
    ∧ ((∀ l, l ∈ [1, 32] → l ≤ 32) ∧ kraftSum [1, 32] ≤ 2 ^ 32 ∧ (canonicalCodes [1, 32]).map poolNodes = some 21)
    ∧ ((canonicalCodes [1, 2, 3, 4, 5, 6, 7, 8, 9, 10, 11, 12, 13, 13]).map poolNodes = some 3
      ∧ ({ testParams with poolSlots := 3 }).poolSlots = 3 ∧ ({ testParams with poolSlots := 2 }).poolSlots < 3)
    ∧ ((∀ l, l ∈ [1, 1, 32] → l ≤ 32) ∧ 2 ^ 32 < kraftSum [1, 1, 32]) ∧ ∃ l, l ∈ [0, 33] ∧ 32 < l :=
  ⟨by decide +kernel, by decide +kernel, by decide +kernel, by decide +kernel, 33, by decide⟩

/-- Two codes of 13 bits, R164's three nodes, with a pool of three, of two and of none: the second leaf or the root is too many. -/
theorem test_pool_exhausted :
    (buildTable 3 [13, 13]).map (·.nnodes) = some 3
    ∧ after (exec (.h12Build .t1 2 [13, 13]) { boot with par := { testParams with poolSlots := 2 } }) (·.st.err) = some .corruptStream
    ∧ buildTable 0 [13, 13] = none := by decide +kernel

/-- The 37 entries of the test ROM. -/
def testRom : List Config.CodeEntry := (List.range 37).map fun s => { sym := s, pattern := s, len := 6 }

/-- One code of 13 bits, which needs two nodes. -/
def code13 : List Config.CodeEntry := [{ sym := 5, pattern := 0x1000, len := 13 }]

theorem wit_BuildOfAnExplicitCode : (soundEntries testRom = true ∧ poolNodes testRom = 0)
    ∧ (soundEntries code13 = true ∧ poolNodes code13 = 2 ∧ (2 ≤ boot.par.poolSlots ∧ ({ testParams with poolSlots := 1 }).poolSlots < 2))
    ∧ soundEntries [{ sym := 0, pattern := 0, len := 1 }, { sym := 1, pattern := 2, len := 2 }] = false := by decide +kernel

/-- The table of one code of 12 bits. -/
def table12 : Table := { Table.empty with slot := [(0, { value := 1, bits := 12 })] }

theorem wit_DecodeReadsExactlyTheCodes :
    (soundEntries [{ sym := 1, pattern := 0, len := 12 }] = true ∧ buildTableX 3608 [{ sym := 1, pattern := 0, len := 12 }] = some table12)
    ∧ canonicalCodes [0, 12] = some [{ sym := 1, pattern := 0, len := 12 }] ∧ buildTable 3608 [0, 12] = some table12
    ∧ (tableAt (withTable (reading [] 0) .tl table12) .tl = table12 ∧ brField (reading [] 0) 0 12 = 0)
    ∧ (tableAt (withTable (reading [1] 0) .tl table12) .tl = table12
      ∧ ∀ c, c ∈ [({ sym := 1, pattern := 0, len := 12 } : Code)] → brField (reading [1] 0) 0 c.len ≠ c.pattern) := by
  decide +kernel

/-- Room for exactly one byte, and room for none. -/
theorem wit_EmitWritesBufferAndWindow :
    (Memory.wf (reading [] 1).win = true ∧ Memory.wf (reading [] 1).outMem = true ∧ (reading [] 1).out.cnt < (reading [] 1).out.size)
    ∧ (reading [] 0).out.size ≤ (reading [] 0).out.cnt := by decide +kernel

/-- A copy that just fits, and one that is a byte too long. -/
theorem wit_CopyRepeatsTheWindow :
    (1 ≤ 3 ∧ 1 ≤ 1 ∧ Memory.wf (reading [] 3).win = true ∧ Memory.wf (reading [] 3).outMem = true
      ∧ (reading [] 3).out.cnt + 3 ≤ (reading [] 3).out.size) ∧ (reading [] 3).out.size < (reading [] 3).out.cnt + 4 := by
  decide +kernel

/-- A fork that ends where the stream does, and one whose sizes differ. -/
theorem wit_StoredForkIsCopied :
    (readmeEntry.dataFork.csize = readmeEntry.dataFork.usize
      ∧ readmeEntry.dataFork.offset + readmeEntry.dataFork.usize.toNat ≤ oneFile.h.size ∧ Memory.wf oneFile.outMem = true)
    ∧ ({ oneFile with fork := { readmeEntry.dataFork with csize := 5 } }).fork.csize ≠ readmeEntry.dataFork.usize := by
  decide +kernel

theorem buildTable_zeros : buildTable 3608 (List.replicate 321 0) = some .empty ∧ buildTable 3608 (List.replicate 11 0) = some .empty
    ∧ buildTable 3608 (List.replicate 14 0) = some .empty := by decide +kernel

theorem wit_StaticProfileBuildsTables :
    (staticProfile (.m13Static 0) = some 0 ∧ staticProfile (.m13CtrlStatic4 15) = some 4)
    ∧ boot.par.romStatic = some (List.replicate 5 (List.replicate 658 0)) ∧ boot.par.romStaticBits = some [11, 12, 13, 14, 14]
    ∧ ((List.replicate 5 (List.replicate 658 0))[0]? = some (List.replicate 658 0) ∧ [11, 12, 13, 14, 14][0]? = some 11)
    ∧ ((List.replicate 5 (List.replicate 658 0))[4]? = some (List.replicate 658 0) ∧ [11, 12, 13, 14, 14][4]? = some 14)
    ∧ ((List.replicate 658 0).length = 658 ∧ (List.replicate 658 0).all (· ≤ 32) = true)
    ∧ buildTable boot.par.poolSlots ((List.replicate 658 0).take 321) = some .empty
    ∧ buildTable boot.par.poolSlots (((List.replicate 658 0).drop 321).take 321) = some .empty
    ∧ buildTable boot.par.poolSlots (((List.replicate 658 0).drop 642).take 11) = some .empty
    ∧ buildTable boot.par.poolSlots (((List.replicate 658 0).drop 642).take 14) = some .empty := by decide +kernel

theorem wit_DynamicModeReadsItsTrees :
    boot.par.romMeta = some testRom ∧ testRom.length = 37 ∧ ((List.range 37).all fun sym => testRom.any (·.sym == sym)) = true ∧ soundEntries testRom = true ∧ 777 ≤ boot.par.poolSlots := by
  decide +kernel

theorem wit_MissingRomIsRefused :
    ({ testParams with romMeta := none }).romMeta = none
    ∧ (staticProfile (.m13Static 4) = some 4 ∧ ({ testParams with romStatic := none }).romStatic = none)
    ∧ (staticProfile (.m13CtrlStatic0 0) = some 0 ∧ ({ testParams with romStaticBits := none }).romStaticBits = none)
    ∧ (∀ e, e ∈ testRom.take 36 → e.sym ≠ 36) ∧ 33 ∈ 33 :: List.replicate 657 0 := by
  decide +kernel

theorem wit_MetaSetsTheCurrentLength : boot.par.lenOfSym[(0 : Fin 31).val]? = some 1 ∧ boot.par.lenOfSym[(30 : Fin 31).val]? = some 31 := by
  decide +kernel

/-- Ten lengths, at index `i` with current length `cur` (all zero extra bits). -/
def inSequence (i : Nat) (cur : Int) (bs : Bytes) : State := { reading bs 0 with m13 := { M13.reset with n := 10, idx := i, cur := cur } }

/-- The emission at the last index, and repeats that end at the last one; each one index further is too far, as is a length of 33. -/
theorem wit_RepeatsEmitTheCurrentLength :
    (Memory.wf (inSequence 9 32 []).m13.lens = true ∧ (inSequence 9 32 []).m13.cur ≤ 32 ∧ (inSequence 9 32 []).m13.idx + 1 ≤ 10)
    ∧ ((inSequence 9 1 [1]).m13.idx + brPeek 1 (inSequence 9 1 [1]) ≤ 10)
    ∧ ((inSequence 3 1 [5]).m13.idx + (brPeek 3 (inSequence 3 1 [5]) + 2) ≤ 10)
    ∧ ((inSequence 0 1 [0]).m13.idx + (brPeek 6 (inSequence 0 1 [0]) + 10) ≤ 10)
    ∧ (10 < (inSequence 10 1 []).m13.idx + 1) ∧ (1 ≤ brPeek 1 (inSequence 10 1 [1])) ∧ (10 < (inSequence 10 1 [1]).m13.idx + brPeek 1 (inSequence 10 1 [1]))
    ∧ (10 < (inSequence 4 1 [5]).m13.idx + (brPeek 3 (inSequence 4 1 [5]) + 2))
    ∧ (10 < (inSequence 1 1 [0]).m13.idx + (brPeek 6 (inSequence 1 1 [0]) + 10)) ∧ 32 < (inSequence 0 33 []).m13.cur := by
  decide +kernel

theorem wit_Method13LiteralAndEnd :
    (Memory.wf (reading [] 1).win = true ∧ Memory.wf (reading [] 1).outMem = true ∧ (reading [] 1).out.cnt < (reading [] 1).out.size)
    ∧ ((reading [] 0).out.size ≤ (reading [] 0).out.cnt) ∧ (∃ ts, (pending [.m13Loop, .m13End] [] boot).seq = .m13Loop :: ts)
    ∧ ∀ ts, boot.seq ≠ .m13Loop :: ts :=
  ⟨by decide +kernel, by decide +kernel, ⟨_, rfl⟩, fun ts h => by cases h⟩

/-- Each of the three rows, with the first and the last prefix and room for just the match; with room for one byte less; with a
prefix that is none; with no code in the offset tree. -/
theorem wit_Method13MatchCopies :
    (0x100 ≤ (0x100 : BitVec 9).toNat ∧ (0x100 : BitVec 9).toNat - 0x100 + 3 = 3 ∧ (0x13D : BitVec 9).toNat ≤ 0x13D
      ∧ (0x13D : BitVec 9).toNat - 0x100 + 3 = 64)
    ∧ (∃ u, h12Decode .tOfs { inM13 0 [] 3 with br := { (inM13 0 [] 3).br with pos := (inM13 0 [] 3).br.pos + 0 } } = .ok 0 u)
    ∧ (∃ u, h12Decode .tOfs { inM13 16 [] 65 with br := { (inM13 16 [] 65).br with pos := (inM13 16 [] 65).br.pos + 15 } } = .ok 16 u)
    ∧ (16 < 17 ∧ Memory.wf (inM13 16 [] 65).win = true ∧ Memory.wf (inM13 16 [] 65).outMem = true
      ∧ (inM13 16 [] 65).out.cnt + (brPeek 15 (inM13 16 [] 65) + 65) ≤ (inM13 16 [] 65).out.size
      ∧ (inM13 16 [] 65).out.cnt + (brPeek 10 (inM13 16 [] 65) + 65) ≤ (inM13 16 [] 65).out.size)
    ∧ ((∃ u, h12Decode .tOfs { inM13 0 [] 2 with br := { (inM13 0 [] 2).br with pos := (inM13 0 [] 2).br.pos + 0 } } = .ok 0 u)
      ∧ (inM13 0 [] 2).out.size < (inM13 0 [] 2).out.cnt + 3)
    ∧ (∃ u, h12Decode .tOfs { inM13 17 [] 3 with br := { (inM13 17 [] 3).br with pos := (inM13 17 [] 3).br.pos + 0 } } = .ok 17 u)
    ∧ ∃ u, h12Decode .tOfs { reading [] 3 with br := { (reading [] 3).br with pos := (reading [] 3).br.pos + 0 } } = .raised .corruptStream u :=
  ⟨by decide +kernel, ⟨_, rfl⟩, ⟨_, rfl⟩, by decide +kernel, ⟨⟨_, rfl⟩, by decide +kernel⟩, ⟨_, rfl⟩, _, rfl⟩

theorem wit_Method13OffsetOfAPrefix : (0 : Fin 17).val = 0 ∧ (1 : Fin 17).val ≠ 0 ∧ (16 : Fin 17).val ≠ 0 := by decide

theorem wit_Method13Frame : ∃ ts, (pending [.m13Begin] [] boot).seq = .m13Begin :: ts := ⟨_, rfl⟩

theorem wit_TreeHeaderSetsItsFields : levelsWf boot = true ∧ levelsWf (inLengths 3 [0]) = true := by decide +kernel

/-- Reading lengths in nested mode, one length read, with an empty nested tree. -/
def nestedEmpty : State := withLevel (inLengths 3 [0]) 0 { curLevel (inLengths 3 [0]) with nested := true, i := 1 }

/-- A value whose length is just 32, one of 33; a repeat with `e` 2 that ends at the last of 8 lengths, one that goes a length
further, one at index 0, and one in nested mode with no code in the nested tree. -/
theorem wit_LengthValuesSetLengths :
    (levelsWf (inLengths 3 [0]) = true ∧ (31 : BitVec 5).toNat + (curLevel (inLengths 3 [0])).bias ≤ 32)
    ∧ (32 < (25 : BitVec 5).toNat + (curLevel (withLevel boot 0 { (default : Level) with bias := 8 })).bias)
    ∧ (1 ≤ (curLevel (inLengths 3 [2])).i ∧ (∃ u, lvNext (inLengths 3 [2]) = .ok 2 u)
      ∧ (curLevel (inLengths 3 [2])).i + (2 + 3) ≤ (curLevel (inLengths 3 [2])).n)
    ∧ ((curLevel (inLengths 0 [])).i = 0)
    ∧ ((∃ u, lvNext (inLengths 3 [3]) = .ok 3 u) ∧ (curLevel (inLengths 3 [3])).n < (curLevel (inLengths 3 [3])).i + (3 + 3))
    ∧ 1 ≤ (curLevel nestedEmpty).i ∧ ∃ u, lvNext nestedEmpty = .raised .corruptStream u :=
  ⟨by decide +kernel, by decide +kernel, ⟨by decide +kernel, ⟨_, rfl⟩, by decide +kernel⟩, by decide +kernel,
    ⟨⟨_, rfl⟩, by decide +kernel⟩, by decide +kernel, _, rfl⟩

theorem wit_Method14TablesTile :
    (51 < 52 ∧ 2047 < 2 ^ extra14 51 ∧ base14 51 + 2047 = 16387) ∧ (74 < 75 ∧ 131071 < 2 ^ extra14o 74 ∧ base14o 74 + 131071 = 1048575)
    ∧ base14 0 + 0 = base14 0 + 0 ∧ base14o 0 + 0 = base14o 0 + 0 := by decide +kernel

theorem wit_OffsetRowsReadTheirExtraBits : Instr.distCode .m14DistD0 = some 0 ∧ Instr.distCode .m14DistD74 = some 74 := ⟨rfl, rfl⟩

/-- A match of just the block's rest, and one a byte longer; a literal with room and without; a match with room for one byte less; an
offset code beyond the last; no code in the offset tree. -/
theorem wit_Method14LiteralAndMatch :
    (Memory.wf (inM14 3 4 [] 4).win = true ∧ Memory.wf (inM14 3 4 [] 4).outMem = true ∧ (inM14 3 4 [] 4).out.cnt < (inM14 3 4 [] 4).out.size)
    ∧ ((inM14 3 4 [] 0).out.size ≤ (inM14 3 4 [] 0).out.cnt)
    ∧ (Instr.matchCode .m14MatchC0 = some 0
      ∧ (∃ u, h12Decode .td { inM14 74 4 [] 4 with br := { (inM14 74 4 [] 4).br with pos := (inM14 74 4 [] 4).br.pos + extra14 0 } } = .ok 74 u)
      ∧ 74 < 75)
    ∧ (base14 0 + (brReadBits (extra14 0) (inM14 74 4 [] 4)).1 ≤ (inM14 74 4 [] 4).m14.rem
      ∧ (inM14 74 4 [] 4).out.cnt + (base14 0 + (brReadBits (extra14 0) (inM14 74 4 [] 4)).1) ≤ (inM14 74 4 [] 4).out.size)
    ∧ ((inM14 74 3 [] 4).m14.rem < base14 0 + (brReadBits (extra14 0) (inM14 74 3 [] 4)).1)
    ∧ ((inM14 74 4 [] 3).out.size < (inM14 74 4 [] 3).out.cnt + (base14 0 + (brReadBits (extra14 0) (inM14 74 4 [] 3)).1)
      ∧ ∃ u, h12Decode .td { inM14 74 4 [] 3 with br := { (inM14 74 4 [] 3).br with pos := (inM14 74 4 [] 3).br.pos + extra14 0 } } = .ok 74 u)
    ∧ (∃ u, h12Decode .td { inM14 75 4 [] 4 with br := { (inM14 75 4 [] 4).br with pos := (inM14 75 4 [] 4).br.pos + extra14 0 } } = .ok 75 u)
    ∧ ∃ u, h12Decode .td { reading [] 4 with br := { (reading [] 4).br with pos := (reading [] 4).br.pos + extra14 0 } } = .raised .corruptStream u :=
  ⟨by decide +kernel, by decide +kernel, ⟨rfl, ⟨_, rfl⟩, by decide⟩, by decide +kernel, by decide +kernel,
    ⟨by decide +kernel, _, rfl⟩, ⟨_, rfl⟩, _, rfl⟩

theorem wit_Method14FrameAndBlocks :
    (8 * (reading [] 1).br.len ≤ (reading [] 1).br.pos)
    ∧ ((reading [0] 1).br.pos < 8 * (reading [0] 1).br.len ∧ 0 = brField (reading [0] 1) (0 + 32) 32)
    ∧ (8 = brField (reading [0xEF, 0xBE, 0xAD, 0xDE, 8] 1) (0 + 32) 32) ∧ levelsWf boot = true := by decide +kernel

/-- A machine whose lengths are all zero but for the first ones of either method, which are `ls` in method 13 and at levels 0 and 1. -/
def withLens (ls : List Nat) : State :=
  { boot with
    m13 := { M13.reset with lens := ls.zipIdx.map fun p => (p.2, p.1) }
    m14 := { M14.reset with level := [(0, { (default : Level) with lens := ls.zipIdx.map fun p => (p.2, p.1) }),
                                      (1, { (default : Level) with lens := ls.zipIdx.map fun p => (p.2, p.1) })] } }

/-- Each line as the next one, and lengths of which the builds make a table, and of which they make none. -/
theorem wit_DecoderLoopLines :
    (∀ e, e ∈ [Task.metaLoop, .m13Loop, .m13End, .m14End, .m14Mode 0, .lvLoop, .m14Blocks, .m14Loop, .m14BlockEnd, .m13BuildT1,
        .m13CopyT2, .m13BuildT2, .m13BuildTO 10, .m14BuildTN 0, .m14BuildTL, .m14BuildTD, .m14SetRem 1] →
      (pending [e] [] boot).seq = e :: [])
    ∧ (levelsWf (withLens [1]) = true ∧ (buildTable 3608 (Memory.slice (withLens [1]).m13.lens 0 321)).isSome = true
      ∧ (buildTable 3608 (Memory.slice (withLens [1]).m13.lens 0 10)).isSome = true
      ∧ (buildTable 3608 (Memory.slice (levelAt (withLens [1]) 0).lens 0 308)).isSome = true
      ∧ (buildTable 3608 (Memory.slice (levelAt (withLens [1]) 0).lens 0 75)).isSome = true
      ∧ (buildTable 3608 (Memory.slice (levelAt (withLens [1]) (0 + 1)).lens 0 32)).isSome = true)
    ∧ (buildTable 3608 (Memory.slice (withLens [1, 1, 1]).m13.lens 0 321) = none
      ∧ buildTable 3608 (Memory.slice (withLens [1, 1, 1]).m13.lens 0 10) = none
      ∧ buildTable 3608 (Memory.slice (levelAt (withLens [1, 1, 1]) 0).lens 0 308) = none
      ∧ buildTable 3608 (Memory.slice (levelAt (withLens [1, 1, 1]) 0).lens 0 75) = none
      ∧ buildTable 3608 (Memory.slice (levelAt (withLens [1, 1, 1]) (0 + 1)).lens 0 32) = none) :=
  ⟨fun _ _ => rfl, by decide +kernel, by decide +kernel⟩

/-- A nested table built: the lengths of level 1 become the table of level 0, which is in progress again. -/
theorem test_build_tn :
    after (step (pending [.m14BuildTN 0] [] { withLens [0, 12] with m14 := { (withLens [0, 12]).m14 with depth := 1 } }))
      (fun t => (t.m14.depth, (levelAt t 0).tn.slot, (levelAt t 1).tn)) = some (0, [(0, { value := 1, bits := 12 })], .empty) := by
  decide +kernel

theorem wit_MagicsAndArchiveHeader :
    (magicValue .magicSit = some 0x53495421 ∧ magicValue .magicSt46 = some 0x53543436)
    ∧ (primaryMagic (0x53495421 : U32).toNat = some .magicSit ∧ primaryMagic (0x724C6175 : U32).toNat = none)
    ∧ ((atHeader [1, 2, 3]).h.size < 4 ∧ 4 ≤ (atHeader [1, 2, 3, 4]).h.size)
    ∧ (pending [.archRest] [] (atHeader (List.replicate 21 0))).seq = [.archRest] ∧ (atHeader (List.replicate 21 0)).h.size < 22
    ∧ ¬ (atHeader (List.replicate 22 0)).h.size < 22 := by decide +kernel

/-- Scenario S1's archive header, and nothing after it. -/
def s1Head : State :=
  pending [.op .cpArchdr] [] (atHeader [0x53, 0x49, 0x54, 0x21, 0x00, 0x01, 0x00, 0x00, 0x00, 0x8C, 0x72, 0x4C, 0x61, 0x75, 0x01,
    0, 0, 0, 0, 0, 0, 0])

/-- The archive header of S1 cut off after `n` bytes (V-C3b). -/
def s1Cut (n : Nat) : State :=
  pending [.op .cpArchdr] [] (atHeader ([0x53, 0x49, 0x54, 0x21, 0x00, 0x01, 0x00, 0x00, 0x00, 0x8C, 0x72, 0x4C, 0x61, 0x75, 0x01,
    0, 0, 0, 0, 0, 0].take n))

/-- V-C3b's lengths 4 and 21, and a stream of four zeros. -/
theorem wit_ArchiveHeaderIsAccepted_short :
    (4 ≤ (s1Cut 4).h.size ∧ (s1Cut 4).h.size < 22 ∧ primaryMagic (be32At (Memory.slice (s1Cut 4).src 0 4) 0).toNat = some .magicSit)
    ∧ ((s1Cut 21).h.size = 21 ∧ primaryMagic (be32At (Memory.slice (s1Cut 21).src 0 4) 0).toNat = some .magicSit)
    ∧ primaryMagic (be32At (Memory.slice (atHeader (List.replicate 4 0)).src 0 4) 0).toNat = none := by decide +kernel

theorem wit_ArchiveHeaderIsAccepted :
    s1Head.seq = [.op .cpArchdr] ∧ 22 ≤ s1Head.h.size
    ∧ primaryMagic (be32At (Memory.slice s1Head.src 0 22) 0).toNat = some .magicSit
    ∧ Memory.slice s1Head.src 10 4 = [0x72#8, 0x4C#8, 0x61#8, 0x75#8] := by decide +kernel

/-- The header of S1 with the wrong byte `b` at 13. -/
def s1Magic2 (b : Byte) : State := { s1Head with src := Memory.write s1Head.src 13 b }

/-- One bit of `rLau` wrong: `BadMagic` from the fifth step. -/
theorem wit_ArchiveHeaderIsAccepted_magic2 :
    ((s1Magic2 0x74).seq = [.op .cpArchdr] ∧ 22 ≤ (s1Magic2 0x74).h.size
      ∧ primaryMagic (be32At (Memory.slice (s1Magic2 0x74).src 0 22) 0).toNat = some .magicSit
      ∧ Memory.slice (s1Magic2 0x74).src 10 4 ≠ [0x72#8, 0x4C#8, 0x61#8, 0x75#8])
    ∧ after (Host.Core.run Sys2Proof.core 5 (s1Magic2 0x74)) (·.st.err) = some .badMagic := by decide +kernel

/-- A folder still open when the archive ends is no error and is discarded (R273). -/
theorem test_open_folder_discarded :
    after (step (pending [.parseLoop] [] { boot with cp := { Parser.reset with stack := [[0x41, 0x3A]], depth := 1 } }))
      (fun t => (t.h.valid, t.cp.stack, t.cp.depth)) = some (true, [], 0) := by decide +kernel

/-- The header's slice and CRC, for a name of 31 and of 32 and for a wrong CRC field. -/
theorem wit_EntryHeaderIsFetched :
    ((pending [.parseLoop] [] boot).seq = [.parseLoop]) ∧ ((atHeader [0]).h.size < (atHeader [0]).cp.pos + 112)
    ∧ ((atHeader (sealed 31 0x41 0xC8)).cp.pos + 112 ≤ (atHeader (sealed 31 0x41 0xC8)).h.size
      ∧ sealed 31 0x41 0xC8 = Memory.slice (atHeader (sealed 31 0x41 0xC8)).src 0 112
      ∧ crcBytes 0 ((sealed 31 0x41 0xC8).take 110) = be16At (sealed 31 0x41 0xC8) 110 ∧ ((sealed 31 0x41 0xC8).getD 2 0).toNat ≤ 31)
    ∧ (crcBytes 0 ((sealed 32 0x01 0xD8).take 110) = be16At (sealed 32 0x01 0xD8) 110 ∧ 31 < ((sealed 32 0x01 0xD8).getD 2 0).toNat)
    ∧ crcBytes 0 ((sealed 31 0x41 0xC8).take 110) ≠ be16At ((sealed 31 0x41 0xC8).set 111 1) 110 := by
  have h1 := sealed_crc 31 0x41 0xC8 (by decide +kernel)
  have h2 := sealed_crc 32 0x01 0xD8 (by decide +kernel)
  rw [h1, h2]
  decide +kernel

theorem wit_FolderMarkersPushAndPop :
    (boot.h.flatten = false ∧ boot.cp.depth = 0) ∧ ({ boot with h := { boot.h with flatten := true } }).h.flatten = true
    ∧ ({ boot with cp := { Parser.reset with stack := [[0x3A]], depth := 1 } }).cp.depth ≠ 0 := by decide

theorem wit_KeyOfAName : boot.h.flatten = false ∧ ({ boot with h := { boot.h with flatten := true } }).h.flatten = true := ⟨rfl, rfl⟩

theorem wit_InsertFollowsThePolicy :
    (ForkDesc.reset.usize = 0 ∧ ForkDesc.reset.usize = 0)
    ∧ (¬ (ForkDesc.reset.usize = 0 ∧ readmeEntry.dataFork.usize = 0) ∧ [0x72] ∉ oneFile.idx.entries.map (·.key))
    ∧ (readmeEntry.key ∈ oneFile.idx.entries.map (·.key) ∧ oneFile.par.dupPolicy = .refuse)
    ∧ (({ oneFile with par := { testParams with dupPolicy := .firstWins } }).par.dupPolicy = .firstWins
      ∧ ({ oneFile with par := { testParams with dupPolicy := .lastWins } }).par.dupPolicy = .lastWins) := by decide +kernel

/-- A file whose payloads end where the stream does, one that goes a byte further, one without data. -/
theorem wit_FileEntryIsIndexed :
    ((entry 0 4).wf = true ∧ (entry 0 4).resUsize = 0 ∧ (entry 0 4).dataUsize = 0
      ∧ boot.cp.pos + (entry 0 4).resCsize.toNat + (entry 0 4).dataCsize.toNat ≤ boot.h.size)
    ∧ (({ entry 0 4 with dataUsize := 6, dataCsize := 6 } : EntHdr).wf = true
      ∧ oneFile.cp.pos + (0 : U32).toNat + (6 : U32).toNat ≤ oneFile.h.size ∧ ¬ ((0 : U32) = 0 ∧ (6 : U32) = 0)
      ∧ fold [0, 0, 0, 0] ∉ oneFile.idx.entries.map (·.key))
    ∧ oneFile.h.size < oneFile.cp.pos + (0 : U32).toNat + (7 : U32).toNat := by decide +kernel

theorem wit_OpenBindsTheStream : (2 : BitVec 64).toNat ≤ ([1, 2] : Bytes).length ∧ ([1, 2] : Bytes).length < (3 : BitVec 64).toNat
    ∧ (pending [.openEnd] [] boot).seq = [.openEnd] := by
  decide

theorem wit_IndexQueries :
    (oneFile.Inv ∧ readme ∈ oneFile.idx.entries.map (·.path))
    ∧ (oneFile.indexOk = true ∧ (∃ m, m ∈ oneFile.idx.metadata ∧ m.key = norm oneFile readme))
    ∧ norm oneFile [0x6E] ∉ oneFile.idx.metadata.map (·.key)
    ∧ oneFile.h.flatten = false ∧ ({ oneFile with h := { oneFile.h with flatten := true } }).h.flatten = true :=
  ⟨⟨oneFile_inv, by decide⟩, ⟨by decide +kernel, ⟨_, List.mem_cons_self, by decide +kernel⟩⟩, by decide +kernel, rfl, rfl⟩

/-- V-F10: of a flattened archive the path `a:README` is asked for as `readme`. -/
theorem test_norm :
    norm { oneFile with h := { oneFile.h with flatten := true } } ([0x61, 0x3A] ++ readme) = readmeEntry.key
    ∧ norm oneFile ([0x61, 0x3A] ++ readme) = [0x61, 0x3A] ++ readmeEntry.key := by decide +kernel

theorem wit_ReadsDispatchTheirFork :
    findEntry oneFile (norm oneFile readme) = some readmeEntry ∧ norm oneFile [0x6E] ∉ oneFile.idx.entries.map (·.key)
    ∧ readmeEntry.resFork.usize = 0 ∧ readmeEntry.dataFork.usize ≠ 0 ∧ readmeEntry.dataFork.compression &&& 0xF0#8 = 0
    ∧ ({ readmeEntry.dataFork with compression := 0x10 }).compression &&& 0xF0#8 ≠ 0 := by decide +kernel

/-- The method's word of a fork with each kind of compression byte: 0, 13, 14, an encrypted one, the least and the greatest unknown one. -/
theorem wit_ReadsDispatchTheirFork_methods :
    (∀ b, (pending [.fetch .cmpr] [] { boot with fork := { ForkDesc.reset with compression := b } }).seq = [.fetch .cmpr])
    ∧ 0x10#8 &&& 0xF0#8 ≠ 0 ∧ (0x01#8 &&& 0xF0#8 = 0 ∧ 0x01#8 ∉ [0x00#8, 0x0D#8, 0x0E#8])
    ∧ 0x0F#8 &&& 0xF0#8 = 0 ∧ 0x0F#8 ∉ [0x00#8, 0x0D#8, 0x0E#8] := ⟨fun _ => rfl, by decide⟩

/-- Reads of both forks of scenario S1's file; with the CRC field 0x5A34 the CRC is the fork's, with another it is not. -/
theorem wit_ReadsOfStoredAndAbsentForks :
    (pending [] [.read readme] oneFile).Inv ∧ findEntry oneFile (norm oneFile readme) = some readmeEntry
    ∧ (readmeEntry.dataFork.usize ≠ 0 ∧ readmeEntry.dataFork.compression = 0 ∧ readmeEntry.dataFork.csize = readmeEntry.dataFork.usize)
    ∧ crcBytes 0 (Memory.slice oneFile.src 0 6) = readmeEntry.dataFork.crc ∧ readmeEntry.resFork.usize = 0
    ∧ (pending [] [.readRsrc readme] oneFile).host = [.readRsrc readme] :=
  ⟨⟨by decide +kernel, by decide +kernel, by decide +kernel, by decide +kernel⟩, by decide +kernel⟩

/-- `oneFile` with the CRC field wrong, and with an absent data fork beside a stored resource fork. -/
def otherFiles (e : Entry) : State := { oneFile with idx := { oneFile.idx with entries := [e] } }

theorem wit_ReadsOfStoredAndAbsentForks_others :
    ((pending [] [.read readme] (otherFiles { readmeEntry with dataFork := { readmeEntry.dataFork with crc := 0 } })).Inv
      ∧ crcBytes 0 (Memory.slice oneFile.src 0 6) ≠ 0)
    ∧ ((pending [] [.readRsrc readme] (otherFiles { readmeEntry with dataFork := readmeEntry.resFork, resFork := readmeEntry.dataFork })).Inv
      ∧ readmeEntry.dataFork.usize ≠ 0) :=
  ⟨⟨⟨by decide +kernel, by decide +kernel, by decide +kernel, by decide +kernel⟩, by decide +kernel⟩,
    ⟨by decide +kernel, by decide +kernel, by decide +kernel, by decide +kernel⟩, by decide +kernel⟩

/-- The six steps of a `READ` of that file, from the command to the bytes (P1a). -/
theorem test_read :
    after (Host.Core.run Sys2Proof.core 6 (pending [] [.read readme] oneFile)) (fun t : State => (t.st.err, t.st.result, t.seq))
      = some (.ok, .bytes [0x68, 0x65, 0x6C, 0x6C, 0x6F, 0x0A], []) := by decide +kernel

end Sys2Proof.Tests
end

section
/-! The invariant of the state, field by field, and the rule of each state operation: what it must be given to keep it. -/

namespace Sys2Proof.Machine

/-! ## The parts of the invariant -/

/-- The method-13 registers and tables keep their ranges and canonical forms (R24). -/
structure M13.Ok (pool : Nat) (m : M13) : Prop where
  lensWf : Memory.wf m.lens = true
  lensRange : lensInRange m.lens = true
  idx : m.idx ≤ 321
  size : seqSizeOk m.n = true
  t1 : m.t1.Ok pool
  t2 : m.t2.Ok pool
  tOfs : m.tOfs.Ok pool
  tMeta : m.tMeta.Ok pool

/-- The registers of a nesting level keep their ranges and canonical forms (R25). -/
def Level.Ok (pool : Nat) (l : Level) : Prop := l.inRange pool = true ∧ l.memWf = true

/-- The method-14 registers and tables keep their ranges and canonical forms (R25). -/
structure M14.Ok (pool : Nat) (m : M14) : Prop where
  nblk : m.nblk < 2 ^ 16
  skip : m.skip < 2 ^ 32
  levelWf : Memory.wf m.level = true
  levels : ∀ q ∈ m.level, q.2.Ok pool
  tl : m.tl.Ok pool
  td : m.td.Ok pool

/-- The parser's registers keep their ranges (R27). -/
structure Parser.Ok (cp : Parser) : Prop where
  asize : cp.asize < 2 ^ 32
  hdr : cp.hdr.length = 112
  depth : cp.depth = cp.stack.length

/-- The index is well made for a stream of `size` bytes (R28, R32). -/
structure Index.Ok (size : Nat) (flatten : Bool) (idx : Index) : Prop where
  keys : idx.entries.map (·.key) = idx.metadata.map (·.key)
  nodup : (idx.entries.map (·.key)).Nodup
  forks : ∀ e ∈ idx.entries, e.dataFork.usize ≠ 0 ∨ e.resFork.usize ≠ 0
  infos : ∀ m ∈ idx.metadata, m.info.length = 16
  made : ∀ e ∈ idx.entries, e.wellMade size flatten = true

/-- The part of the invariant that does not speak of the pending lines. -/
structure State.Sound (s : State) : Prop where
  src : Memory.wf s.src = true
  win : Memory.wf s.win = true
  outMem : Memory.wf s.outMem = true
  br : s.br.len < 2 ^ 32
  outSize : s.out.size < 2 ^ 32
  outCnt : s.out.cnt ≤ s.out.size
  m13 : s.m13.Ok s.par.poolSlots
  m14 : s.m14.Ok s.par.poolSlots
  cp : s.cp.Ok
  size : s.h.size < 2 ^ 64
  idx : s.idx.Ok s.h.size s.h.flatten
  host : s.host.all Cmd.legal = true

/-- The part of the invariant that speaks of the pending lines. -/
structure State.Sequenced (s : State) : Prop where
  agenda : s.seq ∈ openAgendas ∨ s.seq.all (Task.ofRead s.h.size) = true
  fork : Task.fetch .cmpr ∈ s.seq → forkInside s.h.size s.fork = true
  shown : s.h.valid = true ∨ s.idx.entries = [] ∨ Task.parseLoop ∈ s.seq

theorem Level.default_ok (pool : Nat) : (default : Level).Ok pool :=
  ⟨by simp [Level.inRange, lensInRange, show (default : Level) = ⟨false, 0, 0, 0, 0, false, [], default, 0, 0⟩ from rfl,
    Table.default_inRange], rfl⟩

theorem State.sound_iff (s : State) :
    s.Sound ↔ s.memWf = true ∧ s.inRange = true ∧ s.indexOk = true
      ∧ (s.idx.entries.all fun e => e.wellMade s.h.size s.h.flatten) = true ∧ s.host.all Cmd.legal = true := by
  simp only [State.memWf, State.inRange, State.indexOk, Bool.and_eq_true, decide_eq_true_eq, beq_iff_eq, bne_iff_ne,
    Bool.or_eq_true, List.all_eq_true, ne_eq, and_assoc]
  constructor
  · rintro ⟨hsrc, hwin, hout, hbr, hsize, hcnt, h13, h14, hcp, hh, hidx, hhost⟩
    obtain ⟨lensWf, lensRange, idx13, n13, ⟨r1, w1⟩, ⟨r2, w2⟩, ⟨ro, wo⟩, ⟨rm, wm⟩⟩ := h13
    obtain ⟨nblk, skip, levelWf, levels, ⟨rl, wl⟩, ⟨rd, wd⟩⟩ := h14
    exact ⟨hsrc, hwin, hout, lensWf, levelWf, w1, w2, wo, wm, wl, wd, fun q hq => (levels q hq).2,
      hbr, hsize, hcnt, idx13, n13, lensRange, r1, r2, ro, rm, nblk, skip, rl, rd, fun q hq => (levels q hq).1,
      hcp.asize, hcp.hdr, hcp.depth, hh, hidx.keys, hidx.nodup, hidx.forks, hidx.infos, hidx.made, List.all_eq_true.1 hhost⟩
  · rintro ⟨hsrc, hwin, hout, lensWf, levelWf, w1, w2, wo, wm, wl, wd, levelsWf,
      hbr, hsize, hcnt, idx13, n13, lensRange, r1, r2, ro, rm, nblk, skip, rl, rd, levelsRange,
      asize, hdr, depth, hh, keys, nodup, forks, infos, made, hhost⟩
    exact ⟨hsrc, hwin, hout, hbr, hsize, hcnt, ⟨lensWf, lensRange, idx13, n13, ⟨r1, w1⟩, ⟨r2, w2⟩, ⟨ro, wo⟩, ⟨rm, wm⟩⟩,
      ⟨nblk, skip, levelWf, fun q hq => ⟨levelsRange q hq, levelsWf q hq⟩, ⟨rl, wl⟩, ⟨rd, wd⟩⟩,
      ⟨asize, hdr, depth⟩, hh, ⟨keys, nodup, forks, infos, made⟩, List.all_eq_true.2 hhost⟩

/-- The invariant is that of the registers and that of the pending lines. -/
theorem State.inv_iff (s : State) : s.Inv ↔ s.Sound ∧ s.Sequenced := by
  have hlegal : s.legal = true ↔ s.Sequenced
      ∧ (s.idx.entries.all fun e => e.wellMade s.h.size s.h.flatten) = true ∧ s.host.all Cmd.legal = true := by
    simp only [State.legal, Bool.and_eq_true, Bool.or_eq_true, decide_eq_true_eq, Bool.not_eq_true',
      decide_eq_false_iff_not, List.isEmpty_iff, or_assoc, and_assoc, ← imp_iff_not_or]
    constructor
    · rintro ⟨ha, hf, hm, hv, hh⟩
      exact ⟨⟨ha, hf, hv⟩, hm, hh⟩
    · rintro ⟨⟨ha, hf, hv⟩, hm, hh⟩
      exact ⟨ha, hf, hm, hv, hh⟩
  rw [State.sound_iff, State.Inv, hlegal]
  constructor
  · rintro ⟨hmem, hrange, hindex, hseq, hmade, hhost⟩
    exact ⟨⟨hmem, hrange, hindex, hmade, hhost⟩, hseq⟩
  · rintro ⟨⟨hmem, hrange, hindex, hmade, hhost⟩, hseq⟩
    exact ⟨hmem, hrange, hindex, hseq, hmade, hhost⟩

/-! ## A read in progress -/

/-- The invariant while a read is in progress or the block is idle, with the open parameters `p`. -/
structure Reading (p : Config.Params) (s : State) : Prop where
  sound : s.Sound
  par : s.par = p
  tasks : ∀ t ∈ s.seq, t.ofRead s.h.size = true
  fork : Task.fetch .cmpr ∈ s.seq → forkInside s.h.size s.fork = true
  shown : s.h.valid = true ∨ s.idx.entries = []

section
variable {p : Config.Params} {s : State}

theorem Reading.inv (h : Reading p s) : s.Inv :=
  (State.inv_iff s).2 ⟨h.sound, Or.inr (List.all_eq_true.2 h.tasks), h.fork, h.shown.imp_right Or.inl⟩

/-- The block has an `OPEN` in progress, or it is idle or reads. -/
theorem State.Inv.cases (h : s.Inv) : (s.Sound ∧ s.seq ∈ openAgendas) ∨ Reading s.par s := by
  obtain ⟨hs, ha, hf, hv⟩ := (State.inv_iff s).1 h
  refine ha.imp (fun ha => ⟨hs, ha⟩) fun ha => ⟨hs, rfl, List.all_eq_true.1 ha, hf, ?_⟩
  rcases hv with hv | hv | hv
  · exact Or.inl hv
  · exact Or.inr hv
  · exact absurd (List.all_eq_true.1 ha _ hv) (by simp [Task.ofRead])

theorem Reading.m13 (h : Reading p s) : s.m13.Ok p.poolSlots := h.par ▸ h.sound.m13
theorem Reading.m14 (h : Reading p s) : s.m14.Ok p.poolSlots := h.par ▸ h.sound.m14

/-! ### What each register group must be given -/

theorem Reading.withBr (h : Reading p s) {v : BitReader} (hv : v.len < 2 ^ 32) : Reading p (s.withBr v) :=
  { h with sound := { h.sound with br := hv } }

theorem Reading.withCrc (h : Reading p s) (v : U16) : Reading p (s.withCrc v) := { h with sound := { h.sound with } }

theorem Reading.withWin (h : Reading p s) {v : Memory Byte} (hv : Memory.wf v = true) : Reading p (s.withWin v) :=
  { h with sound := { h.sound with win := hv } }

theorem Reading.withOutMem (h : Reading p s) {v : Memory Byte} (hv : Memory.wf v = true) : Reading p (s.withOutMem v) :=
  { h with sound := { h.sound with outMem := hv } }

theorem Reading.withOut (h : Reading p s) {v : Output} (hs : v.size < 2 ^ 32) (hc : v.cnt ≤ v.size) : Reading p (s.withOut v) :=
  { h with sound := { h.sound with outSize := hs, outCnt := hc } }

theorem Reading.withM13 (h : Reading p s) {v : M13} (hv : v.Ok p.poolSlots) : Reading p (s.withM13 v) :=
  { h with sound := { h.sound with m13 := h.par.symm ▸ hv } }

theorem Reading.withM14 (h : Reading p s) {v : M14} (hv : v.Ok p.poolSlots) : Reading p (s.withM14 v) :=
  { h with sound := { h.sound with m14 := h.par.symm ▸ hv } }

theorem Reading.withDec (h : Reading p s) (v : Decoder) : Reading p (s.withDec v) := { h with sound := { h.sound with } }

theorem Reading.withRet (h : Reading p s) (v : Ret) : Reading p (s.withRet v) := { h with sound := { h.sound with } }

theorem Reading.withSt (h : Reading p s) (v : Status) : Reading p (s.withSt v) := { h with sound := { h.sound with } }

theorem Reading.withDraws (h : Reading p s) (v : Nat) : Reading p (s.withDraws v) := { h with sound := { h.sound with } }

theorem Reading.withFork (h : Reading p s) {f : ForkDesc} (hf : forkInside s.h.size f = true) : Reading p (s.withFork f) :=
  { h with sound := { h.sound with }, fork := fun _ => hf }

theorem Reading.withHost (h : Reading p s) {cs : List Cmd} (hc : cs.all Cmd.legal = true) : Reading p (s.withHost cs) :=
  { h with sound := { h.sound with host := hc } }

/-- Lines may be dropped. -/
theorem Reading.withSeq_sublist (h : Reading p s) {ts : List Task} (ht : ts ⊆ s.seq) : Reading p (s.withSeq ts) :=
  { h with sound := { h.sound with }, tasks := fun t hm => h.tasks t (ht hm), fork := fun hm => h.fork (ht hm) }

/-- Lines of a read may be put before the pending ones; one that fetches a compression byte needs a fork in the stream. -/
theorem Reading.pushTasks (h : Reading p s) {ts : List Task} (ht : ts.all (Task.ofRead s.h.size) = true)
    (hf : Task.fetch .cmpr ∈ ts → forkInside s.h.size s.fork = true) : Reading p (pushTasks ts s) where
  sound := { h.sound with }
  par := h.par
  tasks := fun t hm => (List.mem_append.1 hm).elim (List.all_eq_true.1 ht t) (h.tasks t)
  fork := fun hm => (List.mem_append.1 hm).elim hf h.fork
  shown := h.shown

/-- An empty index is well made. -/
theorem Index.empty_ok (size : Nat) (flatten : Bool) : Index.Ok size flatten { entries := [], metadata := [] } :=
  ⟨rfl, List.nodup_nil, nofun, nofun, nofun⟩

/-- Taking an error leaves the registers in range; `OPEN`'s kinds empty the index (R326). -/
theorem State.Sound.takeError (h : s.Sound) (k : ErrKind) : (takeError k s).Sound := by
  rw [takeError_eq]
  split
  · exact { h with idx := Index.empty_ok _ _ }
  · exact { h with }

/-- After an error is taken the block is idle; the index is hidden unless the handle is valid. -/
theorem State.Sound.takeError_inv (h : s.Sound) {k : ErrKind} (hk : k.ofOpen = true ∨ s.h.valid = true ∨ s.idx.entries = []) :
    (Machine.takeError k s).Inv := by
  refine (State.inv_iff _).2 ⟨h.takeError k, Or.inr (by simp), by simp, ?_⟩
  rw [takeError_h, takeError_idx]
  cases hb : k.ofOpen with
  | true => exact Or.inr (Or.inl rfl)
  | false =>
    rw [hb] at hk
    exact (hk.resolve_left (by simp)).imp_right Or.inl

end

end Sys2Proof.Machine
end

section
/-! Progress and preservation in one notion: an operation neither faults nor is refused (but for a missing parameter) and ends in
a state of the invariant; the rule of each unit of a read. -/

namespace Sys2Proof.Machine

/-! ## Safe outcomes -/

/-- A step's outcome keeps the invariant and the open parameters `p`; it is no fault, and a refusal only where a parameter is not
supplied (R335). -/
def Safe (p : Config.Params) : Host.Outcome State Fault Refusal → Prop
  | .next t => t.Inv ∧ t.par = p
  | .fault _ => False
  | .refused _ => paramsSupplied p = false

/-- The same of an operation inside a read: whether it returns or raises, the read's invariant holds. -/
def Res.Keeps {α : Type} (p : Config.Params) : Res α → Prop
  | .ok _ t => Reading p t
  | .raised _ t => Reading p t
  | .fault _ => False
  | .refused _ => paramsSupplied p = false

section
variable {α β : Type} {p : Config.Params} {s : State}

theorem Reading.safe (h : Reading p s) : Safe p (.next s) := ⟨h.inv, h.par⟩

theorem Reading.takeError_safe (h : Reading p s) (k : ErrKind) : Safe p (.next (takeError k s)) :=
  ⟨h.sound.takeError_inv (Or.inr h.shown), by rw [takeError_par, h.par]⟩

theorem Res.Keeps.bind {r : Res α} {f : α → State → Res β} (h : r.Keeps p) (hf : ∀ a t, Reading p t → (f a t).Keeps p) :
    (r.bind f).Keeps p := by
  cases r with
  | ok a t => exact hf a t h
  | raised k t => exact h
  | fault e => exact h
  | refused e => exact h

theorem Res.Keeps.outcome {r : Res Unit} (h : r.Keeps p) : Safe p r.outcome := by
  cases r with
  | ok _ t => exact Reading.safe h
  | raised k t => exact Reading.takeError_safe h k
  | fault e => exact h
  | refused e => exact h

/-! ## The BitReader -/

theorem Reading.brAdvance (h : Reading p s) (n : Nat) : Reading p (brAdvance n s) := h.withBr h.sound.br

theorem Reading.brAlign (h : Reading p s) : Reading p (brAlign s) := by
  unfold Machine.brAlign
  split
  · exact h
  · exact h.brAdvance _

theorem Reading.brReadBits (h : Reading p s) (n : Nat) : Reading p (brReadBits n s).2 := by
  rw [brReadBits_snd]; exact h.brAdvance n

/-! ## Levels and tables -/

theorem M14.Ok.read {pool : Nat} {m : M14} (h : m.Ok pool) (d : Nat) : (Memory.read m.level d).Ok pool :=
  Memory.read_of_all (fun _ l => l.Ok pool) m.level (fun _ => Level.default_ok pool) h.levels d

theorem Reading.levelAt (h : Reading p s) (d : Nat) : (levelAt s d).Ok p.poolSlots := h.m14.read d

theorem Reading.withLevel (h : Reading p s) (d : Nat) {l : Level} (hl : l.Ok p.poolSlots) : Reading p (withLevel s d l) :=
  h.withM14 { h.m14 with
    levelWf := Memory.write_wf _ _ _ h.m14.levelWf
    levels := Memory.all_write (fun _ (l : Level) => l.Ok p.poolSlots) _ _ _ h.m14.levels hl }

theorem Level.ok_iff {pool : Nat} {l : Level} : l.Ok pool ↔ l.w ≤ 5 ∧ l.m ≤ 31 ∧ l.bias ≤ 8 ∧ l.r ≤ 31
    ∧ (Memory.wf l.lens = true ∧ lensInRange l.lens = true) ∧ l.tn.Ok pool := by
  simp only [Level.Ok, Level.inRange, Level.memWf, Table.Ok, Bool.and_eq_true, decide_eq_true_eq]
  tauto

theorem Reading.tableAt (h : Reading p s) (id : TableId) : (tableAt s id).Ok p.poolSlots := by
  cases id with
  | t1 => exact h.m13.t1
  | t2 => exact h.m13.t2
  | tOfs => exact h.m13.tOfs
  | tMeta => exact h.m13.tMeta
  | tl => exact h.m14.tl
  | td => exact h.m14.td
  | tn d => obtain ⟨-, -, -, -, -, ht⟩ := Level.ok_iff.1 (h.levelAt d); exact ht

theorem Reading.withTable (h : Reading p s) (id : TableId) {t : Table} (ht : t.Ok p.poolSlots) : Reading p (withTable s id t) := by
  cases id with
  | t1 => exact h.withM13 { h.m13 with t1 := ht }
  | t2 => exact h.withM13 { h.m13 with t2 := ht }
  | tOfs => exact h.withM13 { h.m13 with tOfs := ht }
  | tMeta => exact h.withM13 { h.m13 with tMeta := ht }
  | tl => exact h.withM14 { h.m14 with tl := ht }
  | td => exact h.withM14 { h.m14 with td := ht }
  | tn d =>
    obtain ⟨hw, hm, hb, hr, hl, -⟩ := Level.ok_iff.1 (h.levelAt d)
    exact h.withLevel d (Level.ok_iff.2 ⟨hw, hm, hb, hr, hl, ht⟩)

theorem Reading.h12Build (h : Reading p s) (id : TableId) (ls : List Nat) : (h12Build id ls s).Keeps p := by
  rcases h12Build_cases id ls s with ⟨v, -, hv, he⟩ | ⟨-, he⟩
  · rw [he]; exact h.withTable id (h.par ▸ hv)
  · rw [he]; exact h

theorem Reading.h12Decode (h : Reading p s) (id : TableId) : (h12Decode id s).Keeps p := by
  rcases h12Decode_cases id s (h.tableAt id).1 with ⟨v, n, he, -⟩ | ⟨n, he⟩
  · rw [he]; exact h.brAdvance n
  · rw [he]; exact h.brAdvance n

/-! ## The output -/

theorem Reading.windowStep (h : Reading p s) (d : Decoder) : Reading p (windowStep d s) := by
  cases d with
  | m13 => exact h.withM13 { h.m13 with }
  | m14 => exact h.withM14 { h.m14 with }

theorem Reading.emitted (h : Reading p s) (d : Decoder) (b : Byte) (hr : s.out.cnt < s.out.size) : Reading p (emitted d b s) := by
  unfold Machine.emitted
  refine (((h.withOutMem ?_).withOut ?_ ?_).withWin ?_).windowStep d
  · exact Memory.write_wf _ _ _ h.sound.outMem
  · exact h.sound.outSize
  · exact Nat.succ_le_of_lt hr
  · exact Memory.write_wf _ _ _ h.sound.win

theorem Reading.outEmit (h : Reading p s) (d : Decoder) (b : Byte) : (outEmit d b s).Keeps p := by
  rcases outEmit_cases d b s with ⟨hr, he⟩ | ⟨-, he⟩
  · rw [he]; exact h.emitted d b hr
  · rw [he]; exact h

theorem Reading.outCopy (h : Reading p s) (d : Decoder) (len off : Nat) : (outCopy d len off s).Keeps p := by
  rcases outCopy_cases (Reading p) d (fun b t hr ht => ht.emitted d b hr) len off s h with ⟨t, he, ht, -⟩ | ⟨t, he, ht, -⟩
  · rw [he]; exact ht
  · rw [he]; exact ht

/-- A stored fork whose payload lies in the stream is there to be copied (R302). -/
theorem Reading.m0Copy (h : Reading p s) {f : ForkDesc} (hf : forkInside s.h.size f = true) : (m0Copy f s).Keeps p := by
  rcases m0Copy_cases f s with ⟨-, he⟩ | ⟨hc, hn, -⟩ | ⟨bs, -, -, he⟩
  · rw [he]; exact h
  · rw [forkInside, decide_eq_true_eq, hc] at hf
    rw [spaceBytes_src s _ _ hf] at hn
    cases hn
  · rw [he]
    exact (h.withOutMem (foldl_write_wf bs 0 _ h.sound.outMem)).withOut h.sound.outSize (Nat.le_refl _)

theorem Reading.crcVerify (h : Reading p s) (f : ForkDesc) : (crcVerify f s).Keeps p := by
  rw [crcVerify_eq]
  split
  · exact h.withCrc _
  · exact h.withCrc _

theorem Reading.checkComplete (h : Reading p s) : (checkComplete s).Keeps p := by
  unfold Machine.checkComplete
  split
  · exact h
  · exact h

/-! ## Method 13: codelengths and tables -/

/-- A sequence size is that of an instruction with legal operands, or 0 (R99, R187). -/
theorem seqSizeOk_iff (n : Nat) : seqSizeOk n = true ↔ n = 0 ∨ n = 321 ∨ 10 ≤ n ∧ n ≤ 17 := by
  simp [seqSizeOk, or_assoc]

theorem wf_m13ReadLengths_iff (n : Nat) : (Instr.m13ReadLengths n).wf = true ↔ n = 321 ∨ 10 ≤ n ∧ n ≤ 17 := by
  simp [Instr.wf]

theorem wf_m13EmitLen_iff (n : Nat) : (Instr.m13EmitLen n).wf = true ↔ n = 321 ∨ 10 ≤ n ∧ n ≤ 17 := by
  simp [Instr.wf]

theorem lensInRange_write {m : Memory Nat} (h : lensInRange m = true) (a : Nat) {v : Nat} (hv : v ≤ 32) :
    lensInRange (Memory.write m a v) = true := by
  simp only [lensInRange, List.all_eq_true, decide_eq_true_eq] at h ⊢
  exact Memory.all_write (fun _ v => v ≤ 32) m a v h hv

theorem lensInRange_read {m : Memory Nat} (h : lensInRange m = true) (a : Nat) : Memory.read m a ≤ 32 := by
  simp only [lensInRange, List.all_eq_true, decide_eq_true_eq] at h
  exact Memory.read_of_all (fun _ v => v ≤ 32) m (fun _ => Nat.zero_le _) h a

theorem Reading.m13EmitLen (h : Reading p s) {n : Nat} (hn : n ≤ 321) : (m13EmitLen n s).Keeps p := by
  unfold Machine.m13EmitLen
  split
  · exact h
  · rename_i hi
    split
    · exact h
    · rename_i hc
      have hv : (if 0 < s.m13.cur then s.m13.cur.toNat else 0) ≤ 32 := by split <;> omega
      exact h.withM13 { h.m13 with
        lensWf := Memory.write_wf _ _ _ h.m13.lensWf
        lensRange := lensInRange_write h.m13.lensRange _ hv
        idx := by show s.m13.idx + 1 ≤ 321; omega }

theorem Reading.m13EmitMany {n : Nat} (hn : n ≤ 321) (r : Nat) (h : Reading p s) : (m13EmitMany n r s).Keeps p := by
  induction r generalizing s with
  | zero => exact h
  | succ r ih => exact (h.m13EmitLen hn).bind fun _ _ ht => ih ht

theorem Reading.m13_n_le (h : Reading p s) : s.m13.n ≤ 321 := by
  have := (seqSizeOk_iff _).1 h.m13.size
  omega

theorem Reading.m13Repeat (h : Reading p s) (bits base : Nat) : (m13Repeat bits base s).Keeps p :=
  (h.brAdvance bits).m13EmitMany h.m13_n_le _

theorem Reading.m13SetCur (h : Reading p s) (v : Int) : Reading p (m13SetCur v s) := h.withM13 { h.m13 with }

theorem Reading.m13SetActive (h : Reading p s) (t : Tree) : Reading p (m13SetActive t s) := h.withM13 { h.m13 with }

theorem Reading.m13ReadLengths (h : Reading p s) {n : Nat} (hn : (Instr.m13ReadLengths n).wf = true) :
    Reading p (m13ReadLengths n s) := by
  unfold Machine.m13ReadLengths
  refine (h.withM13 ?_).pushTasks rfl (by simp)
  exact { h.m13 with idx := Nat.zero_le _, size := (seqSizeOk_iff n).2 (Or.inr ((wf_m13ReadLengths_iff n).1 hn)) }

theorem Reading.m13MetaLoop (h : Reading p s) : Reading p (m13MetaLoop s) := by
  unfold Machine.m13MetaLoop
  split
  · rename_i hi
    have hn := (seqSizeOk_iff _).1 h.m13.size
    have hw : (Instr.m13EmitLen s.m13.n).wf = true := (wf_m13EmitLen_iff _).2 (by omega)
    exact h.pushTasks (by simp [Task.ofRead, hw]) (by simp)
  · exact h.withRet _

/-- With both static ROM parameters supplied a profile is found (R9, R118). -/
theorem Reading.m13Profile (h : Reading p s) {i : Nat} (hi : i < 5) : (m13Profile i s).Keeps p := by
  have href : ∀ {e : Refusal}, paramsSupplied p ≠ true → (Res.refused e : Res (List Nat × Nat)).Keeps p := by
    intro e hp
    exact Bool.eq_false_iff.2 hp
  unfold Machine.m13Profile
  rw [h.par]
  cases hls : p.romStatic with
  | none => exact href (by simp [paramsSupplied, hls])
  | some ls =>
    cases hbs : p.romStaticBits with
    | none => exact href (by simp [paramsSupplied, hbs])
    | some bs =>
      have hsup : paramsSupplied p = true → ls.length = 5 ∧ (∀ l ∈ ls, profileSound l = true)
          ∧ bs.length = 5 ∧ ∀ b ∈ bs, profileBitsSound b = true := by
        simp only [paramsSupplied, hls, hbs, Bool.and_eq_true, beq_iff_eq, List.all_eq_true]
        exact fun ⟨⟨⟨⟨_, hln, hl⟩, hbn, hb⟩, _⟩, _⟩ => ⟨hln, hl, hbn, hb⟩
      simp only
      cases hl : ls[i]? with
      | none =>
        refine href fun hp => ?_
        obtain ⟨hlen, -⟩ := hsup hp
        have := List.getElem?_eq_none_iff.1 hl
        omega
      | some l =>
        cases hb : bs[i]? with
        | none =>
          refine href fun hp => ?_
          obtain ⟨-, -, hlen, -⟩ := hsup hp
          have := List.getElem?_eq_none_iff.1 hb
          omega
        | some b =>
          simp only
          split
          · exact h
          · rename_i hn
            refine href fun hp => ?_
            obtain ⟨-, hall, -, hbits⟩ := hsup hp
            exact hn ⟨hall l (List.mem_of_getElem? hl), hbits b (List.mem_of_getElem? hb)⟩

theorem Reading.m13Static (h : Reading p s) {i : Nat} (hi : i < 5) : (m13Static i s).Keeps p :=
  (h.m13Profile hi).bind fun _ _ h1 => (h1.h12Build _ _).bind fun _ _ h2 => (h2.h12Build _ _).bind fun _ _ h3 => h3.h12Build _ _

theorem Reading.m13Dynamic (h : Reading p s) (copy : Bool) {nofs : Nat} (hn : nofs < 8) : (m13Dynamic copy nofs s).Keeps p := by
  have hm : ∀ {es : List Config.CodeEntry}, p.romMeta = some es → paramsSupplied p = true →
      metaRomSound es = true ∧ soundEntries es = true := by
    intro es he
    simp only [paramsSupplied, he, Bool.and_eq_true]
    exact fun ⟨⟨⟨⟨hm, _⟩, _⟩, _⟩, _⟩ => hm
  unfold Machine.m13Dynamic
  rw [h.par]
  cases he : p.romMeta with
  | none => exact show paramsSupplied p = false by simp [paramsSupplied, he]
  | some es =>
    simp only
    split
    · refine Res.Keeps.bind ?_ fun _ t ht => ?_
      · rcases h12Buildx_cases .tMeta es s with ⟨v, -, -, hv, hx⟩ | ⟨-, hx⟩ | ⟨hs, hx⟩
        · rw [hx]; exact h.withTable .tMeta (h.par ▸ hv)
        · rw [hx]; exact h
        · rw [hx]
          exact Bool.eq_false_iff.2 fun hp => by simp [(hm he hp).2] at hs
      · have hw : (Instr.m13ReadLengths (nofs + 10)).wf = true := (wf_m13ReadLengths_iff _).2 (by omega)
        refine ht.pushTasks ?_ ?_
        · cases copy <;> simp [m13DynamicTasks, Task.ofRead, hw, wf_m13ReadLengths_iff]
        · cases copy <;> simp [m13DynamicTasks]
    · rename_i hn
      exact Bool.eq_false_iff.2 fun hp => hn (hm he hp).1

/-! ## Method 13: the stream -/

theorem M13.Ok.withCtrl {pool : Nat} {m : M13} (h : m.Ok pool) (c : Byte) : ({ m with ctrl := c } : M13).Ok pool := { h with }

theorem Reading.m13Start (h : Reading p s) : Reading p (m13Start s) := by
  unfold Machine.m13Start
  rw [brTake_eq]
  exact ((h.brAdvance 8).withM13 ((h.brAdvance 8).m13.withCtrl _)).pushTasks rfl (by simp)

theorem Reading.m13Begin (h : Reading p s) : Reading p (m13Begin s) := by
  unfold Machine.m13Begin
  refine (h.withM13 ?_).pushTasks rfl (by simp)
  exact { h.m13 with }

theorem Reading.m13Run (h : Reading p s) : Reading p (m13Run s) := h.pushTasks rfl (by simp)

theorem Reading.m13Loop (h : Reading p s) : Reading p (m13Loop s) := by
  unfold Machine.m13Loop
  split
  · exact h
  · exact h.pushTasks rfl (by simp)

theorem Reading.m13LeaveLoop (h : Reading p s) : Reading p (m13LeaveLoop s) := by
  unfold Machine.m13LeaveLoop
  split
  · rename_i ts hs
    exact h.withSeq_sublist (by rw [hs]; exact List.subset_cons_self _ _)
  · exact h

theorem Reading.m13Offset (h : Reading p s) : (m13Offset s).Keeps p := by
  refine (h.h12Decode .tOfs).bind fun v t ht => ?_
  split
  · exact ht.brAdvance _
  · exact ht

theorem Reading.m13Match (h : Reading p s) (len : Nat) : (m13Match len s).Keeps p :=
  h.m13Offset.bind fun off _ h1 => (h1.outCopy .m13 len off).bind fun _ _ h2 => h2.m13SetActive .second

/-! ## Method 14: trees -/

theorem Reading.withCurLevel (h : Reading p s) {l : Level} (hl : l.Ok p.poolSlots) : Reading p (withCurLevel l s) :=
  h.withLevel _ hl

theorem Reading.curLevel (h : Reading p s) : (curLevel s).Ok p.poolSlots := h.levelAt _

theorem Reading.m14SetDepth (h : Reading p s) (d : Nat) : Reading p (m14SetDepth d s) := h.withM14 { h.m14 with }

theorem Reading.m14ReadLengths (h : Reading p s) (n d : Nat) : Reading p (m14ReadLengths n d s) := by
  unfold Machine.m14ReadLengths
  refine ((h.withLevel d ?_).m14SetDepth d).pushTasks rfl (by simp)
  exact Level.ok_iff.2 (Level.ok_iff.1 (h.levelAt d))

/-- The header fields keep their widths (R223, R224 to R226). -/
theorem Reading.m14Hdr (h : Reading p s) (k : Bool) {j o : Nat} (hj : j < 4) (ho : o < 8) (nested : Bool) :
    Reading p (m14Hdr k j o nested s) := by
  obtain ⟨-, -, -, -, hl, ht⟩ := Level.ok_iff.1 h.curLevel
  have hm : 1 <<< (j + 2) ≤ 32 := by
    rw [Nat.one_shiftLeft]
    exact Nat.pow_le_pow_right Nat.two_pos (show j + 2 ≤ 5 by omega)
  refine h.withCurLevel (Level.ok_iff.2 ⟨?_, ?_, ?_, ?_, hl, ht⟩)
  · show j + 2 ≤ 5; omega
  · show 1 <<< (j + 2) - 1 ≤ 31; omega
  · show o + 1 ≤ 8; omega
  · show (if k then 1 <<< (j + 2) - 1 - 1 else 1 <<< (j + 2) - 1) ≤ 31
    split <;> omega

theorem Reading.m14Mode (h : Reading p s) (d : Nat) : (m14Mode d s).Keeps p := by
  unfold Machine.m14Mode
  split
  · split
    · exact h
    · exact h.pushTasks rfl (by simp)
  · exact h.pushTasks rfl (by simp)

theorem Reading.m14BuildTN (h : Reading p s) (d : Nat) : (m14BuildTN d s).Keeps p := (h.m14SetDepth d).h12Build _ _

theorem Reading.lvNext (h : Reading p s) : (lvNext s).Keeps p := by
  unfold Machine.lvNext
  split
  · exact h.h12Decode _
  · exact h.brAdvance _

theorem Reading.lvLoop (h : Reading p s) : Reading p (lvLoop s) := by
  unfold Machine.lvLoop
  split
  · exact h.pushTasks rfl (by simp)
  · exact h.withRet _

theorem Reading.lvPut (h : Reading p s) {v : Nat} (hv : v ≤ 32) : Reading p (lvPut v s) := by
  obtain ⟨hw, hm, hb, hr, ⟨hwf, hl⟩, ht⟩ := Level.ok_iff.1 h.curLevel
  exact h.withCurLevel (Level.ok_iff.2 ⟨hw, hm, hb, hr, ⟨Memory.write_wf _ _ _ hwf, lensInRange_write hl _ hv⟩, ht⟩)

theorem Reading.lvCopies (n : Nat) (h : Reading p s) : (lvCopies n s).Keeps p := by
  induction n generalizing s with
  | zero => exact h
  | succ n ih =>
    obtain ⟨-, -, -, -, ⟨-, hl⟩, -⟩ := Level.ok_iff.1 h.curLevel
    unfold Machine.lvCopies
    split
    · exact h
    · exact ih (h.lvPut (lensInRange_read hl _))

theorem Reading.lvRepeat (h : Reading p s) : (lvRepeat s).Keeps p := by
  unfold Machine.lvRepeat
  split
  · exact h
  · exact h.lvNext.bind fun e _ ht => ht.lvCopies _

theorem Reading.lvValue (h : Reading p s) (v : Nat) : (lvValue v s).Keeps p := by
  unfold Machine.lvValue
  split
  · exact h
  · exact h.lvPut (by omega)

/-! ## Method 14: blocks and the stream -/

theorem Reading.m14Start (h : Reading p s) : Reading p (m14Start s) := by
  unfold Machine.m14Start
  rw [brTake_eq]
  refine ((h.brAdvance 16).withM14 ?_).pushTasks rfl (by simp)
  exact { h.m14 with nblk := brPeek_lt 16 s }

theorem Reading.m14Blocks (h : Reading p s) : Reading p (m14Blocks s) := by
  unfold Machine.m14Blocks
  split
  · exact h.pushTasks rfl (by simp)
  · exact h

theorem Reading.m14Block (h : Reading p s) : (m14Block s).Keeps p := by
  unfold Machine.m14Block
  split
  · exact h
  · have h1 := h.brReadBits 32
    refine ((h1.withM14 ?_).brReadBits 32).pushTasks ?_ ?_
    · exact { h1.m14 with skip := brReadBits_lt 32 s }
    · unfold m14BlockTasks; split <;> rfl
    · unfold m14BlockTasks; split <;> simp

theorem Reading.m14SetRem (h : Reading p s) (n : Nat) : Reading p (m14SetRem n s) := h.withM14 { h.m14 with }

theorem Reading.m14Loop (h : Reading p s) : (m14Loop s).Keeps p := by
  unfold Machine.m14Loop
  split
  · exact h
  · split
    · exact h
    · exact h.pushTasks rfl (by simp)

theorem Reading.m14BlockEnd (h : Reading p s) : Reading p (m14BlockEnd s) :=
  h.brAlign.withM14 { h.brAlign.m14 with nblk := Nat.lt_of_le_of_lt (Nat.sub_le _ _) h.brAlign.m14.nblk }

theorem Reading.m14Offset (h : Reading p s) : (m14Offset s).Keeps p := by
  refine (h.h12Decode .td).bind fun d t ht => ?_
  split
  · exact ht.brReadBits _
  · exact ht

theorem Reading.m14Match (h : Reading p s) (c : Nat) : (m14Match c s).Keeps p := by
  refine (h.brReadBits (extra14 c)).m14Offset.bind fun off t ht => ?_
  split
  · exact ht
  · exact (ht.outCopy .m14 _ off).bind fun _ u hu => hu.m14SetRem _

/-! ## The facade -/

theorem M13.reset_ok (pool : Nat) : M13.reset.Ok pool :=
  ⟨rfl, rfl, Nat.zero_le _, rfl, Table.empty_ok pool, Table.empty_ok pool, Table.empty_ok pool, Table.empty_ok pool⟩

theorem M14.reset_ok (pool : Nat) : M14.reset.Ok pool :=
  ⟨by decide, by decide, rfl, nofun, Table.empty_ok pool, Table.empty_ok pool⟩

theorem Reading.resetRead (h : Reading p s) (f : ForkDesc) : Reading p (resetRead f s) :=
  ((((((h.withBr f.csize.isLt).withCrc 0).withWin rfl).withOutMem rfl).withOut f.usize.isLt (Nat.zero_le _)).withM13
    (M13.reset_ok _)).withM14 (M14.reset_ok _)

theorem Reading.dispatchFork (h : Reading p s) {f : ForkDesc} (hf : forkInside s.h.size f = true) :
    Reading p (dispatchFork f s) := by
  unfold Machine.dispatchFork
  split
  · exact h.withRet _
  · have h1 := h.withFork hf
    split
    · exact (h1.resetRead f).pushTasks rfl fun _ => hf
    · exact h1.pushTasks rfl fun _ => hf

theorem Reading.startDecoder (h : Reading p s) (d : Decoder) {i : Instr} (hi : (Task.op i).ofRead s.h.size = true) :
    Reading p (startDecoder d i s) :=
  (h.withDec d).pushTasks (by simpa using hi) (by simp)

theorem Reading.endCommand (h : Reading p s) (r : Result) : Reading p (endCommand r s) := h.withSt _

theorem Reading.readFork (h : Reading p s) (path : Bytes) {fork : Entry → ForkDesc} {deliver : Task}
    (hfork : ∀ e ∈ s.idx.entries, forkInside s.h.size (fork e) = true) (hd : deliver.ofRead s.h.size = true)
    (hc : deliver ≠ .fetch .cmpr) : (readFork path fork deliver s).Keeps p := by
  unfold Machine.readFork
  split
  · exact h
  · rename_i e he
    have hf := hfork e (findEntry_mem he).1
    exact h.pushTasks (by rw [List.all_cons, List.all_cons, hd, show Task.ofRead _ (.op (.dispatch (fork e))) = _ from hf]; rfl)
      (by simp [hc.symm])

end

end Sys2Proof.Machine
end

section
/-! One step from any state of the invariant: a line of a read, a host command, a line of an `OPEN`. -/

namespace Sys2Proof.Machine

section
variable {p : Config.Params} {s : State}

/-! ## The words of a read -/

theorem orUndefined_eq_ok {o : Option Instr} {i : Instr} (h : orUndefined o = .ok i) : o = some i := by
  cases o with
  | none => cases h
  | some j => cases h; rfl

theorem orUndefined_eq_error {o : Option Instr} {r : Reject} (h : orUndefined o = .error r) : r = .undefinedSymbol := by
  cases o with
  | none => cases h; rfl
  | some j => cases h

/-- A fetch inside a read: what it must answer, and what the word decoded must do. -/
theorem Reading.fetchPerform {f : Format} (hk : (fetchRaw f s).Keeps p)
    (hi : ∀ w u i, fetchRaw f s = .ok w u → Reading p u → decode f w = .ok i → Safe p (perform i u))
    (hr : ∀ w u r, fetchRaw f s = .ok w u → decode f w = .error r → r = .undefinedSymbol) : Safe p (fetchPerform f s) := by
  unfold Machine.fetchPerform
  cases hf : fetchRaw f s with
  | ok w u =>
    rw [hf] at hk
    simp only
    cases hd : decode f w with
    | ok i => exact hi w u i hf hk hd
    | error r =>
      obtain rfl := hr w u r hf hd
      exact Reading.takeError_safe hk .corruptStream
  | raised k u => rw [hf] at hk; exact Reading.takeError_safe hk k
  | fault e => rw [hf] at hk; exact hk
  | refused e => rw [hf] at hk; exact hk

/-- A symbol of a table, or a value of the nested tree, is a number and its decoder answers an instruction or nothing. -/
theorem Reading.fetchNumber {f : Format} {r : Res Nat} (hk : r.Keeps p)
    (hf : fetchRaw f s = r.bind fun v t => .ok (.num v) t)
    (hi : ∀ v u i, Reading p u → decode f (.num v) = .ok i → Safe p (perform i u))
    (hr : ∀ v e, decode f (.num v) = .error e → e = .undefinedSymbol) : Safe p (Machine.fetchPerform f s) := by
  have hw : ∀ w u, fetchRaw f s = .ok w u → ∃ v, w = .num v := by
    intro w u hw
    rw [hf, Res.bind_eq_ok] at hw
    obtain ⟨v, t, -, he⟩ := hw
    cases he
    exact ⟨v, rfl⟩
  refine Reading.fetchPerform (hf ▸ hk.bind fun _ _ ht => ht) ?_ ?_
  · intro w u i he hu hd
    obtain ⟨v, rfl⟩ := hw w u he
    exact hi v u i hu hd
  · intro w u e he hd
    obtain ⟨v, rfl⟩ := hw w u he
    exact hr v e hd

theorem Reading.metaSet (h : Reading p s) (sym : Fin 31) : Safe p (exec (.metaSet sym) s) := by
  show Safe p (execMetaSet sym s)
  unfold execMetaSet
  rw [h.par]
  cases hv : p.lenOfSym[sym.val]? with
  | some v => exact (h.m13SetCur v).safe
  | none =>
    refine Bool.eq_false_iff.2 fun hp => ?_
    simp only [paramsSupplied, Bool.and_eq_true, beq_iff_eq] at hp
    obtain ⟨⟨-, hlen⟩, -⟩ := hp
    have := List.getElem?_eq_none_iff.1 hv
    omega

theorem Reading.metaWord (h : Reading p s) {v : Nat} {i : Instr} (hd : decodeMeta v = some i) : Safe p (perform i s) := by
  unfold decodeMeta at hd
  split_ifs at hd <;> cases hd <;> rw [perform_of_wf rfl]
  · exact h.metaSet _
  · exact (h.m13SetCur _).safe
  · exact (h.m13SetCur _).safe
  · exact (h.m13SetCur _).safe
  · exact (h.m13Repeat 1 0).outcome
  · exact (h.m13Repeat 3 2).outcome
  · exact (h.m13Repeat 6 10).outcome

theorem Reading.m13Lit (h : Reading p s) (b : Byte) :
    ((Machine.outEmit .m13 b s).bind fun _ t => .ok () (Machine.m13SetActive .first t)).Keeps p :=
  (h.outEmit .m13 b).bind fun _ _ ht => ht.m13SetActive .first

theorem Reading.m13Word (h : Reading p s) {v : Nat} {i : Instr} (hd : decodeM13Sym v = some i) : Safe p (perform i s) := by
  unfold decodeM13Sym at hd
  split_ifs at hd with hlit hlen <;> cases hd
  · rw [perform_of_wf rfl]
    exact (h.m13Lit _).outcome
  · have hw : (Instr.m13Len (BitVec.ofNat 9 v)).wf = true := by
      simp only [Instr.wf, BitVec.toNat_ofNat, Bool.and_eq_true, decide_eq_true_eq]
      omega
    rw [perform_of_wf hw]
    exact (h.m13Match _).outcome
  · rw [perform_of_wf rfl]
    exact ((h.brAdvance 10).m13Match _).outcome
  · rw [perform_of_wf rfl]
    exact ((h.brAdvance 15).m13Match _).outcome
  · rw [perform_of_wf rfl]
    exact h.m13LeaveLoop.safe

theorem Reading.m13OfsWord (h : Reading p s) (v : Fin 17) : Safe p (perform (.m13Ofs v) s) := by
  rw [perform_of_wf rfl]
  exact ((h.brAdvance _).withRet _).safe

theorem Reading.m13CtrlWord (h : Reading p s) (b : Byte) : Safe p (perform (decodeM13Ctrl b) s) := by
  unfold decodeM13Ctrl
  simp only
  split_ifs
  · exact (h.m13Dynamic _ (BitVec.isLt _)).outcome
  · exact (h.m13Static (by decide)).outcome
  · exact (h.m13Static (by decide)).outcome
  · exact (h.m13Static (by decide)).outcome
  · exact (h.m13Static (by decide)).outcome
  · exact (h.m13Static (by decide)).outcome
  · have hw : (Instr.m13CtrlIllegal b).wf = true := by simp only [Instr.wf, decide_eq_true_eq]; omega
    rw [perform_of_wf hw]
    exact h.takeError_safe .corruptStream

theorem Reading.cmprWord (h : Reading p s) (hf : forkInside s.h.size s.fork = true) (b : Byte) :
    Safe p (perform (decodeCmpr b) s) := by
  unfold decodeCmpr
  split_ifs with henc h0 h13 h14
  · rw [perform_of_wf (by simpa [Instr.wf, isEncrypted] using henc)]
    exact h.takeError_safe .encrypted
  · exact (h.m0Copy hf).outcome
  · exact (h.startDecoder .m13 rfl).safe
  · exact (h.startDecoder .m14 rfl).safe
  · rw [perform_of_wf (by simp [Instr.wf, isEncrypted, isSupported, h0, h13, h14, not_not.1 henc])]
    exact h.takeError_safe .unsupportedMethod

theorem Reading.m14HdrWord (h : Reading p s) (b : Byte) : Safe p (perform (decodeM14Hdr b) s) :=
  (h.m14Hdr _ (BitVec.isLt _) (BitVec.isLt _) _).safe

theorem Reading.lenValWord (h : Reading p s) {r v : Nat} {i : Instr} (hd : decodeLenVal r v = some i) :
    Safe p (perform i s) := by
  unfold decodeLenVal at hd
  split_ifs at hd with h0 hr hv <;> cases hd
  · exact (h.lvPut (Nat.zero_le _)).safe
  · exact h.lvRepeat.outcome
  · have hw : (Instr.lvValue (BitVec.ofNat 5 v)).wf = true := by
      simp only [Instr.wf, bne_iff_ne, ne_eq, ← BitVec.toNat_inj, BitVec.toNat_ofNat]
      omega
    rw [perform_of_wf hw]
    exact (h.lvValue _).outcome

theorem Reading.m14Lit (h : Reading p s) (b : Byte) :
    ((Machine.outEmit .m14 b s).bind fun _ t => .ok () (Machine.m14SetRem (t.m14.rem - 1) t)).Keeps p :=
  (h.outEmit .m14 b).bind fun _ _ ht => ht.m14SetRem _

theorem Reading.m14Word (h : Reading p s) {v : Nat} {i : Instr} (hd : decodeM14Sym v = some i) : Safe p (perform i s) := by
  unfold decodeM14Sym at hd
  split_ifs at hd
  · cases hd
    exact (h.m14Lit _).outcome
  · have hc := matchCode_matchRows hd
    rw [perform_of_wf (wf_of_matchCode hc), exec_of_matchCode hc]
    exact (h.m14Match _).outcome

theorem Reading.m14DistWord (h : Reading p s) {v : Nat} {i : Instr} (hd : distRows[v]? = some i) : Safe p (perform i s) := by
  have hc := distCode_distRows hd
  rw [perform_of_wf (wf_of_distCode hc), exec_of_distCode hc]
  exact ((h.brReadBits _).withRet _).safe

theorem decode_m13Ofs {v : Nat} : (∀ i, decode .m13Ofs (.num v) = .ok i → ∃ w : Fin 17, i = .m13Ofs w)
    ∧ ∀ r, decode .m13Ofs (.num v) = .error r → r = .undefinedSymbol := by
  by_cases hv : v < 17
  · have he : decode .m13Ofs (.num v) = .ok (.m13Ofs ⟨v, hv⟩) := dif_pos hv
    rw [he]
    exact ⟨fun i hi => ⟨_, (Except.ok.inj hi).symm⟩, nofun⟩
  · have he : decode .m13Ofs (.num v) = .error .undefinedSymbol := dif_neg hv
    rw [he]
    exact ⟨nofun, fun r hr => (Except.error.inj hr).symm⟩

theorem decode_cmpr (b : Byte) : decode .cmpr (.num b.toNat) = .ok (decodeCmpr b) := by
  simp only [decode, if_pos b.isLt, BitVec.ofNat_toNat, BitVec.setWidth_eq]

theorem decode_m13Ctrl (b : Byte) : decode .m13Ctrl (.num b.toNat) = .ok (decodeM13Ctrl b) := by
  simp only [decode, if_pos b.isLt, BitVec.ofNat_toNat, BitVec.setWidth_eq]

theorem decode_m14Hdr {v : Nat} (h : v < 256) : decode .m14Hdr (.num v) = .ok (decodeM14Hdr (BitVec.ofNat 8 v)) := if_pos h

/-- A fetch of a read (R112). -/
theorem Reading.fetch (h : Reading p s) {f : Format} (ht : (Task.fetch f).ofRead s.h.size = true)
    (hf : f = .cmpr → forkInside s.h.size s.fork = true) : Safe p (Machine.fetchPerform f s) := by
  cases f with
  | magic1 => cases ht
  | magic2 => cases ht
  | arch => cases ht
  | ent => cases ht
  | cmpr =>
    have hw : fetchRaw .cmpr s = .ok (.num s.fork.compression.toNat) s := rfl
    rw [fetchPerform_of_decode hw (decode_cmpr _)]
    exact h.cmprWord (hf rfl) _
  | m13Ctrl =>
    have hw : fetchRaw .m13Ctrl s = .ok (.num s.m13.ctrl.toNat) s := rfl
    rw [fetchPerform_of_decode hw (decode_m13Ctrl _)]
    exact h.m13CtrlWord _
  | m13Meta =>
    exact Reading.fetchNumber (h.h12Decode .tMeta) rfl (fun _ _ _ hu hd => hu.metaWord (orUndefined_eq_ok hd))
      fun _ _ hd => orUndefined_eq_error hd
  | m13Sym =>
    exact Reading.fetchNumber (h.h12Decode (activeTable s)) rfl (fun _ _ _ hu hd => hu.m13Word (orUndefined_eq_ok hd))
      fun _ _ hd => orUndefined_eq_error hd
  | m13Ofs =>
    refine Reading.fetchNumber (h.h12Decode .tOfs) rfl (fun v u i hu hd => ?_) fun _ => decode_m13Ofs.2
    obtain ⟨w, rfl⟩ := decode_m13Ofs.1 i hd
    exact hu.m13OfsWord w
  | m14Hdr =>
    have hw : fetchRaw .m14Hdr s = .ok (.num (brPeek 8 s)) (Machine.brAdvance 8 s) := rfl
    rw [fetchPerform_of_decode hw (decode_m14Hdr (brPeek_lt 8 s))]
    exact (h.brAdvance 8).m14HdrWord _
  | m14LenVal r =>
    exact Reading.fetchNumber h.lvNext rfl (fun _ _ _ hu hd => hu.lenValWord (orUndefined_eq_ok hd))
      fun _ _ hd => orUndefined_eq_error hd
  | m14Sym =>
    exact Reading.fetchNumber (h.h12Decode .tl) rfl (fun _ _ _ hu hd => hu.m14Word (orUndefined_eq_ok hd))
      fun _ _ hd => orUndefined_eq_error hd
  | m14Dist =>
    exact Reading.fetchNumber (h.h12Decode .td) rfl (fun _ _ _ hu hd => hu.m14DistWord (orUndefined_eq_ok hd))
      fun _ _ hd => orUndefined_eq_error hd

/-! ## The lines of a read -/

/-- An instruction that a read's pseudocode calls. -/
theorem Reading.op (h : Reading p s) {i : Instr} (ht : (Task.op i).ofRead s.h.size = true) : Safe p (perform i s) := by
  cases i with
  | dispatch f => exact (h.dispatchFork ht).safe
  | crcVerify f => exact (h.crcVerify f).outcome
  | m13Start => exact h.m13Start.safe
  | m13Run => exact h.m13Run.safe
  | m14Start => exact h.m14Start.safe
  | m14Block => exact h.m14Block.outcome
  | m13ReadLengths n =>
    have hw : (Instr.m13ReadLengths n).wf = true := ht
    rw [perform_of_wf hw]
    exact (h.m13ReadLengths hw).safe
  | m13EmitLen n =>
    have hw : (Instr.m13EmitLen n).wf = true := ht
    have hn := (wf_m13EmitLen_iff n).1 hw
    rw [perform_of_wf hw]
    exact (h.m13EmitLen (by omega)).outcome
  | m14ReadLengths n d =>
    have hw : (Instr.m14ReadLengths n d).wf = true := ht
    rw [perform_of_wf hw]
    exact (h.m14ReadLengths n d).safe
  | _ => cases ht

/-- A line of a read that is no instruction and no fetch. -/
theorem Reading.line (h : Reading p s) {t : Task} (ht : t.ofRead s.h.size = true) : (runLine t s).Keeps p := by
  cases t with
  | op i => exact h
  | fetch f => exact h
  | archRest => cases ht
  | parseLoop => cases ht
  | openEnd => cases ht
  | dispatchRet => exact h.withRet _
  | deliverData => exact h.endCommand _
  | deliverRsrc => exact h.endCommand _
  | m13Begin => exact h.m13Begin
  | metaLoop => exact h.m13MetaLoop
  | m13BuildT1 => exact h.h12Build _ _
  | m13CopyT2 => exact h.withTable .t2 (h.tableAt .t1)
  | m13BuildT2 => exact h.h12Build _ _
  | m13BuildTO n => exact h.h12Build _ _
  | m13Loop => exact h.m13Loop
  | m13End => exact h.checkComplete
  | m14Mode d => exact h.m14Mode d
  | m14BuildTN d => exact h.m14BuildTN d
  | lvLoop => exact h.lvLoop
  | m14Blocks => exact h.m14Blocks
  | m14End => exact h.checkComplete
  | m14BuildTL => exact h.h12Build _ _
  | m14BuildTD => exact h.h12Build _ _
  | m14SetRem n => exact h.m14SetRem n
  | m14Loop => exact h.m14Loop
  | m14BlockEnd => exact h.m14BlockEnd

/-- A pending line is an instruction, a fetch or a line of its own (R13). -/
theorem stepTask_line {t : Task} (ho : ∀ i, t ≠ .op i) (hf : ∀ f, t ≠ .fetch f) (s : State) :
    stepTask t s = (runLine t s).outcome := by
  cases t with
  | op i => exact absurd rfl (ho i)
  | fetch f => exact absurd rfl (hf f)
  | _ => rfl

theorem Reading.stepTask (h : Reading p s) {t : Task} (ht : t.ofRead s.h.size = true)
    (hf : t = .fetch .cmpr → forkInside s.h.size s.fork = true) : Safe p (stepTask t s) := by
  by_cases ho : ∃ i, t = .op i
  · obtain ⟨i, rfl⟩ := ho
    exact h.op ht
  · by_cases hft : ∃ f, t = .fetch f
    · obtain ⟨f, rfl⟩ := hft
      exact h.fetch ht fun he => hf (congrArg Task.fetch he)
    · rw [stepTask_line (fun i he => ho ⟨i, he⟩) (fun f he => hft ⟨f, he⟩)]
      exact (h.line ht).outcome

end

end Sys2Proof.Machine
end

section
/-! An `OPEN` in progress, line by line; then one step of any kind, and runs. -/

namespace Sys2Proof.Machine

/-! ## An `OPEN` in progress -/

/-- The invariant of the registers while an `OPEN` has the lines `ts` left, with the open parameters `p`. -/
structure Opening (p : Config.Params) (ts : List Task) (s : State) : Prop where
  sound : s.Sound
  par : s.par = p
  seq : s.seq = ts

section
variable {p : Config.Params} {ts : List Task} {s : State}

theorem Opening.pop {t : Task} (h : Opening p (t :: ts) s) : Opening p ts (s.withSeq ts) :=
  ⟨{ h.sound with }, h.par, rfl⟩

theorem Opening.pushTasks (h : Opening p ts s) (new : List Task) : Opening p (new ++ ts) (pushTasks new s) :=
  ⟨{ h.sound with }, h.par, congrArg (new ++ ·) h.seq⟩

theorem Opening.withCrc (h : Opening p ts s) (v : U16) : Opening p ts (s.withCrc v) := ⟨{ h.sound with }, h.par, h.seq⟩

theorem Opening.withCp (h : Opening p ts s) {v : Parser} (hv : v.Ok) : Opening p ts (s.withCp v) :=
  ⟨{ h.sound with cp := hv }, h.par, h.seq⟩

theorem Opening.withIdx (h : Opening p ts s) {v : Index} (hv : v.Ok s.h.size s.h.flatten) : Opening p ts (s.withIdx v) :=
  ⟨{ h.sound with idx := hv }, h.par, h.seq⟩

theorem Opening.withDraws (h : Opening p ts s) (v : Nat) : Opening p ts (s.withDraws v) := ⟨{ h.sound with }, h.par, h.seq⟩

/-- No `OPEN` fetches a compression byte. -/
theorem not_mem_openAgendas_cmpr : ∀ ts ∈ openAgendas, Task.fetch .cmpr ∉ ts := by decide

/-- Between two lines of an `OPEN`; once the entry loop is over the index is shown or empty. -/
theorem Opening.safe (h : Opening p ts s) (ht : ts ∈ openAgendas)
    (hv : Task.parseLoop ∈ ts ∨ s.h.valid = true ∨ s.idx.entries = []) : Safe p (.next s) := by
  obtain ⟨hs, hp, rfl⟩ := h
  refine ⟨(State.inv_iff s).2 ⟨hs, Or.inl ht, fun hc => absurd hc (not_mem_openAgendas_cmpr _ ht), ?_⟩, hp⟩
  rcases hv with hv | hv | hv
  · exact Or.inr (Or.inr hv)
  · exact Or.inl hv
  · exact Or.inr (Or.inl hv)

/-- An `OPEN` that raises one of its kinds leaves an empty index (R326). -/
theorem Opening.takeError_safe (h : Opening p ts s) {k : ErrKind} (hk : k.ofOpen = true) : Safe p (.next (takeError k s)) :=
  ⟨h.sound.takeError_inv (Or.inl hk), by rw [takeError_par, h.par]⟩

/-- A magic that is not the field's ends the `OPEN` (R262). -/
theorem Opening.badMagic_safe (h : Opening p ts s) : Safe p (.next (takeError .badMagic s)) := h.takeError_safe rfl

/-! ### The archive header -/

theorem Opening.cpParse (h : Opening p [.openEnd] s) : Safe p (perform .cpParse s) := by
  have hcp : ({ s.cp with pos := 0, stack := [], depth := 0 } : Parser).Ok := { h.sound.cp with depth := rfl }
  exact (((h.withCp hcp).withIdx (Index.empty_ok _ _)).pushTasks _).safe (by decide) (by simp)

theorem Opening.cpArchdr (h : Opening p [.parseLoop, .openEnd] s) : Safe p (perform .cpArchdr s) := by
  rw [perform_of_wf rfl]
  show Safe p (Machine.cpArchdr s).outcome
  unfold Machine.cpArchdr
  split
  · exact h.takeError_safe rfl
  · exact (h.pushTasks _).safe (by decide) (by simp)

theorem Opening.archRest (h : Opening p [.parseLoop, .openEnd] s) : Safe p (archRest s).outcome := by
  unfold Machine.archRest
  split
  · exact h.takeError_safe rfl
  · exact (h.pushTasks _).safe (by decide) (by simp)

/-- A primary magic is accepted (R95). -/
theorem perform_of_primaryMagic {w : Nat} {i : Instr} (h : primaryMagic w = some i) (s : State) : perform i s = .next s := by
  unfold primaryMagic at h
  split_ifs at h <;> cases h <;> rfl

theorem decode_magic1 {w : Nat} (h : w < 2 ^ 32) :
    decode .magic1 (.num w) = .ok ((primaryMagic w).getD (.magicOther (BitVec.ofNat 32 w))) := if_pos h

theorem decode_magic2 {w : Nat} (h : w < 2 ^ 32) :
    decode .magic2 (.num w) = .ok (if w = secondaryMagic then .magicRLau else .magicOther (BitVec.ofNat 32 w)) := if_pos h

theorem decode_arch {bs : Bytes} (h : bs.length = 22) : decode .arch (.bytes bs) = .ok (.arch (archOfBytes bs)) := if_pos h

theorem decode_ent {bs : Bytes} (h : bs.length = 112) : decode .ent (.bytes bs) = .ok (decodeEnt (entOfBytes bs)) := if_pos h

/-- A magic is there, or the stream is too short (R262). -/
theorem fetchMagic_cases {f : Format} (hf : f = .magic1 ∨ f = .magic2) (s : State) :
    fetchRaw f s = .raised .truncated s ∨ ∃ w, w < 2 ^ 32 ∧ fetchRaw f s = .ok (.num w) s := by
  obtain ⟨a, ha⟩ : ∃ a, fetchRaw f s = fetchMagic a s := by rcases hf with rfl | rfl <;> exact ⟨_, rfl⟩
  rw [ha]
  unfold fetchMagic
  split
  · exact Or.inl rfl
  · exact Or.inr ⟨_, BitVec.isLt _, rfl⟩

theorem fetchPerform_of_raised {f : Format} {k : ErrKind} {t : State} (h : fetchRaw f s = .raised k t) :
    fetchPerform f s = .next (takeError k t) := by
  simp only [fetchPerform, h]

theorem Opening.magic1 (h : Opening p [.archRest, .parseLoop, .openEnd] s) : Safe p (fetchPerform .magic1 s) := by
  rcases fetchMagic_cases (Or.inl rfl) s with he | ⟨w, hw, he⟩
  · rw [fetchPerform_of_raised he]
    exact h.takeError_safe rfl
  · rw [fetchPerform_of_decode he (decode_magic1 hw)]
    cases hm : primaryMagic w with
    | none => exact h.badMagic_safe
    | some i =>
      rw [Option.getD_some, perform_of_primaryMagic hm]
      exact h.safe (by decide) (by simp)

theorem Opening.arch (h : Opening p [.parseLoop, .openEnd] s) : Safe p (fetchPerform .arch s) := by
  by_cases hs : s.h.size < 22
  · have he : fetchRaw .arch s = .raised .truncated s := if_pos hs
    rw [fetchPerform_of_raised he]
    exact h.takeError_safe rfl
  · have he : fetchRaw .arch s = .ok (.bytes (srcBytes s 0 22)) s := if_neg hs
    rw [fetchPerform_of_decode he (decode_arch (srcBytes_length s 0 22)), perform_of_wf rfl]
    show Safe p (archRecord _ s).outcome
    unfold archRecord
    split
    · exact h.takeError_safe rfl
    · refine ((h.withCp ?_).pushTasks _).safe (by decide) (by simp)
      exact { h.sound.cp with asize := BitVec.isLt _ }

theorem Opening.magic2 (h : Opening p [.parseLoop, .openEnd] s) : Safe p (fetchPerform .magic2 s) := by
  rcases fetchMagic_cases (Or.inr rfl) s with he | ⟨w, hw, he⟩
  · rw [fetchPerform_of_raised he]
    exact h.takeError_safe rfl
  · rw [fetchPerform_of_decode he (decode_magic2 hw)]
    split
    · have hdone : Opening p [.parseLoop, .openEnd] (archDone s) := by
        refine h.withCp ?_
        exact { h.sound.cp with }
      exact hdone.safe (by decide) (by simp)
    · exact h.badMagic_safe

/-! ### The entries -/

theorem Opening.parseLoop (h : Opening p [.openEnd] s) : Safe p (.next (parseLoop s)) := by
  unfold Machine.parseLoop
  split
  · exact (h.pushTasks _).safe (by decide) (by simp)
  · have hcp : Opening p [.openEnd] (s.withCp { s.cp with stack := [], depth := 0 }) := by
      refine h.withCp ?_
      exact { h.sound.cp with depth := rfl }
    have hv : Opening p [.openEnd] ((s.withCp { s.cp with stack := [], depth := 0 }).withH { s.h with valid := true }) :=
      ⟨{ hcp.sound with }, hcp.par, hcp.seq⟩
    exact hv.safe (by decide) (Or.inr (Or.inl rfl))

theorem Opening.headerFetched (h : Opening p ts s) : Opening p ts (headerFetched s) :=
  h.withCp { h.sound.cp with hdr := srcBytes_length s s.cp.pos 112 }

theorem Opening.cpFetch (h : Opening p [.fetch .ent, .parseLoop, .openEnd] s) : Safe p (perform .cpFetch s) := by
  rw [perform_of_wf rfl]
  show Safe p (Machine.cpFetch s).outcome
  rcases cpFetch_cases s with ⟨-, he⟩ | ⟨-, c, he | he | he⟩
  · rw [he]; exact h.takeError_safe rfl
  · rw [he]; exact (h.headerFetched.withCrc c).safe (by decide) (by simp)
  · rw [he]; exact (h.headerFetched.withCrc c).takeError_safe rfl
  · rw [he]; exact (h.headerFetched.withCrc c).takeError_safe rfl

theorem Opening.folderStart (h : Opening p ts s) (name : Bytes) : Opening p ts (folderStart name s) := by
  unfold Machine.folderStart
  split
  · exact h
  · exact h.withCp { h.sound.cp with depth := by simp [h.sound.cp.depth] }

/-- A pop takes the innermost folder, or there is none (R269). -/
theorem folderEnd_cases (s : State) : folderEnd s = .ok () s ∨ folderEnd s = .raised .folderUnderflow s
    ∨ folderEnd s = .ok () (s.withCp { s.cp with stack := s.cp.stack.dropLast, depth := s.cp.depth - 1 }) := by
  unfold folderEnd
  split
  · exact Or.inl rfl
  · split
    · exact Or.inr (Or.inl rfl)
    · exact Or.inr (Or.inr rfl)

/-- A new key keeps the index well made (R28, R272). -/
theorem Index.Ok.add {size : Nat} {flatten : Bool} {idx : Index} (h : idx.Ok size flatten) {e : Entry} {info : Bytes}
    (hn : e.key ∉ idx.entries.map (·.key)) (hf : e.dataFork.usize ≠ 0 ∨ e.resFork.usize ≠ 0)
    (hm : e.wellMade size flatten = true) (hi : info.length = 16) :
    Index.Ok size flatten { entries := idx.entries ++ [e], metadata := idx.metadata ++ [{ key := e.key, info := info }] } where
  keys := by simp [h.keys]
  nodup := by
    rw [List.map_append]
    exact h.nodup.append (List.nodup_singleton _) (by simpa using hn)
  forks := fun x hx => (List.mem_append.1 hx).elim (h.forks x) fun hx => List.mem_singleton.1 hx ▸ hf
  infos := fun x hx => (List.mem_append.1 hx).elim (h.infos x) fun hx => List.mem_singleton.1 hx ▸ hi
  made := fun x hx => (List.mem_append.1 hx).elim (h.made x) fun hx => List.mem_singleton.1 hx ▸ hm

/-- Replacing the values of a key leaves the keys. -/
theorem map_key_replace {α : Type} (key : α → Bytes) (e : α) (xs : List α) :
    (xs.map fun x => if key x = key e then e else x).map key = xs.map key := by
  rw [List.map_map]
  refine List.map_congr_left fun x _ => ?_
  show key (if key x = key e then e else x) = key x
  split
  · rename_i hx; exact hx.symm
  · rfl

/-- New values under a key that is there keep the index well made (R28, R272). -/
theorem Index.Ok.replace {size : Nat} {flatten : Bool} {idx : Index} (h : idx.Ok size flatten) {e : Entry} {info : Bytes}
    (hf : e.dataFork.usize ≠ 0 ∨ e.resFork.usize ≠ 0) (hm : e.wellMade size flatten = true) (hi : info.length = 16) :
    Index.Ok size flatten {
      entries := idx.entries.map fun x => if x.key = e.key then e else x
      metadata := idx.metadata.map fun m => if m.key = e.key then { key := e.key, info := info } else m } := by
  have hk := map_key_replace Entry.key e idx.entries
  have hk' := map_key_replace Finder.key { key := e.key, info := info } idx.metadata
  refine ⟨?_, ?_, fun x hx => ?_, fun x hx => ?_, fun x hx => ?_⟩
  · exact hk.trans (h.keys.trans hk'.symm)
  · rw [hk]; exact h.nodup
  all_goals
    obtain ⟨y, hy, rfl⟩ := List.mem_map.1 hx
    split
  · exact hf
  · exact h.forks y hy
  · exact hi
  · exact h.infos y hy
  · exact hm
  · exact h.made y hy

/-- `CP.INSERT` of an entry as `OPEN` makes it (R272). -/
theorem Opening.cpInsert (h : Opening p ts s) (ht : ts ∈ openAgendas) (hl : Task.parseLoop ∈ ts) {path : Bytes}
    {res data : ForkDesc} {finfo : Bytes}
    (hm : (Entry.mk (fold path) path data res).wellMade s.h.size s.h.flatten = true) (hi : finfo.length = 10) :
    Safe p (cpInsert (fold path) path res data finfo s).outcome := by
  have hinfo := finderInfo_length s finfo hi
  have hforks : ¬ (res.usize = 0 ∧ data.usize = 0) → data.usize ≠ 0 ∨ res.usize ≠ 0 := by tauto
  rcases cpInsert_cases (fold path) path res data finfo s with
    ⟨-, -, he⟩ | ⟨hz, hk, he⟩ | ⟨-, -, -, he⟩ | ⟨hz, -, -, he⟩ | ⟨-, -, -, he⟩
  · rw [he]; exact h.safe ht (Or.inl hl)
  · rw [he]
    exact ((h.withIdx (h.sound.idx.add ((findEntry_none_iff s _).1 hk) (hforks hz) hm hinfo)).withDraws _).safe ht (Or.inl hl)
  · rw [he]; exact h.takeError_safe rfl
  · rw [he]
    exact ((h.withIdx (h.sound.idx.replace (hforks hz) hm hinfo)).withDraws _).safe ht (Or.inl hl)
  · rw [he]; exact h.safe ht (Or.inl hl)

/-- An entry that `ENT.FILE` makes has its payloads in the stream and a key of its path (R270, R271). -/
theorem wellMade_entFile (s : State) (r : EntHdr)
    (hs : s.cp.pos + r.resCsize.toNat + r.dataCsize.toNat ≤ s.h.size) :
    (Entry.mk (fold (entryPath s (entName r))) (entryPath s (entName r)) (dataForkOf r s.cp.pos)
      (resForkOf r s.cp.pos)).wellMade s.h.size s.h.flatten = true := by
  have hpath : s.h.flatten = true → lastComponent (entryPath s (entName r)) = entryPath s (entName r) := by
    intro hf
    rw [entryPath, if_pos hf, lastComponent_idem]
  simp only [Entry.wellMade, forkInside, dataForkOf, resForkOf, beq_self_eq_true, Bool.true_and, Bool.and_eq_true,
    Bool.or_eq_true, Bool.not_eq_true', beq_iff_eq]
  refine ⟨⟨?_, decide_eq_true hs⟩, decide_eq_true (by omega)⟩
  cases hf : s.h.flatten with
  | false => exact Or.inl rfl
  | true => exact Or.inr (hpath hf)

theorem finderHead_length (r : EntHdr) : (finderHead r).length = 10 := rfl

theorem Opening.entFile (h : Opening p [.parseLoop, .openEnd] s) (r : EntHdr) : Safe p (entFile r s).outcome := by
  unfold Machine.entFile
  simp only
  split
  · exact h.takeError_safe rfl
  · rename_i hs
    refine (h.withCp ?_).cpInsert (by decide) (by simp) (wellMade_entFile s r (by omega)) (finderHead_length r)
    exact { h.sound.cp with }

/-- An entry header has room for its name (R97). -/
theorem entOfBytes_wf {bs : Bytes} (h : bs.length = 112) : (entOfBytes bs).wf = true := by
  simp [EntHdr.wf, entOfBytes, h]

/-- The record that an entry header is, with its operand legal (R92). -/
theorem decodeEnt_cases {r : EntHdr} (hr : r.wf = true) :
    (decodeEnt r).wf = true ∧ (decodeEnt r = .entFolderStart r ∨ decodeEnt r = .entFolderEnd r ∨ decodeEnt r = .entFile r) := by
  unfold decodeEnt
  split_ifs with hs he
  · exact ⟨by simp [Instr.wf, hr, dirCheck, hs], Or.inl rfl⟩
  · exact ⟨by simp [Instr.wf, hr, dirCheck, he], Or.inr (Or.inl rfl)⟩
  · exact ⟨by simp [Instr.wf, hr, dirCheck, hs, he], Or.inr (Or.inr rfl)⟩

theorem Opening.ent (h : Opening p [.parseLoop, .openEnd] s) : Safe p (fetchPerform .ent s) := by
  have he : fetchRaw .ent s = .ok (.bytes s.cp.hdr) s := rfl
  obtain ⟨hw, hd⟩ := decodeEnt_cases (entOfBytes_wf h.sound.cp.hdr)
  rw [fetchPerform_of_decode he (decode_ent h.sound.cp.hdr), perform_of_wf hw]
  rcases hd with hd | hd | hd
  · rw [hd]
    exact (h.folderStart _).safe (by decide) (by simp)
  · rw [hd]
    show Safe p (folderEnd s).outcome
    rcases folderEnd_cases s with hx | hx | hx
    · rw [hx]; exact h.safe (by decide) (by simp)
    · rw [hx]; exact h.takeError_safe rfl
    · rw [hx]
      refine (h.withCp ?_).safe (by decide) (by simp)
      exact { h.sound.cp with depth := by simp [h.sound.cp.depth] }
  · rw [hd]
    exact h.entFile _

/-- The normal end of an `OPEN` (R291). -/
theorem Opening.openEnd (h : Opening p [] s) (hv : s.h.valid = true ∨ s.idx.entries = []) :
    Safe p (.next (endCommand .none s)) := by
  have hidle : Reading p s := by
    refine ⟨h.sound, h.par, ?_, ?_, hv⟩
    · rw [h.seq]; exact nofun
    · rw [h.seq]; exact nofun
  exact (hidle.endCommand .none).safe

/-- A line of an `OPEN`, at each point of R261, R262 and R291. -/
theorem State.Sound.step_open (h : s.Sound) (ht : s.seq ∈ openAgendas)
    (hv : s.h.valid = true ∨ s.idx.entries = [] ∨ Task.parseLoop ∈ s.seq) : Safe s.par (step s) := by
  have hpop : ∀ t ts, s.seq = t :: ts → Opening s.par ts (s.withSeq ts) := fun t ts he => Opening.pop ⟨h, rfl, he⟩
  simp only [openAgendas, List.mem_cons, List.not_mem_nil, or_false] at ht
  rcases ht with e | e | e | e | e | e | e | e | e | e <;> rw [step_cons e]
  · exact (hpop _ _ e).cpParse
  · exact (hpop _ _ e).cpArchdr
  · exact (hpop _ _ e).magic1
  · exact (hpop _ _ e).archRest
  · exact (hpop _ _ e).arch
  · exact (hpop _ _ e).magic2
  · exact (hpop _ _ e).parseLoop
  · exact (hpop _ _ e).cpFetch
  · exact (hpop _ _ e).ent
  · refine (hpop _ _ e).openEnd (hv.imp_right fun hv => hv.resolve_right ?_)
    rw [e]; decide

/-! ## A host command -/

theorem Reading.hostOpen (h : Reading p s) (hi : s.seq = []) {src : Bytes} {size : BitVec 64} (hl : size.toNat ≤ src.length)
    (flatten : Bool) : Safe p (perform (.hostOpen src size flatten) s) := by
  rw [perform_of_wf rfl]
  show Safe p (execHostOpen src size flatten s)
  rw [execHostOpen, if_neg (by omega)]
  have hs : Opening p [.op .cpParse, .openEnd] (openArchive src size.toNat flatten s) := by
    refine ⟨{ h.sound with src := Memory.ofBytes_wf _ _, size := size.isLt, idx := Index.empty_ok _ _ }, h.par, ?_⟩
    show [Task.op .cpParse, Task.openEnd] ++ s.seq = _
    rw [hi]; rfl
  exact hs.safe (by decide) (Or.inr (Or.inr rfl))

/-- The forks of the entries lie in the stream (R32). -/
theorem Entry.wellMade_forks {size : Nat} {flatten : Bool} {e : Entry} (h : e.wellMade size flatten = true) :
    forkInside size e.dataFork = true ∧ forkInside size e.resFork = true := by
  simp only [Entry.wellMade, Bool.and_eq_true] at h
  obtain ⟨⟨-, hd⟩, hr⟩ := h
  exact ⟨hd, hr⟩

/-- The host's next command, when it is one the host may issue (R290, R353). -/
theorem Reading.command (h : Reading p s) (hi : s.seq = []) {c : Cmd} (hc : Cmd.legal c = true) :
    Safe p (perform (commandInstr c) s) := by
  have hforks := fun e he => Entry.wellMade_forks (h.sound.idx.made e he)
  cases c with
  | openArchive src size flatten => exact h.hostOpen hi (of_decide_eq_true hc) flatten
  | has path => exact (h.endCommand _).safe
  | list => exact ((h.endCommand _).withDraws _).safe
  | read path => exact (h.readFork path (fun e he => (hforks e he).1) rfl (by simp)).outcome
  | readRsrc path => exact (h.readFork path (fun e he => (hforks e he).2) rfl (by simp)).outcome
  | readFinfo path => exact (h.endCommand _).safe

/-! ## One step, and runs -/

/-- A step while the block is idle or reads. -/
theorem Reading.step (h : Reading p s) : Safe p (step s) := by
  cases hs : s.seq with
  | cons t ts =>
    rw [step_cons hs]
    have hpop : Reading p (s.withSeq ts) := h.withSeq_sublist (by rw [hs]; exact List.subset_cons_self _ _)
    refine hpop.stepTask (h.tasks t (by simp [hs])) fun ht => h.fork ?_
    rw [hs, ht]
    exact List.mem_cons_self
  | nil =>
    cases hc : s.host with
    | nil => rw [step_idle hs hc]; exact h.safe
    | cons c cs =>
      have hl := h.sound.host
      rw [hc, List.all_cons, Bool.and_eq_true] at hl
      rw [step_command hs hc]
      exact (h.withHost hl.2).command hs hl.1

/-- Progress and preservation: from a state of the invariant a step does not fault, is refused only where a parameter was not
supplied, and keeps the invariant and the parameters. -/
theorem step_safe (h : s.Inv) : Safe s.par (step s) := by
  rcases h.cases with ⟨hs, ht⟩ | hr
  · exact hs.step_open ht ((State.inv_iff s).1 h).2.shown
  · exact hr.step

/-- With every parameter supplied a safe outcome is a next state. -/
theorem Safe.next {o : Host.Outcome State Fault Refusal} (h : Safe p o) (hp : paramsSupplied p = true) :
    ∃ t, o = .next t ∧ t.Inv ∧ t.par = p := by
  cases o with
  | next t => exact ⟨t, rfl, h⟩
  | fault e => exact absurd h id
  | refused e => exact absurd (hp.symm.trans h) (by simp)

/-- With every parameter supplied a run from a state of the invariant goes on for ever. -/
theorem runsForever_of_inv (h : s.Inv) (hp : paramsSupplied s.par = true) : RunsForever s := by
  intro n
  induction n generalizing s with
  | zero => exact ⟨s, run_zero s⟩
  | succ n ih =>
    obtain ⟨t, ht, hti, htp⟩ := (step_safe h).next hp
    rw [run_next ht]
    exact ih hti (htp.symm ▸ hp)

end

/-- After reset the block is idle with every register in range, whatever the parameters and the commands queued (R50 to R52). -/
theorem reset_reading (p : Config.Params) {cs : List Cmd} (hc : cs.all Cmd.legal = true) :
    Reading p { State.reset with par := p, host := cs } where
  sound := {
    src := rfl
    win := rfl
    outMem := rfl
    br := Nat.two_pow_pos 32
    outSize := Nat.two_pow_pos 32
    outCnt := Nat.le_refl _
    m13 := M13.reset_ok _
    m14 := M14.reset_ok _
    cp := ⟨Nat.two_pow_pos 32, rfl, rfl⟩
    size := Nat.two_pow_pos 64
    idx := Index.empty_ok _ _
    host := hc }
  par := rfl
  tasks := nofun
  fork := nofun
  shown := Or.inr rfl

end Sys2Proof.Machine
end

section
/-! The statements about parameters and safety, and those about single steps and units of the scope. -/

namespace Sys2Proof.Machine

open Config (CodeEntry)

/-! ## Explicit codes -/

/-- Explicit codes in the order of R166, where every pair of the list is in order. -/
theorem sortedEntries_sorted (es : List CodeEntry) :
    (sortedEntries es).Pairwise fun a b => a.len < b.len ∨ (a.len = b.len ∧ a.sym ≤ b.sym) := by
  have total : Std.Total fun a b : CodeEntry => a.len < b.len ∨ (a.len = b.len ∧ a.sym ≤ b.sym) := ⟨fun _ _ => by omega⟩
  have trans : IsTrans CodeEntry fun a b => a.len < b.len ∨ (a.len = b.len ∧ a.sym ≤ b.sym) := ⟨fun _ _ _ => by omega⟩
  exact List.pairwise_insertionSort _ es

theorem sortedEntries_perm (es : List CodeEntry) : (sortedEntries es).Perm es := List.perm_insertionSort _ es

theorem patternsClash_comm (a b : CodeEntry) : patternsClash a b = patternsClash b a := by
  rw [patternsClash, patternsClash, Nat.min_comm, Bool.beq_comm]

/-- Of two codes that do not clash the shorter does not start the longer (R166). -/
theorem mod_ne_of_not_clash {a b : CodeEntry} (hc : patternsClash a b = false) (hl : a.len ≤ b.len)
    (ha : a.pattern < 2 ^ a.len) : b.pattern % 2 ^ a.len ≠ a.pattern := by
  intro he
  simp [patternsClash, Nat.min_eq_left hl, he, Nat.mod_eq_of_lt ha] at hc

/-- A list that `H12.BUILDX` accepts is, in R166's order, one of patterns of 1 to 32 bits of which none starts a later one. -/
theorem sortedEntries_prefixFree {es : List CodeEntry} (h : soundEntries es = true) :
    PrefixFree (sortedEntries es) ∧ ∀ c ∈ sortedEntries es, 1 ≤ c.len ∧ c.pattern < 2 ^ c.len := by
  obtain ⟨hcodes, hclash⟩ := (soundEntries_iff es).1 h
  have hperm := sortedEntries_perm es
  have hmem : ∀ c ∈ sortedEntries es, 1 ≤ c.len ∧ c.len ≤ 32 ∧ c.pattern < 2 ^ c.len := fun c hc => hcodes c (hperm.mem_iff.1 hc)
  have hclash' : (sortedEntries es).Pairwise fun a b => patternsClash a b = false :=
    (hperm.pairwise_iff fun hab => patternsClash_comm _ _ ▸ hab).2 hclash
  refine ⟨((sortedEntries_sorted es).and hclash').imp_of_mem ?_, fun c hc => ⟨(hmem c hc).1, (hmem c hc).2.2⟩⟩
  rintro a b ha - ⟨hord, hab⟩
  have hl : a.len ≤ b.len := by omega
  exact ⟨hl, mod_ne_of_not_clash hab hl (hmem a ha).2.2⟩

/-- The nodes that a code needs do not depend on the order of its list (R170). -/
theorem poolNodes_perm {cs ds : List CodeEntry} (h : cs.Perm ds) : poolNodes cs = poolNodes ds :=
  (h.flatMap_right nodePrefixes).dedup.length_eq

/-- A code of at most 32 bits needs at most 21 nodes (R170). -/
theorem nodePrefixes_length_le {c : CodeEntry} (h : c.len ≤ 32) : (nodePrefixes c).length ≤ 21 := by
  unfold nodePrefixes
  split
  · simp; omega
  · simp

theorem poolNodes_le {cs : List CodeEntry} (h : ∀ c ∈ cs, c.len ≤ 32) : poolNodes cs ≤ 21 * cs.length := by
  have hsum : (cs.map fun c => (nodePrefixes c).length).sum ≤ (cs.map fun c => (nodePrefixes c).length).length • 21 := by
    refine List.sum_le_card_nsmul _ 21 fun n hn => ?_
    obtain ⟨c, hc, rfl⟩ := List.mem_map.1 hn
    exact nodePrefixes_length_le (h c hc)
  calc poolNodes cs ≤ (cs.flatMap nodePrefixes).length := (List.dedup_sublist _).length_le
    _ = (cs.map fun c => (nodePrefixes c).length).sum := List.length_flatMap
    _ ≤ 21 * cs.length := by simpa [Nat.mul_comm] using hsum

/-- What building the table of a sound list does (R164, R166, R169). -/
theorem buildTableX_of_sound {es : List CodeEntry} (pool : Nat) (h : soundEntries es = true) :
    (poolNodes es ≤ pool → ∃ v, buildTableX pool es = some v ∧ v.nnodes = poolNodes es)
      ∧ (pool < poolNodes es → buildTableX pool es = none) := by
  obtain ⟨hpf, hp⟩ := sortedEntries_prefixFree h
  obtain ⟨hfit, hfull⟩ := placeCodes_table pool hpf hp
  rw [poolNodes_perm (sortedEntries_perm es)] at hfit hfull
  refine ⟨fun hle => ?_, hfull⟩
  obtain ⟨v, -, hv, hn, -⟩ := hfit hle
  exact ⟨v, hv, hn⟩

theorem h12Buildx_of_unsound {es : List CodeEntry} (h : soundEntries es = false) (id : TableId) (s : State) :
    h12Buildx id es s = .refused .badRom := by
  simp [h12Buildx, h]

theorem h12Buildx_of_some {es : List CodeEntry} {s : State} {v : Table} (h : soundEntries es = true)
    (hv : buildTableX s.par.poolSlots es = some v) (id : TableId) : h12Buildx id es s = .ok () (withTable s id v) := by
  simp [h12Buildx, h, hv]

theorem h12Buildx_of_none {es : List CodeEntry} {s : State} (h : soundEntries es = true)
    (hv : buildTableX s.par.poolSlots es = none) (id : TableId) : h12Buildx id es s = .raised .corruptStream s := by
  simp [h12Buildx, h, hv]

/-- `H12.BUILDX` performed by itself. -/
theorem exec_h12Buildx (id : TableId) (es : List CodeEntry) (s : State) :
    exec (.h12Buildx id es) s = (h12Buildx id es s).outcome := rfl

/-! ## Method 13's ROM -/

/-- A profile is not found without both ROM parameters (R183, R335). -/
theorem m13Profile_of_none {s : State} (h : s.par.romStatic = none ∨ s.par.romStaticBits = none) (i : Nat) :
    m13Profile i s = .refused .noRom := by
  unfold m13Profile
  rcases h with h | h
  · rw [h]
  · rw [h]
    cases s.par.romStatic with
    | none => rfl
    | some ls => rfl

/-- A profile that is not of R9's form is refused (log 17). -/
theorem m13Profile_of_unsound {s : State} {i : Nat} {ls : List (List Nat)} {bs l : List Nat} (hls : s.par.romStatic = some ls)
    (hbs : s.par.romStaticBits = some bs) (hl : ls[i]? = some l) (hu : profileSound l = false) :
    m13Profile i s = .refused .badRom := by
  unfold m13Profile
  rw [hls, hbs]
  simp only [hl]
  cases bs[i]? with
  | none => rfl
  | some b => simp [hu]

/-- Every static row is `M13.STATIC` of its profile (R93, R183). -/
theorem exec_of_staticProfile {i : Instr} {n : Nat} (h : staticProfile i = some n) (s : State) :
    exec i s = (m13Static n s).outcome := by
  unfold staticProfile at h
  split at h <;> cases h <;> rfl

theorem m13Static_of_refused {s : State} {i : Nat} {e : Refusal} (h : m13Profile i s = .refused e) :
    m13Static i s = .refused e := by
  rw [m13Static, h, Res.bind_refused]

/-- `M13.DYNAMIC` is refused without its ROM (R186, R335). -/
theorem m13Dynamic_of_none {s : State} (h : s.par.romMeta = none) (copy : Bool) (nofs : Nat) :
    m13Dynamic copy nofs s = .refused .noRom := by
  rw [m13Dynamic, h]

/-- `M13.DYNAMIC` is refused with a meta code that is not of R9's form (log 17). -/
theorem m13Dynamic_of_unsound {s : State} {es : List CodeEntry} (h : s.par.romMeta = some es) (hu : metaRomSound es = false)
    (copy : Bool) (nofs : Nat) : m13Dynamic copy nofs s = .refused .badRom := by
  rw [m13Dynamic, h]
  simp [hu]

/-- A meta code without one of its 37 symbols is not of R9's form. -/
theorem metaRomSound_of_missing {es : List CodeEntry} {sym : Nat} (hs : sym < 37) (h : ∀ e, e ∈ es → e.sym ≠ sym) :
    metaRomSound es = false := by
  have hany : (es.any fun e => e.sym == sym) = false := by simpa using h
  refine Bool.eq_false_iff.2 fun hm => ?_
  rw [metaRomSound, Bool.and_eq_true, List.all_eq_true] at hm
  exact Bool.false_ne_true (hany.symm.trans (hm.2 sym (List.mem_range.2 hs)))

/-- A profile with a length above 32 is not of R9's form. -/
theorem profileSound_of_long {l : List Nat} {x : Nat} (hx : x ∈ l) (h : 32 < x) : profileSound l = false := by
  refine Bool.eq_false_iff.2 fun hp => ?_
  rw [profileSound, Bool.and_eq_true, List.all_eq_true] at hp
  have := of_decide_eq_true (hp.2 x hx)
  omega

/-! ## Error kinds and their numbers -/

/-- The kinds in the order of R321's table. -/
def ErrKind.all : List ErrKind :=
  [.ok, .badMagic, .truncated, .nameTooLong, .headerCrcMismatch, .encrypted, .unsupportedMethod, .corruptStream,
    .payloadCrcMismatch, .notFound, .folderUnderflow, .duplicatePath]

theorem ErrKind.mem_all (k : ErrKind) : k ∈ ErrKind.all := by cases k <;> decide

/-- The numbers of `ERR_CODE` are those of the kinds in that order. -/
theorem errCodes_toList (c : Config.ErrCodes) : c.toList = ErrKind.all.map (kindCode c) := rfl

/-- Kinds whose numbers are all different have different numbers (R9). -/
theorem kindCode_injective {c : Config.ErrCodes} (h : c.distinct = true) {k k' : ErrKind} (he : kindCode c k = kindCode c k') :
    k = k' := by
  have hn : (ErrKind.all.map (kindCode c)).Nodup := errCodes_toList c ▸ of_decide_eq_true h
  exact List.inj_on_of_nodup_map hn k.mem_all k'.mem_all he

/-- A kind of `OPEN` (R320, R326). -/
theorem takeError_of_ofOpen {k : ErrKind} (h : k.ofOpen = true) (s : State) :
    takeError k s = { s with seq := [], st := { err := k, result := .none }, h := { s.h with valid := false },
                             idx := { entries := [], metadata := [] } } := by
  rw [takeError_eq, if_pos h]

/-- A kind of a read (R320, R326). -/
theorem takeError_of_not_ofOpen {k : ErrKind} (h : k.ofOpen = false) (s : State) :
    takeError k s = { s with seq := [], st := { err := k, result := .none } } := by
  rw [takeError_eq, if_neg (by simp [h])]

/-! ## The sequencer -/

/-- The next line is a fetch. -/
theorem step_fetch {s : State} {f : Format} {ts : List Task} (h : s.seq = .fetch f :: ts) :
    step s = fetchPerform f { s with seq := ts } := step_cons h

/-- A word that its format does not have is `CorruptStream` (R320). -/
theorem fetchPerform_of_undefined {f : Format} {w : Raw} {s t : State} (hf : fetchRaw f s = .ok w t)
    (hd : decode f w = .error .undefinedSymbol) : fetchPerform f s = .next (takeError .corruptStream t) := by
  simp only [fetchPerform, hf, hd, rejected]

/-- The operands of a host command have no range. -/
theorem commandInstr_wf (c : Cmd) : (commandInstr c).wf = true := by cases c <;> rfl

/-! ## The index -/

/-- `CP.INSERT` performed by itself. -/
theorem exec_cpInsert (key path : Bytes) (res data : ForkDesc) (finfo : Bytes) (s : State) :
    exec (.cpInsert key path res data finfo) s = (cpInsert key path res data finfo s).outcome := rfl

/-- The tail of a Finder info record: the six bytes drawn (R116). -/
def finderTail (s : State) : Bytes := be48Bytes (Config.finfoTail s.draws)

theorem finderTail_length (s : State) : (finderTail s).length = 6 := rfl

theorem findEntry_isSome_iff (s : State) (key : Bytes) : (findEntry s key).isSome = true ↔ key ∈ s.idx.entries.map (·.key) := by
  rw [← not_iff_not, Bool.not_eq_true, findEntry_none_iff]

section
variable {key path : Bytes} {res data : ForkDesc} {finfo : Bytes} {s : State}

/-- An entry with no data goes nowhere (R272). -/
theorem cpInsert_of_empty (hz : res.usize = 0 ∧ data.usize = 0) : cpInsert key path res data finfo s = .ok () s := if_pos hz

/-- A new key goes into both maps (R272). -/
theorem cpInsert_of_new (hz : ¬ (res.usize = 0 ∧ data.usize = 0)) (hk : key ∉ s.idx.entries.map (·.key)) :
    cpInsert key path res data finfo s = .ok () (indexAdd key path res data finfo s) := by
  rw [cpInsert, if_neg hz, if_neg (mt (findEntry_isSome_iff s key).1 hk)]

/-- A key that is there is what the policy says (R9, R272). -/
theorem cpInsert_of_present (path finfo : Bytes) (hz : ¬ (res.usize = 0 ∧ data.usize = 0)) (hk : key ∈ s.idx.entries.map (·.key)) :
    (s.par.dupPolicy = .refuse → cpInsert key path res data finfo s = .raised .duplicatePath s)
      ∧ (s.par.dupPolicy = .firstWins → cpInsert key path res data finfo s = .ok () s)
      ∧ (s.par.dupPolicy = .lastWins →
          cpInsert key path res data finfo s = .ok () (indexReplace key path res data finfo s)) := by
  rw [cpInsert, if_neg hz, if_pos ((findEntry_isSome_iff s key).2 hk)]
  exact ⟨fun hd => by rw [hd], fun hd => by rw [hd], fun hd => by rw [hd]⟩

end

end Sys2Proof.Machine

namespace Sys2Proof.Proofs

open Sys2Proof Sys2Proof.Machine

/-- Settles O11: progress is half of `step_safe`; with the parameters supplied no refusal is left. -/
theorem noStopWithParameters : Obligations.NoStopWithParameters := by
  intro s hs hp
  obtain ⟨t, ht, -, -⟩ := (step_safe hs).next hp
  exact ⟨t, ht⟩

/-- Settles O12: reset meets the invariant, and a run from the invariant goes on. -/
theorem runsForeverFromReset : Obligations.RunsForeverFromReset := by
  intro p cs hp hc
  exact runsForever_of_inv (reset_reading p hc).inv hp

/-- Settles O28: in R166's order no code starts a later one, so the build needs just the codes' `nodePrefixes`. -/
theorem buildOfAnExplicitCode : Obligations.BuildOfAnExplicitCode := by
  intro s T es
  refine ⟨fun hs => ?_, fun hs => ?_⟩
  · obtain ⟨hfit, hfull⟩ := buildTableX_of_sound s.par.poolSlots hs
    obtain ⟨hcodes, -⟩ := (soundEntries_iff es).1 hs
    refine ⟨poolNodes_le fun c hc => (hcodes c hc).2.1, fun hle => ?_, fun hlt => ?_⟩
    · obtain ⟨v, hv, hn⟩ := hfit hle
      exact ⟨v, hv, hn, by rw [exec_h12Buildx, h12Buildx_of_some hs hv, Res.outcome_ok]⟩
    · rw [exec_h12Buildx, h12Buildx_of_none hs (hfull hlt), Res.outcome_raised]
  · rw [exec_h12Buildx, h12Buildx_of_unsound hs, Res.outcome_refused]

/-- Settles O5, from what a step does with its next line and with the host's next command. -/
theorem stepRunsTheDecodedInstruction : Obligations.StepRunsTheDecodedInstruction := by
  refine ⟨?_, ?_, ?_, ?_⟩
  · intro s f ts w t i hs hf hd hw
    rw [step_fetch hs, fetchPerform_of_decode hf hd, perform_of_wf hw]
  · intro s i ts hs hw
    rw [step_cons hs]
    exact perform_of_wf hw _
  · intro s c cs hs hc
    rw [step_command hs hc]
    exact perform_of_wf (commandInstr_wf c) _
  · intro s hs hc
    exact step_idle hs hc

/-- Settles O7: each kind is `OPEN`'s or a read's; the numbers differ since `ERR_CODE` has no number twice. -/
theorem faultsAreTaken : Obligations.FaultsAreTaken := by
  have hopen : ∀ k ∈ [ErrKind.badMagic, .truncated, .nameTooLong, .headerCrcMismatch, .folderUnderflow, .duplicatePath],
      k.ofOpen = true := by decide
  have hread : ∀ k ∈ [ErrKind.encrypted, .unsupportedMethod, .corruptStream, .payloadCrcMismatch, .notFound],
      k.ofOpen = false := by decide
  refine ⟨fun k hk => takeError_of_ofOpen (hopen k hk), fun k hk => takeError_of_not_ofOpen (hread k hk), ?_, ?_, ?_, ?_, ?_, ?_⟩
  · intro s f ts k t hs hf
    rw [step_fetch hs, fetchPerform_of_raised hf]
  · intro s f ts w t hs hf hd
    rw [step_fetch hs, fetchPerform_of_undefined hf hd]
  · intro k s
    rw [statusCode, takeError_par, takeError_st]
  · intro r s
    rfl
  · rfl
  · intro p k k' hp he
    refine kindCode_injective ?_ he
    rw [paramsSupplied, Bool.and_eq_true] at hp
    exact hp.2

/-- Settles O9: after reset the block is idle, with every register in range. -/
theorem resetMeetsInvariant : Obligations.ResetMeetsInvariant := fun p _ hc => (reset_reading p hc).inv

/-- Settles O35: the two forms of the tables' rows, with the ROM missing or malformed. -/
theorem missingRomIsRefused : Obligations.MissingRomIsRefused := by
  have hdynamic : ∀ s e, (∀ copy nofs, m13Dynamic copy nofs s = .refused e) → ∀ copy nofs,
      exec (.m13CtrlDynamic copy nofs) s = .refused e ∧ exec .m13Dynamic s = .refused e :=
    fun s e h copy nofs => ⟨congrArg Res.outcome (h copy nofs.toNat), congrArg Res.outcome (h _ _)⟩
  have hstatic : ∀ s i p e, staticProfile i = some p → m13Profile p s = .refused e → exec i s = .refused e := by
    intro s i p e hi h
    rw [exec_of_staticProfile hi, m13Static_of_refused h, Res.outcome_refused]
  refine ⟨?_, ?_, ?_, ?_⟩
  · intro s copy nofs h
    exact hdynamic s _ (m13Dynamic_of_none h) copy nofs
  · intro s i p hi h
    exact hstatic s i p _ hi (m13Profile_of_none h p)
  · intro s copy nofs es sym h hs hm
    exact hdynamic s _ (m13Dynamic_of_unsound h (metaRomSound_of_missing hs hm)) copy nofs
  · intro s i p ls bs l x hi hls hbs hl hx h32
    exact hstatic s i p _ hi (m13Profile_of_unsound hls hbs hl (profileSound_of_long hx h32))

/-- Settles O55: an entry without data, a new key, a key that is there; the tail is the draw's. -/
theorem insertFollowsThePolicy : Obligations.InsertFollowsThePolicy := by
  intro s key path res data finfo
  rw [exec_cpInsert]
  refine ⟨fun hz => ?_, fun hz hk => ?_, fun hz hk => ?_⟩
  · rw [cpInsert_of_empty hz, Res.outcome_ok]
  · refine ⟨finderTail s, finderTail_length s, ?_⟩
    rw [cpInsert_of_new hz hk, Res.outcome_ok]
    rfl
  · obtain ⟨hrefuse, hfirst, hlast⟩ := cpInsert_of_present path finfo hz hk
    refine ⟨fun hd => ?_, fun hd => ?_, fun hd => ?_⟩
    · rw [hrefuse hd, Res.outcome_raised]
    · rw [hfirst hd, Res.outcome_ok]
    · refine ⟨finderTail s, finderTail_length s, ?_⟩
      rw [hlast hd, Res.outcome_ok]
      rfl

end Sys2Proof.Proofs
end

section
/-! The statements about the state: the fields a fetch, a header, an `OPEN` and a dispatch set, and the invariant every step keeps. -/

namespace Sys2Proof.Machine

open Config (CodeEntry)

/-! ## Words of `SRC` -/

/-- A byte after the bits before it, as a number (R68). -/
theorem toNat_append_byte {n : Nat} (x : BitVec n) (b : Byte) : (x ++ b).toNat = x.toNat * 256 + b.toNat := by
  rw [BitVec.toNat_append, ← Nat.shiftLeft_add_eq_or_of_lt b.isLt, Nat.shiftLeft_eq]

/-- `BE32` as a number (R10, R68). -/
theorem be32_toNat (b0 b1 b2 b3 : Byte) :
    (be32 b0 b1 b2 b3).toNat = ((b0.toNat * 256 + b1.toNat) * 256 + b2.toNat) * 256 + b3.toNat := by
  simp only [be32, toNat_append_byte]

/-- A byte of a slice. -/
theorem Memory.slice_getD (m : Memory Byte) (a : Nat) {n i : Nat} (h : i < n) :
    (Memory.slice m a n).getD i 0 = Memory.read m (a + i) := by
  rw [List.getD_eq_getElem _ _ (by rwa [Memory.slice_length]), Memory.slice_getElem]

/-- A magic that lies in the stream is fetched big-endian (R95, R262). -/
theorem fetchMagic_of_inside {s : State} {a : Nat} (h : a + 4 ≤ s.h.size) :
    fetchMagic a s = .ok (.num ((((Memory.read s.src a).toNat * 256 + (Memory.read s.src (a + 1)).toNat) * 256
      + (Memory.read s.src (a + 2)).toNat) * 256 + (Memory.read s.src (a + 3)).toNat)) s := by
  have hword : (be32At (srcBytes s a 4) 0).toNat = (((Memory.read s.src a).toNat * 256 + (Memory.read s.src (a + 1)).toNat) * 256
      + (Memory.read s.src (a + 2)).toNat) * 256 + (Memory.read s.src (a + 3)).toNat := by
    rw [be32At, be32_toNat, srcBytes, Memory.slice_getD _ _ (by omega), Memory.slice_getD _ _ (by omega),
      Memory.slice_getD _ _ (by omega), Memory.slice_getD _ _ (by omega)]
    rfl
  rw [fetchMagic, if_neg (Nat.not_lt.2 h), hword]

/-- A symbol that the table decodes is the word fetched (R112, R167). -/
theorem fetchSymbol_of_decode {id : TableId} {s t : State} {v : Nat} (h : h12Decode id s = .ok v t) :
    fetchSymbol id s = .ok (.num v) t := by
  rw [fetchSymbol, h, Res.bind_ok]

/-- The table in force is the one that `M13.active` names (R196). -/
theorem activeTable_of_first {s : State} (h : s.m13.active = .first) : activeTable s = .t1 := by
  rw [activeTable, h]

theorem activeTable_of_second {s : State} (h : s.m13.active = .second) : activeTable s = .t2 := by
  rw [activeTable, h]

/-- A value under a raw header is a field of the header's width (R227). -/
theorem lvNext_of_raw {s : State} (h : (curLevel s).nested = false) :
    lvNext s = .ok (brField s s.br.pos (curLevel s).w) (brAdvance (curLevel s).w s) := by
  rw [lvNext, h]
  rfl

/-- A value under a nested header is a symbol of the level's table (R230). -/
theorem lvNext_of_nested {s : State} (h : (curLevel s).nested = true) : lvNext s = h12Decode (.tn s.m14.depth) s := if_pos h

theorem fetchRaw_lenVal {r v : Nat} {s t : State} (h : lvNext s = .ok v t) : fetchRaw (.m14LenVal r) s = .ok (.num v) t := by
  rw [fetchRaw, h, Res.bind_ok]

/-! ## Tree headers -/

/-- The level in progress after its registers were replaced. -/
theorem curLevel_withCurLevel {s : State} (h : levelsWf s = true) (l : Level) : curLevel (withCurLevel l s) = l := by
  show levelAt (withLevel s s.m14.depth l) s.m14.depth = l
  rw [levelAt_withLevel h, if_pos rfl]

/-- Every other level is as it was. -/
theorem levelAt_withCurLevel {s : State} (h : levelsWf s = true) (l : Level) {d : Nat} (hd : d ≠ s.m14.depth) :
    levelAt (withCurLevel l s) d = levelAt s d := by
  show levelAt (withLevel s s.m14.depth l) d = levelAt s d
  rw [levelAt_withLevel h, if_neg hd]

/-- The level in progress after its header (R223 to R226). -/
theorem curLevel_m14Hdr {s : State} (h : levelsWf s = true) (k : Bool) (j o : Nat) (nested : Bool) :
    curLevel (m14Hdr k j o nested s) = { curLevel s with
      k := k
      w := j + 2
      m := 2 ^ (j + 2) - 1
      bias := o + 1
      r := if k then 2 ^ (j + 2) - 2 else 2 ^ (j + 2) - 1
      nested := nested } := by
  rw [m14Hdr, curLevel_withCurLevel h, Nat.one_shiftLeft, Nat.sub_sub]

/-! ## Method 13's dynamic mode -/

/-- The form of R9 for a meta code: 37 entries, among them each of the symbols 0 to 36. -/
theorem metaRomSound_iff (es : List CodeEntry) :
    metaRomSound es = true ↔ es.length = 37 ∧ ∀ sym, sym < 37 → ∃ e, e ∈ es ∧ e.sym = sym := by
  simp only [metaRomSound, Bool.and_eq_true, beq_iff_eq, List.all_eq_true, List.mem_range, List.any_eq_true]

/-- A code of words of at most 32 bits is built in a pool of 21 nodes for each (R166, R170). -/
theorem buildTableX_of_room {es : List CodeEntry} {pool : Nat} (h : soundEntries es = true) (hp : 21 * es.length ≤ pool) :
    ∃ v, buildTableX pool es = some v := by
  obtain ⟨hcodes, -⟩ := (soundEntries_iff es).1 h
  have hnodes : poolNodes es ≤ 21 * es.length := poolNodes_le fun c hc => (hcodes c hc).2.1
  obtain ⟨v, hv, -⟩ := (buildTableX_of_sound pool h).1 (hnodes.trans hp)
  exact ⟨v, hv⟩

/-- `M13.DYNAMIC` with its ROM: the meta table, then the lines of R186. -/
theorem m13Dynamic_of_built {s : State} {es : List CodeEntry} {v : Table} (h : s.par.romMeta = some es)
    (hm : metaRomSound es = true) (hs : soundEntries es = true) (hv : buildTableX s.par.poolSlots es = some v)
    (copy : Bool) (nofs : Nat) :
    m13Dynamic copy nofs s = .ok () (pushTasks (m13DynamicTasks copy nofs) (withTable s .tMeta v)) := by
  rw [m13Dynamic, h]
  simp only [hm, if_true, h12Buildx_of_some hs hv, Res.bind_ok]

/-! ## The entry loop -/

/-- While the archive goes on, the next header is fetched (R261, R264). -/
theorem parseLoop_of_more {s : State} (h : s.cp.pos < s.cp.asize ∧ s.cp.pos < s.h.size) :
    parseLoop s = pushTasks [.op .cpFetch, .fetch .ent, .parseLoop] s := if_pos h

/-- Its end makes the handle valid and discards the folders still open (R261, R273). -/
theorem parseLoop_of_end {s : State} (h : ¬ (s.cp.pos < s.cp.asize ∧ s.cp.pos < s.h.size)) :
    parseLoop s = (s.withCp { s.cp with stack := [], depth := 0 }).withH { s.h with valid := true } := if_neg h

section
variable {s : State} (hin : s.cp.pos + 112 ≤ s.h.size)
include hin

/-- A header that lies in the stream and whose CRC is wrong (R266). -/
theorem cpFetch_of_badCrc (h : headerCrc s ≠ be16At (srcBytes s s.cp.pos 112) 110) :
    cpFetch s = .raised .headerCrcMismatch ((headerFetched s).withCrc (headerCrc s)) := by
  rw [cpFetch_eq, if_neg (Nat.not_lt.2 hin), if_pos h]

/-- A header with a right CRC and a name that is too long (R267). -/
theorem cpFetch_of_longName (h : headerCrc s = be16At (srcBytes s s.cp.pos 112) 110)
    (hn : 31 < ((srcBytes s s.cp.pos 112).getD 2 0).toNat) :
    cpFetch s = .raised .nameTooLong ((headerFetched s).withCrc (headerCrc s)) := by
  rw [cpFetch_eq, if_neg (Nat.not_lt.2 hin), if_neg (not_not.2 h), if_pos hn]

/-- A header that passes the three tests (R265 to R267). -/
theorem cpFetch_of_good (h : headerCrc s = be16At (srcBytes s s.cp.pos 112) 110)
    (hn : ((srcBytes s s.cp.pos 112).getD 2 0).toNat ≤ 31) :
    cpFetch s = .ok () ((headerFetched s).withCrc (headerCrc s)) := by
  rw [cpFetch_eq, if_neg (Nat.not_lt.2 hin), if_neg (not_not.2 h), if_neg (Nat.not_lt.2 hn)]

end

/-! ## The facade -/

/-- `SRC` after an `OPEN`: the first bytes given, and zero beyond them (R291). -/
theorem read_openArchive (src : Bytes) (size : Nat) (flatten : Bool) (s : State) (a : Nat) :
    Memory.read (openArchive src size flatten s).src a = if a < size then src.getD a 0#8 else 0#8 := by
  show Memory.read (Memory.ofBytes 0 (src.take size)) a = _
  rw [Memory.read_ofBytes, if_pos (Nat.zero_le a), Nat.sub_zero]
  split
  · rename_i ha
    simp only [List.getD_eq_getElem?_getD, List.getElem?_take_of_lt ha]
    rfl
  · rename_i ha
    exact List.getD_eq_default _ _ (by simp; omega)

/-- A known path dispatches on its fork (R295, R296). -/
theorem readFork_of_found {s : State} {path : Bytes} {e : Entry} (h : findEntry s (norm s path) = some e) (fork : Entry → ForkDesc)
    (deliver : Task) : readFork path fork deliver s = .ok () (pushTasks [.op (.dispatch (fork e)), deliver] s) := by
  rw [readFork, h]

/-- An unknown path is `NotFound` (R295, R296). -/
theorem readFork_of_unknown {s : State} {path : Bytes} (h : norm s path ∉ s.idx.entries.map (·.key)) (fork : Entry → ForkDesc)
    (deliver : Task) : readFork path fork deliver s = .raised .notFound s := by
  have hnone : findEntry s (norm s path) = none := by simpa using (findEntry_none_iff s _).2 h
  rw [readFork, hnone]

/-- An absent fork is no fork (R300). -/
theorem dispatchFork_of_absent {f : ForkDesc} (h : f.usize = 0) (s : State) : dispatchFork f s = s.withRet .noFork := if_pos h

/-- An encrypted fork keeps the read state as it was (R300, R301). -/
theorem dispatchFork_of_encrypted {f : ForkDesc} (h : f.usize ≠ 0) (hc : f.compression &&& 0xF0#8 ≠ 0#8) (s : State) :
    dispatchFork f s = pushTasks [.fetch .cmpr, .op (.crcVerify f), .dispatchRet] (s.withFork f) := by
  simp only [dispatchFork, if_neg h, if_neg hc]

/-- Every other fork starts from reset read state (R50, R300). -/
theorem dispatchFork_of_plain {f : ForkDesc} (h : f.usize ≠ 0) (hc : f.compression &&& 0xF0#8 = 0#8) (s : State) :
    dispatchFork f s = pushTasks [.fetch .cmpr, .op (.crcVerify f), .dispatchRet] (resetRead f (s.withFork f)) := by
  simp only [dispatchFork, if_neg h, if_pos hc]

/-- The control word of each kind of fork (R92, R97, R301 to R305). -/
theorem decodeCmpr_eq {b : Byte} {i : Instr}
    (h : (i = .cmprEncrypted b ∧ b &&& 0xF0#8 ≠ 0) ∨ (i = .cmprM0 ∧ b = 0x00#8) ∨ (i = .cmprM13 ∧ b = 0x0D#8)
      ∨ (i = .cmprM14 ∧ b = 0x0E#8) ∨ (i = .cmprUnsupported b ∧ b &&& 0xF0#8 = 0 ∧ b ∉ [0x00#8, 0x0D#8, 0x0E#8])) :
    decodeCmpr b = i := by
  rcases h with ⟨rfl, hb⟩ | ⟨rfl, rfl⟩ | ⟨rfl, rfl⟩ | ⟨rfl, rfl⟩ | ⟨rfl, hb, hn⟩
  · exact if_pos hb
  · rfl
  · rfl
  · rfl
  · simp only [List.mem_cons, List.not_mem_nil, or_false, not_or] at hn
    obtain ⟨h0, h13, h14⟩ := hn
    have hplain : ¬ b &&& 0xF0#8 ≠ 0#8 := not_not.2 hb
    rw [decodeCmpr, if_neg hplain, if_neg h0, if_neg h13, if_neg h14]

/-- Every control word of a fork has legal operands. -/
theorem decodeCmpr_wf (b : Byte) : (decodeCmpr b).wf = true := by
  unfold decodeCmpr
  split_ifs with he h0 h13 h14
  · simpa [Instr.wf, isEncrypted] using he
  · rfl
  · rfl
  · rfl
  · simp [Instr.wf, isEncrypted, isSupported, h0, h13, h14, not_not.1 he]

end Sys2Proof.Machine

namespace Sys2Proof.Proofs

open Sys2Proof Sys2Proof.Machine

/-- Settles O10: preservation is half of `step_safe`. -/
theorem invariantKeptByEveryStep : Obligations.InvariantKeptByEveryStep := by
  intro s t hs ht
  have hsafe : Safe s.par (.next t) := ht ▸ step_safe hs
  exact hsafe.1

/-- Settles O34: 37 codes of at most 32 bits need at most 777 nodes, so the meta table is built. -/
theorem dynamicModeReadsItsTrees : Obligations.DynamicModeReadsItsTrees := by
  intro s i copy nofs es hi hrom hlen hsyms hsound hpool
  have hm : metaRomSound es = true := (metaRomSound_iff es).2 ⟨hlen, hsyms⟩
  obtain ⟨v, hv⟩ := buildTableX_of_room (pool := s.par.poolSlots) hsound (by omega)
  have hexec : exec i s = (m13Dynamic copy nofs.toNat s).outcome := by
    rcases hi with rfl | ⟨rfl, rfl, rfl⟩
    · rfl
    · rfl
  refine ⟨v, hv, ?_⟩
  rw [hexec, m13Dynamic_of_built hrom hm hsound hv, Res.outcome_ok]
  rfl

/-- Settles O43: the header replaces the registers of the level in progress; only selector bit 0 is passed on. -/
theorem treeHeaderSetsItsFields : Obligations.TreeHeaderSetsItsFields := by
  intro s k j o sel h
  exact ⟨m14Hdr k j.toNat o.toNat (sel.getLsbD 0) s, rfl, rfl, fun d hd => levelAt_withCurLevel h _ hd,
    curLevel_m14Hdr h k j.toNat o.toNat (sel.getLsbD 0)⟩

/-- Settles O57: the test of the size, what `OPEN` writes, and the last line of an `OPEN`. -/
theorem openBindsTheStream : Obligations.OpenBindsTheStream := by
  refine ⟨fun s src size flatten => ⟨fun hle => ?_, fun hlt => if_pos hlt⟩, ?_⟩
  · exact ⟨openArchive src size.toNat flatten s, if_neg (Nat.not_lt.2 hle), rfl, read_openArchive src size.toNat flatten s⟩
  · intro s ts hs
    rw [step_cons hs]
    rfl

/-- Settles O6, format by format; a symbol is the word of the table it is decoded from. -/
theorem fetchReadsTheWord : Obligations.FetchReadsTheWord := by
  refine ⟨?_, ?_, fun s => rfl, fun s => rfl, fun s => rfl, fun s => rfl, ?_, ?_⟩
  · rintro s f a (⟨rfl, rfl⟩ | ⟨rfl, rfl⟩) ha
    · exact fetchMagic_of_inside ha
    · exact fetchMagic_of_inside ha
  · intro s hs
    exact if_neg (Nat.not_lt.2 hs)
  · intro s r hraw
    exact fetchRaw_lenVal (lvNext_of_raw hraw)
  · intro s v t
    refine ⟨fetchSymbol_of_decode, fun ha hd => ?_, fun ha hd => ?_, fetchSymbol_of_decode, fetchSymbol_of_decode,
      fetchSymbol_of_decode, fun r hn hd => fetchRaw_lenVal ((lvNext_of_nested hn).trans hd)⟩
    · rw [fetchRaw, activeTable_of_first ha]
      exact fetchSymbol_of_decode hd
    · rw [fetchRaw, activeTable_of_second ha]
      exact fetchSymbol_of_decode hd

/-- Settles O8: the reset values, and a step of the idle block. -/
theorem resetIsIdle : Obligations.ResetIsIdle :=
  ⟨rfl, rfl, rfl, rfl, rfl, rfl, rfl, rfl, rfl, step_idle rfl rfl⟩

/-- Settles O52: the two ends of the loop's test, and the outcomes of `CP.FETCH`'s three tests. -/
theorem entryHeaderIsFetched : Obligations.EntryHeaderIsFetched := by
  refine ⟨?_, ?_, ?_⟩
  · intro s ts hs
    rw [step_cons hs]
    by_cases hc : s.cp.pos < s.cp.asize ∧ s.cp.pos < s.h.size
    · rw [if_pos hc]
      exact congrArg Host.Outcome.next (parseLoop_of_more (s := s.withSeq ts) hc)
    · rw [if_neg hc]
      exact congrArg Host.Outcome.next (parseLoop_of_end (s := s.withSeq ts) hc)
  · intro s hs
    have htruncated : cpFetch s = .raised .truncated s := by rw [cpFetch_eq, if_pos hs]
    exact congrArg Res.outcome htruncated
  · rintro s hdr crc hs rfl rfl
    exact ⟨fun hcrc hname => congrArg Res.outcome (cpFetch_of_good hs hcrc hname),
      fun hcrc => congrArg Res.outcome (cpFetch_of_badCrc hs hcrc),
      fun hcrc hname => congrArg Res.outcome (cpFetch_of_longName hs hcrc hname)⟩

/-- Settles O59: the index's answer, the three kinds of fork, and the control word of the compression byte. -/
theorem readsDispatchTheirFork : Obligations.ReadsDispatchTheirFork := by
  refine ⟨?_, ?_, ?_, ?_, ?_, ?_, fun s b => rfl, fun s b => rfl⟩
  · intro s p e he
    exact ⟨congrArg Res.outcome (readFork_of_found he _ _), congrArg Res.outcome (readFork_of_found he _ _)⟩
  · intro s p hp
    exact ⟨congrArg Res.outcome (readFork_of_unknown hp _ _), congrArg Res.outcome (readFork_of_unknown hp _ _)⟩
  · intro s f hf
    exact congrArg Host.Outcome.next (dispatchFork_of_absent hf s)
  · intro s f hf hc
    exact congrArg Host.Outcome.next (dispatchFork_of_encrypted hf hc s)
  · intro s f hf hc
    exact congrArg Host.Outcome.next (dispatchFork_of_plain hf hc s)
  · rintro s ts i b hs rfl hi
    have hd := decodeCmpr_eq hi
    have hword : decode .cmpr (.num s.fork.compression.toNat) = .ok i := (decode_cmpr _).trans (congrArg _ hd)
    rw [step_fetch hs, fetchPerform_of_decode (t := { s with seq := ts }) rfl hword, perform_of_wf (hd ▸ decodeCmpr_wf _)]

end Sys2Proof.Proofs
end

section
/-! What no step changes: the open parameters, and but for an `OPEN` the stream. -/

namespace Sys2Proof.Machine

/-! ## The parameters and the stream -/

/-- The open parameters are `p` and `SRC` holds `m`. -/
def Fixed (p : Config.Params) (m : Memory Byte) (s : State) : Prop := s.par = p ∧ s.src = m

/-- Whether an operation returns or raises, the parameters are `p` and `SRC` holds `m`. -/
def Res.Fixed {α : Type} (p : Config.Params) (m : Memory Byte) : Res α → Prop
  | .ok _ t => Machine.Fixed p m t
  | .raised _ t => Machine.Fixed p m t
  | .fault _ => True
  | .refused _ => True

/-- In the next state, if there is one, the parameters are `p` and `SRC` holds `m`. -/
def NextFixed (p : Config.Params) (m : Memory Byte) : Host.Outcome State Fault Refusal → Prop
  | .next t => Fixed p m t
  | .fault _ => True
  | .refused _ => True

section
variable {α β : Type} {p : Config.Params} {m : Memory Byte} {s : State}

theorem NextFixed.of_eq {o : Host.Outcome State Fault Refusal} {t : State} (h : NextFixed p m o) (ho : o = .next t) :
    Fixed p m t := by
  subst ho
  exact h

theorem Fixed.takeError (h : Fixed p m s) (k : ErrKind) : Fixed p m (takeError k s) := by
  rw [Fixed, takeError_par, takeError_src]
  exact h

theorem Fixed.ite {c : Prop} [Decidable c] {t : State} (hs : Fixed p m s) (ht : Fixed p m t) :
    Fixed p m (if c then s else t) := by
  split
  · exact hs
  · exact ht

theorem Res.Fixed.ite {c : Prop} [Decidable c] {r r' : Res α} (h : r.Fixed p m) (h' : r'.Fixed p m) :
    (if c then r else r').Fixed p m := by
  split
  · exact h
  · exact h'

theorem Res.Fixed.bind {r : Res α} {f : α → State → Res β} (h : r.Fixed p m)
    (hf : ∀ a t, Machine.Fixed p m t → (f a t).Fixed p m) : (r.bind f).Fixed p m := by
  cases r with
  | ok a t => exact hf a t h
  | raised k t => exact h
  | fault e => trivial
  | refused e => trivial

theorem Res.Fixed.outcome {r : Res Unit} (h : r.Fixed p m) : NextFixed p m r.outcome := by
  cases r with
  | ok _ t => exact h
  | raised k t => exact Machine.Fixed.takeError h k
  | fault e => trivial
  | refused e => trivial

theorem Res.Fixed.outcomeWith {r : Res α} (h : r.Fixed p m) (f : α → Ret) : NextFixed p m (r.outcomeWith f) :=
  Res.Fixed.outcome (h.bind fun _ _ ht => ht)

/-! ### The shared units -/

theorem Fixed.brAdvance (h : Fixed p m s) (n : Nat) : Fixed p m (brAdvance n s) := h

theorem Fixed.withCp (h : Fixed p m s) (v : Parser) : Fixed p m (s.withCp v) := h

theorem Fixed.withSeq (h : Fixed p m s) (ts : List Task) : Fixed p m (s.withSeq ts) := h

theorem Fixed.withHost (h : Fixed p m s) (cs : List Cmd) : Fixed p m (s.withHost cs) := h

theorem Fixed.brAlign (h : Fixed p m s) : Fixed p m (brAlign s) := .ite h h

theorem Fixed.brReadBits (h : Fixed p m s) (n : Nat) : Fixed p m (brReadBits n s).2 := by
  rw [brReadBits_snd]
  exact h

theorem Fixed.withTable (h : Fixed p m s) (id : TableId) (v : Table) : Fixed p m (withTable s id v) := by
  cases id <;> exact h

theorem Fixed.h12Build (h : Fixed p m s) (id : TableId) (ls : List Nat) : (h12Build id ls s).Fixed p m := by
  rcases h12Build_cases id ls s with ⟨v, -, -, he⟩ | ⟨-, he⟩
  · rw [he]; exact h.withTable id v
  · rw [he]; exact h

theorem Fixed.h12Buildx (h : Fixed p m s) (id : TableId) (es : List Config.CodeEntry) : (h12Buildx id es s).Fixed p m := by
  rcases h12Buildx_cases id es s with ⟨v, -, -, -, he⟩ | ⟨-, he⟩ | ⟨-, he⟩
  · rw [he]; exact h.withTable id v
  · rw [he]; exact h
  · rw [he]; trivial

theorem Fixed.overflowWalk (h : Fixed p m s) (t : Table) (fuel node : Nat) : (overflowWalk t fuel node s).Fixed p m := by
  induction fuel generalizing node s with
  | zero => trivial
  | succ fuel ih =>
    rw [Machine.overflowWalk, brTake_eq]
    simp only
    cases childOf t node (brPeek 1 s) with
    | none => exact h
    | some c =>
      simp only
      cases (Memory.read t.node c).symbol with
      | none => exact ih (h.brAdvance 1) c
      | some v => exact h

theorem Fixed.h12Decode (h : Fixed p m s) (id : TableId) : (h12Decode id s).Fixed p m :=
  .ite h (.ite h ((h.brAdvance 12).overflowWalk _ _ _))

theorem Fixed.emitted (h : Fixed p m s) (d : Decoder) (b : Byte) : Fixed p m (emitted d b s) := by
  cases d <;> exact h

theorem Fixed.outEmit (h : Fixed p m s) (d : Decoder) (b : Byte) : (outEmit d b s).Fixed p m := by
  rcases outEmit_cases d b s with ⟨-, he⟩ | ⟨-, he⟩
  · rw [he]; exact h.emitted d b
  · rw [he]; exact h

theorem Fixed.outCopy (h : Fixed p m s) (d : Decoder) (len off : Nat) : (outCopy d len off s).Fixed p m := by
  rcases outCopy_cases (Fixed p m) d (fun b _ _ hu => hu.emitted d b) len off s h with ⟨t, he, ht, -⟩ | ⟨t, he, ht, -⟩
  · rw [he]; exact ht
  · rw [he]; exact ht

theorem Fixed.crcRange (h : Fixed p m s) (sp : ByteSpace) (a n : Nat) : (crcRange sp a n s).Fixed p m := by
  rw [crcRange_eq]
  cases spaceBytes s sp a n with
  | none => trivial
  | some bs => exact h

theorem Fixed.crcVerify (h : Fixed p m s) (f : ForkDesc) : (crcVerify f s).Fixed p m :=
  (h.crcRange .out 0 s.out.size).bind fun _ _ ht => .ite ht ht

theorem Fixed.checkComplete (h : Fixed p m s) : (checkComplete s).Fixed p m := .ite h h

theorem Fixed.m0Copy (h : Fixed p m s) (f : ForkDesc) : (m0Copy f s).Fixed p m := by
  rcases m0Copy_cases f s with ⟨-, he⟩ | ⟨-, -, he⟩ | ⟨bs, -, -, he⟩
  · rw [he]; exact h
  · rw [he]; trivial
  · rw [he]; exact h

/-! ### Method 13 -/

theorem Fixed.m13EmitLen (h : Fixed p m s) (n : Nat) : (m13EmitLen n s).Fixed p m := .ite h (.ite h h)

theorem Fixed.m13EmitMany (h : Fixed p m s) (n r : Nat) : (m13EmitMany n r s).Fixed p m := by
  induction r generalizing s with
  | zero => exact h
  | succ r ih => exact (h.m13EmitLen n).bind fun _ _ ht => ih ht

theorem Fixed.m13Repeat (h : Fixed p m s) (bits base : Nat) : (m13Repeat bits base s).Fixed p m :=
  (h.brAdvance bits).m13EmitMany _ _

theorem Fixed.m13Profile (h : Fixed p m s) (i : Nat) : (m13Profile i s).Fixed p m := by
  unfold Machine.m13Profile
  split
  · split
    · exact .ite h trivial
    · trivial
  · trivial

theorem Fixed.m13Static (h : Fixed p m s) (i : Nat) : (m13Static i s).Fixed p m :=
  (h.m13Profile i).bind fun _ _ h1 => (h1.h12Build _ _).bind fun _ _ h2 => (h2.h12Build _ _).bind fun _ _ h3 => h3.h12Build _ _

theorem Fixed.m13Dynamic (h : Fixed p m s) (copy : Bool) (nofs : Nat) : (m13Dynamic copy nofs s).Fixed p m := by
  unfold Machine.m13Dynamic
  split
  · trivial
  · exact .ite ((h.h12Buildx _ _).bind fun _ _ ht => ht) trivial

theorem Fixed.m13LeaveLoop (h : Fixed p m s) : Fixed p m (m13LeaveLoop s) := by
  unfold Machine.m13LeaveLoop
  split
  · exact h
  · exact h

theorem Fixed.m13Match (h : Fixed p m s) (len : Nat) : (m13Match len s).Fixed p m := by
  have hofs : (m13Offset s).Fixed p m := (h.h12Decode .tOfs).bind fun _ _ ht => .ite ht ht
  exact hofs.bind fun off _ h1 => (h1.outCopy .m13 len off).bind fun _ _ h2 => h2

theorem Fixed.m13LongMatch (h : Fixed p m s) (bits : Nat) : (m13LongMatch bits s).Fixed p m := (h.brAdvance bits).m13Match _

theorem Fixed.metaSet (h : Fixed p m s) (sym : Fin 31) : NextFixed p m (execMetaSet sym s) := by
  unfold execMetaSet
  split
  · exact h
  · trivial

/-! ### Method 14 -/

theorem Fixed.m14SetDepth (h : Fixed p m s) (d : Nat) : Fixed p m (m14SetDepth d s) := h

theorem Fixed.m14Mode (h : Fixed p m s) (d : Nat) : (m14Mode d s).Fixed p m := .ite (.ite h h) h

theorem Fixed.lvNext (h : Fixed p m s) : (lvNext s).Fixed p m := .ite (h.h12Decode _) h

theorem Fixed.lvCopies (h : Fixed p m s) (n : Nat) : (lvCopies n s).Fixed p m := by
  induction n generalizing s with
  | zero => exact h
  | succ n ih => exact .ite h (ih h)

theorem Fixed.lvRepeat (h : Fixed p m s) : (lvRepeat s).Fixed p m := .ite h (h.lvNext.bind fun _ _ ht => ht.lvCopies _)

theorem Fixed.lvValue (h : Fixed p m s) (v : Nat) : (lvValue v s).Fixed p m := .ite h h

theorem Fixed.m14Block (h : Fixed p m s) : (m14Block s).Fixed p m := by
  unfold Machine.m14Block
  refine .ite h ?_
  exact Fixed.brReadBits (s := (Machine.brReadBits 32 s).2.withM14 _) (h.brReadBits 32) 32

theorem Fixed.m14Loop (h : Fixed p m s) : (m14Loop s).Fixed p m := .ite h (.ite h h)

theorem Fixed.m14Match (h : Fixed p m s) (c : Nat) : (m14Match c s).Fixed p m := by
  have hofs : (m14Offset (Machine.brReadBits (extra14 c) s).2).Fixed p m :=
    ((h.brReadBits _).h12Decode .td).bind fun _ _ ht => .ite (ht.brReadBits _) ht
  exact hofs.bind fun off _ h1 => .ite h1 ((h1.outCopy .m14 _ off).bind fun _ _ h2 => h2)

/-! ### The container and the facade -/

theorem Fixed.cpFetch (h : Fixed p m s) : (cpFetch s).Fixed p m := by
  rcases cpFetch_cases s with ⟨-, he⟩ | ⟨-, v, he | he | he⟩
  · rw [he]; exact h
  · rw [he]; exact h
  · rw [he]; exact h
  · rw [he]; exact h

theorem Fixed.cpInsert (h : Fixed p m s) (key path : Bytes) (res data : ForkDesc) (finfo : Bytes) :
    (cpInsert key path res data finfo s).Fixed p m := by
  rcases cpInsert_cases key path res data finfo s
    with ⟨-, -, he⟩ | ⟨-, -, he⟩ | ⟨-, -, -, he⟩ | ⟨-, -, -, he⟩ | ⟨-, -, -, he⟩
  · rw [he]; exact h
  · rw [he]; exact h
  · rw [he]; exact h
  · rw [he]; exact h
  · rw [he]; exact h

theorem Fixed.entFile (h : Fixed p m s) (e : EntHdr) : (entFile e s).Fixed p m :=
  .ite h ((h.withCp _).cpInsert _ _ _ _ _)

theorem Fixed.readFork (h : Fixed p m s) (path : Bytes) (fork : Entry → ForkDesc) (deliver : Task) :
    (readFork path fork deliver s).Fixed p m := by
  unfold Machine.readFork
  split
  · exact h
  · exact h

theorem Fixed.dispatchFork (h : Fixed p m s) (f : ForkDesc) : Fixed p m (dispatchFork f s) :=
  .ite h (Fixed.ite (s := resetRead f (s.withFork f)) h h)

/-! ## Instructions, fetches and lines -/

/-- No instruction but `OPEN` changes a parameter or `SRC` (R61, R352). -/
theorem Fixed.exec (h : Fixed p m s) {i : Instr} (hi : ∀ src size flatten, i ≠ .hostOpen src size flatten) :
    NextFixed p m (exec i s) := by
  cases hm : i.matchCode with
  | some c => rw [exec_of_matchCode hm]; exact (h.m14Match c).outcome
  | none =>
  cases hd : i.distCode with
  | some d => rw [exec_of_distCode hd]; exact h.brReadBits _
  | none =>
  cases hp : staticProfile i with
  | some n => rw [exec_of_staticProfile hp]; exact (h.m13Static n).outcome
  | none =>
  have hrow : i.matchCode.or (i.distCode.or (staticProfile i)) = none := by rw [hm, hd, hp]; rfl
  cases i with
  | hostOpen src size flatten => exact absurd rfl (hi src size flatten)
  -- the container
  | magicSit | magicSt65 | magicSt50 | magicSt60 | magicStin | magicSti2 | magicSti3 | magicSti4 | magicSt46 => exact h
  | magicRLau | cpParse | cpKey => exact h
  | magicOther => exact h.takeError _
  | arch => exact Res.Fixed.outcome (.ite h h)
  | entFolderStart => exact Fixed.ite h h
  | entFolderEnd => exact Res.Fixed.outcome (.ite h (.ite h h))
  | entFile e => exact (h.entFile e).outcome
  | cpArchdr => exact Res.Fixed.outcome (.ite h h)
  | cpFetch => exact h.cpFetch.outcome
  | cpInsert => exact (h.cpInsert _ _ _ _ _).outcome
  -- the facade
  | hostHas | hostList | hostReadFinfo => exact h
  | hostRead | hostReadRsrc => exact (h.readFork _ _ _).outcome
  | dispatch f => exact h.dispatchFork f
  | cmprEncrypted | cmprUnsupported => exact h.takeError _
  | cmprM13 | cmprM14 => exact h
  | cmprM0 => exact (h.m0Copy _).outcome
  | m0Copy f => exact (h.m0Copy f).outcome
  -- method 13
  | m13Start | m13Run | m13ReadLengths | m13Ofs => exact h
  | metaAbsent | metaInc | metaDec => exact h
  | metaSet sym => exact h.metaSet sym
  | metaRep1 | metaRep3 | metaRep6 => exact (h.m13Repeat _ _).outcome
  | m13EmitLen n => exact (h.m13EmitLen n).outcome
  | m13CtrlDynamic | m13Dynamic => exact (h.m13Dynamic _ _).outcome
  | m13CtrlIllegal => exact h.takeError _
  | m13Lit b => exact Res.Fixed.outcome ((h.outEmit .m13 b).bind fun _ _ ht => ht)
  | m13Len sym => exact (h.m13Match _).outcome
  | m13Med | m13Long => exact (h.m13LongMatch _).outcome
  | m13Eos => exact h.m13LeaveLoop
  -- method 14
  | m14Start | m14Hdr | m14ReadLengths | lvZero => exact h
  | m14Block => exact h.m14Block.outcome
  | lvRepeat => exact h.lvRepeat.outcome
  | lvValue v => exact (h.lvValue _).outcome
  | m14Lit b => exact Res.Fixed.outcome ((h.outEmit .m14 b).bind fun _ _ ht => ht)
  -- the units
  | brInit | brPeek | brTake | brTake1 | brEos => exact h
  | brAlign => exact h.brAlign
  | brReadBits n => exact h.brReadBits n
  | crcInit | crcUpdate => exact h
  | crcRange sp a n => exact (h.crcRange sp a n).outcomeWith _
  | crcVerify f => exact (h.crcVerify f).outcome
  | h12Build => exact (h.h12Build _ _).outcome
  | h12Buildx => exact (h.h12Buildx _ _).outcome
  | h12Decode id => exact (h.h12Decode id).outcomeWith _
  | outEmit b => exact (h.outEmit _ b).outcome
  | outCopy len off => exact (h.outCopy _ len off).outcome
  -- a row of method 14 or a static profile, with the code or number excluded above
  | _ => cases hrow

theorem Fixed.perform (h : Fixed p m s) {i : Instr} (hi : ∀ src size flatten, i ≠ .hostOpen src size flatten) :
    NextFixed p m (perform i s) := by
  unfold Machine.perform
  split
  · exact h.exec hi
  · trivial

/-- `OPEN` keeps the parameters (R352). -/
theorem par_of_perform_hostOpen {src : Bytes} {size : BitVec 64} {flatten : Bool} {t : State}
    (h : Machine.perform (.hostOpen src size flatten) s = .next t) : t.par = s.par := by
  have hopen : execHostOpen src size flatten s = .next t := h
  unfold execHostOpen at hopen
  split at hopen
  · cases hopen
  · cases hopen
    rfl

end

theorem primaryMagic_ne_hostOpen {w : Nat} {i : Instr} (h : primaryMagic w = some i) (src : Bytes) (size : BitVec 64)
    (flatten : Bool) : i ≠ .hostOpen src size flatten := by
  unfold primaryMagic at h
  split_ifs at h <;> cases h <;> nofun

/-- No word of a format is an `OPEN`: the host's commands have none. The cases are the formats in the order of `decode`'s arms. -/
theorem decode_ne_hostOpen {f : Format} {w : Raw} {i : Instr} (h : decode f w = .ok i) (src : Bytes) (size : BitVec 64)
    (flatten : Bool) : i ≠ .hostOpen src size flatten := by
  unfold decode at h
  split at h
  · split_ifs at h
    cases h
    cases hm : primaryMagic _ with
    | none => nofun
    | some i => exact primaryMagic_ne_hostOpen hm src size flatten
  · split_ifs at h <;> cases h <;> nofun
  · split_ifs at h
    cases h
    nofun
  · unfold decodeEnt at h
    split_ifs at h <;> cases h <;> nofun
  · unfold decodeCmpr at h
    split_ifs at h <;> cases h <;> nofun
  · unfold decodeM13Ctrl at h
    simp only at h
    split_ifs at h <;> cases h <;> nofun
  · have hsym := orUndefined_eq_ok h
    unfold decodeMeta at hsym
    split_ifs at hsym <;> cases hsym <;> nofun
  · have hsym := orUndefined_eq_ok h
    unfold decodeM13Sym at hsym
    split_ifs at hsym <;> cases hsym <;> nofun
  · split_ifs at h
    cases h
    nofun
  · split_ifs at h
    cases h
    nofun
  · have hval := orUndefined_eq_ok h
    unfold decodeLenVal at hval
    split_ifs at hval <;> cases hval <;> nofun
  · have hsym := orUndefined_eq_ok h
    unfold decodeM14Sym at hsym
    split_ifs at hsym
    · cases hsym
      nofun
    · rintro rfl
      cases matchCode_matchRows hsym
  · rintro rfl
    cases distCode_distRows (orUndefined_eq_ok h)
  · cases h

section
variable {p : Config.Params} {m : Memory Byte} {s : State}

theorem Fixed.fetchMagic (h : Fixed p m s) (a : Nat) : (fetchMagic a s).Fixed p m := .ite h h

theorem Fixed.fetchSymbol (h : Fixed p m s) (id : TableId) : (fetchSymbol id s).Fixed p m :=
  (h.h12Decode id).bind fun _ _ ht => ht

theorem Fixed.fetchRaw (h : Fixed p m s) (f : Format) : (fetchRaw f s).Fixed p m := by
  cases f with
  | magic1 | magic2 => exact h.fetchMagic _
  | arch => exact Res.Fixed.ite h h
  | ent | cmpr | m13Ctrl | m14Hdr => exact h
  | m13Meta | m13Sym | m13Ofs | m14Sym | m14Dist => exact h.fetchSymbol _
  | m14LenVal r => exact h.lvNext.bind fun _ _ ht => ht

theorem Fixed.rejected (h : Fixed p m s) (r : Reject) : NextFixed p m (rejected r s) := by
  cases r with
  | undefinedSymbol => exact h.takeError .corruptStream
  | wrongShape | wrongWidth => trivial

/-- A fetch changes neither, and what it fetches is no `OPEN`. -/
theorem Fixed.fetchPerform (h : Fixed p m s) (f : Format) : NextFixed p m (fetchPerform f s) := by
  have hw := h.fetchRaw f
  unfold Machine.fetchPerform
  cases hf : Machine.fetchRaw f s with
  | ok w u =>
    rw [hf] at hw
    simp only
    cases hd : decode f w with
    | ok i => exact Fixed.perform hw (decode_ne_hostOpen hd)
    | error r => exact Fixed.rejected hw r
  | raised k u =>
    rw [hf] at hw
    exact Fixed.takeError hw k
  | fault e => trivial
  | refused e => trivial

theorem Fixed.runLine (h : Fixed p m s) (t : Task) : (runLine t s).Fixed p m := by
  cases t with
  | op | fetch | openEnd | dispatchRet | deliverData | deliverRsrc | m13Begin | m14SetRem => exact h
  | archRest => exact Res.Fixed.ite h h
  | parseLoop | metaLoop | m13Loop | lvLoop | m14Blocks => exact Fixed.ite h h
  | m13BuildT1 | m13BuildT2 | m13BuildTO | m14BuildTL | m14BuildTD => exact h.h12Build _ _
  | m13CopyT2 => exact h.withTable .t2 _
  | m14BuildTN d => exact (h.m14SetDepth d).h12Build _ _
  | m13End | m14End => exact h.checkComplete
  | m14Mode d => exact h.m14Mode d
  | m14Loop => exact h.m14Loop
  | m14BlockEnd => exact h.brAlign

theorem Fixed.stepTask (h : Fixed p m s) {t : Task} (ht : ∀ src size flatten, t ≠ .op (.hostOpen src size flatten)) :
    NextFixed p m (stepTask t s) := by
  by_cases ho : ∃ i, t = .op i
  · obtain ⟨i, rfl⟩ := ho
    exact h.perform fun src size flatten hi => ht src size flatten (congrArg Task.op hi)
  · by_cases hf : ∃ f, t = .fetch f
    · obtain ⟨f, rfl⟩ := hf
      exact h.fetchPerform f
    · rw [stepTask_line (fun i he => ho ⟨i, he⟩) (fun f he => hf ⟨f, he⟩)]
      exact (h.runLine t).outcome

end

/-- What a step that is no `OPEN` leaves: the parameters and `SRC`; an `OPEN` is a pending line or the host's next command. -/
theorem step_fixed (s : State) :
    NextFixed s.par s.src (step s)
      ∨ (s.seq = [] ∧ ∃ src size flatten cs, s.host = .openArchive src size flatten :: cs)
      ∨ ∃ src size flatten ts, s.seq = .op (.hostOpen src size flatten) :: ts := by
  have h : Fixed s.par s.src s := ⟨rfl, rfl⟩
  cases hs : s.seq with
  | cons e ts =>
    rw [step_cons hs]
    by_cases he : ∃ src size flatten, e = .op (.hostOpen src size flatten)
    · obtain ⟨src, size, flatten, rfl⟩ := he
      exact Or.inr (Or.inr ⟨src, size, flatten, ts, rfl⟩)
    · exact Or.inl ((h.withSeq ts).stepTask fun src size flatten hi => he ⟨src, size, flatten, hi⟩)
  | nil =>
    cases hc : s.host with
    | nil =>
      rw [step_idle hs hc]
      exact Or.inl h
    | cons c cs =>
      rw [step_command hs hc]
      cases c with
      | openArchive src size flatten => exact Or.inr (Or.inl ⟨rfl, src, size, flatten, cs, rfl⟩)
      | has | list | read | readRsrc | readFinfo => exact Or.inl ((h.withHost cs).perform nofun)

/-- A step keeps the parameters, an `OPEN` too (R352). -/
theorem step_par {s t : State} (h : step s = .next t) : t.par = s.par := by
  rcases step_fixed s with hf | ⟨hs, src, size, flatten, cs, hc⟩ | ⟨src, size, flatten, ts, hs⟩
  · obtain ⟨hpar, -⟩ := hf.of_eq h
    exact hpar
  · rw [step_command hs hc] at h
    exact (par_of_perform_hostOpen h).trans (State.withHost_par s cs)
  · rw [step_cons hs] at h
    exact (par_of_perform_hostOpen h).trans (State.withSeq_par s ts)

end Sys2Proof.Machine

namespace Sys2Proof.Proofs

open Sys2Proof Sys2Proof.Machine

/-- Settles O14: every line but an `OPEN` keeps both, and an `OPEN` the parameters. -/
theorem parametersAndSourceKept : Obligations.ParametersAndSourceKept := by
  intro s t ht
  refine ⟨step_par ht, (step_fixed s).imp_left fun hf => ?_⟩
  obtain ⟨-, hsrc⟩ := hf.of_eq ht
  exact hsrc

end Sys2Proof.Proofs
end

section
/-! The reader's frame: a stream that agrees on the payload is read alike. -/

namespace Sys2Proof.Machine

/-! ## The reader and the bytes outside its payload -/

/-- `m` holds the bytes of `SRC` on the payload `[BR.base, BR.base + BR.len)` (R130). -/
def PayloadAgrees (m : Memory Byte) (s : State) : Prop :=
  ∀ a, s.br.base ≤ a → a < s.br.base + s.br.len → Memory.read m a = Memory.read s.src a

/-- The same result with the stream `m` in the place of `SRC`. -/
def Res.withSrc {α : Type} (m : Memory Byte) : Res α → Res α
  | .ok a s => .ok a (s.withSrc m)
  | .raised k s => .raised k (s.withSrc m)
  | .fault e => .fault e
  | .refused e => .refused e

/-- Taking an error does not look at the stream. -/
theorem takeError_withSrc (k : ErrKind) (m : Memory Byte) (s : State) :
    takeError k (s.withSrc m) = (takeError k s).withSrc m := by
  rw [takeError_eq, takeError_eq]
  split <;> rfl

/-- A primitive's next state, with the stream replaced before or after. -/
theorem Res.outcomeWith_withSrc {α : Type} {r : Res α} {f : α → Ret} {t : State} (m : Memory Byte)
    (h : r.outcomeWith f = .next t) : (r.withSrc m).outcomeWith f = .next (t.withSrc m) := by
  rcases Res.outcomeWith_eq_next.1 h with ⟨a, s, rfl, rfl⟩ | ⟨k, s, rfl, rfl⟩
  · rfl
  · rw [← takeError_withSrc]
    rfl

section
variable {m : Memory Byte} {s : State}

/-- Moving the reader leaves its payload. -/
theorem PayloadAgrees.brAdvance (h : PayloadAgrees m s) (n : Nat) : PayloadAgrees m (brAdvance n s) := h

/-- A byte of the payload is the same in both streams, or past the end of both (R61). -/
theorem PayloadAgrees.srcByte (h : PayloadAgrees m s) {a : Nat} (hlo : s.br.base ≤ a) (hhi : a < s.br.base + s.br.len) :
    srcByte (s.withSrc m) a = srcByte s a := by
  rw [Machine.srcByte, Machine.srcByte, State.withSrc_src, State.withSrc_h, h a hlo hhi]

/-- A payload bit lies in a byte of the payload (R130). -/
theorem PayloadAgrees.brBit (h : PayloadAgrees m s) (k : Nat) : brBit (s.withSrc m) k = brBit s k := by
  by_cases hk : k < 8 * s.br.len
  · have hbyte : Machine.srcByte (s.withSrc m) (s.br.base + k / 8) = Machine.srcByte s (s.br.base + k / 8) :=
      h.srcByte (by omega) (by omega)
    rw [Machine.brBit, Machine.brBit, State.withSrc_br, hbyte]
  · rw [brBit_of_le (s.withSrc m) k (Nat.le_of_not_lt hk), brBit_of_le s k (Nat.le_of_not_lt hk)]

theorem PayloadAgrees.brField (h : PayloadAgrees m s) (k n : Nat) : brField (s.withSrc m) k n = brField s k n := by
  induction n generalizing k with
  | zero => rfl
  | succ n ih => rw [Machine.brField, Machine.brField, h.brBit, ih]

theorem PayloadAgrees.brPeek (h : PayloadAgrees m s) (n : Nat) : brPeek n (s.withSrc m) = brPeek n s := h.brField _ n

theorem PayloadAgrees.brTake (h : PayloadAgrees m s) (n : Nat) :
    brTake n (s.withSrc m) = ((brTake n s).1, (brTake n s).2.withSrc m) := by
  rw [brTake_eq, h.brPeek]
  rfl

theorem PayloadAgrees.brReadBits (h : PayloadAgrees m s) (n : Nat) :
    brReadBits n (s.withSrc m) = ((brReadBits n s).1, (brReadBits n s).2.withSrc m) := by
  refine Prod.ext ?_ ?_
  · rw [brReadBits_fst, brReadBits_fst]
    exact h.brField _ n
  · rw [brReadBits_snd, brReadBits_snd]
    rfl

/-- The overflow walk takes bit after bit (R167). -/
theorem PayloadAgrees.overflowWalk (h : PayloadAgrees m s) (t : Table) (fuel node : Nat) :
    overflowWalk t fuel node (s.withSrc m) = (overflowWalk t fuel node s).withSrc m := by
  induction fuel generalizing node s with
  | zero => rfl
  | succ fuel ih =>
    rw [Machine.overflowWalk, Machine.overflowWalk, h.brTake]
    simp only
    cases childOf t node (Machine.brTake 1 s).1 with
    | none => rfl
    | some c =>
      simp only
      cases (Memory.read t.node c).symbol with
      | none => exact ih (h.brAdvance 1) c
      | some v => rfl

/-- Tables stand outside the stream. -/
@[simp] theorem tableAt_withSrc (s : State) (m : Memory Byte) (id : TableId) : tableAt (s.withSrc m) id = tableAt s id := by
  cases id <;> rfl

/-- A symbol decode peeks, and then takes or walks (R167). -/
theorem PayloadAgrees.h12Decode (h : PayloadAgrees m s) (id : TableId) :
    h12Decode id (s.withSrc m) = (h12Decode id s).withSrc m := by
  unfold Machine.h12Decode
  simp only [tableAt_withSrc, h.brPeek]
  split
  · rfl
  · split
    · rfl
    · exact (h.brAdvance 12).overflowWalk _ _ _

end

end Sys2Proof.Machine

namespace Sys2Proof.Proofs

open Sys2Proof Sys2Proof.Machine

/-- Settles O21: each read is a field of payload bits, a decode a peek and then takes. -/
theorem readerSeesOnlyItsPayload : Obligations.ReaderSeesOnlyItsPayload := by
  intro s m h i hi t ht
  have hm : PayloadAgrees m s := h
  rcases hi with ⟨n, rfl⟩ | ⟨n, rfl⟩ | rfl | ⟨n, rfl⟩ | ⟨T, rfl⟩
  · cases ht
    exact congrArg (fun v => Host.Outcome.next ((s.withRet (.num v)).withSrc m)) (hm.brPeek n)
  · cases ht
    exact congrArg (fun r => Host.Outcome.next (r.2.withRet (.num r.1))) (hm.brTake n)
  · cases ht
    exact congrArg (fun r => Host.Outcome.next (r.2.withRet (.num r.1))) (hm.brTake 1)
  · cases ht
    exact congrArg (fun r => Host.Outcome.next (r.2.withRet (.num r.1))) (hm.brReadBits n)
  · exact (congrArg (fun r => Res.outcomeWith r Ret.num) (hm.h12Decode T)).trans (Res.outcomeWith_withSrc m ht)

end Sys2Proof.Proofs
end

section
/-! What a run of emitted bytes leaves behind, and that a copy is such a run: of the last bytes of the window, again and again. -/

namespace Sys2Proof.Machine

/-! ## Bytes appended one after another -/

/-- Emitting no byte changes nothing. -/
theorem Appended.nil (d : Decoder) (s : State) : Appended d [] s s := by
  have hpos : windowPos d s < windowSize d := by
    cases d with
    | m13 => exact s.m13.wp.isLt
    | m14 => exact s.m14.wp.isLt
  have hsame : SameButOutput d s s := by cases d <;> rfl
  exact ⟨hsame, rfl, (Nat.mod_eq_of_lt hpos).symm, nofun, fun _ _ => rfl, nofun, fun _ _ => rfl⟩

/-- An emit moves the window position one on, modulo the window's size (R308). -/
theorem windowPos_emitted (d : Decoder) (b : Byte) (s : State) :
    windowPos d (emitted d b s) = (windowPos d s + 1) % windowSize d := by
  cases d with
  | m13 => exact BitVec.toNat_add s.m13.wp 1
  | m14 => exact BitVec.toNat_add s.m14.wp 1

/-- An emit touches nothing but the output. -/
theorem SameButOutput.emitted {d : Decoder} {s t : State} (h : SameButOutput d s t) (b : Byte) :
    SameButOutput d s (emitted d b t) := by
  cases d with
  | m13 => exact congrArg (Machine.emitted .m13 b) h
  | m14 => exact congrArg (Machine.emitted .m14 b) h

theorem SameButOutput.out_size {d : Decoder} {s t : State} (h : SameButOutput d s t) : t.out.size = s.out.size := by
  cases d with
  | m13 => exact congrArg (fun u => u.out.size) h
  | m14 => exact congrArg (fun u => u.out.size) h

/-- The window positions of a run no longer than the window are all different. -/
theorem windowPos_ne (d : Decoder) (p : Nat) {i j : Nat} (h : i < j) (hj : j < i + windowSize d) :
    (p + i) % windowSize d ≠ (p + j) % windowSize d := by
  cases d with
  | m13 =>
    simp only [windowSize] at *
    omega
  | m14 =>
    simp only [windowSize] at *
    omega

/-- One byte more (R308). -/
theorem Appended.snoc {d : Decoder} {bs : Bytes} {s t : State} (h : Appended d bs s t) (hwin : Memory.wf t.win = true)
    (hout : Memory.wf t.outMem = true) (b : Byte) : Appended d (bs ++ [b]) s (emitted d b t) := by
  obtain ⟨hsame, hcnt, hpos, hbuf, hbufFrame, hread, hwinFrame⟩ := h
  have hlast : ∀ i c, (bs ++ [b])[i]? = some c → bs[i]? = some c ∧ i < bs.length ∨ i = bs.length ∧ c = b := by
    intro i c hc
    rcases Nat.lt_trichotomy i bs.length with hi | rfl | hi
    · exact Or.inl ⟨by rwa [List.getElem?_append_left hi] at hc, hi⟩
    · exact Or.inr ⟨rfl, by simpa using hc.symm⟩
    · rw [List.getElem?_eq_none (by simp; omega)] at hc
      cases hc
  refine ⟨hsame.emitted b, ?_, ?_, ?_, ?_, ?_, ?_⟩
  · rw [emitted_out, List.length_append, hcnt]
    rfl
  · rw [windowPos_emitted, hpos, Nat.mod_add_mod, List.length_append, List.length_singleton, Nat.add_assoc]
  · intro i c hc
    rw [emitted_outMem, hcnt]
    rcases hlast i c hc with ⟨hc', hi⟩ | ⟨rfl, rfl⟩
    · rw [Memory.read_write_of_ne _ _ (by omega), hbuf i c hc']
    · exact Memory.read_write_self _ _ _ hout
  · intro a ha
    rw [List.length_append, List.length_singleton] at ha
    rw [emitted_outMem, hcnt, Memory.read_write_of_ne _ _ (by omega), hbufFrame a (by omega)]
  · intro i c hc hi
    rw [List.length_append, List.length_singleton] at hi
    rw [emitted_win, hpos]
    rcases hlast i c hc with ⟨hc', hlt⟩ | ⟨rfl, rfl⟩
    · rw [Memory.read_write_of_ne _ _ (windowPos_ne d _ hlt (by omega)), hread i c hc' (by omega)]
    · exact Memory.read_write_self _ _ _ hwin
  · intro a ha
    rw [List.length_append, List.length_singleton] at ha
    rw [emitted_win, hpos, Memory.read_write_of_ne _ _ (ha bs.length (by omega))]
    exact hwinFrame a fun i hi => ha i (by omega)

/-! ## Copies -/

/-- The `k`-th byte of a copy, from the window as it is before the copy (R309). -/
def copyByte (d : Decoder) (off : Nat) (s : State) (k : Nat) : Byte :=
  Memory.read s.win ((windowPos d s + windowSize d - copyReach d off + k % copyReach d off) % windowSize d)

theorem copyBytes_eq_map (d : Decoder) (len off : Nat) (s : State) :
    copyBytes d len off s = (List.range len).map (copyByte d off s) := rfl

theorem copyBytes_succ (d : Decoder) (len off : Nat) (s : State) :
    copyBytes d (len + 1) off s = copyBytes d len off s ++ [copyByte d off s len] := by
  rw [copyBytes_eq_map, List.range_succ, List.map_append]
  rfl

@[simp] theorem copyBytes_length (d : Decoder) (len off : Nat) (s : State) : (copyBytes d len off s).length = len := by
  simp [copyBytes_eq_map]

theorem copyReach_le (d : Decoder) (off : Nat) : copyReach d off ≤ windowSize d :=
  Nat.mod_lt _ (by cases d <;> decide)

/-- A copy's bytes repeat with the period of its reach (R309). -/
theorem copyByte_sub_reach (d : Decoder) (s : State) {off k : Nat} (h : copyReach d off ≤ k) :
    copyByte d off s (k - copyReach d off) = copyByte d off s k := by
  rw [copyByte, copyByte, Nat.mod_eq_sub_mod h]

/-- The byte `off` behind the write position is `copyReach` behind it (R241, R309). -/
theorem windowBack_eq (d : Decoder) (s : State) {off : Nat} (h : 1 ≤ off) :
    windowBack d off s = (windowPos d s + windowSize d - copyReach d off) % windowSize d := by
  cases d with
  | m13 =>
    simp only [windowBack, windowPos, windowSize, copyReach, BitVec.toNat_sub, BitVec.toNat_ofNat]
    omega
  | m14 =>
    simp only [windowBack, windowPos, windowSize, copyReach, BitVec.toNat_sub, BitVec.toNat_ofNat]
    omega

/-- After `k` bytes of a copy, the byte read next is the `k`-th: while `k` is below the reach, one that stood in the window before
the copy, and from then on one that the copy itself has written (R76, R309). -/
theorem read_after_copied {d : Decoder} {k off : Nat} {s t : State} (h : Appended d (copyBytes d k off s) s t) (ho : 1 ≤ off) :
    Memory.read t.win (windowBack d off t) = copyByte d off s k := by
  obtain ⟨-, -, hpos, -, -, hread, hframe⟩ := h
  rw [copyBytes_length] at hpos hread hframe
  have hle := copyReach_le d off
  have haddr : windowBack d off t = (windowPos d s + (windowSize d - copyReach d off + k)) % windowSize d := by
    rw [windowBack_eq d t ho, hpos, Nat.add_sub_assoc hle, Nat.mod_add_mod, Nat.add_assoc, Nat.add_comm k]
  rw [haddr]
  rcases Nat.lt_or_ge k (copyReach d off) with hk | hk
  · rw [hframe _ fun i hi => (windowPos_ne d _ (by omega) (by omega)).symm, copyByte, Nat.mod_eq_of_lt hk,
      Nat.add_sub_assoc hle, Nat.add_assoc]
  · have hwritten : (copyBytes d k off s)[k - copyReach d off]? = some (copyByte d off s k) := by
      rw [copyBytes_eq_map, List.getElem?_map, List.getElem?_range (by unfold copyReach at *; omega), Option.map_some,
        copyByte_sub_reach d s hk]
    have hwrap : windowPos d s + (windowSize d - copyReach d off + k)
        = windowPos d s + (k - copyReach d off) + windowSize d := by omega
    rw [hwrap, Nat.add_mod_right]
    exact hread _ _ hwritten (by omega)

/-- With room for the rest, a copy of which `k` bytes are done appends `len` more. -/
theorem outCopy_appended {d : Decoder} {off : Nat} {s : State} (ho : 1 ≤ off) (len : Nat) {k : Nat} {t : State}
    (h : Appended d (copyBytes d k off s) s t) (hwin : Memory.wf t.win = true) (hout : Memory.wf t.outMem = true)
    (hroom : s.out.cnt + k + len ≤ s.out.size) :
    ∃ u, outCopy d len off t = .ok () u ∧ Appended d (copyBytes d (k + len) off s) s u := by
  induction len generalizing k t with
  | zero => exact ⟨t, rfl, h⟩
  | succ len ih =>
    have hnext := h.snoc hwin hout (copyByte d off s k)
    rw [← copyBytes_succ] at hnext
    have hfree : t.out.cnt < t.out.size := by
      obtain ⟨hsame, hcnt, -⟩ := h
      rw [hsame.out_size, hcnt, copyBytes_length]
      omega
    obtain ⟨u, hu, happ⟩ := ih hnext (by rw [emitted_win]; exact Memory.write_wf _ _ _ hwin)
      (by rw [emitted_outMem]; exact Memory.write_wf _ _ _ hout) (by omega)
    refine ⟨u, ?_, by rwa [Nat.add_right_comm] at happ⟩
    rw [outCopy, read_after_copied h ho, outEmit_ok hfree, Res.bind_ok, hu]

/-- The output is no part of the handle, the index or the stream. -/
theorem OnlyOutput.kept {s t : State} (h : OnlyOutput s t) : t.h = s.h ∧ t.idx = s.idx ∧ t.src = s.src := by
  unfold OnlyOutput at h
  rw [h]
  exact ⟨rfl, rfl, rfl⟩

/-- A copy with too little room raises `CorruptStream`, with only the output touched. -/
theorem outCopy_overrun (d : Decoder) {len : Nat} (off : Nat) {s : State} (hlen : 1 ≤ len) (h : s.out.size < s.out.cnt + len) :
    ∃ t, outCopy d len off s = .raised .corruptStream t ∧ OnlyOutput s t := by
  have hfits : ∀ b u, u.out.cnt < u.out.size → (s.out.cnt < u.out.cnt → u.out.cnt ≤ u.out.size) →
      s.out.cnt < (emitted d b u).out.cnt → (emitted d b u).out.cnt ≤ (emitted d b u).out.size := by
    intro b u hu _ _
    rw [emitted_out]
    exact hu
  rcases outCopy_cases (fun u => s.out.cnt < u.out.cnt → u.out.cnt ≤ u.out.size) d hfits len off s
      (fun hlt => absurd hlt (Nat.lt_irrefl _)) with ⟨t, -, hle, hsame, hcnt⟩ | ⟨t, ht, -, hsame⟩
  · have hsize : t.out.size = s.out.size := congrArg (fun u => u.out.size) hsame
    have := hle (by omega)
    omega
  · exact ⟨t, ht, hsame⟩

end Sys2Proof.Machine

namespace Sys2Proof.Proofs

open Sys2Proof Sys2Proof.Machine

/-- Settles O31: a copy is the run of emits whose next byte is each time the window's, `copyReach` behind. -/
theorem copyRepeatsTheWindow : Obligations.CopyRepeatsTheWindow := by
  intro s len off hlen ho
  refine ⟨fun hwin hout hroom => ?_, fun hover => ?_⟩
  · obtain ⟨t, ht, happ⟩ := outCopy_appended ho len (k := 0) (Appended.nil s.dec s) hwin hout hroom
    exact ⟨t, congrArg Res.outcome ht, by rwa [Nat.zero_add] at happ⟩
  · obtain ⟨t, ht, hsame⟩ := outCopy_overrun s.dec off hlen hover
    exact ⟨t, congrArg Res.outcome ht, hsame.kept⟩

end Sys2Proof.Proofs
end

section
/-! The decoder and the encoder: each of the encoding tables read in both directions, format by format. -/

namespace Sys2Proof.Machine

/-! ## Big-endian fields -/

/-- A number in two parts, the higher one first. -/
theorem toNat_append_parts {m n : Nat} (x : BitVec m) (y : BitVec n) : (x ++ y).toNat = x.toNat * 2 ^ n + y.toNat := by
  rw [BitVec.toNat_append, ← Nat.shiftLeft_add_eq_or_of_lt y.isLt, Nat.shiftLeft_eq]

/-- The bytes `k .. k + n - 1` of a record. -/
def fieldAt (bs : Bytes) (k n : Nat) : Bytes := (bs.drop k).take n

/-- A field and the field right after it are one field. -/
theorem fieldAt_append (bs : Bytes) {k m k' : Nat} (h : k' = k + m) (n : Nat) :
    fieldAt bs k m ++ fieldAt bs k' n = fieldAt bs k (m + n) := by
  rw [h, fieldAt, fieldAt, fieldAt, List.take_add, List.drop_drop]

theorem fieldAt_full (bs : Bytes) : fieldAt bs 0 bs.length = bs := by
  rw [fieldAt, List.drop_zero, List.take_length]

/-- A byte inside a record is a field of one byte. -/
theorem fieldAt_one {bs : Bytes} {k : Nat} (h : k < bs.length) : [bs.getD k 0] = fieldAt bs k 1 := by
  rw [fieldAt, List.drop_eq_getElem_cons h, List.getD_eq_getElem _ _ h, List.take_succ_cons, List.take_zero]

theorem fieldAt_getD (bs : Bytes) (k : Nat) {i n : Nat} (h : i < n) : (fieldAt bs k n).getD i 0 = bs.getD (k + i) 0 := by
  simp only [fieldAt, List.getD_eq_getElem?_getD, List.getElem?_take_of_lt h, List.getElem?_drop]

theorem be16Bytes_be16 (a b : Byte) : be16Bytes (be16 a b) = [a, b] := by
  simp (disch := decide) only [be16Bytes, be16, BitVec.extractLsb'_append_eq_of_le, BitVec.extractLsb'_append_eq_of_add_le,
    Nat.sub_self, BitVec.extractLsb'_eq_self]

theorem be32Bytes_be32 (a b c d : Byte) : be32Bytes (be32 a b c d) = [a, b, c, d] := by
  simp (disch := decide) only [be32Bytes, be32, BitVec.extractLsb'_append_eq_of_le, BitVec.extractLsb'_append_eq_of_add_le,
    Nat.reduceSub, BitVec.extractLsb'_eq_self]

/-- A 48-bit field is a 16-bit field and a 32-bit field (R97). -/
theorem be48Bytes_append (x : U16) (y : U32) : be48Bytes (x ++ y) = be16Bytes x ++ be32Bytes y := by
  simp (disch := decide) only [be48Bytes, be16Bytes, be32Bytes, BitVec.extractLsb'_append_eq_of_le,
    BitVec.extractLsb'_append_eq_of_add_le, Nat.reduceSub, List.cons_append, List.nil_append]

/-- A 56-bit field is a byte, a 16-bit field and a 32-bit field (R96). -/
theorem be56Bytes_append (b : Byte) (x : U16) (y : U32) : be56Bytes (b ++ (x ++ y)) = [b] ++ (be16Bytes x ++ be32Bytes y) := by
  have hlow : (b ++ (x ++ y)).extractLsb' 0 48 = x ++ y := BitVec.extractLsb'_append_eq_right
  have hhigh : (b ++ (x ++ y)).extractLsb' 48 8 = b := BitVec.extractLsb'_append_eq_left
  rw [be56Bytes, hlow, hhigh, be48Bytes_append]
  rfl

/-- A value cut into two bytes. -/
theorem be16_split (v : U16) : be16 (v.extractLsb' 8 8) (v.extractLsb' 0 8) = v := BitVec.extractLsb'_append_extractLsb'

/-- The 32 bits of a value from bit `k` on, cut into four bytes. -/
theorem be32_extract {n : Nat} (v : BitVec n) (k : Nat) :
    be32 (v.extractLsb' (k + 24) 8) (v.extractLsb' (k + 16) 8) (v.extractLsb' (k + 8) 8) (v.extractLsb' k 8)
      = v.extractLsb' k 32 := by
  rw [be32, BitVec.extractLsb'_append_extractLsb'_eq_extractLsb' (start₂ := k + 24) (start₁ := k + 16) rfl,
    BitVec.extractLsb'_append_extractLsb'_eq_extractLsb' (start₂ := k + 16) (start₁ := k + 8) rfl,
    BitVec.extractLsb'_append_extractLsb'_eq_extractLsb' (start₂ := k + 8) (start₁ := k) rfl]

/-- A value cut into four bytes. -/
theorem be32_split (v : U32) :
    be32 (v.extractLsb' 24 8) (v.extractLsb' 16 8) (v.extractLsb' 8 8) (v.extractLsb' 0 8) = v :=
  (be32_extract v 0).trans BitVec.extractLsb'_eq_self

/-- A value cut into six bytes, read as a 16-bit field and a 32-bit field (R97). -/
theorem be48_split (v : BitVec 48) :
    be16 (v.extractLsb' 40 8) (v.extractLsb' 32 8)
      ++ be32 (v.extractLsb' 24 8) (v.extractLsb' 16 8) (v.extractLsb' 8 8) (v.extractLsb' 0 8) = v := by
  have hhigh : be16 (v.extractLsb' 40 8) (v.extractLsb' 32 8) = v.extractLsb' 32 16 :=
    BitVec.extractLsb'_append_extractLsb'_eq_extractLsb' rfl
  rw [hhigh, be32_extract v 0]
  exact BitVec.extractLsb'_append_extractLsb'

section
variable {bs : Bytes} {k : Nat}

/-! A value that was read is written back as its field. -/

theorem be16Bytes_be16At (h : k + 2 ≤ bs.length) : be16Bytes (be16At bs k) = fieldAt bs k 2 := by
  rw [be16At, be16Bytes_be16, ← fieldAt_append bs rfl (m := 1) 1, ← fieldAt_one (by omega), ← fieldAt_one (by omega)]
  rfl

theorem be32Bytes_be32At (h : k + 4 ≤ bs.length) : be32Bytes (be32At bs k) = fieldAt bs k 4 := by
  have hlow : be16Bytes (be16At bs k) = fieldAt bs k 2 := be16Bytes_be16At (by omega)
  have hhigh : be16Bytes (be16At bs (k + 2)) = fieldAt bs (k + 2) 2 := be16Bytes_be16At (by omega)
  rw [← fieldAt_append bs rfl (m := 2) 2, ← hlow, ← hhigh, be32At, be32Bytes_be32, be16At, be16At, be16Bytes_be16,
    be16Bytes_be16]
  rfl

/-! What was written to a field is read from it. -/

theorem be16At_of_field {v : U16} (h : fieldAt bs k 2 = be16Bytes v) : be16At bs k = v := by
  have hbytes : ∀ i < 2, bs.getD (k + i) 0 = (be16Bytes v).getD i 0 := fun i hi => by rw [← h, fieldAt_getD _ _ hi]
  rw [be16At, hbytes 1 (by decide)]
  exact (congrArg (be16 · _) (hbytes 0 (by decide))).trans (be16_split v)

theorem be32At_of_field {v : U32} (h : fieldAt bs k 4 = be32Bytes v) : be32At bs k = v := by
  have hbytes : ∀ i < 4, bs.getD (k + i) 0 = (be32Bytes v).getD i 0 := fun i hi => by rw [← h, fieldAt_getD _ _ hi]
  rw [be32At, hbytes 1 (by decide), hbytes 2 (by decide), hbytes 3 (by decide)]
  exact (congrArg (be32 · _ _ _) (hbytes 0 (by decide))).trans (be32_split v)

theorem be48At_of_field {v : BitVec 48} (h : fieldAt bs k 6 = be48Bytes v) : be16At bs k ++ be32At bs (k + 2) = v := by
  have hbytes : ∀ i < 6, bs.getD (k + i) 0 = (be48Bytes v).getD i 0 := fun i hi => by rw [← h, fieldAt_getD _ _ hi]
  rw [be16At, be32At, Nat.add_assoc, Nat.add_assoc, Nat.add_assoc, hbytes 1 (by decide), hbytes 2 (by decide),
    hbytes 3 (by decide), hbytes 4 (by decide), hbytes 5 (by decide)]
  exact (congrArg (be16 · _ ++ _) (hbytes 0 (by decide))).trans (be48_split v)

end

/-! ## The records `ARCH` and `ENT` -/

/-- The archive header's fields are read back from its bytes (R96). -/
theorem archOfBytes_archBytes (r : ArchHdr) : archOfBytes (archBytes r) = r := by
  obtain ⟨magic, count, asize, magic2, version, reserved⟩ := r
  have hreserved : reserved.extractLsb' 48 8 ++ (be16At (be48Bytes (reserved.extractLsb' 0 48)) 0
      ++ be32At (be48Bytes (reserved.extractLsb' 0 48)) 2) = reserved :=
    (congrArg _ (be48_split _)).trans BitVec.extractLsb'_append_extractLsb'
  exact (ArchHdr.mk.injEq ..).mpr ⟨be32_split magic, be16_split count, be32_split asize, be32_split magic2, rfl, hreserved⟩

/-- No byte of an archive header is lost (R96). -/
theorem archBytes_archOfBytes {bs : Bytes} (h : bs.length = 22) : archBytes (archOfBytes bs) = bs := by
  simp (disch := omega) only [archBytes, archOfBytes, be56Bytes_append, be16Bytes_be16At, be32Bytes_be32At,
    fieldAt_one]
  simp (disch := decide) only [fieldAt_append, Nat.reduceAdd]
  rw [← h, fieldAt_full]

/-- The fields of an entry header after its padding, one by one (R97). -/
def entTailFields (r : EntHdr) : List Bytes :=
  [be32Bytes r.finderType, be32Bytes r.finderCreator, be16Bytes r.finderFlags, be32Bytes r.cdate, be32Bytes r.mdate,
    be32Bytes r.resUsize, be32Bytes r.dataUsize, be32Bytes r.resCsize, be32Bytes r.dataCsize, be16Bytes r.resCrc,
    be16Bytes r.dataCrc, be48Bytes r.unknown, be16Bytes r.headerCrc]

theorem entTailBytes_eq_flatten (r : EntHdr) : entTailBytes r = (entTailFields r).flatten := by
  simp only [entTailBytes, entTailFields, List.append_assoc, List.flatten_cons, List.flatten_nil, List.append_nil]

section
variable {r : EntHdr} (hr : r.wf = true)
include hr

theorem fieldAt_entBytes_name : fieldAt (entBytes r) 3 63 = r.nameArea := by
  have hlen : r.nameArea.length = 63 := by simpa [EntHdr.wf] using hr
  exact List.take_left' hlen

theorem fieldAt_entBytes_tail (i n : Nat) :
    fieldAt (entBytes r) (66 + i) n = fieldAt (entTailFields r).flatten i n := by
  have hlen : (entHeadBytes r ++ r.nameArea).length = 66 := by simpa [EntHdr.wf, entHeadBytes] using hr
  rw [fieldAt, entBytes, ← List.drop_drop, List.drop_left' hlen, entTailBytes_eq_flatten, fieldAt]

/-- The entry header's fields are read back from its bytes (R97). -/
theorem entOfBytes_entBytes : entOfBytes (entBytes r) = r := by
  have h16 : ∀ i v, fieldAt (entTailFields r).flatten i 2 = be16Bytes v → be16At (entBytes r) (66 + i) = v :=
    fun i v hv => be16At_of_field ((fieldAt_entBytes_tail hr i 2).trans hv)
  have h32 : ∀ i v, fieldAt (entTailFields r).flatten i 4 = be32Bytes v → be32At (entBytes r) (66 + i) = v :=
    fun i v hv => be32At_of_field ((fieldAt_entBytes_tail hr i 4).trans hv)
  have hunknown : be16At (entBytes r) 104 ++ be32At (entBytes r) 106 = r.unknown :=
    be48At_of_field ((fieldAt_entBytes_tail hr 38 6).trans rfl)
  exact (EntHdr.mk.injEq ..).mpr ⟨rfl, rfl, rfl, fieldAt_entBytes_name hr, h32 0 _ rfl, h32 4 _ rfl, h16 8 _ rfl, h32 10 _ rfl,
    h32 14 _ rfl, h32 18 _ rfl, h32 22 _ rfl, h32 26 _ rfl, h32 30 _ rfl, h16 34 _ rfl, h16 36 _ rfl, hunknown, h16 44 _ rfl⟩

end

/-- No byte of an entry header is lost (R97). -/
theorem entBytes_entOfBytes {bs : Bytes} (h : bs.length = 112) : entBytes (entOfBytes bs) = bs := by
  have hname : (entOfBytes bs).nameArea = fieldAt bs 3 63 := rfl
  have hhead : entHeadBytes (entOfBytes bs) = fieldAt bs 0 3 := by
    rw [← fieldAt_append bs rfl (m := 2) 1, ← fieldAt_append bs rfl (m := 1) 1,
      ← fieldAt_one (by omega), ← fieldAt_one (by omega), ← fieldAt_one (by omega)]
    rfl
  rw [entBytes, hname, hhead]
  simp (disch := omega) only [entTailBytes, entOfBytes, be48Bytes_append, be16Bytes_be16At, be32Bytes_be32At]
  simp (disch := decide) only [fieldAt_append, Nat.reduceAdd]
  rw [← h, fieldAt_full]

/-! ## Magics -/

theorem primaryMagic_of_magicValue {i : Instr} {w : Nat} (h : magicValue i = some w) : primaryMagic w = some i := by
  cases i <;> cases h <;> rfl

theorem magicValue_of_primaryMagic {i : Instr} {w : Nat} (h : primaryMagic w = some i) : magicValue i = some w := by
  unfold primaryMagic at h
  split_ifs at h with hw hw hw hw hw hw hw hw hw <;> cases h <;> rw [hw] <;> rfl

/-- The nine primary magics have no operand. -/
theorem wf_of_magicValue {i : Instr} {w : Nat} (h : magicValue i = some w) : i.wf = true := by
  cases i <;> cases h <;> rfl

/-- The nine primary magics are encoded by their value (R95). -/
theorem encodeMagic1_of_magicValue {i : Instr} {w : Nat} (h : magicValue i = some w) : encodeMagic1 i = some (.num w) := by
  cases i <;> cases h <;> rfl

/-! ## Control bytes -/

theorem encodeEnt_decodeEnt (r : EntHdr) : encodeEnt (decodeEnt r) = some (.bytes (entBytes r)) := by
  unfold decodeEnt
  split_ifs <;> rfl

theorem encodeCmpr_decodeCmpr (b : Byte) : encodeCmpr (decodeCmpr b) = some (.num b.toNat) := by
  unfold decodeCmpr
  split_ifs with he h0 h13 h14
  · rfl
  · rw [h0]; rfl
  · rw [h13]; rfl
  · rw [h14]; rfl
  · rfl

/-- The legal record of an entry header is the one its masks select (R92). -/
theorem decodeEnt_of_wf {r : EntHdr} {i : Instr} (h : i = .entFolderStart r ∨ i = .entFolderEnd r ∨ i = .entFile r)
    (hi : i.wf = true) : r.wf = true ∧ decodeEnt r = i := by
  rcases h with rfl | rfl | rfl <;>
    simp only [Instr.wf, dirCheck, Bool.and_eq_true, beq_iff_eq, bne_iff_ne, ne_eq] at hi
  · obtain ⟨hr, hstart⟩ := hi
    exact ⟨hr, if_pos hstart⟩
  · obtain ⟨hr, hend⟩ := hi
    have hstart : r.dataCompr &&& 0x6F#8 ≠ 0x20#8 := by rw [hend]; decide
    exact ⟨hr, (if_neg hstart).trans (if_pos hend)⟩
  · obtain ⟨⟨hr, hstart⟩, hend⟩ := hi
    exact ⟨hr, (if_neg hstart).trans (if_neg hend)⟩

theorem decodeCmpr_of_encode {i : Instr} {w : Raw} (hi : i.wf = true) (h : encodeCmpr i = some w) :
    ∃ b : Byte, w = .num b.toNat ∧ decodeCmpr b = i := by
  unfold encodeCmpr at h
  split at h <;> cases h
  case h_1 b => exact ⟨b, rfl, decodeCmpr_eq (Or.inl ⟨rfl, by simpa [Instr.wf, isEncrypted] using hi⟩)⟩
  case h_2 => exact ⟨0x00#8, rfl, rfl⟩
  case h_3 => exact ⟨0x0D#8, rfl, rfl⟩
  case h_4 => exact ⟨0x0E#8, rfl, rfl⟩
  case h_5 b =>
    have hplain : b &&& 0xF0#8 = 0#8 ∧ b ∉ [0x00#8, 0x0D#8, 0x0E#8] := by
      simpa [Instr.wf, isEncrypted, isSupported, and_assoc] using hi
    exact ⟨b, rfl, decodeCmpr_eq (Or.inr (Or.inr (Or.inr (Or.inr ⟨rfl, hplain⟩))))⟩

/-- A byte is its high nibble and its low nibble. -/
theorem nibbles (b : Byte) : b = b.extractLsb' 4 4 ++ b.extractLsb' 0 4 :=
  (BitVec.extractLsb'_append_extractLsb' (w := 4) (len := 4)).symm

/-- A nibble is its top bit and its low three bits (R42). -/
theorem nibble_split (l : BitVec 4) : l = BitVec.ofBool (l.getLsbD 3) ++ l.extractLsb' 0 3 := by
  revert l; decide

/-- The method-13 control byte by its nibbles (R93). -/
theorem decodeM13Ctrl_nibbles (h l : BitVec 4) :
    decodeM13Ctrl (h ++ l) =
      if h.toNat = 0 then .m13CtrlDynamic (l.getLsbD 3) (l.extractLsb' 0 3)
      else if h.toNat = 1 then .m13CtrlStatic0 l
      else if h.toNat = 2 then .m13CtrlStatic1 l
      else if h.toNat = 3 then .m13CtrlStatic2 l
      else if h.toNat = 4 then .m13CtrlStatic3 l
      else if h.toNat = 5 then .m13CtrlStatic4 l
      else .m13CtrlIllegal (h ++ l) := by
  have hhigh : (h ++ l).toNat / 16 = h.toNat := by
    have := l.isLt
    rw [toNat_append_parts]
    omega
  have hlow : (h ++ l).extractLsb' 0 4 = l := BitVec.extractLsb'_append_eq_right
  have hcopy : (h ++ l).getLsbD 3 = l.getLsbD 3 := by rw [BitVec.getLsbD_append]; rfl
  have hnofs : (h ++ l).extractLsb' 0 3 = l.extractLsb' 0 3 := BitVec.extractLsb'_append_eq_of_add_le (by decide)
  simp only [decodeM13Ctrl, hhigh, hlow, hcopy, hnofs]

theorem encodeM13Ctrl_decodeM13Ctrl (b : Byte) : encodeM13Ctrl (decodeM13Ctrl b) = some (.num b.toNat) := by
  rw [nibbles b]
  generalize b.extractLsb' 4 4 = h
  generalize b.extractLsb' 0 4 = l
  rw [decodeM13Ctrl_nibbles, toNat_append_parts]
  split_ifs with h0 h1 h2 h3 h4 h5
  · have hl : l.toNat = 8 * (l.getLsbD 3).toNat + (l.extractLsb' 0 3).toNat := by
      have hs := congrArg BitVec.toNat (nibble_split l)
      rw [toNat_append_parts, BitVec.toNat_ofBool] at hs
      omega
    rw [h0, hl, encodeM13Ctrl, Nat.zero_mul, Nat.zero_add]
  · rw [h1]; rfl
  · rw [h2]; rfl
  · rw [h3]; rfl
  · rw [h4]; rfl
  · rw [h5]; rfl
  · exact congrArg (fun v => some (Raw.num v)) (toNat_append_parts h l)

/-- The word of a static profile has the profile's high nibble (R93). -/
theorem decode_staticCtrl (p : Nat) (hp : p < 5) (l : BitVec 4) :
    decode .m13Ctrl (.num (staticCtrl p l)) = .ok (decodeM13Ctrl (BitVec.ofNat 4 (p + 1) ++ l)) := by
  have hword : (BitVec.ofNat 4 (p + 1) ++ l).toNat = staticCtrl p l := by
    rw [toNat_append_parts, BitVec.toNat_ofNat, staticCtrl]
    omega
  rw [← hword, decode_m13Ctrl]

/-- The word of the dynamic mode has the high nibble 0 (R93). -/
theorem decode_dynamicCtrl (c : Bool) (n : BitVec 3) :
    decode .m13Ctrl (.num (8 * c.toNat + n.toNat)) = .ok (.m13CtrlDynamic c n) := by
  have hword : (0#4 ++ (BitVec.ofBool c ++ n)).toNat = 8 * c.toNat + n.toNat := by
    rw [toNat_append_parts, toNat_append_parts, BitVec.toNat_ofBool, BitVec.toNat_zero]
    omega
  have hcopy : (BitVec.ofBool c ++ n).getLsbD 3 = c := by
    rw [BitVec.getLsbD_append]
    exact BitVec.getLsbD_ofBool ..
  have hnofs : (BitVec.ofBool c ++ n).extractLsb' 0 3 = n := BitVec.extractLsb'_append_eq_right
  rw [← hword, decode_m13Ctrl, decodeM13Ctrl_nibbles, if_pos BitVec.toNat_zero, hcopy, hnofs]

theorem decode_illegalCtrl {b : Byte} (h : 0x60 ≤ b.toNat) : decode .m13Ctrl (.num b.toNat) = .ok (.m13CtrlIllegal b) := by
  rw [decode_m13Ctrl]
  simp only [decodeM13Ctrl]
  rw [if_neg (by omega), if_neg (by omega), if_neg (by omega), if_neg (by omega), if_neg (by omega), if_neg (by omega)]

theorem decode_m13Ctrl_of_encode {i : Instr} {w : Raw} (hi : i.wf = true) (h : encodeM13Ctrl i = some w) :
    decode .m13Ctrl w = .ok i := by
  unfold encodeM13Ctrl at h
  split at h <;> cases h
  case h_1 c n => exact decode_dynamicCtrl c n
  case h_2 l => exact (decode_staticCtrl 0 (by decide) l).trans (congrArg Except.ok (decodeM13Ctrl_nibbles _ l))
  case h_3 l => exact (decode_staticCtrl 1 (by decide) l).trans (congrArg Except.ok (decodeM13Ctrl_nibbles _ l))
  case h_4 l => exact (decode_staticCtrl 2 (by decide) l).trans (congrArg Except.ok (decodeM13Ctrl_nibbles _ l))
  case h_5 l => exact (decode_staticCtrl 3 (by decide) l).trans (congrArg Except.ok (decodeM13Ctrl_nibbles _ l))
  case h_6 l => exact (decode_staticCtrl 4 (by decide) l).trans (congrArg Except.ok (decodeM13Ctrl_nibbles _ l))
  case h_7 b => exact decode_illegalCtrl (of_decide_eq_true hi)

theorem wf_decodeM13Ctrl (b : Byte) : (decodeM13Ctrl b).wf = true := by
  simp only [decodeM13Ctrl]
  split_ifs with h0 h1 h2 h3 h4 h5
  · rfl
  · rfl
  · rfl
  · rfl
  · rfl
  · rfl
  · exact decide_eq_true (show 0x60 ≤ b.toNat by omega)

/-! ## Tree headers -/

/-- A tree header's bits: the selector, the offset, the width and the repeat flag, highest first (R43, R94). -/
theorem decode_treeHdr (k : Bool) (j : BitVec 2) (o : BitVec 3) (sel : BitVec 2) :
    decode .m14Hdr (.num (k.toNat + 2 * j.toNat + 8 * o.toNat + 64 * sel.toNat)) = .ok (.m14Hdr k j o sel) := by
  have hword : (sel ++ o ++ j ++ BitVec.ofBool k).toNat = k.toNat + 2 * j.toNat + 8 * o.toNat + 64 * sel.toNat := by
    rw [toNat_append_parts, toNat_append_parts, toNat_append_parts, BitVec.toNat_ofBool]
    omega
  have hk : (sel ++ o ++ j ++ BitVec.ofBool k).getLsbD 0 = k := by
    rw [BitVec.getLsbD_append]
    exact BitVec.getLsbD_ofBool ..
  have hj : (sel ++ o ++ j ++ BitVec.ofBool k).extractLsb' 1 2 = j := by
    rw [BitVec.extractLsb'_append_eq_of_le (by decide)]
    exact BitVec.extractLsb'_append_eq_right
  have ho : (sel ++ o ++ j ++ BitVec.ofBool k).extractLsb' 3 3 = o := by
    rw [BitVec.extractLsb'_append_eq_of_le (by decide), BitVec.extractLsb'_append_eq_of_le (by decide)]
    exact BitVec.extractLsb'_append_eq_right
  have hsel : (sel ++ o ++ j ++ BitVec.ofBool k).extractLsb' 6 2 = sel := by
    rw [BitVec.extractLsb'_append_eq_of_le (by decide), BitVec.extractLsb'_append_eq_of_le (by decide),
      BitVec.extractLsb'_append_eq_of_le (by decide)]
    exact BitVec.extractLsb'_eq_self
  rw [← hword, decode_m14Hdr (BitVec.isLt _), BitVec.ofNat_toNat, BitVec.setWidth_eq, decodeM14Hdr, hk, hj, ho, hsel]

theorem encode_decodeM14Hdr (b : Byte) : encode .m14Hdr (decodeM14Hdr b) = some (.num b.toNat) := by
  have hb := b.isLt
  have hbit : (b.getLsbD 0).toNat = b.toNat % 2 := by rw [BitVec.getLsbD, Nat.toNat_testBit, Nat.pow_zero, Nat.div_one]
  simp only [encode, decodeM14Hdr, hbit, BitVec.extractLsb'_toNat, Nat.shiftRight_eq_div_pow, Option.some.injEq, Raw.num.injEq]
  omega

/-! ## Symbols -/

theorem encodeMeta_of_decode {v : Nat} {i : Instr} (h : decodeMeta v = some i) : encodeMeta i = some (.num v) := by
  unfold decodeMeta at h
  split_ifs at h with hset hv hv hv hv hv hv <;> cases h
  · rfl
  all_goals rw [hv]; rfl

theorem decodeMeta_of_encode {i : Instr} {w : Raw} (h : encodeMeta i = some w) : ∃ v, w = .num v ∧ decodeMeta v = some i := by
  unfold encodeMeta at h
  split at h <;> cases h
  case h_1 sym => exact ⟨sym.val, rfl, dif_pos sym.isLt⟩
  all_goals exact ⟨_, rfl, rfl⟩

theorem wf_decodeMeta {v : Nat} {i : Instr} (h : decodeMeta v = some i) : i.wf = true := by
  unfold decodeMeta at h
  split_ifs at h <;> cases h <;> rfl

theorem encodeM13Sym_of_decode {v : Nat} {i : Instr} (h : decodeM13Sym v = some i) : encodeM13Sym i = some (.num v) := by
  unfold decodeM13Sym at h
  split_ifs at h with hlit hlen hmed hlong heos <;> cases h
  · rw [encodeM13Sym, BitVec.toNat_ofNat, Nat.mod_eq_of_lt (by omega)]
  · rw [encodeM13Sym, BitVec.toNat_ofNat, Nat.mod_eq_of_lt (by omega)]
  · rw [hmed]; rfl
  · rw [hlong]; rfl
  · rw [heos]; rfl

theorem decodeM13Sym_of_encode {i : Instr} {w : Raw} (hi : i.wf = true) (h : encodeM13Sym i = some w) :
    ∃ v, w = .num v ∧ decodeM13Sym v = some i := by
  unfold encodeM13Sym at h
  split at h <;> cases h
  case h_1 b =>
    have hb := b.isLt
    refine ⟨b.toNat, rfl, ?_⟩
    rw [decodeM13Sym, if_pos (by omega), BitVec.ofNat_toNat, BitVec.setWidth_eq]
  case h_2 sym =>
    simp only [Instr.wf, Bool.and_eq_true, decide_eq_true_eq] at hi
    refine ⟨sym.toNat, rfl, ?_⟩
    rw [decodeM13Sym, if_neg (by omega), if_pos (by omega), BitVec.ofNat_toNat, BitVec.setWidth_eq]
  all_goals exact ⟨_, rfl, rfl⟩

theorem wf_decodeM13Sym {v : Nat} {i : Instr} (h : decodeM13Sym v = some i) : i.wf = true := by
  unfold decodeM13Sym at h
  split_ifs at h with hlit hlen <;> cases h
  · rfl
  · simp only [Instr.wf, BitVec.toNat_ofNat, Bool.and_eq_true, decide_eq_true_eq]
    omega
  all_goals rfl

/-! ## Length values -/

theorem encodeLenVal_of_decode {r v : Nat} {i : Instr} (h : decodeLenVal r v = some i) : encodeLenVal r i = some (.num v) := by
  unfold decodeLenVal at h
  split_ifs at h with hzero hrep hval <;> cases h
  · rw [hzero]; rfl
  · rw [encodeLenVal, if_neg (by omega), hrep]
  · rw [encodeLenVal, BitVec.toNat_ofNat, Nat.mod_eq_of_lt (by omega), if_neg hrep]

theorem decodeLenVal_of_encode {r : Nat} {i : Instr} {w : Raw} (hi : i.wf = true) (h : encode (.m14LenVal r) i = some w) :
    ∃ v, w = .num v ∧ decodeLenVal r v = some i := by
  rcases Laws.encode_m14LenVal h with ⟨rfl, rfl⟩ | ⟨rfl, hr, rfl⟩ | ⟨v, rfl, hr, rfl⟩
  · exact ⟨0, rfl, rfl⟩
  · exact ⟨r, rfl, by rw [decodeLenVal, if_neg hr, if_pos rfl]⟩
  · have hv : v.toNat ≠ 0 := by
      have hne : v ≠ 0#5 := by simpa [Instr.wf] using hi
      exact fun h0 => hne (BitVec.eq_of_toNat_eq h0)
    refine ⟨v.toNat, rfl, ?_⟩
    rw [decodeLenVal, if_neg hv, if_neg hr, if_pos v.isLt, BitVec.ofNat_toNat, BitVec.setWidth_eq]

theorem wf_decodeLenVal {r v : Nat} {i : Instr} (h : decodeLenVal r v = some i) : i.wf = true := by
  unfold decodeLenVal at h
  split_ifs at h with hzero hrep hval <;> cases h
  · rfl
  · rfl
  · have hne : BitVec.ofNat 5 v ≠ 0#5 := fun h0 => by
      have := congrArg BitVec.toNat h0
      rw [BitVec.toNat_ofNat, Nat.mod_eq_of_lt (by omega)] at this
      exact hzero this
    simpa [Instr.wf] using hne

/-! ## Method 14's rows -/

theorem matchRows_of_matchCode {i : Instr} {c : Nat} (h : i.matchCode = some c) : matchRows[c]? = some i := by
  cases i <;> cases h <;> rfl

theorem distRows_of_distCode {i : Instr} {d : Nat} (h : i.distCode = some d) : distRows[d]? = some i := by
  cases i <;> cases h <;> rfl

theorem encodeM14Sym_of_matchCode {i : Instr} {c : Nat} (h : i.matchCode = some c) : encodeM14Sym i = some (.num (256 + c)) := by
  cases i <;> cases h <;> rfl

theorem encodeM14Sym_of_decode {v : Nat} {i : Instr} (h : decodeM14Sym v = some i) : encodeM14Sym i = some (.num v) := by
  unfold decodeM14Sym at h
  split_ifs at h with hlit
  · cases h
    rw [encodeM14Sym, BitVec.toNat_ofNat, Nat.mod_eq_of_lt hlit]
  · rw [encodeM14Sym_of_matchCode (matchCode_matchRows h), Nat.add_sub_of_le (by omega)]

theorem decodeM14Sym_of_encode {i : Instr} {w : Raw} (h : encode .m14Sym i = some w) :
    ∃ v, w = .num v ∧ decodeM14Sym v = some i := by
  rcases Laws.encode_m14Sym h with ⟨b, rfl, rfl⟩ | ⟨c, hc, rfl⟩
  · exact ⟨b.toNat, rfl, by rw [decodeM14Sym, if_pos b.isLt, BitVec.ofNat_toNat, BitVec.setWidth_eq]⟩
  · exact ⟨256 + c, rfl, by rw [decodeM14Sym, if_neg (by omega), Nat.add_sub_cancel_left, matchRows_of_matchCode hc]⟩

theorem wf_decodeM14Sym {v : Nat} {i : Instr} (h : decodeM14Sym v = some i) : i.wf = true := by
  unfold decodeM14Sym at h
  split_ifs at h
  · cases h
    rfl
  · exact wf_of_matchCode (matchCode_matchRows h)

/-! ## Every format -/

/-- What `decode` answers, format by format: the words of each format and their instructions (R90 to R97, R102 to R109). -/
inductive Decodes : Format → Raw → Instr → Prop
  | magic1 (w : U32) : Decodes .magic1 (.num w.toNat) ((primaryMagic w.toNat).getD (.magicOther w))
  | magic2 (w : U32) : Decodes .magic2 (.num w.toNat) (if w.toNat = secondaryMagic then .magicRLau else .magicOther w)
  | arch {bs : Bytes} (h : bs.length = 22) : Decodes .arch (.bytes bs) (.arch (archOfBytes bs))
  | ent {bs : Bytes} (h : bs.length = 112) : Decodes .ent (.bytes bs) (decodeEnt (entOfBytes bs))
  | cmpr (b : Byte) : Decodes .cmpr (.num b.toNat) (decodeCmpr b)
  | m13Ctrl (b : Byte) : Decodes .m13Ctrl (.num b.toNat) (decodeM13Ctrl b)
  | m13Meta {v : Nat} {i : Instr} (h : decodeMeta v = some i) : Decodes .m13Meta (.num v) i
  | m13Sym {v : Nat} {i : Instr} (h : decodeM13Sym v = some i) : Decodes .m13Sym (.num v) i
  | m13Ofs (v : Fin 17) : Decodes .m13Ofs (.num v.val) (.m13Ofs v)
  | m14Hdr (b : Byte) : Decodes .m14Hdr (.num b.toNat) (decodeM14Hdr b)
  | m14LenVal {r v : Nat} {i : Instr} (h : decodeLenVal r v = some i) : Decodes (.m14LenVal r) (.num v) i
  | m14Sym {v : Nat} {i : Instr} (h : decodeM14Sym v = some i) : Decodes .m14Sym (.num v) i
  | m14Dist {v : Nat} {i : Instr} (h : distRows[v]? = some i) : Decodes .m14Dist (.num v) i

/-- A number in a format's width is a word of that width. -/
theorem exists_toNat_eq {n v : Nat} (h : v < 2 ^ n) : ∃ w : BitVec n, BitVec.ofNat n v = w ∧ v = w.toNat :=
  ⟨BitVec.ofNat n v, rfl, (BitVec.toNat_ofNat ..).trans (Nat.mod_eq_of_lt h) |>.symm⟩

/-- Every word that decodes is in the table. The cases are the formats in the order of `decode`'s arms. -/
theorem Decodes.of_decode {f : Format} {w : Raw} {i : Instr} (h : decode f w = .ok i) : Decodes f w i := by
  unfold decode at h
  split at h
  · split_ifs at h with hv
    obtain ⟨w, hw, rfl⟩ := exists_toNat_eq hv
    cases h
    rw [hw]
    exact .magic1 w
  · split at h
    · rename_i hv
      obtain ⟨w, hw, rfl⟩ := exists_toNat_eq hv
      rw [hw] at h
      cases h
      exact .magic2 w
    · cases h
  · split_ifs at h with hlen
    cases h
    exact .arch hlen
  · split_ifs at h with hlen
    cases h
    exact .ent hlen
  · split_ifs at h with hv
    obtain ⟨b, hb, rfl⟩ := exists_toNat_eq (n := 8) hv
    cases h
    rw [hb]
    exact .cmpr b
  · split_ifs at h with hv
    obtain ⟨b, hb, rfl⟩ := exists_toNat_eq (n := 8) hv
    cases h
    rw [hb]
    exact .m13Ctrl b
  · exact .m13Meta (orUndefined_eq_ok h)
  · exact .m13Sym (orUndefined_eq_ok h)
  · split_ifs at h with hv
    cases h
    exact .m13Ofs ⟨_, hv⟩
  · split_ifs at h with hv
    obtain ⟨b, hb, rfl⟩ := exists_toNat_eq (n := 8) hv
    cases h
    rw [hb]
    exact .m14Hdr b
  · exact .m14LenVal (orUndefined_eq_ok h)
  · exact .m14Sym (orUndefined_eq_ok h)
  · exact .m14Dist (orUndefined_eq_ok h)
  · cases h

end Sys2Proof.Machine

namespace Sys2Proof.Proofs

open Sys2Proof Sys2Proof.Machine

/-- Settles O2: each word is cut back into the operands it was put together from; their ranges leave its decoder no choice. -/
theorem decodeOfEncode : Obligations.DecodeOfEncode := by
  intro f i w hi h
  have hsym : ∀ (dec : Nat → Option Instr) v, dec v = some i → orUndefined (dec v) = .ok i := fun _ _ hv => by rw [hv]; rfl
  cases f with
  | magic1 =>
    rcases Laws.encode_magic1 h with ⟨v, rfl, hv, rfl⟩ | ⟨v, hv, rfl⟩
    · rw [decode_magic1 v.isLt, hv, Option.getD_none, BitVec.ofNat_toNat, BitVec.setWidth_eq]
    · rw [decode_magic1 (Laws.magicValue_lt hv), primaryMagic_of_magicValue hv, Option.getD_some]
  | magic2 =>
    rcases Laws.encode_magic2 h with ⟨v, rfl, hv, rfl⟩ | ⟨rfl, rfl⟩
    · rw [decode_magic2 v.isLt, if_neg hv, BitVec.ofNat_toNat, BitVec.setWidth_eq]
    · rfl
  | arch =>
    obtain ⟨r, rfl, rfl⟩ := Laws.encode_arch h
    rw [decode_arch (Laws.archBytes_length r), archOfBytes_archBytes]
  | ent =>
    obtain ⟨r, hr, rfl⟩ := Laws.encode_ent h
    obtain ⟨hwf, hdec⟩ := decodeEnt_of_wf hr hi
    rw [decode_ent (Laws.entBytes_length hwf), entOfBytes_entBytes hwf, hdec]
  | cmpr =>
    obtain ⟨b, rfl, rfl⟩ := decodeCmpr_of_encode hi h
    exact decode_cmpr b
  | m13Ctrl => exact decode_m13Ctrl_of_encode hi h
  | m13Meta =>
    obtain ⟨v, rfl, hv⟩ := decodeMeta_of_encode h
    exact hsym decodeMeta v hv
  | m13Sym =>
    obtain ⟨v, rfl, hv⟩ := decodeM13Sym_of_encode hi h
    exact hsym decodeM13Sym v hv
  | m13Ofs =>
    cases i <;> cases h
    exact dif_pos (Fin.isLt _)
  | m14Hdr =>
    cases i <;> cases h
    exact decode_treeHdr _ _ _ _
  | m14LenVal r =>
    obtain ⟨v, rfl, hv⟩ := decodeLenVal_of_encode hi h
    exact hsym (decodeLenVal r) v hv
  | m14Sym =>
    obtain ⟨v, rfl, hv⟩ := decodeM14Sym_of_encode h
    exact hsym decodeM14Sym v hv
  | m14Dist =>
    obtain ⟨d, hd, rfl⟩ := Laws.encode_m14Dist h
    exact hsym (distRows[·]?) d (distRows_of_distCode hd)

/-- Settles O3: each decoder's answer is encoded as the word it was read from. -/
theorem encodeOfDecode : Obligations.EncodeOfDecode := by
  intro f w i h
  cases Decodes.of_decode h with
  | magic1 w =>
    cases hm : primaryMagic w.toNat with
    | none => exact if_pos hm
    | some i => exact encodeMagic1_of_magicValue (magicValue_of_primaryMagic hm)
  | magic2 w =>
    by_cases hw : w.toNat = secondaryMagic
    · rw [if_pos hw, hw]
      rfl
    · rw [if_neg hw]
      exact if_neg hw
  | arch hlen => exact congrArg (fun bs => some (Raw.bytes bs)) (archBytes_archOfBytes hlen)
  | ent hlen => exact (encodeEnt_decodeEnt _).trans (congrArg (fun bs => some (Raw.bytes bs)) (entBytes_entOfBytes hlen))
  | cmpr b => exact encodeCmpr_decodeCmpr b
  | m13Ctrl b => exact encodeM13Ctrl_decodeM13Ctrl b
  | m13Meta hv => exact encodeMeta_of_decode hv
  | m13Sym hv => exact encodeM13Sym_of_decode hv
  | m13Ofs v => rfl
  | m14Hdr b => exact encode_decodeM14Hdr b
  | m14LenVal hv => exact encodeLenVal_of_decode hv
  | m14Sym hv => exact encodeM14Sym_of_decode hv
  | m14Dist hv => exact congrArg (Option.map Raw.num) (distCode_distRows hv)

/-- Settles O1: each word's bits are looked up in its format's table. -/
theorem specWordsDecode : Obligations.SpecWordsDecode :=
  ⟨rfl, rfl, rfl, rfl, rfl, rfl, rfl, rfl, rfl, rfl, rfl, rfl, rfl, rfl, rfl, rfl, rfl, rfl, rfl, rfl⟩

/-- Settles O4: each decoder tests the ranges of the operands it hands on. -/
theorem decodedIsWellFormed : Obligations.DecodedIsWellFormed := by
  intro f w i h
  cases Decodes.of_decode h with
  | magic1 w =>
    cases hm : primaryMagic w.toNat with
    | none => rfl
    | some i => exact wf_of_magicValue (magicValue_of_primaryMagic hm)
  | magic2 w => split_ifs <;> rfl
  | arch hlen => rfl
  | ent hlen =>
    obtain ⟨hwf, -⟩ := decodeEnt_cases (entOfBytes_wf hlen)
    exact hwf
  | cmpr b => exact decodeCmpr_wf b
  | m13Ctrl b => exact wf_decodeM13Ctrl b
  | m13Meta hv => exact wf_decodeMeta hv
  | m13Sym hv => exact wf_decodeM13Sym hv
  | m13Ofs v => rfl
  | m14Hdr b => rfl
  | m14LenVal hv => exact wf_decodeLenVal hv
  | m14Sym hv => exact wf_decodeM14Sym hv
  | m14Dist hv => exact wf_of_distCode (distCode_distRows hv)

end Sys2Proof.Proofs
end
section
/-! The containers' records, the names, the tables of both decoders and their matches. -/

namespace Sys2Proof.Machine

/-! ## Consecutive ranges -/

section
variable {base extra : Nat → Nat} (hnext : ∀ c, base (c + 1) = base c + 2 ^ extra c)
include hnext

theorem base_le {c d : Nat} (h : c ≤ d) : base c ≤ base d :=
  monotone_nat_of_le_succ (fun c => (hnext c).symm ▸ Nat.le_add_right _ _) h

/-- Ranges that each begin where the one before ends tile what lies between the first and the last (R107, R108). -/
theorem ranges_tile (n v : Nat) : (∃ c e, c < n ∧ e < 2 ^ extra c ∧ base c + e = v) ↔ base 0 ≤ v ∧ v < base n := by
  constructor
  · rintro ⟨c, e, hc, he, rfl⟩
    have hfirst : base 0 ≤ base c := base_le hnext (Nat.zero_le c)
    have hlast : base (c + 1) ≤ base n := base_le hnext hc
    rw [hnext] at hlast
    omega
  · rintro ⟨hfirst, hlast⟩
    induction n with
    | zero => omega
    | succ n ih =>
      rcases Nat.lt_or_ge v (base n) with hv | hv
      · obtain ⟨c, e, hc, he, hsum⟩ := ih hv
        exact ⟨c, e, Nat.lt_succ_of_lt hc, he, hsum⟩
      · rw [hnext] at hlast
        exact ⟨n, v - base n, Nat.lt_succ_self n, by omega, by omega⟩

/-- No value lies in two of the ranges (R107, R108). -/
theorem ranges_disjoint {c e c' e' : Nat} (he : e < 2 ^ extra c) (he' : e' < 2 ^ extra c') (h : base c + e = base c' + e') :
    c = c' ∧ e = e' := by
  have hlt : ∀ {c d e e'}, c < d → e < 2 ^ extra c → base c + e < base d + e' := by
    intro c d e e' hcd he
    have hle : base (c + 1) ≤ base d := base_le hnext hcd
    rw [hnext] at hle
    omega
  rcases Nat.lt_trichotomy c c' with hc | rfl | hc
  · exact absurd h (hlt hc he).ne
  · exact ⟨rfl, Nat.add_left_cancel h⟩
  · exact absurd h (hlt hc he').ne'

end

/-- Every length code begins where the one before ends (R107). -/
theorem base14_succ (c : Nat) : base14 (c + 1) = base14 c + 2 ^ extra14 c := by
  rw [base14]
  split_ifs with hc
  · interval_cases c <;> rfl
  · rw [Nat.one_shiftLeft]

/-- Every offset code begins where the one before ends (R108). -/
theorem base14o_succ (d : Nat) : base14o (d + 1) = base14o d + 2 ^ extra14o d := by
  rw [base14o]
  split_ifs with hd
  · interval_cases d <;> rfl
  · rw [Nat.one_shiftLeft]

/-! ## Offsets -/

/-- A bit read is the payload's bit (R69, R130). -/
theorem brBit_eq_one_iff (s : State) (k : Nat) : decide (brBit s k = 1) = payloadBit s k := by
  unfold brBit payloadBit srcByte
  by_cases hk : k < 8 * s.br.len
  · by_cases ha : s.br.base + k / 8 < s.h.size
    · simp only [hk, ha, if_true, decide_true, Bool.true_and, BitVec.getLsbD, Nat.testBit_eq_decide_div_mod_eq,
        Nat.shiftRight_eq_div_pow]
    · simp only [hk, ha, if_true, if_false, decide_true, decide_false, Bool.true_and, Bool.false_and]
      rfl
  · simp only [hk, if_false, decide_false, Bool.false_and]
    rfl

/-- The offset of method 13's offset code and its extra bits (R104, R202). -/
theorem m13OfsValue_eq {v e : Nat} (h : e < 2 ^ (v - 1)) : m13OfsValue v e = (if v = 0 then 0 else 2 ^ (v - 1) + e) + 1 := by
  rw [m13OfsValue, ← Nat.shiftLeft_add_eq_or_of_lt h, Nat.one_shiftLeft]

theorem m13OfsOf_eq (v : Nat) (s : State) :
    m13OfsOf v s = ((if v = 0 then 0 else 2 ^ (v - 1) + brPeek (v - 1) s) + 1, brAdvance (v - 1) s) := by
  rw [← m13OfsValue_eq (brPeek_lt (v - 1) s)]
  rfl

/-- The offset of a code and its extra bits (R108, R242). -/
theorem m14DistOf_eq (d : Nat) (s : State) :
    m14DistOf d s = (base14o d + (brReadBits (extra14o d) s).1, brAdvance (extra14o d) s) := by
  rw [← brReadBits_snd]
  rfl

/-! ## Symbols -/

/-- Whether an operation on the reader returns or raises, it only moves the reader on, and it raises only `CorruptStream`. -/
def Res.Moves {α : Type} (s : State) : Res α → Prop
  | .ok _ t => ∃ n, t = brAdvance n s
  | .raised k t => k = .corruptStream ∧ ∃ n, t = brAdvance n s
  | .fault _ => True
  | .refused _ => True

theorem Res.Moves.of_brAdvance {α : Type} {r : Res α} {s : State} {m : Nat} (h : r.Moves (brAdvance m s)) : r.Moves s := by
  cases r with
  | ok a t =>
    obtain ⟨n, rfl⟩ := h
    exact ⟨m + n, brAdvance_brAdvance m n s⟩
  | raised k t =>
    obtain ⟨hk, n, rfl⟩ := h
    exact ⟨hk, m + n, brAdvance_brAdvance m n s⟩
  | fault e => trivial
  | refused e => trivial

theorem overflowWalk_moves (t : Table) (fuel node : Nat) (s : State) : (overflowWalk t fuel node s).Moves s := by
  induction fuel generalizing node s with
  | zero => trivial
  | succ fuel ih =>
    simp only [overflowWalk, brTake_eq]
    cases childOf t node (brPeek 1 s) with
    | none => exact ⟨rfl, 1, rfl⟩
    | some c =>
      simp only
      cases (Memory.read t.node c).symbol with
      | none => exact (ih c (brAdvance 1 s)).of_brAdvance
      | some v => exact ⟨1, rfl⟩

/-- A symbol decode only moves the reader, and fails with `CorruptStream` only (R167). -/
theorem h12Decode_moves (id : TableId) (s : State) : (h12Decode id s).Moves s := by
  unfold h12Decode
  simp only
  split_ifs
  · exact ⟨rfl, 0, rfl⟩
  · exact ⟨_, rfl⟩
  · exact (overflowWalk_moves ..).of_brAdvance

theorem brAdvance_of_decode {id : TableId} {s u : State} {v : Nat} (h : h12Decode id s = .ok v u) : ∃ n, u = brAdvance n s := by
  have hm := h12Decode_moves id s
  rwa [h] at hm

theorem corruptStream_of_decode {id : TableId} {s u : State} {k : ErrKind} (h : h12Decode id s = .raised k u) :
    k = .corruptStream := by
  have hm := h12Decode_moves id s
  rw [h] at hm
  exact hm.1

/-! ## Matches -/

/-- With room for all of it a copy appends its bytes (R309). -/
theorem outCopy_fits {d : Decoder} {off len : Nat} {s : State} (ho : 1 ≤ off) (hwin : Memory.wf s.win = true)
    (hout : Memory.wf s.outMem = true) (hroom : s.out.cnt + len ≤ s.out.size) :
    ∃ w, outCopy d len off s = .ok () w ∧ Appended d (copyBytes d len off s) s w := by
  have h := outCopy_appended ho len (k := 0) (Appended.nil d s) hwin hout hroom
  rwa [Nat.zero_add] at h

/-- One byte emitted is one byte appended (R308). -/
theorem Appended.emitted {s : State} (d : Decoder) (b : Byte) (hwin : Memory.wf s.win = true) (hout : Memory.wf s.outMem = true) :
    Appended d [b] s (emitted d b s) :=
  (Appended.nil d s).snoc hwin hout b

/-- What method 14 emits leaves the block's rest (R308). -/
theorem Appended.m14_rem {bs : Bytes} {s t : State} (h : Appended .m14 bs s t) : t.m14.rem = s.m14.rem :=
  congrArg (fun u => u.m14.rem) h.1

section
variable {s u : State} {v : Nat}

/-- A match of method 13 whose offset code is `v` (R202). -/
theorem m13Match_of_prefix (len : Nat) {bits : Nat} (hd : h12Decode .tOfs (brAdvance bits s) = .ok v u) (hv : v < 17) :
    m13Match len (brAdvance bits s) =
      (outCopy .m13 len ((if v = 0 then 0 else 2 ^ (v - 1) + brPeek (v - 1) u) + 1) (brAdvance (v - 1) u)).bind
        fun _ t => .ok () (m13SetActive .second t) := by
  rw [m13Match, m13Offset, hd, Res.bind_ok, if_pos hv, Res.bind_ok, m13OfsOf_eq]

theorem m13Match_of_noPrefix (len : Nat) {bits : Nat} (hd : h12Decode .tOfs (brAdvance bits s) = .ok v u) (hv : 17 ≤ v) :
    m13Match len (brAdvance bits s) = .raised .corruptStream u := by
  rw [m13Match, m13Offset, hd, Res.bind_ok, if_neg (Nat.not_lt.2 hv), Res.bind_raised]

theorem m13Match_of_raised (len : Nat) {bits : Nat} {k : ErrKind} (hd : h12Decode .tOfs (brAdvance bits s) = .raised k u) :
    m13Match len (brAdvance bits s) = .raised k u := by
  rw [m13Match, m13Offset, hd, Res.bind_raised, Res.bind_raised]

/-- Every match row of method 13 takes its extra length bits, then does the same (R197 to R199). -/
theorem exec_m13Match {i : Instr} {len bits : Nat}
    (hi : (∃ sym, i = .m13Len sym ∧ 0x100 ≤ sym.toNat ∧ sym.toNat ≤ 0x13D ∧ bits = 0 ∧ len = sym.toNat - 0x100 + 3)
      ∨ (i = .m13Med ∧ bits = 10 ∧ len = brPeek 10 s + 65) ∨ (i = .m13Long ∧ bits = 15 ∧ len = brPeek 15 s + 65)) :
    exec i s = (m13Match len (brAdvance bits s)).outcome ∧ 1 ≤ len := by
  rcases hi with ⟨sym, rfl, -, -, rfl, rfl⟩ | ⟨rfl, rfl, rfl⟩ | ⟨rfl, rfl, rfl⟩
  · exact ⟨rfl, by omega⟩
  · exact ⟨rfl, by omega⟩
  · exact ⟨rfl, by omega⟩

/-- A match of method 14 whose offset code is `v` (R242). -/
theorem m14Match_of_code {c : Nat} (hd : h12Decode .td (brAdvance (extra14 c) s) = .ok v u) (hv : v < 75) :
    m14Match c s =
      if s.m14.rem < base14 c + (brReadBits (extra14 c) s).1 then .raised .corruptStream (brAdvance (extra14o v) u)
      else (outCopy .m14 (base14 c + (brReadBits (extra14 c) s).1) (base14o v + (brReadBits (extra14o v) u).1)
        (brAdvance (extra14o v) u)).bind
          fun _ t => .ok () (m14SetRem (t.m14.rem - (base14 c + (brReadBits (extra14 c) s).1)) t) := by
  have hrem : (brAdvance (extra14o v) u).m14.rem = s.m14.rem := by
    obtain ⟨n, rfl⟩ := brAdvance_of_decode hd
    rfl
  simp only [m14Match, brReadBits_snd, m14Offset, hd, Res.bind_ok, if_pos hv, m14DistOf_eq, hrem]

theorem m14Match_of_noCode {c : Nat} (hd : h12Decode .td (brAdvance (extra14 c) s) = .ok v u) (hv : 75 ≤ v) :
    m14Match c s = .raised .corruptStream u := by
  simp only [m14Match, brReadBits_snd, m14Offset, hd, Res.bind_ok, if_neg (Nat.not_lt.2 hv), Res.bind_raised]

theorem m14Match_of_raised {c : Nat} {k : ErrKind} (hd : h12Decode .td (brAdvance (extra14 c) s) = .raised k u) :
    m14Match c s = .raised k u := by
  simp only [m14Match, brReadBits_snd, m14Offset, hd, Res.bind_raised]

end

end Sys2Proof.Machine

namespace Sys2Proof.Proofs

open Sys2Proof Sys2Proof.Machine

/-- Settles O45: both tables are ranges one after another, from 4 to 16388 and from 1 to 1048576. -/
theorem method14TablesTile : Obligations.Method14TablesTile := by
  have hlen : base14 52 = 16388 := by decide
  have hoff : base14o 75 = 1048576 := by decide
  refine ⟨fun len => ?_, fun c e c' e' _ he _ he' h => ranges_disjoint base14_succ he he' h, fun off => ?_,
    fun d e d' e' _ he _ he' h => ranges_disjoint base14o_succ he he' h⟩
  · rw [ranges_tile base14_succ, hlen, base14]
    omega
  · rw [ranges_tile base14o_succ, hoff, base14o]
    omega

/-- Settles O41: the offset code's bit stands above its extra bits, which stay below it. -/
theorem method13OffsetOfAPrefix : Obligations.Method13OffsetOfAPrefix := by
  intro s v
  refine ⟨(if v.val = 0 then 0 else 2 ^ (v.val - 1) + brPeek (v.val - 1) s) + 1, ?_, fun hv => ?_, fun hv => ?_⟩
  · exact congrArg (fun r => Host.Outcome.next (r.2.withRet (.num r.1))) (m13OfsOf_eq v.val s)
  · rw [if_pos hv]
  · have hlt := brPeek_lt (v.val - 1) s
    have hpow : 2 ^ v.val = 2 ^ (v.val - 1) * 2 := by rw [← Nat.pow_succ]; congr 1; omega
    rw [if_neg hv, hpow]
    omega

/-- Settles O46: a wide read is a field of the payload. -/
theorem offsetRowsReadTheirExtraBits : Obligations.OffsetRowsReadTheirExtraBits := by
  intro s i d hi
  refine ⟨(brReadBits (extra14o d) s).1, brReadBits_lt _ s, fun k hk => ?_, ?_⟩
  · rw [brReadBits_fst, brField_testBit _ _ _ _ hk, brBit_eq_one_iff]
  · rw [exec_of_distCode hi]
    exact congrArg (fun r => Host.Outcome.next (r.2.withRet (.num r.1))) (m14DistOf_eq d s)

/-- Settles O40: the three rows differ in their extra bits only; the copy is from the window as it was at the start. -/
theorem method13MatchCopies : Obligations.Method13MatchCopies := by
  intro s i len bits hi
  obtain ⟨hexec, hlen⟩ := exec_m13Match hi
  rw [hexec]
  refine ⟨fun v u hd => ?_, fun k u hd => ?_⟩
  · obtain ⟨n, rfl⟩ := brAdvance_of_decode (s := brAdvance bits s) hd
    refine ⟨fun hv hwin hout hroom => ?_, fun hv hover => ?_, fun hv => ?_⟩
    · rw [m13Match_of_prefix len hd hv]
      obtain ⟨w, hcopy, happ⟩ := outCopy_fits (d := .m13) (s := brAdvance (v - 1) (brAdvance n (brAdvance bits s)))
        (Nat.le_add_left 1 _) hwin hout hroom
      exact ⟨_, w, rfl, happ, by rw [hcopy]; rfl⟩
    · rw [m13Match_of_prefix len hd hv]
      obtain ⟨t, hcopy, hsame⟩ := outCopy_overrun .m13 _ (s := brAdvance (v - 1) (brAdvance n (brAdvance bits s))) hlen hover
      exact ⟨t, by rw [hcopy]; rfl, hsame.kept⟩
    · rw [m13Match_of_noPrefix len hd hv, Res.outcome_raised]
  · obtain rfl := corruptStream_of_decode hd
    rw [m13Match_of_raised len hd, Res.outcome_raised]
    exact ⟨rfl, rfl⟩

/-- Settles O47: a literal is an emit; a match is bounded by the block's rest first, then by the output. -/
theorem method14LiteralAndMatch : Obligations.Method14LiteralAndMatch := by
  refine ⟨?_, ?_, ?_, ?_, ?_⟩
  · intro s b hwin hout hroom
    refine ⟨emitted .m14 b s, Appended.emitted .m14 b hwin hout, ?_⟩
    exact congrArg (fun r => (Res.bind r fun _ t => .ok () (m14SetRem (t.m14.rem - 1) t)).outcome) (outEmit_ok hroom)
  · intro s b hfull
    exact congrArg (fun r => (Res.bind r fun _ t => .ok () (m14SetRem (t.m14.rem - 1) t)).outcome) (outEmit_full hfull)
  · intro s i c d u hi hd hcode
    obtain ⟨n, rfl⟩ := brAdvance_of_decode (s := brAdvance (extra14 c) s) hd
    have hlen : 1 ≤ base14 c := (by decide : 1 ≤ base14 0).trans (base_le base14_succ (Nat.zero_le c))
    have hoff : 1 ≤ base14o d := (by decide : 1 ≤ base14o 0).trans (base_le base14o_succ (Nat.zero_le d))
    rw [exec_of_matchCode hi, m14Match_of_code hd hcode]
    generalize hl : base14 c + (brReadBits (extra14 c) s).1 = len
    generalize ho : base14o d + (brReadBits (extra14o d) (brAdvance n (brAdvance (extra14 c) s))).1 = off
    refine ⟨len, off, rfl, rfl, fun hrem hwin hout hroom => ?_, fun hrem => ?_, fun hover => ?_⟩
    · obtain ⟨w, hcopy, happ⟩ := outCopy_fits (d := .m14) (off := off)
        (s := brAdvance (extra14o d) (brAdvance n (brAdvance (extra14 c) s))) (by omega) hwin hout hroom
      have hkept : w.m14.rem = s.m14.rem := happ.m14_rem
      refine ⟨w, happ, ?_⟩
      rw [if_neg (Nat.not_lt.2 hrem), hcopy, Res.bind_ok, Res.outcome_ok, hkept]
      rfl
    · rw [if_pos hrem]
      rfl
    · by_cases hrem : s.m14.rem < len
      · rw [if_pos hrem]
        exact ⟨_, rfl, rfl, rfl, rfl⟩
      · obtain ⟨t, hcopy, hsame⟩ := outCopy_overrun .m14 off
          (s := brAdvance (extra14o d) (brAdvance n (brAdvance (extra14 c) s))) (by omega) hover
        rw [if_neg hrem, hcopy]
        exact ⟨t, rfl, hsame.kept⟩
  · intro s i c d u hi hd hcode
    rw [exec_of_matchCode hi, m14Match_of_noCode hd hcode, Res.outcome_raised]
  · intro s i c k u hi hd
    obtain rfl := corruptStream_of_decode hd
    rw [exec_of_matchCode hi]
    exact ⟨rfl, congrArg Res.outcome (m14Match_of_raised hd)⟩

end Sys2Proof.Proofs
end

section
/-! The container: its magics and headers, its names, and a file's entry; and the tables of a static profile. -/

namespace Sys2Proof.Machine

/-! ## Static profiles -/

/-- A profile of R9's form is found (R183). -/
theorem m13Profile_of_sound {s : State} {p : Nat} {ls : List (List Nat)} {bs l : List Nat} {nb : Nat}
    (hls : s.par.romStatic = some ls) (hbs : s.par.romStaticBits = some bs) (hl : ls[p]? = some l) (hb : bs[p]? = some nb)
    (hsound : profileSound l = true) (hbits : profileBitsSound nb = true) : m13Profile p s = .ok (l, nb) s := by
  unfold m13Profile
  rw [hls, hbs]
  simp only [hl, hb, hsound, hbits, and_self, if_true]

/-- A length list that fits is built (R165). -/
theorem h12Build_of_some {ls : List Nat} {s : State} {v : Table} (h : buildTable s.par.poolSlots ls = some v) (id : TableId) :
    h12Build id ls s = .ok () (withTable s id v) := by
  rw [h12Build, h]

/-! ## The archive header -/

section
variable {s : State}

theorem cpArchdr_of_short (h : s.h.size < 4) : cpArchdr s = .raised .truncated s := if_pos h

theorem cpArchdr_of_room (h : 4 ≤ s.h.size) : cpArchdr s = .ok () (pushTasks [.fetch .magic1, .archRest] s) :=
  if_neg (Nat.not_lt.2 h)

theorem archRecord_of_primary {r : ArchHdr} {i : Instr} (h : primaryMagic r.magic.toNat = some i) :
    archRecord r s = .ok () (pushTasks [.fetch .magic2] (s.withCp { s.cp with asize := r.asize.toNat })) :=
  if_neg (by rw [h]; nofun)

theorem archRecord_of_other {r : ArchHdr} (h : primaryMagic r.magic.toNat = none) :
    archRecord r s = .raised .badMagic s := if_pos h

/-- `s` with the archive's size read from the header (R96). -/
def sizeRead (s : State) : State := s.withCp { s.cp with asize := (be32At (Memory.slice s.src 6 4) 0).toNat }

/-- A field of a slice is the field in the memory. -/
theorem be32At_slice (m : Memory Byte) (a : Nat) {n k : Nat} (h : k + 4 ≤ n) :
    be32At (Memory.slice m a n) k = be32At (Memory.slice m (a + k) 4) 0 := by
  simp (disch := omega) only [be32At, Memory.slice_getD, Nat.add_assoc, Nat.zero_add, Nat.add_zero]

theorem be32At_slice_toNat (m : Memory Byte) (a : Nat) :
    (be32At (Memory.slice m a 4) 0).toNat
      = (((Memory.read m a).toNat * 256 + (Memory.read m (a + 1)).toNat) * 256 + (Memory.read m (a + 2)).toNat) * 256
        + (Memory.read m (a + 3)).toNat := by
  simp (disch := omega) only [be32At, be32_toNat, Memory.slice_getD, Nat.zero_add, Nat.add_zero]

/-- The secondary magic is `rLau`, byte for byte (R95). -/
theorem be32At_eq_secondaryMagic {bs : Bytes} (h : bs.length = 4) :
    (be32At bs 0).toNat = secondaryMagic ↔ bs = [0x72#8, 0x4C#8, 0x61#8, 0x75#8] := by
  constructor
  · intro hm
    have hword : be32At bs 0 = 0x724C6175#32 := BitVec.eq_of_toNat_eq hm
    have hbytes : be32Bytes (be32At bs 0) = bs := by
      rw [be32Bytes_be32At (by omega), ← h, fieldAt_full]
    rw [← hbytes, hword]
    decide
  · rintro rfl
    decide

/-! The steps of `CP.ARCHDR` (R262), one by one, with the lines `ts` after them. -/

variable {ts : List Task}

theorem step_cpArchdr (hs : s.seq = .op .cpArchdr :: ts) (h : 4 ≤ s.h.size) :
    step s = .next (s.withSeq (.fetch .magic1 :: .archRest :: ts)) := by
  rw [step_cons hs]
  exact congrArg Res.outcome (cpArchdr_of_room (s := s.withSeq ts) h)

theorem fetchMagic_of_room {a : Nat} (h : a + 4 ≤ s.h.size) :
    fetchMagic a s = .ok (.num (be32At (Memory.slice s.src a 4) 0).toNat) s := if_neg (Nat.not_lt.2 h)

/-- The first magic is fetched, decoded and performed. -/
theorem step_magic1 (h : 4 ≤ s.h.size) :
    step (s.withSeq (.fetch .magic1 :: ts)) = perform ((primaryMagic (be32At (Memory.slice s.src 0 4) 0).toNat).getD
      (.magicOther (BitVec.ofNat 32 (be32At (Memory.slice s.src 0 4) 0).toNat))) (s.withSeq ts) := by
  rw [step_cons rfl]
  exact fetchPerform_of_decode (fetchMagic_of_room (s := s.withSeq ts) h) (decode_magic1 (BitVec.isLt _))

/-- The first magic is one of the nine (R95). -/
theorem step_magic1_primary {i : Instr} (h : 4 ≤ s.h.size)
    (hm : primaryMagic (be32At (Memory.slice s.src 0 4) 0).toNat = some i) :
    step (s.withSeq (.fetch .magic1 :: ts)) = .next (s.withSeq ts) := by
  rw [step_magic1 h, hm, Option.getD_some, perform_of_primaryMagic hm]

/-- The first magic is any other word (R95). -/
theorem step_magic1_other (h : 4 ≤ s.h.size) (hm : primaryMagic (be32At (Memory.slice s.src 0 4) 0).toNat = none) :
    step (s.withSeq (.fetch .magic1 :: ts)) = .next (takeError .badMagic s) := by
  rw [step_magic1 h, hm]
  rfl

theorem step_archRest_short (h : s.h.size < 22) : step (s.withSeq (.archRest :: ts)) = .next (takeError .truncated s) := by
  rw [step_cons rfl]
  exact congrArg Res.outcome (if_pos h : archRest (s.withSeq ts) = _)

theorem step_archRest_room (h : 22 ≤ s.h.size) :
    step (s.withSeq (.archRest :: ts)) = .next (s.withSeq (.fetch .arch :: ts)) := by
  rw [step_cons rfl]
  exact congrArg Res.outcome (if_neg (Nat.not_lt.2 h) : archRest (s.withSeq ts) = _)

/-- The record's size field is at 6 (R96). -/
theorem step_arch {i : Instr} (h : 22 ≤ s.h.size) (hm : primaryMagic (be32At (Memory.slice s.src 0 4) 0).toNat = some i) :
    step (s.withSeq (.fetch .arch :: ts)) = .next ((sizeRead s).withSeq (.fetch .magic2 :: ts)) := by
  have hf : fetchRaw .arch (s.withSeq ts) = .ok (.bytes (Memory.slice s.src 0 22)) (s.withSeq ts) := if_neg (Nat.not_lt.2 h)
  have hmagic : (archOfBytes (Memory.slice s.src 0 22)).magic = be32At (Memory.slice s.src 0 4) 0 :=
    be32At_slice _ _ (by decide)
  have hasize : (archOfBytes (Memory.slice s.src 0 22)).asize = be32At (Memory.slice s.src 6 4) 0 :=
    be32At_slice _ _ (by decide)
  rw [← hmagic] at hm
  rw [step_cons rfl, sizeRead, ← hasize]
  exact (fetchPerform_of_decode hf (decode_arch (Memory.slice_length ..))).trans
    (congrArg Res.outcome (archRecord_of_primary (s := s.withSeq ts) hm))

/-- The second magic is fetched, decoded and performed. -/
theorem step_magic2 (h : 22 ≤ s.h.size) :
    step (s.withSeq (.fetch .magic2 :: ts)) = perform
      (if (be32At (Memory.slice s.src 10 4) 0).toNat = secondaryMagic then .magicRLau
        else .magicOther (BitVec.ofNat 32 (be32At (Memory.slice s.src 10 4) 0).toNat)) (s.withSeq ts) := by
  have hroom : 10 + 4 ≤ s.h.size := Nat.le_trans (by decide) h
  rw [step_cons rfl]
  exact fetchPerform_of_decode (fetchMagic_of_room (s := s.withSeq ts) hroom) (decode_magic2 (BitVec.isLt _))

/-- The second magic is `rLau` (R95). -/
theorem step_magic2_rLau (h : 22 ≤ s.h.size) (hm : Memory.slice s.src 10 4 = [0x72#8, 0x4C#8, 0x61#8, 0x75#8]) :
    step (s.withSeq (.fetch .magic2 :: ts)) = .next (archDone (s.withSeq ts)) := by
  rw [step_magic2 h, if_pos ((be32At_eq_secondaryMagic (Memory.slice_length ..)).2 hm)]
  rfl

/-- The second magic is any other word (R95). -/
theorem step_magic2_other (h : 22 ≤ s.h.size) (hm : Memory.slice s.src 10 4 ≠ [0x72#8, 0x4C#8, 0x61#8, 0x75#8]) :
    step (s.withSeq (.fetch .magic2 :: ts)) = .next (takeError .badMagic s) := by
  rw [step_magic2 h, if_neg (mt (be32At_eq_secondaryMagic (Memory.slice_length ..)).1 hm)]
  rfl

end

/-! ## Names -/

theorem colon_not_mem_lastComponent (name : Bytes) : colon ∉ lastComponent name := by
  intro h
  have hp := List.mem_takeWhile_imp (List.mem_reverse.1 h)
  simp at hp

/-- Before the last component there is nothing, or a part that ends in `:` (R270). -/
theorem exists_append_lastComponent (name : Bytes) :
    ∃ pre, name = pre ++ lastComponent name ∧ (pre = [] ∨ pre.getLast? = some colon) := by
  refine ⟨(name.reverse.dropWhile (· != colon)).reverse, ?_, ?_⟩
  · rw [lastComponent, ← List.reverse_append, List.takeWhile_append_dropWhile, List.reverse_reverse]
  · have hhead := List.head?_dropWhile_not (· != colon) name.reverse
    rw [List.getLast?_reverse, List.reverse_eq_nil_iff]
    cases hd : name.reverse.dropWhile (· != colon) with
    | nil => exact Or.inl rfl
    | cons b bs =>
      rw [hd] at hhead
      exact Or.inr (congrArg some (by simpa using hhead))

/-! ## File entries -/

/-- `s` past both payloads of an entry (R271). -/
def payloadsSkipped (r : EntHdr) (s : State) : State :=
  s.withCp { s.cp with pos := s.cp.pos + r.resCsize.toNat + r.dataCsize.toNat }

theorem entFile_of_short {r : EntHdr} {s : State} (h : s.h.size < s.cp.pos + r.resCsize.toNat + r.dataCsize.toNat) :
    entFile r s = .raised .truncated s := if_pos h

theorem entFile_of_room {r : EntHdr} {s : State} (h : s.cp.pos + r.resCsize.toNat + r.dataCsize.toNat ≤ s.h.size) :
    entFile r s = cpInsert (fold (entryPath s (entName r))) (entryPath s (entName r)) (resForkOf r s.cp.pos)
      (dataForkOf r s.cp.pos) (finderHead r) (payloadsSkipped r s) := if_neg (Nat.not_lt.2 h)

/-- The ten bytes of Finder info are bytes 66 to 75 of the header (R116). -/
theorem finderHead_eq_field {r : EntHdr} (hr : r.wf = true) : finderHead r = ((entBytes r).drop 66).take 10 :=
  (fieldAt_entBytes_tail hr 0 10).symm

end Sys2Proof.Machine

namespace Sys2Proof.Proofs

open Sys2Proof Sys2Proof.Machine

/-- Settles O51: the header's steps in a row. -/
theorem archiveHeaderIsAccepted : Obligations.ArchiveHeaderIsAccepted := by
  intro s ts hs h4
  have hstart : ∀ n, Host.Core.run Sys2Proof.core (n + 1) s
      = Host.Core.run Sys2Proof.core n (s.withSeq (.fetch .magic1 :: .archRest :: ts)) := run_next (step_cpArchdr hs h4)
  refine ⟨fun i asize h22 hm hasize => ?_, fun i h22 hm => ?_, fun hm => ?_⟩
  · rw [be32At_slice _ _ (by decide)] at hm
    rw [← be32At_slice_toNat s.src 6] at hasize
    subst hasize
    have hrecord : Host.Core.run Sys2Proof.core 5 s = Host.Core.run Sys2Proof.core 1
        ((sizeRead s).withSeq (.fetch .magic2 :: ts)) := by
      rw [hstart, run_next (step_magic1_primary h4 hm), run_next (step_archRest_room h22), run_next (step_arch h22 hm)]
    rw [hrecord]
    exact ⟨fun hm2 => run_next (step_magic2_rLau (s := sizeRead s) h22 hm2) 0,
      fun hm2 => run_next (step_magic2_other (s := sizeRead s) h22 hm2) 0⟩
  · rw [hstart, run_next (step_magic1_primary h4 hm), run_next (step_archRest_short h22), run_zero]
  · rw [hstart, run_next (step_magic1_other h4 hm), run_zero]

/-- Settles O54: the last component is what stands after the last `:`. -/
theorem keyOfAName : Obligations.KeyOfAName := by
  intro s name
  refine ⟨entryPath s name, rfl, fun hf => ?_, fun hf => ?_⟩
  · rw [entryPath, hf]
    rfl
  · rw [entryPath, if_pos hf]
    exact ⟨colon_not_mem_lastComponent name, exists_append_lastComponent name⟩

/-- Settles O56: `ENT.FILE` is an insert with the parser past both payloads. -/
theorem fileEntryIsIndexed : Obligations.FileEntryIsIndexed := by
  intro s r hr
  refine ⟨fun hshort => congrArg Res.outcome (entFile_of_short hshort), ?_⟩
  rintro u name path hroom rfl rfl rfl
  rw [← finderHead_eq_field hr]
  have hfile := entFile_of_room hroom
  refine ⟨fun hz => ?_, congrArg Res.outcome hfile, fun hz hkey => ?_⟩
  · exact congrArg Res.outcome (hfile.trans (cpInsert_of_empty hz))
  · refine ⟨_, _, rfl, rfl, rfl, ?_, congrArg Res.outcome (hfile.trans (cpInsert_of_new hz hkey))⟩
    exact List.take_left' (finderHead_length r)

/-- Settles O33: with the profile found and the three lists fitting, the three builds return. -/
theorem staticProfileBuildsTables : Obligations.StaticProfileBuildsTables := by
  intro s i p ls bs l nb a b c hi hls hbs hl hnb hlen h32 hlo hhi ha hb hc
  have hsound : profileSound l = true := by
    rw [profileSound, hlen, Bool.and_eq_true, List.all_eq_true]
    exact ⟨rfl, fun x hx => decide_eq_true (h32 x hx)⟩
  have hbits : profileBitsSound nb = true := by
    rw [profileBitsSound, decide_eq_true hlo, decide_eq_true hhi]
    rfl
  rw [exec_of_staticProfile hi, m13Static, m13Profile_of_sound hls hbs hl hnb hsound hbits, Res.bind_ok,
    h12Build_of_some ha, Res.bind_ok, h12Build_of_some (s := withTable s .t1 a) hb, Res.bind_ok,
    h12Build_of_some (s := withTable (withTable s .t1 a) .t2 b) hc]
  rfl

/-- Settles O50: the tests of the magics and the sizes, each at the line that makes it. -/
theorem magicsAndArchiveHeader : Obligations.MagicsAndArchiveHeader := by
  refine ⟨?_, fun s => rfl, fun s w => rfl, ?_, ?_, ?_, ?_, ?_, fun s => rfl⟩
  · intro s i w h
    rw [← perform_of_wf (wf_of_magicValue h), perform_of_primaryMagic (primaryMagic_of_magicValue h)]
  · intro s r i hm
    exact congrArg Res.outcome (archRecord_of_primary hm)
  · intro s r hm
    exact congrArg Res.outcome (archRecord_of_other hm)
  · intro s hshort
    exact congrArg Res.outcome (cpArchdr_of_short hshort)
  · intro s hroom
    exact congrArg Res.outcome (cpArchdr_of_room hroom)
  · intro s ts hs
    have hline : step s = step (s.withSeq (.archRest :: ts)) := by rw [← hs]; rfl
    rw [hline]
    by_cases h22 : s.h.size < 22
    · rw [if_pos h22, step_archRest_short h22]
    · rw [if_neg h22, step_archRest_room (Nat.not_lt.1 h22)]
      rfl

end Sys2Proof.Proofs
end

section
/-! The BitReader's operations over the bits of the payload: what each returns, how far it moves, and the laws of R139. -/

namespace Sys2Proof.Machine

/-! ## Fields of payload bits -/

/-- A field is a number of `n` bits, and each of them is the payload's bit (R69, R132). -/
theorem brField_bits (s : State) (k n : Nat) :
    brField s k n < 2 ^ n ∧ ∀ i, i < n → (brField s k n).testBit i = payloadBit s (k + i) :=
  ⟨brField_lt s k n, fun i hi => (brField_testBit s k n i hi).trans (brBit_eq_one_iff s (k + i))⟩

/-- A field of one bit (R134). -/
theorem brField_one (s : State) (k : Nat) : brField s k 1 = if payloadBit s k then 1 else 0 := by
  have hlt := brBit_lt s k
  rw [← brBit_eq_one_iff, brField, brField, Nat.mul_zero, Nat.add_zero]
  by_cases hbit : brBit s k = 1
  · rw [decide_eq_true hbit, if_pos rfl, hbit]
  · rw [decide_eq_false hbit, if_neg Bool.false_ne_true]
    omega

/-- The bits of a payload byte that `SRC` has are the byte's bits (R69, R130). -/
theorem payloadBit_of_byte {s : State} {p i : Nat} (hp : p < s.br.len) (hsrc : s.br.base + s.br.len ≤ s.h.size) (hi : i < 8) :
    payloadBit s (8 * p + i) = (Memory.read s.src (s.br.base + p)).toNat.testBit i := by
  have hbyte : (8 * p + i) / 8 = p := by omega
  have hbit : (8 * p + i) % 8 = i := by omega
  have hinside : 8 * p + i < 8 * s.br.len := by omega
  have hinSrc : s.br.base + p < s.h.size := by omega
  rw [payloadBit, hbyte, hbit, decide_eq_true hinside, decide_eq_true hinSrc]
  rfl

/-- Eight bits at a byte boundary inside the payload are that byte (R139). -/
theorem brField_byte {s : State} {p : Nat} (hp : p < s.br.len) (hsrc : s.br.base + s.br.len ≤ s.h.size) :
    brField s (8 * p) 8 = (Memory.read s.src (s.br.base + p)).toNat := by
  obtain ⟨hlt, hbits⟩ := brField_bits s (8 * p) 8
  refine Nat.eq_of_testBit_eq fun i => ?_
  by_cases hi : i < 8
  · rw [hbits i hi, payloadBit_of_byte hp hsrc hi]
  · have hpow : 2 ^ 8 ≤ 2 ^ i := Nat.pow_le_pow_right (by decide) (Nat.le_of_not_lt hi)
    rw [Nat.testBit_lt_two_pow (hlt.trans_le hpow), Nat.testBit_lt_two_pow ((BitVec.isLt _).trans_le hpow)]

/-- Sixteen bits at a byte boundary are two bytes, the low one first (R139). -/
theorem brField_two_bytes {s : State} {p : Nat} (hp : p + 1 < s.br.len) (hsrc : s.br.base + s.br.len ≤ s.h.size) :
    brField s (8 * p) 16
      = (Memory.read s.src (s.br.base + p)).toNat + 256 * (Memory.read s.src (s.br.base + p + 1)).toNat := by
  rw [brField_add s (8 * p) 8 8, brField_byte (Nat.lt_of_succ_lt hp) hsrc, ← Nat.mul_succ, brField_byte hp hsrc]
  rfl

/-- Two pieces of a field join as they lie in the word, low piece first (R139). -/
theorem brField_or_shiftLeft (s : State) (k a b : Nat) :
    brField s k a ||| (brField s (k + a) b <<< a) = brField s k (a + b) := by
  rw [Nat.or_comm, ← Nat.shiftLeft_add_eq_or_of_lt (brField_lt s k a), Nat.shiftLeft_eq, brField_add, Nat.mul_comm,
    Nat.add_comm]

/-! ## What the operations do -/

/-- `BR.TAKE` and `BR.READBITS` alike return the field at the position and move past it (R133, R137). -/
theorem exec_of_fieldRead {i : Instr} {n : Nat} (h : i = .brTake n ∨ i = .brReadBits n) (s : State) :
    exec i s = .next ((brAdvance n s).withRet (.num (brField s s.br.pos n))) := by
  rcases h with rfl | rfl
  · rfl
  · show Host.Outcome.next ((brReadBits n s).2.withRet (.num (brReadBits n s).1)) = _
    rw [brReadBits_fst, brReadBits_snd]

/-- An alignment rounds the position up to a whole number of bytes (R135). -/
theorem brAlign_eq (s : State) : brAlign s = s.withBr { s.br with pos := (s.br.pos + 7) / 8 * 8 } := by
  unfold brAlign
  split
  · rename_i haligned
    rw [show (s.br.pos + 7) / 8 * 8 = s.br.pos by omega]
    rfl
  · rename_i hinside
    rw [show (s.br.pos + 7) / 8 * 8 = s.br.pos + (8 - s.br.pos % 8) by omega]
    rfl

end Sys2Proof.Machine

namespace Sys2Proof.Proofs

open Sys2Proof Sys2Proof.Machine

/-- Settles O17: a peek is the field at the position. -/
theorem peekReadsPayloadBits : Obligations.PeekReadsPayloadBits := by
  intro s n _ _
  exact ⟨brPeek n s, rfl, brField_bits s s.br.pos n⟩

/-- Settles O18: both reads return the field at the position, the wide one in two pieces. -/
theorem takeAndWideReadReturnOneField : Obligations.TakeAndWideReadReturnOneField := by
  refine ⟨fun s base len => rfl, ?_, ?_⟩
  · intro s base t ht
    cases ht
    rfl
  · intro s i n hi
    exact ⟨brField s s.br.pos n, exec_of_fieldRead (hi.imp And.left And.left) s, brField_bits s s.br.pos n⟩

/-- Settles O20: each law is one of the field's. -/
theorem readerLaws : Obligations.ReaderLaws := by
  refine ⟨?_, ?_, ?_, ?_⟩
  · intro s a b _
    simp only [brTake_eq, brPeek, brAdvance_br, brField_brAdvance]
    exact brField_or_shiftLeft s s.br.pos a b
  · intro s n hn
    rw [Nat.one_shiftLeft, Nat.and_two_pow_sub_one_eq_mod]
    exact (brField_mod s s.br.pos hn).symm
  · intro s p hpos hsrc
    rw [brTake_eq, brTake_eq, brPeek, brPeek, hpos]
    exact ⟨fun hp => brField_byte hp hsrc, fun hp => brField_two_bytes hp hsrc⟩
  · intro s
    rw [brAlign_eq]
    exact Nat.mul_mod_left _ 8

/-- Settles O19: one bit is a field of one bit, and an alignment rounds up. -/
theorem takeOneAlignAndEndOfStream : Obligations.TakeOneAlignAndEndOfStream := by
  refine ⟨?_, ?_, fun s => rfl⟩
  · intro s
    rw [← brField_one]
    rfl
  · intro s
    exact congrArg Host.Outcome.next (brAlign_eq s)

end Sys2Proof.Proofs
end

section
/-! The CRC's two instructions and its ranges, and its laws: a shift is linear and loses nothing, and so is all that is made of
shifts. -/

namespace Sys2Proof.Machine

/-! ## Linearity (R155) -/

/-- A shift is linear: the polynomial enters once for each operand whose lowest bit is 1, and twice is not at all. -/
theorem crcShift_xor (c d : U16) : crcShift (c ^^^ d) = crcShift c ^^^ crcShift d := by
  unfold crcShift
  rw [BitVec.getLsbD_xor, BitVec.ushiftRight_xor_distrib]
  cases c.getLsbD 0 <;> cases d.getLsbD 0
  · rfl
  · exact BitVec.xor_assoc ..
  · show c >>> 1 ^^^ d >>> 1 ^^^ 0xA001#16 = c >>> 1 ^^^ 0xA001#16 ^^^ d >>> 1
    ac_rfl
  · show c >>> 1 ^^^ d >>> 1 = c >>> 1 ^^^ 0xA001#16 ^^^ (d >>> 1 ^^^ 0xA001#16)
    rw [BitVec.xor_assoc, BitVec.xor_comm (d >>> 1), ← BitVec.xor_assoc 0xA001#16, BitVec.xor_self, BitVec.zero_xor]

theorem crcShifts_xor (n : Nat) (c d : U16) : crcShifts n (c ^^^ d) = crcShifts n c ^^^ crcShifts n d := by
  induction n generalizing c d with
  | zero => rfl
  | succ n ih => rw [crcShifts, crcShift_xor, ih]; rfl

theorem crcByte_xor (c d : U16) (x y : Byte) : crcByte (c ^^^ d) (x ^^^ y) = crcByte c x ^^^ crcByte d y := by
  rw [crcByte, crcByte, crcByte, ← crcShifts_xor, BitVec.setWidth_xor]
  congr 1
  ac_rfl

/-- The CRC is linear in the accumulator and the bytes together. -/
theorem crcBytes_xor (c d : U16) (xs ys : Bytes) (h : xs.length = ys.length) :
    crcBytes (c ^^^ d) (List.zipWith (· ^^^ ·) xs ys) = crcBytes c xs ^^^ crcBytes d ys := by
  induction xs generalizing c d ys with
  | nil => rw [List.length_eq_zero_iff.1 h.symm]; rfl
  | cons x xs ih =>
    cases ys with
    | nil => cases h
    | cons y ys =>
      rw [List.zipWith_cons_cons, crcBytes_cons, crcByte_xor, ih _ _ _ (Nat.succ.inj h)]
      rfl

/-! ## Nothing is lost: one changed byte changes the CRC (R155, R266) -/

/-- The highest bit of the polynomial is 1 and the shift frees that place, so it tells the bit that fell out. -/
theorem crcShift_getLsbD_fifteen (c : U16) : (crcShift c).getLsbD 15 = c.getLsbD 0 := by
  have hfree : (c >>> 1).getLsbD 15 = false := by
    rw [BitVec.getLsbD_ushiftRight]
    exact BitVec.getLsbD_of_ge c 16 (Nat.le_refl 16)
  unfold crcShift
  cases hbit : c.getLsbD 0
  · exact hfree
  · show (c >>> 1 ^^^ 0xA001#16).getLsbD 15 = true
    rw [BitVec.getLsbD_xor, hfree]
    rfl

/-- A 16-bit value is its lowest bit and the rest. -/
theorem eq_of_ushiftRight_one {c d : U16} (hbit : c.getLsbD 0 = d.getLsbD 0) (hrest : c >>> 1 = d >>> 1) : c = d := by
  refine BitVec.eq_of_getLsbD_eq fun i _ => ?_
  cases i with
  | zero => exact hbit
  | succ i => simpa [Nat.add_comm] using congrArg (fun v => v.getLsbD i) hrest

theorem crcShift_injective : Function.Injective crcShift := by
  intro c d h
  have hbit : c.getLsbD 0 = d.getLsbD 0 := by
    rw [← crcShift_getLsbD_fifteen, ← crcShift_getLsbD_fifteen, h]
  refine eq_of_ushiftRight_one hbit ?_
  rw [crcShift, crcShift, hbit] at h
  cases hd : d.getLsbD 0 <;> rw [hd] at h
  · exact h
  · exact (BitVec.xor_left_inj _).1 h

theorem crcShifts_injective (n : Nat) : Function.Injective (crcShifts n) := by
  induction n with
  | zero => exact fun _ _ h => h
  | succ n ih => exact ih.comp crcShift_injective

/-- With one byte put in, different accumulators stay different. -/
theorem crcByte_injective_acc (b : Byte) : Function.Injective fun acc => crcByte acc b :=
  fun _ _ h => (BitVec.xor_left_inj _).1 (crcShifts_injective 8 h)

/-- Different bytes make different accumulators. -/
theorem crcByte_injective (acc : U16) : Function.Injective (crcByte acc) := by
  intro b c h
  have hwide : b.setWidth 16 = c.setWidth 16 := (BitVec.xor_right_inj _).1 (crcShifts_injective 8 h)
  simpa using congrArg (BitVec.setWidth 8) hwide

/-- With the same bytes put in, different accumulators stay different. -/
theorem crcBytes_injective (bs : Bytes) : Function.Injective fun acc => crcBytes acc bs := by
  induction bs with
  | nil => exact fun _ _ h => h
  | cons b bs ih => exact ih.comp (crcByte_injective_acc b)

/-! ## The residue (R155) -/

/-- As long as the bits that fall out are 0, the polynomial does not enter. -/
theorem crcShifts_of_low_zero {n : Nat} {c : U16} (h : ∀ i, i < n → c.getLsbD i = false) : crcShifts n c = c >>> n := by
  induction n generalizing c with
  | zero => exact (BitVec.ushiftRight_zero c).symm
  | succ n ih =>
    have hshift : crcShift c = c >>> 1 := by rw [crcShift, h 0 n.succ_pos]; rfl
    have hrest : ∀ i, i < n → (c >>> 1).getLsbD i = false := fun i hi => by
      rw [BitVec.getLsbD_ushiftRight, Nat.add_comm]
      exact h (i + 1) (Nat.succ_lt_succ hi)
    rw [crcShifts, hshift, ih hrest, ← BitVec.shiftRight_add, Nat.add_comm]

/-- The accumulator's own low byte takes it away, and leaves its high byte. -/
theorem crcByte_low (c : U16) : crcByte c (c.setWidth 8) = c >>> 8 := by
  have hlow : ∀ i, i < 8 → (c ^^^ (c.setWidth 8).setWidth 16).getLsbD i = false := fun i hi => by
    simp [hi, show i < 16 by omega]
  rw [crcByte, crcShifts_of_low_zero hlow]
  ext i hi
  simp

/-- An accumulator's own two bytes, the low one first, bring it to 0. -/
theorem crcBytes_own (c : U16) : crcBytes c [c.setWidth 8, (c >>> 8).setWidth 8] = 0#16 := by
  have hhigh : c >>> 8 >>> 8 = 0#16 := by
    rw [← BitVec.shiftRight_add]
    exact BitVec.ushiftRight_eq_zero (Nat.le_refl 16)
  rw [crcBytes_cons, crcByte_low, crcBytes_cons, crcByte_low, crcBytes_nil, hhigh]

/-! ## A range (R153) -/

/-- `CRC.RANGE` of bytes that are all there. -/
theorem exec_crcRange_of_some {s : State} {sp : ByteSpace} {a n : Nat} {bs : Bytes} (h : spaceBytes s sp a n = some bs) :
    exec (.crcRange sp a n) s = .next ((s.withCrc (crcBytes 0 bs)).withRet (.num (crcBytes 0 bs).toNat)) := by
  show (crcRange sp a n s).outcomeWith (fun c => .num c.toNat) = _
  rw [crcRange_eq, h]
  rfl

/-- A range of the window that does not wrap is a slice of its memory. -/
theorem spaceBytes_win_of_le {s : State} {a n : Nat} (h : a + n ≤ windowSize s.dec) :
    spaceBytes s .win a n = some (Memory.slice s.win a n) := by
  rw [spaceBytes_win, Memory.slice]
  refine congrArg some (List.map_congr_left fun i hi => ?_)
  have hinside : a + i < windowSize s.dec := by
    have := List.mem_range.1 hi
    omega
  rw [Nat.mod_eq_of_lt hinside]

end Sys2Proof.Machine

namespace Sys2Proof.Proofs

open Sys2Proof Sys2Proof.Machine

/-- Settles O24: linearity from accumulator 0, the residue of the accumulator the bytes leave, and each step's injectivity. -/
theorem crcLaws : Obligations.CrcLaws := by
  refine ⟨crcBytes_xor 0 0, ?_, ?_⟩
  · intro bs
    rw [crcBytes_append]
    exact crcBytes_own _
  · intro xs ys b c h
    rw [crcBytes_append, crcBytes_append] at h
    exact crcByte_injective _ (crcBytes_injective ys h)

/-- The check value of the nine digits (R155). -/
theorem crcBytes_digits :
    crcBytes 0 [0x31#8, 0x32#8, 0x33#8, 0x34#8, 0x35#8, 0x36#8, 0x37#8, 0x38#8, 0x39#8] = 0xBB3D#16 := by
  decide +kernel

/-- Settles O22: an equation for each definition, and the check value. -/
theorem crcInitAndUpdate : Obligations.CrcInitAndUpdate := by
  refine ⟨fun s => rfl, fun s b => rfl, fun c => ⟨rfl, fun n => ?_⟩, crcBytes_digits⟩
  rw [crcShifts, crcShift]

/-- Settles O23: in each space the range's bytes are there, and so the range has their CRC. -/
theorem crcOfARange : Obligations.CrcOfARange := by
  refine ⟨?_, ?_, ?_, ?_⟩ <;> intro s a n h
  · exact exec_crcRange_of_some (spaceBytes_src s a n h)
  · exact exec_crcRange_of_some (spaceBytes_out s a n h)
  · exact exec_crcRange_of_some (spaceBytes_win_of_le h)
  · exact exec_crcRange_of_some (spaceBytes_hdr s a n h)

end Sys2Proof.Proofs
end

section
/-! The statements about Huffman12: the order of the canonical codes, what a build needs, and that a decode reads just the codes. -/

namespace Sys2Proof.Machine

open Config (CodeEntry)

/-! ## The sorted pairs of a length list (R161) -/

/-- The pairs are the symbols with a length, each with its length. -/
theorem mem_sortedPairs {ls : List Nat} {p : Nat × Nat} :
    p ∈ sortedPairs ls ↔ ls[p.2]? = some p.1 ∧ 1 ≤ p.1 ∧ p.1 ≤ 32 := by
  simp only [sortedPairs, List.mem_flatMap, List.mem_range, List.mem_filter, List.mem_zipIdx_iff_getElem?, decide_eq_true_eq]
  constructor
  · rintro ⟨k, hk, hp, hlen⟩
    exact ⟨hp, by omega, by omega⟩
  · rintro ⟨hp, hpos, hle⟩
    exact ⟨p.1 - 1, by omega, hp, by omega⟩

/-- Symbols come in ascending order in the list numbered. -/
theorem zipIdx_ascending (ls : List Nat) : ls.zipIdx.Pairwise fun a b => a.2 < b.2 := by
  rw [← List.pairwise_map (f := Prod.snd) (R := (· < ·)), List.zipIdx_map_snd]
  exact List.pairwise_lt_range'

/-- The pairs come by length, then by symbol. -/
theorem sortedPairs_ordered (ls : List Nat) :
    (sortedPairs ls).Pairwise fun a b => a.1 < b.1 ∨ (a.1 = b.1 ∧ a.2 < b.2) := by
  refine List.pairwise_flatMap.2 ⟨fun k _ => ?_, List.pairwise_lt_range.imp fun {i j} hij a ha b hb => Or.inl ?_⟩
  · refine ((zipIdx_ascending ls).filter _).imp_of_mem fun {a b} ha hb hab => Or.inr ⟨?_, hab⟩
    rw [zipIdx_filter_fst ls _ a ha, zipIdx_filter_fst ls _ b hb]
  · rw [zipIdx_filter_fst ls _ a ha, zipIdx_filter_fst ls _ b hb]
    omega

theorem sortedPairs_nodup (ls : List Nat) : (sortedPairs ls).Nodup :=
  (sortedPairs_ordered ls).imp fun {a b} hab he => by subst he; omega

/-- The pairs are, in another order, the numbered lengths that are not zero. -/
theorem sortedPairs_perm {ls : List Nat} (h : ∀ l, l ∈ ls → l ≤ 32) :
    (sortedPairs ls).Perm (ls.zipIdx.filter fun p => p.1 ≠ 0) := by
  have hnumbered : ls.zipIdx.Nodup := (zipIdx_ascending ls).imp fun {a b} hab he => by subst he; omega
  refine (List.perm_ext_iff_of_nodup (sortedPairs_nodup ls) (hnumbered.filter _)).2 fun p => ?_
  rw [mem_sortedPairs, List.mem_filter, List.mem_zipIdx_iff_getElem?, decide_eq_true_eq]
  refine and_congr_right fun hp => ?_
  have := h _ (List.mem_of_getElem? hp)
  omega

/-- Their lengths are, in another order, the lengths that are not zero. -/
theorem sortedPairs_lens_perm {ls : List Nat} (h : ∀ l, l ∈ ls → l ≤ 32) :
    ((sortedPairs ls).map Prod.fst).Perm (ls.filter fun l => l ≠ 0) := by
  have hperm := (sortedPairs_perm h).map Prod.fst
  have hfst : (ls.zipIdx.map Prod.fst).filter (fun l => l ≠ 0) = (ls.zipIdx.filter fun p => p.1 ≠ 0).map Prod.fst :=
    List.filter_map
  rwa [← hfst, List.zipIdx_map_fst] at hperm

/-- The lengths that the pairs give a symbol: its own, unless that is zero. -/
theorem sortedPairs_lens_of_sym {ls : List Nat} (h : ∀ l, l ∈ ls → l ≤ 32) (sym : Nat) :
    ((sortedPairs ls).filter fun p => p.2 = sym).map Prod.fst = ls[sym]?.toList.filter fun l => l ≠ 0 := by
  have hmem : ∀ p, p ∈ (sortedPairs ls).filter (fun p => p.2 = sym) ↔ (ls[sym]? = some p.1 ∧ p.1 ≠ 0) ∧ p.2 = sym := by
    intro p
    rw [List.mem_filter, mem_sortedPairs, decide_eq_true_eq]
    refine and_congr_left fun hsym => ?_
    rw [hsym]
    refine and_congr_right fun hl => ?_
    have := h _ (List.mem_of_getElem? hl)
    omega
  by_cases hcoded : ∃ l, ls[sym]? = some l ∧ l ≠ 0
  · obtain ⟨l, hl, hpos⟩ := hcoded
    have hone : (sortedPairs ls).filter (fun p => p.2 = sym) = [(l, sym)] := by
      refine List.Perm.eq_singleton ((List.perm_ext_iff_of_nodup ((sortedPairs_nodup ls).filter _) (List.nodup_singleton _)).2
        fun p => ?_)
      rw [hmem, hl, List.mem_singleton, Prod.ext_iff, Option.some.injEq]
      exact and_congr_left fun _ => ⟨fun he => he.1.symm, fun he => ⟨he.symm, he ▸ hpos⟩⟩
    rw [hone, hl]
    simp [hpos]
  · have hnone : (sortedPairs ls).filter (fun p => p.2 = sym) = [] :=
      List.eq_nil_iff_forall_not_mem.2 fun p hp => hcoded ⟨p.1, ((hmem p).1 hp).1⟩
    rw [hnone]
    refine (List.filter_eq_nil_iff.2 fun l hl => ?_).symm
    simpa using fun hpos => hcoded ⟨l, Option.mem_toList.1 hl, hpos⟩

/-! ## Canonical assignment (R162, R163) -/

/-- The next code is assigned when it fits its length, and the rest after it. -/
theorem assignCodes_cons {next pl l sym : Nat} {ps : List (Nat × Nat)} {cs : List CodeEntry} :
    assignCodes next pl ((l, sym) :: ps) = some cs ↔ next <<< (l - pl) < 2 ^ l
      ∧ ∃ ds, assignCodes (next <<< (l - pl) + 1) l ps = some ds
        ∧ cs = { sym := sym, pattern := revBits (next <<< (l - pl)) l, len := l } :: ds := by
  rw [assignCodes]
  split
  · rename_i hfits
    rw [Option.map_eq_some_iff]
    simp only [hfits, true_and, eq_comm]
  · rename_i hfull
    simp only [hfull, false_and, reduceCtorEq]

/-- The codes are those of the pairs, in their order. -/
theorem assignCodes_pairs {next pl : Nat} {ps : List (Nat × Nat)} {cs : List CodeEntry} (h : assignCodes next pl ps = some cs) :
    cs.map (fun c => (c.len, c.sym)) = ps := by
  induction ps generalizing next pl cs with
  | nil => cases h; rfl
  | cons p ps ih =>
    obtain ⟨-, ds, hds, rfl⟩ := assignCodes_cons.1 h
    rw [List.map_cons, ih hds]

theorem canonicalCodes_pairs {ls : List Nat} {cs : List CodeEntry} (h : canonicalCodes ls = some cs) :
    cs.map (fun c => (c.len, c.sym)) = sortedPairs ls := assignCodes_pairs h

/-- A canonical code has 1 to 32 bits. -/
theorem canonicalCodes_len {ls : List Nat} {cs : List CodeEntry} (h : canonicalCodes ls = some cs) :
    ∀ c ∈ cs, 1 ≤ c.len ∧ c.len ≤ 32 := by
  intro c hc
  have hpair : (c.len, c.sym) ∈ sortedPairs ls := canonicalCodes_pairs h ▸ List.mem_map_of_mem hc
  exact (mem_sortedPairs.1 hpair).2

/-- The highest of the bits reversed becomes the lowest. -/
theorem revBits_high {b r l : Nat} (hb : b < 2) (hr : r < 2 ^ l) : revBits (b * 2 ^ l + r) (l + 1) = 2 * revBits r l + b := by
  induction l generalizing r with
  | zero =>
    obtain rfl : r = 0 := by omega
    simp only [revBits]
    omega
  | succ l ih =>
    have hdouble : b * 2 ^ (l + 1) = 2 * (b * 2 ^ l) := by ring
    have hlow : (b * 2 ^ (l + 1) + r) % 2 = r % 2 := by omega
    have hrest : (b * 2 ^ (l + 1) + r) / 2 = b * 2 ^ l + r / 2 := by omega
    rw [revBits, hlow, hrest, ih (by omega), revBits]
    ring

/-- Reversed twice, the bits are as they were (R10). -/
theorem revBits_revBits {c l : Nat} (h : c < 2 ^ l) : revBits (revBits c l) l = c := by
  induction l generalizing c with
  | zero => rw [revBits]; omega
  | succ l ih =>
    rw [show revBits c (l + 1) = c % 2 * 2 ^ l + revBits (c / 2) l from rfl,
      revBits_high (Nat.mod_lt _ (by decide)) (revBits_lt _ _), ih (by omega)]
    omega

theorem revBits_zero (l : Nat) : revBits 0 l = 0 := by
  induction l with
  | zero => rfl
  | succ l ih => rw [revBits, ih]; simp

/-- The first code is the next one, shifted to its length. -/
theorem assignCodes_head {next pl : Nat} {ps : List (Nat × Nat)} {c : CodeEntry} {cs : List CodeEntry}
    (h : assignCodes next pl ps = some (c :: cs)) : revBits c.pattern c.len = next <<< (c.len - pl) := by
  cases ps with
  | nil => cases h
  | cons p ps =>
    obtain ⟨hfits, ds, -, he⟩ := assignCodes_cons.1 h
    cases he
    exact revBits_revBits hfits

/-- The first of all is all zeros. -/
theorem canonicalCodes_head {ls : List Nat} {c : CodeEntry} {cs : List CodeEntry} (h : canonicalCodes ls = some (c :: cs)) :
    c.pattern = 0 := by
  have hpat : c.pattern < 2 ^ c.len := (canonicalCodes_prefixFree h).2 c List.mem_cons_self
  have hzero := assignCodes_head h
  rw [Nat.zero_shiftLeft] at hzero
  rw [← revBits_revBits hpat, hzero, revBits_zero]

/-- Each code is the one before plus one, shifted to its length. -/
theorem assignCodes_chain {next pl : Nat} {ps : List (Nat × Nat)} {cs : List CodeEntry} (h : assignCodes next pl ps = some cs) :
    cs.IsChain fun a b => revBits b.pattern b.len = (revBits a.pattern a.len + 1) <<< (b.len - a.len) := by
  induction ps generalizing next pl cs with
  | nil => cases h; exact .nil
  | cons p ps ih =>
    obtain ⟨hfits, ds, hds, rfl⟩ := assignCodes_cons.1 h
    cases ds with
    | nil => exact .singleton _
    | cons d ds =>
      refine .cons_cons ?_ (ih hds)
      rw [revBits_revBits hfits]
      exact assignCodes_head hds

theorem kraftSum_cons (l : Nat) (ls : List Nat) : kraftSum (l :: ls) = (if l = 0 then 0 else 2 ^ (32 - l)) + kraftSum ls := by
  rw [kraftSum, kraftSum, List.map_cons, List.sum_cons]

theorem kraftSum_perm {ls ms : List Nat} (h : ls.Perm ms) : kraftSum ls = kraftSum ms := (h.map _).sum_eq

/-- Zeros take nothing of the code space. -/
theorem kraftSum_filter_ne_zero (ls : List Nat) : kraftSum (ls.filter fun l => l ≠ 0) = kraftSum ls := by
  induction ls with
  | nil => rfl
  | cons l ls ih =>
    by_cases hl : l = 0
    · rw [List.filter_cons_of_neg (by simpa using hl), ih, kraftSum_cons, if_pos hl, Nat.zero_add]
    · rw [List.filter_cons_of_pos (by simpa using hl), kraftSum_cons, kraftSum_cons, ih]

/-- Pairs in order of length have codes exactly when the space behind `next` is enough for them (R162, R169). -/
theorem assignCodes_isSome_iff {next pl : Nat} {ps : List (Nat × Nat)} (hs : (pl :: ps.map Prod.fst).Pairwise (· ≤ ·))
    (hpl : pl ≤ 32) (hlen : ∀ p ∈ ps, 1 ≤ p.1 ∧ p.1 ≤ 32) (hn : next ≤ 2 ^ pl) :
    (assignCodes next pl ps).isSome ↔ next * 2 ^ (32 - pl) + kraftSum (ps.map Prod.fst) ≤ 2 ^ 32 := by
  induction ps generalizing next pl with
  | nil =>
    have hroom : next * 2 ^ (32 - pl) ≤ 2 ^ pl * 2 ^ (32 - pl) := Nat.mul_le_mul_right _ hn
    rw [← Nat.pow_add, Nat.add_sub_cancel' hpl] at hroom
    simpa [assignCodes, kraftSum] using hroom
  | cons p ps ih =>
    obtain ⟨l, sym⟩ := p
    obtain ⟨hle, hs'⟩ := List.pairwise_cons.1 hs
    have hl : pl ≤ l := hle l List.mem_cons_self
    obtain ⟨hl1, hl32⟩ : 1 ≤ l ∧ l ≤ 32 := hlen _ List.mem_cons_self
    have hshift : next <<< (l - pl) * 2 ^ (32 - l) = next * 2 ^ (32 - pl) := by
      rw [Nat.shiftLeft_eq, Nat.mul_assoc, ← Nat.pow_add, show l - pl + (32 - l) = 32 - pl by omega]
    have hspace : 2 ^ l * 2 ^ (32 - l) = 2 ^ 32 := by rw [← Nat.pow_add, Nat.add_sub_cancel' hl32]
    rw [List.map_cons, kraftSum_cons, if_neg (by omega), ← hshift, assignCodes]
    split
    · rename_i hfits
      rw [Option.isSome_map, ih hs' hl32 (fun q hq => hlen q (List.mem_cons_of_mem _ hq)) hfits, Nat.succ_mul, Nat.add_assoc]
    · rename_i hfull
      have hover : 2 ^ l * 2 ^ (32 - l) ≤ next <<< (l - pl) * 2 ^ (32 - l) := Nat.mul_le_mul_right _ (Nat.not_lt.1 hfull)
      have hpos : 0 < 2 ^ (32 - l) := Nat.two_pow_pos _
      simp only [Option.isSome_none, Bool.false_eq_true, false_iff]
      omega

/-- Lengths of at most 32 have codes exactly within Kraft's bound (R162, R169). -/
theorem canonicalCodes_isSome_iff {ls : List Nat} (h : ∀ l, l ∈ ls → l ≤ 32) :
    (canonicalCodes ls).isSome ↔ kraftSum ls ≤ 2 ^ 32 := by
  have hspace := assignCodes_isSome_iff (next := 0) (sortedPairs_sorted ls) (by decide)
    (fun p hp => (mem_sortedPairs.1 hp).2) (by decide)
  rwa [Nat.zero_mul, Nat.zero_add, kraftSum_perm (sortedPairs_lens_perm h), kraftSum_filter_ne_zero] at hspace

/-! ## The prefixes that canonical codes share (R170) -/

/-- The node prefixes of the code whose value is `v`, `w` bits longer than 12. -/
def codeNodes : Nat → Nat → Finset (Nat × Nat)
  | 0, v => {(12, revBits v 12)}
  | w + 1, v => insert (12 + (w + 1), revBits v (12 + (w + 1))) (codeNodes w (v / 2))

theorem mem_codeNodes {w v : Nat} {q : Nat × Nat} :
    q ∈ codeNodes w v ↔ 12 ≤ q.1 ∧ q.1 ≤ 12 + w ∧ q.2 = revBits (v / 2 ^ (12 + w - q.1)) q.1 := by
  obtain ⟨d, p⟩ := q
  induction w generalizing v with
  | zero =>
    simp only [codeNodes, Finset.mem_singleton, Prod.mk.injEq]
    constructor
    · rintro ⟨rfl, rfl⟩
      exact ⟨Nat.le_refl _, Nat.le_refl _, by simp⟩
    · rintro ⟨h12, hd, hp⟩
      obtain rfl : d = 12 := by omega
      exact ⟨rfl, by simpa using hp⟩
  | succ w ih =>
    have hhalf : d ≤ 12 + w → v / 2 / 2 ^ (12 + w - d) = v / 2 ^ (12 + (w + 1) - d) := fun hd => by
      rw [Nat.div_div_eq_div_mul, ← Nat.pow_succ', show 12 + (w + 1) - d = 12 + w - d + 1 by omega]
    simp only [codeNodes, Finset.mem_insert, Prod.mk.injEq, ih]
    constructor
    · rintro (⟨rfl, rfl⟩ | ⟨h12, hd, hp⟩)
      · exact ⟨by omega, Nat.le_refl _, by simp⟩
      · exact ⟨h12, by omega, hhalf hd ▸ hp⟩
    · rintro ⟨h12, hd, hp⟩
      rcases Nat.lt_or_eq_of_le hd with hlt | rfl
      · exact Or.inr ⟨h12, Nat.le_of_lt_succ hlt, (hhalf (Nat.le_of_lt_succ hlt)).symm ▸ hp⟩
      · exact Or.inl ⟨rfl, by simpa using hp⟩

/-- They are the prefixes at which R164 puts the code's nodes. -/
theorem nodePrefixes_toFinset {l v sym : Nat} (h : 12 < l) :
    (nodePrefixes { sym := sym, pattern := revBits v l, len := l }).toFinset = codeNodes (l - 12) v := by
  ext q
  rw [List.mem_toFinset, mem_nodePrefixes, mem_codeNodes, Nat.add_sub_cancel' h.le]
  constructor
  · rintro ⟨-, h12, hq, hp⟩
    exact ⟨h12, hq, by rw [hp, revBits_mod _ _ _ hq]⟩
  · rintro ⟨h12, hq, hp⟩
    exact ⟨h, h12, hq, by rw [hp, revBits_mod _ _ _ hq]⟩

/-- How many of the low `w` bits are 1. -/
def lowOnes : Nat → Nat → Nat
  | 0, _ => 0
  | w + 1, v => v % 2 + lowOnes w (v / 2)

theorem card_insert_sdiff_le (q : Nat × Nat) (A B : Finset (Nat × Nat)) :
    (insert q A \ B).card ≤ (A \ B).card + 1 := by
  refine (Finset.card_le_card ?_).trans (Finset.card_insert_le q (A \ B))
  exact fun r hr => by grind

theorem codeNodes_card_le (w v : Nat) : (codeNodes w v).card ≤ w + 1 := by
  induction w generalizing v with
  | zero => exact Nat.le_refl _
  | succ w ih => exact (Finset.card_insert_le _ _).trans (Nat.succ_le_succ (ih _))

/-- Counting up by one, the new prefixes are paid for by the ones that the carry clears, and two. -/
theorem codeNodes_succ (w v : Nat) :
    (codeNodes w (v + 1) \ codeNodes w v).card + lowOnes w (v + 1) ≤ lowOnes w v + 2 := by
  induction w generalizing v with
  | zero =>
    have hone : (codeNodes 0 (v + 1) \ codeNodes 0 v).card ≤ 1 :=
      (Finset.card_le_card Finset.sdiff_subset).trans (codeNodes_card_le 0 (v + 1))
    rw [lowOnes, lowOnes]
    omega
  | succ w ih =>
    have hins := card_insert_sdiff_le (12 + (w + 1), revBits (v + 1) (12 + (w + 1))) (codeNodes w ((v + 1) / 2)) (codeNodes (w + 1) v)
    have hsub : (codeNodes w ((v + 1) / 2) \ codeNodes (w + 1) v).card ≤ (codeNodes w ((v + 1) / 2) \ codeNodes w (v / 2)).card :=
      Finset.card_le_card (Finset.sdiff_subset_sdiff (Finset.Subset.refl _) (Finset.subset_insert _ _))
    rw [codeNodes, lowOnes, lowOnes]
    rcases Nat.mod_two_eq_zero_or_one v with hv | hv
    · have hsame : (v + 1) / 2 = v / 2 := by omega
      rw [hsame] at hins hsub ⊢
      rw [Finset.sdiff_self, Finset.card_empty] at hsub
      omega
    · have hnext : (v + 1) / 2 = v / 2 + 1 := by omega
      rw [hnext] at hins hsub ⊢
      have := ih (v / 2)
      omega

theorem shiftLeft_succ_half (v k : Nat) : v <<< (k + 1) / 2 = v <<< k ∧ v <<< (k + 1) % 2 = 0 := by
  rw [Nat.shiftLeft_succ]; omega

/-- A shift of `k` brings at most `k` more prefixes. -/
theorem codeNodes_shift (w v k : Nat) (A : Finset (Nat × Nat)) :
    (codeNodes (w + k) (v <<< k) \ A).card ≤ (codeNodes w v \ A).card + k := by
  induction k with
  | zero => exact Nat.le_refl _
  | succ k ih =>
    rw [← Nat.add_assoc, codeNodes, (shiftLeft_succ_half v k).1]
    exact (card_insert_sdiff_le _ _ _).trans (Nat.succ_le_succ ih)

theorem lowOnes_shift (w v k : Nat) : lowOnes (w + k) (v <<< k) = lowOnes w v := by
  induction k with
  | zero => rfl
  | succ k ih => rw [← Nat.add_assoc, lowOnes, (shiftLeft_succ_half v k).1, (shiftLeft_succ_half v k).2, ih, Nat.zero_add]

/-- A code that follows a short one has only zeros past its twelfth bit. -/
theorem lowOnes_shiftLeft {w k : Nat} (h : w ≤ k) (v : Nat) : lowOnes w (v <<< k) = 0 := by
  obtain ⟨j, rfl⟩ := Nat.exists_eq_add_of_le' h
  have hlow := lowOnes_shift 0 (v <<< j) w
  rwa [Nat.zero_add, ← Nat.shiftLeft_add] at hlow

/-- The prefixes of all the codes of a list. -/
def nodesOf (cs : List CodeEntry) : Finset (Nat × Nat) := (cs.flatMap nodePrefixes).toFinset

theorem card_nodesOf (cs : List CodeEntry) : (nodesOf cs).card = poolNodes cs := List.card_toFinset _

theorem nodesOf_cons (c : CodeEntry) (cs : List CodeEntry) : nodesOf (c :: cs) = (nodePrefixes c).toFinset ∪ nodesOf cs := by
  rw [nodesOf, List.flatMap_cons, List.toFinset_append, nodesOf]

/-- The prefixes of a list that are not in `A`: those of its first code, and those of the rest that the first has not. -/
theorem card_nodesOf_cons_sdiff_le (c : CodeEntry) (cs : List CodeEntry) (A : Finset (Nat × Nat)) :
    (nodesOf (c :: cs) \ A).card ≤ ((nodePrefixes c).toFinset \ A).card + (nodesOf cs \ (nodePrefixes c).toFinset).card := by
  refine (Finset.card_le_card ?_).trans (Finset.card_union_le _ _)
  rw [nodesOf_cons]
  exact fun r hr => by grind

/-- What codes after a long code of value `v` need: two prefixes each, one for each bit that the lengths may still grow, and one for
each 1 past the twelfth bit of `v`. -/
theorem assignCodes_nodes_le {v pl : Nat} {ps : List (Nat × Nat)} {cs : List CodeEntry} (h : assignCodes (v + 1) pl ps = some cs)
    (hs : (pl :: ps.map Prod.fst).Pairwise (· ≤ ·)) (hpl : 12 < pl) (hpl32 : pl ≤ 32) (h32 : ∀ p ∈ ps, p.1 ≤ 32) :
    (nodesOf cs \ codeNodes (pl - 12) v).card ≤ 2 * cs.length + (32 - pl) + lowOnes (pl - 12) v := by
  induction ps generalizing v pl cs with
  | nil => cases h; simp [nodesOf]
  | cons p ps ih =>
    obtain ⟨l, sym⟩ := p
    obtain ⟨-, ds, hds, rfl⟩ := assignCodes_cons.1 h
    obtain ⟨hle, hs'⟩ := List.pairwise_cons.1 hs
    have hl : pl ≤ l := hle l List.mem_cons_self
    have hl32 : l ≤ 32 := h32 _ List.mem_cons_self
    have hrest := ih hds hs' (by omega) hl32 (fun q hq => h32 q (List.mem_cons_of_mem _ hq))
    refine (card_nodesOf_cons_sdiff_le _ _ _).trans ?_
    rw [nodePrefixes_toFinset (by omega)]
    have hwidth : l - 12 = pl - 12 + (l - pl) := by omega
    have hshift := codeNodes_shift (pl - 12) (v + 1) (l - pl) (codeNodes (pl - 12) v)
    have hsucc := codeNodes_succ (pl - 12) v
    rw [hwidth, lowOnes_shift] at hrest
    rw [hwidth, List.length_cons]
    omega

/-- Canonical codes need no more than two nodes for each long one, and 20 (R170). -/
theorem assignCodes_poolNodes_le {next pl : Nat} {ps : List (Nat × Nat)} {cs : List CodeEntry} (h : assignCodes next pl ps = some cs)
    (hs : (pl :: ps.map Prod.fst).Pairwise (· ≤ ·)) (hpl : pl ≤ 12) (h32 : ∀ p ∈ ps, p.1 ≤ 32) :
    poolNodes cs ≤ 2 * (ps.map Prod.fst).countP (12 < ·) + 20 := by
  induction ps generalizing next pl cs with
  | nil => cases h; exact Nat.zero_le _
  | cons p ps ih =>
    obtain ⟨l, sym⟩ := p
    obtain ⟨-, ds, hds, rfl⟩ := assignCodes_cons.1 h
    obtain ⟨-, hs'⟩ := List.pairwise_cons.1 hs
    have hl32 : l ≤ 32 := h32 _ List.mem_cons_self
    have hps : ∀ q ∈ ps, q.1 ≤ 32 := fun q hq => h32 q (List.mem_cons_of_mem _ hq)
    rw [List.map_cons]
    rcases Nat.lt_or_ge 12 l with hlong | hshort
    · have hall : ((l :: ps.map Prod.fst).countP (12 < ·)) = ds.length + 1 := by
        have hlen : ds.length = ps.length := by rw [← assignCodes_pairs hds, List.length_map]
        rw [List.countP_eq_length.2, List.length_cons, List.length_map, hlen]
        intro m hm
        rcases List.mem_cons.1 hm with rfl | hm
        · exact decide_eq_true hlong
        · exact decide_eq_true (hlong.trans_le ((List.pairwise_cons.1 hs').1 m hm))
      have hrest := assignCodes_nodes_le hds hs' hlong hl32 hps
      have hfirst := codeNodes_card_le (l - 12) (next <<< (l - pl))
      have hsplit := card_nodesOf_cons_sdiff_le { sym := sym, pattern := revBits (next <<< (l - pl)) l, len := l } ds ∅
      rw [nodePrefixes_toFinset hlong, Finset.sdiff_empty, Finset.sdiff_empty, card_nodesOf] at hsplit
      rw [lowOnes_shiftLeft (by omega)] at hrest
      rw [hall]
      omega
    · rw [List.countP_cons_of_neg (by simpa using hshort), poolNodes, List.flatMap_cons, nodePrefixes_short hshort, List.nil_append]
      exact ih hds hs' hshort hps

/-- Short codes need no nodes, and a long one at most 21 (R170). -/
theorem poolNodes_le_long {cs : List CodeEntry} (h : ∀ c ∈ cs, c.len ≤ 32) :
    poolNodes cs ≤ 21 * (cs.map fun c => c.len).countP (12 < ·) := by
  have hlong : poolNodes (cs.filter fun c => 12 < c.len) = poolNodes cs := by
    rw [← card_nodesOf, ← card_nodesOf]
    congr 1
    ext q
    simp only [nodesOf, List.mem_toFinset, List.mem_flatMap, List.mem_filter, mem_nodePrefixes, decide_eq_true_eq]
    constructor
    · rintro ⟨c, ⟨hc, -⟩, hq⟩
      exact ⟨c, hc, hq⟩
    · rintro ⟨c, hc, hlong, hq⟩
      exact ⟨c, ⟨hc, hlong⟩, hlong, hq⟩
  rw [← hlong, List.countP_map, List.countP_eq_length_filter]
  exact poolNodes_le fun c hc => h c (List.mem_filter.1 hc).1

/-- The long codes are counted by their lengths. -/
theorem longCodes_eq {ls : List Nat} (h : ∀ l, l ∈ ls → l ≤ 32) :
    longCodes ls = ((sortedPairs ls).map Prod.fst).countP (12 < ·) := by
  rw [(sortedPairs_lens_perm h).countP_eq, List.countP_filter, longCodes]
  refine List.countP_congr fun l _ => ?_
  simp only [decide_eq_true_eq, Bool.and_eq_true]
  omega

/-- The bounds of R170 for the codes of a length list. -/
theorem canonicalCodes_poolNodes_le {ls : List Nat} {cs : List CodeEntry} (h : ∀ l, l ∈ ls → l ≤ 32)
    (hc : canonicalCodes ls = some cs) : poolNodes cs ≤ 21 * longCodes ls ∧ poolNodes cs ≤ 2 * longCodes ls + 20 := by
  have hlens : (sortedPairs ls).map Prod.fst = cs.map fun c => c.len := by rw [← canonicalCodes_pairs hc, List.map_map]; rfl
  constructor
  · rw [longCodes_eq h, hlens]
    exact poolNodes_le_long fun c hcm => (canonicalCodes_len hc c hcm).2
  · rw [longCodes_eq h]
    exact assignCodes_poolNodes_le hc (sortedPairs_sorted ls) (by decide) fun p hp => (mem_sortedPairs.1 hp).2.2

/-! ## Building from lengths (R165, R169) -/

theorem buildTable_of_long {ls : List Nat} (h : ∃ l, l ∈ ls ∧ 32 < l) (pool : Nat) : buildTable pool ls = none :=
  if_pos (List.any_eq_true.2 (h.imp fun _ hl => ⟨hl.1, decide_eq_true hl.2⟩))

theorem buildTable_of_lens {ls : List Nat} (h : ∀ l, l ∈ ls → l ≤ 32) (pool : Nat) :
    buildTable pool ls = (canonicalCodes ls).bind fun cs => placeCodes pool cs .empty :=
  if_neg (by simpa using h)

/-- A length list that is built has lengths of at most 32. -/
theorem lens_of_buildTable {ls : List Nat} {pool : Nat} {v : Table} (h : buildTable pool ls = some v) :
    ∀ l, l ∈ ls → l ≤ 32 := by
  intro l hl
  by_contra hlong
  rw [buildTable_of_long ⟨l, hl, Nat.not_le.1 hlong⟩] at h
  cases h

/-- Canonical codes meet what `placeCodes` asks of a list. -/
theorem canonicalCodes_placeable {ls : List Nat} {cs : List CodeEntry} (h : canonicalCodes ls = some cs) :
    PrefixFree cs ∧ ∀ c ∈ cs, 1 ≤ c.len ∧ c.pattern < 2 ^ c.len := by
  obtain ⟨hpf, hpat⟩ := canonicalCodes_prefixFree h
  exact ⟨hpf, fun c hc => ⟨(canonicalCodes_len h c hc).1, hpat c hc⟩⟩

theorem h12Build_of_none {ls : List Nat} {s : State} (h : buildTable s.par.poolSlots ls = none) (id : TableId) :
    h12Build id ls s = .raised .corruptStream s := by
  rw [h12Build, h]

/-- `H12.BUILD` performed by itself, on all of its lengths. -/
theorem exec_h12Build (id : TableId) (ls : List Nat) (s : State) :
    exec (.h12Build id ls.length ls) s = (h12Build id ls s).outcome := by
  show (h12Build id (ls.take ls.length) s).outcome = _
  rw [List.take_length]

theorem exec_h12Build_of_none {ls : List Nat} {s : State} (h : buildTable s.par.poolSlots ls = none) (id : TableId) :
    exec (.h12Build id ls.length ls) s = .next (takeError .corruptStream s) := by
  rw [exec_h12Build, h12Build_of_none h, Res.outcome_raised]

/-! ## Decoding (R167, R168) -/

/-- The bits at a position begin with at most one of the codes of a list in which none starts another. -/
theorem PrefixFree.eq_of_read {cs : List CodeEntry} (h : PrefixFree cs) {s : State} {pos : Nat} {c d : CodeEntry} (hc : c ∈ cs)
    (hd : d ∈ cs) (hrc : brField s pos c.len = c.pattern) (hrd : brField s pos d.len = d.pattern) : c = d := by
  have : Std.Symm fun a b : CodeEntry => ¬ (brField s pos a.len = a.pattern ∧ brField s pos b.len = b.pattern) :=
    ⟨fun _ _ hab hba => hab hba.symm⟩
  have hnot : cs.Pairwise fun a b => ¬ (brField s pos a.len = a.pattern ∧ brField s pos b.len = b.pattern) := by
    refine h.imp fun {a b} hab hread => hab.2 ?_
    rw [← hread.2, brField_mod s pos hab.1, hread.1]
  by_contra hne
  exact hnot.forall hc hd hne ⟨hrc, hrd⟩

/-- A table that one of the two builds made of codes holds those codes, and none of them starts another. -/
theorem built_holds {pool : Nat} {cs : List CodeEntry} {v : Table}
    (h : (∃ ls, canonicalCodes ls = some cs ∧ buildTable pool ls = some v)
      ∨ (soundEntries cs = true ∧ buildTableX pool cs = some v)) :
    v.Ok pool ∧ ∃ ds, ds.Perm cs ∧ PrefixFree ds ∧ (∀ c ∈ ds, 1 ≤ c.len) ∧ ∃ labs, Holds ds.reverse labs v := by
  have hplaced : ∀ ds, PrefixFree ds → (∀ c ∈ ds, 1 ≤ c.len ∧ c.pattern < 2 ^ c.len) →
      placeCodes pool ds .empty = some v → ∃ labs, Holds ds.reverse labs v := by
    intro ds hpf hp hv
    obtain ⟨hfit, hfull⟩ := placeCodes_table pool hpf hp
    rcases Nat.lt_or_ge pool (poolNodes ds) with hlt | hle
    · rw [hfull hlt] at hv
      cases hv
    · obtain ⟨t, labs, ht, -, hh⟩ := hfit hle
      cases hv.symm.trans ht
      exact ⟨labs, hh⟩
  rcases h with ⟨ls, hcs, hv⟩ | ⟨hsound, hv⟩
  · obtain ⟨hpf, hp⟩ := canonicalCodes_placeable hcs
    have hok := buildTable_ok hv
    rw [buildTable_of_lens (lens_of_buildTable hv), hcs, Option.bind_some] at hv
    exact ⟨hok, cs, .refl _, hpf, fun c hc => (hp c hc).1, hplaced cs hpf hp hv⟩
  · obtain ⟨hpf, hp⟩ := sortedEntries_prefixFree hsound
    exact ⟨buildTableX_ok hsound hv, _, sortedEntries_perm cs, hpf, fun c hc => (hp c hc).1, hplaced _ hpf hp hv⟩

/-- `H12.DECODE` performed by itself. -/
theorem exec_h12Decode (id : TableId) (s : State) : exec (.h12Decode id) s = (h12Decode id s).outcomeWith .num := rfl

section
variable {ds : List CodeEntry} {labs : List (Nat × Nat)} {id : TableId} {s : State} {pool : Nat}
  (hok : (tableAt s id).Ok pool) (hh : Holds ds.reverse labs (tableAt s id)) (hlen : ∀ c ∈ ds, 1 ≤ c.len)
include hok hh hlen

/-- A code that the stream begins with is decoded. -/
theorem h12Decode_of_code (hpf : PrefixFree ds) {c : CodeEntry} (hc : c ∈ ds) (hread : brField s s.br.pos c.len = c.pattern) :
    h12Decode id s = .ok c.sym (brAdvance c.len s) := by
  obtain ⟨hsym, herr⟩ := h12Decode_holds hh fun c hc => hlen c (List.mem_reverse.1 hc)
  rcases h12Decode_cases id s hok.1 with ⟨v, n, he, -⟩ | ⟨n, he⟩
  · obtain ⟨d, hd, hreadd, rfl, hu⟩ := hsym _ _ he
    obtain rfl := hpf.eq_of_read hc (List.mem_reverse.1 hd) hread hreadd
    rw [he, hu]
    rfl
  · exact absurd hread (herr _ _ he c (List.mem_reverse.2 hc))

/-- A stream that begins with no code is an error. -/
theorem h12Decode_of_no_code (hread : ∀ c, c ∈ ds → brField s s.br.pos c.len ≠ c.pattern) :
    ∃ n, h12Decode id s = .raised .corruptStream (brAdvance n s) := by
  obtain ⟨hsym, -⟩ := h12Decode_holds hh fun c hc => hlen c (List.mem_reverse.1 hc)
  rcases h12Decode_cases id s hok.1 with ⟨v, n, he, -⟩ | herr
  · obtain ⟨d, hd, hreadd, -⟩ := hsym _ _ he
    exact absurd hreadd (hread d (List.mem_reverse.1 hd))
  · exact herr

end

end Sys2Proof.Machine

namespace Sys2Proof.Proofs

open Sys2Proof Sys2Proof.Machine

/-- Settles O29: a built table holds its codes, and the stream begins with at most one of them. -/
theorem decodeReadsExactlyTheCodes : Obligations.DecodeReadsExactlyTheCodes := by
  intro s T cs v hbuilt htable
  subst htable
  obtain ⟨hok, ds, hperm, hpf, hlen, labs, hh⟩ := built_holds hbuilt
  refine ⟨fun c hc hread => ?_, fun hno => ?_⟩
  · rw [exec_h12Decode, h12Decode_of_code hok hh hlen hpf (hperm.mem_iff.2 hc) hread]
    rfl
  · obtain ⟨n, he⟩ := h12Decode_of_no_code hok hh hlen fun c hc => hno c (hperm.mem_iff.1 hc)
    exact ⟨n, by rw [exec_h12Decode, he]; rfl⟩

/-- Settles O26: the codes are those of the sorted pairs, assigned one after another. -/
theorem canonicalCodesFollowTheRule : Obligations.CanonicalCodesFollowTheRule := by
  intro ls cs h32 hcs
  have hpairs := canonicalCodes_pairs hcs
  refine ⟨?_, ?_, ?_, (canonicalCodes_prefixFree hcs).2, fun sym => ?_⟩
  · have hordered := sortedPairs_ordered ls
    rw [← hpairs, List.pairwise_map] at hordered
    exact hordered
  · intro a ha
    obtain ⟨ds, rfl⟩ := List.head?_eq_some_iff.1 ha
    exact canonicalCodes_head hcs
  · intro i a b ha hb
    obtain ⟨hi, rfl⟩ := List.getElem?_eq_some_iff.1 hb
    obtain ⟨-, rfl⟩ := List.getElem?_eq_some_iff.1 ha
    exact (assignCodes_chain hcs).getElem i hi
  · have hlens := sortedPairs_lens_of_sym h32 sym
    rw [← hpairs, List.filter_map, List.map_map] at hlens
    exact hlens

/-- Settles O27: codes exist just within Kraft's bound, and their table just with `poolNodes` nodes. -/
theorem buildSucceedsWithinKraft : Obligations.BuildSucceedsWithinKraft := by
  intro s T ls _
  refine ⟨fun h32 hkraft => ?_, fun h32 hover => ?_, fun hlong => ?_⟩
  · obtain ⟨cs, hcs⟩ := Option.isSome_iff_exists.1 ((canonicalCodes_isSome_iff h32).2 hkraft)
    obtain ⟨hpf, hp⟩ := canonicalCodes_placeable hcs
    obtain ⟨hfit, hfull⟩ := placeCodes_table s.par.poolSlots hpf hp
    obtain ⟨h21, h2⟩ := canonicalCodes_poolNodes_le h32 hcs
    have hbuild : buildTable s.par.poolSlots ls = placeCodes s.par.poolSlots cs .empty := by
      rw [buildTable_of_lens h32, hcs, Option.bind_some]
    refine ⟨cs, hcs, h21, h2, fun hle => ?_, fun hlt => exec_h12Build_of_none (hbuild.trans (hfull hlt)) T⟩
    obtain ⟨v, -, hv, hn, -⟩ := hfit hle
    have hv' := hbuild.trans hv
    exact ⟨v, hv', hn, by rw [exec_h12Build, h12Build_of_some hv', Res.outcome_ok]⟩
  · have hnone : canonicalCodes ls = none := by
      rw [← Option.not_isSome_iff_eq_none, canonicalCodes_isSome_iff h32]
      exact Nat.not_le.2 hover
    exact exec_h12Build_of_none (by rw [buildTable_of_lens h32, hnone, Option.bind_none]) T
  · exact exec_h12Build_of_none (buildTable_of_long hlong _) T

end Sys2Proof.Proofs
end

section
/-! Method 13's length sequences, its symbols that copy nothing and its frame; the lines between the decoders' instructions. -/

namespace Sys2Proof.Machine

/-! ## Emitted lengths (R192 to R195) -/

section
variable {s : State} {n : Nat}

/-- `s` after the current length was written at the next index (R195). -/
def lengthEmitted (s : State) : State :=
  s.withM13 { s.m13 with lens := Memory.write s.m13.lens s.m13.idx s.m13.cur.toNat, idx := s.m13.idx + 1 }

/-- Within the sequence and up to 32 a length is written, as 0 where it is not positive: that is what `Int.toNat` makes of it. -/
theorem m13EmitLen_of_fits (hidx : s.m13.idx < n) (hcur : s.m13.cur ≤ 32) : m13EmitLen n s = .ok () (lengthEmitted s) := by
  have hval : (if 0 < s.m13.cur then s.m13.cur.toNat else 0) = s.m13.cur.toNat := by split <;> omega
  rw [m13EmitLen, if_neg (Nat.not_le.2 hidx), if_neg (Int.not_lt.2 hcur), hval, lengthEmitted]

theorem m13EmitLen_of_past (hidx : n ≤ s.m13.idx) : m13EmitLen n s = .raised .corruptStream s := if_pos hidx

theorem m13EmitLen_of_long (hcur : 32 < s.m13.cur) : m13EmitLen n s = .raised .corruptStream s := by
  rw [m13EmitLen, if_pos hcur, ite_self]

/-- `t` is `s` after its current length was written at the next `r` indices (R195). -/
def LengthsEmitted (r : Nat) (s t : State) : Prop :=
  t = s.withM13 { s.m13 with lens := t.m13.lens, idx := s.m13.idx + r }
  ∧ ∀ k, Memory.read t.m13.lens k
      = if s.m13.idx ≤ k ∧ k < s.m13.idx + r then s.m13.cur.toNat else Memory.read s.m13.lens k

theorem LengthsEmitted.zero (s : State) : LengthsEmitted 0 s s :=
  ⟨rfl, fun k => (if_neg (by omega)).symm⟩

/-- One length emitted, then `r` more, are `r + 1` emitted. -/
theorem LengthsEmitted.succ {r : Nat} {t : State} (hwf : Memory.wf s.m13.lens = true)
    (h : LengthsEmitted r (lengthEmitted s) t) : LengthsEmitted (r + 1) s t := by
  obtain ⟨hframe, hread⟩ := h
  have hidx : (lengthEmitted s).m13.idx = s.m13.idx + 1 := rfl
  have hlens : (lengthEmitted s).m13.lens = Memory.write s.m13.lens s.m13.idx s.m13.cur.toNat := rfl
  refine ⟨?_, fun k => ?_⟩
  · rw [hidx, Nat.add_assoc, Nat.add_comm 1] at hframe
    exact hframe
  · rw [hread k, hidx, hlens]
    rcases eq_or_ne k s.m13.idx with rfl | hk
    · rw [if_neg (by omega), if_pos (by omega), Memory.read_write_self _ _ _ hwf]
    · rw [Memory.read_write_of_ne _ _ hk]
      exact if_congr (by omega) rfl rfl

/-- A run of emissions within the sequence writes every index of the run. -/
theorem m13EmitMany_of_fits (r : Nat) (hwf : Memory.wf s.m13.lens = true) (hcur : s.m13.cur ≤ 32) (hroom : s.m13.idx + r ≤ n) :
    ∃ t, m13EmitMany n r s = .ok () t ∧ LengthsEmitted r s t := by
  induction r generalizing s with
  | zero => exact ⟨s, rfl, .zero s⟩
  | succ r ih =>
    have hnext : (lengthEmitted s).m13.idx + r ≤ n := by
      show s.m13.idx + 1 + r ≤ n
      omega
    obtain ⟨t, hrun, ht⟩ := ih (s := lengthEmitted s) (Memory.write_wf _ _ _ hwf) hcur hnext
    refine ⟨t, ?_, ht.succ hwf⟩
    rw [m13EmitMany, m13EmitLen_of_fits (by omega) hcur, Res.bind_ok, hrun]

/-- A run of emissions of too great a length, or past the sequence, fails at the first that does not fit. -/
theorem m13EmitMany_of_overrun {r : Nat} (hr : 1 ≤ r) (h : n < s.m13.idx + r ∨ 32 < s.m13.cur) :
    ∃ t, m13EmitMany n r s = .raised .corruptStream t := by
  induction r generalizing s with
  | zero => omega
  | succ r ih =>
    rcases Nat.lt_or_ge s.m13.idx n with hidx | hidx
    · rcases Int.lt_or_le 32 s.m13.cur with hcur | hcur
      · exact ⟨s, by rw [m13EmitMany, m13EmitLen_of_long hcur, Res.bind_raised]⟩
      · have hnext : n < (lengthEmitted s).m13.idx + r := by
          show n < s.m13.idx + 1 + r
          omega
        obtain ⟨t, hrun⟩ := ih (s := lengthEmitted s) (by omega) (Or.inl hnext)
        exact ⟨t, by rw [m13EmitMany, m13EmitLen_of_fits hidx hcur, Res.bind_ok, hrun]⟩
    · exact ⟨s, by rw [m13EmitMany, m13EmitLen_of_past hidx, Res.bind_raised]⟩

/-- An emission by itself is a run of one. -/
theorem m13EmitMany_one (n : Nat) (s : State) : m13EmitMany n 1 s = m13EmitLen n s := by
  show (m13EmitLen n s).bind (fun _ t => .ok () t) = _
  cases m13EmitLen n s <;> rfl

/-- `M13.EMITLEN` and the three repeats are a run of `r` emissions past their extra bits. -/
theorem exec_of_emission {i : Instr} {bits r : Nat}
    (hi : (i = .m13EmitLen n ∧ bits = 0 ∧ r = 1) ∨ (i = .metaRep1 ∧ n = s.m13.n ∧ bits = 1 ∧ r = brPeek 1 s)
      ∨ (i = .metaRep3 ∧ n = s.m13.n ∧ bits = 3 ∧ r = brPeek 3 s + 2)
      ∨ (i = .metaRep6 ∧ n = s.m13.n ∧ bits = 6 ∧ r = brPeek 6 s + 10)) :
    exec i s = (m13EmitMany n r (brAdvance bits s)).outcome := by
  rcases hi with ⟨rfl, rfl, rfl⟩ | ⟨rfl, rfl, rfl, rfl⟩ | ⟨rfl, rfl, rfl, rfl⟩ | ⟨rfl, rfl, rfl, rfl⟩
  · exact congrArg Res.outcome (m13EmitMany_one n s).symm
  · rfl
  · rfl
  · rfl

end

/-! ## Current lengths and symbols of method 13 -/

/-- A symbol whose length was supplied sets it (R188). -/
theorem exec_metaSet_of_some {s : State} {sym : Fin 31} {v : Int} (h : s.par.lenOfSym[sym.val]? = some v) :
    exec (.metaSet sym) s = .next (m13SetCur v s) := by
  show execMetaSet sym s = _
  rw [execMetaSet, h]

/-- A literal is an emit after which the first tree is next (R200). -/
theorem exec_m13Lit (b : Byte) (s : State) :
    exec (.m13Lit b) s = ((outEmit .m13 b s).bind fun _ t => .ok () (m13SetActive .first t)).outcome := rfl

/-- The end symbol drops the loop's line (R201). -/
theorem m13LeaveLoop_of_loop {s : State} {ts : List Task} (h : s.seq = .m13Loop :: ts) : m13LeaveLoop s = s.withSeq ts := by
  rw [m13LeaveLoop, h]

theorem m13LeaveLoop_of_other {s : State} (h : ∀ ts, s.seq ≠ .m13Loop :: ts) : m13LeaveLoop s = s := by
  unfold m13LeaveLoop
  split
  · rename_i ts hs
    exact absurd hs (h ts)
  · rfl

/-! ## The decoders' lines -/

/-- The stream is at its end just when the position has reached its length in bits (R136). -/
theorem brEos_iff (s : State) : brEos s = true ↔ 8 * s.br.len ≤ s.br.pos := decide_eq_true_iff

theorem outComplete_iff (s : State) : outComplete s = true ↔ s.out.cnt = s.out.size := beq_iff_eq

/-- The output is as long as the fork says, or the read ends (R203, R243). -/
theorem checkComplete_outcome (s : State) :
    (checkComplete s).outcome = .next (if s.out.cnt = s.out.size then s else takeError .corruptStream s) := by
  unfold checkComplete
  simp only [outComplete_iff]
  split <;> rfl

/-- The symbol loop of method 13 ends with the stream (R196). -/
theorem m13Loop_eq (s : State) :
    m13Loop s = if 8 * s.br.len ≤ s.br.pos then s else pushTasks [.fetch .m13Sym, .m13Loop] s := by
  unfold m13Loop
  simp only [brEos_iff]

/-- Raw lengths are read at once, nested ones after their tree, which may not be nested too deep (R228, R229). -/
theorem m14Mode_outcome (d : Nat) (s : State) :
    (m14Mode d s).outcome = .next (if (levelAt s d).nested = false then pushTasks [.lvLoop] s
      else if s.par.nestMax ≤ d then takeError .corruptStream s
      else pushTasks [.op (.m14ReadLengths 32 (d + 1)), .m14BuildTN d, .lvLoop] s) := by
  unfold m14Mode
  cases (levelAt s d).nested with
  | false => rfl
  | true =>
    simp only [if_true, Bool.true_eq_false, if_false]
    split <;> rfl

/-- The block loop ends with the count (R236). -/
theorem m14Blocks_eq (s : State) :
    m14Blocks s = if s.m14.nblk = 0 then s else pushTasks [.op .m14Block, .m14Blocks] s := by
  unfold m14Blocks
  simp only [Nat.pos_iff_ne_zero]
  exact ite_not ..

/-- The symbol loop of method 14 ends with the block, which the stream may not do first (R237, R239). -/
theorem m14Loop_outcome (s : State) :
    (m14Loop s).outcome = .next (if s.m14.rem = 0 then s else if 8 * s.br.len ≤ s.br.pos then takeError .corruptStream s
      else pushTasks [.fetch .m14Sym, .m14Loop] s) := by
  unfold m14Loop
  simp only [brEos_iff]
  split
  · rfl
  · split <;> rfl

/-- A line that is neither an instruction nor a fetch is run. -/
theorem step_line {s : State} {e : Task} {ts : List Task} (h : s.seq = e :: ts) (ho : ∀ i, e ≠ .op i) (hf : ∀ f, e ≠ .fetch f) :
    step s = (runLine e (s.withSeq ts)).outcome := by
  rw [step_cons h, stepTask_line ho hf]

section
variable {s u : State} {e : Task} {id : TableId} {ls : List Nat}

/-- A line that builds a table of lengths that make one. -/
theorem step_of_built {v : Table} (h : step s = (h12Build id ls u).outcome) (hb : buildTable u.par.poolSlots ls = some v) :
    step s = .next (withTable u id v) := by
  rw [h, h12Build_of_some hb, Res.outcome_ok]

/-- A line that builds a table of lengths that make none. -/
theorem step_of_unbuilt (h : step s = (h12Build id ls u).outcome) (hb : buildTable u.par.poolSlots ls = none) :
    step s = .next (takeError .corruptStream u) := by
  rw [h, h12Build_of_none hb, Res.outcome_raised]

end

end Sys2Proof.Machine

namespace Sys2Proof.Proofs

open Sys2Proof Sys2Proof.Machine

/-- Settles O38: each of the four is a run of emissions of the same length. -/
theorem repeatsEmitTheCurrentLength : Obligations.RepeatsEmitTheCurrentLength := by
  intro s i n bits r hi
  rw [exec_of_emission hi]
  refine ⟨fun hwf hcur hroom => ?_, fun hr hover => ?_⟩
  · obtain ⟨t, hrun, hframe, hread⟩ := m13EmitMany_of_fits (s := brAdvance bits s) r hwf hcur hroom
    exact ⟨t, by rw [hrun, Res.outcome_ok], hframe, hread⟩
  · obtain ⟨t, hrun⟩ := m13EmitMany_of_overrun (s := brAdvance bits s) hr hover
    exact ⟨t, by rw [hrun, Res.outcome_raised]⟩

/-- Settles O36: the three are an assignment to the current length. -/
theorem metaChangesTheCurrentLength : Obligations.MetaChangesTheCurrentLength :=
  fun _ => ⟨rfl, rfl, rfl⟩

/-- Settles O37: the parameter's value is assigned; the default is looked up at each of the 31 symbols. -/
theorem metaSetsTheCurrentLength : Obligations.MetaSetsTheCurrentLength :=
  ⟨fun _ _ _ h => exec_metaSet_of_some h, by decide⟩

/-- Settles O39: a literal is one byte emitted or none; the end symbol takes the loop's line, where that is the next one. -/
theorem method13LiteralAndEnd : Obligations.Method13LiteralAndEnd := by
  refine ⟨fun s b hwin hout hroom => ?_, fun s b hfull => ?_, fun s ts hs => ?_, fun s hs => ?_⟩
  · refine ⟨emitted .m13 b s, Appended.emitted .m13 b hwin hout, ?_⟩
    rw [exec_m13Lit, outEmit_ok hroom]
    rfl
  · rw [exec_m13Lit, outEmit_full hfull]
    rfl
  · exact congrArg Host.Outcome.next (m13LeaveLoop_of_loop hs)
  · exact congrArg Host.Outcome.next (m13LeaveLoop_of_other hs)

/-- Settles O42: each part of the frame assigns its registers and pushes the lines that follow. -/
theorem method13Frame : Obligations.Method13Frame :=
  ⟨fun _ => rfl, fun _ => rfl, fun _ _ hs => step_line hs nofun nofun, fun _ => rfl, fun _ _ => rfl, fun _ _ => rfl⟩

/-- Settles O49: each line is run when it is the next one, and its tests and builds are those of its definition. -/
theorem decoderLoopLines : Obligations.DecoderLoopLines := by
  refine ⟨?_, ?_, ?_, ?_, ?_, ?_, ?_, ?_, ?_, ?_, ?_, ?_, ?_⟩
  · intro s ts hs
    exact step_line hs nofun nofun
  · intro s ts hs
    exact (step_line hs nofun nofun).trans (congrArg Host.Outcome.next (m13Loop_eq (s.withSeq ts)))
  · rintro s ts e hs (rfl | rfl)
    all_goals exact (step_line hs nofun nofun).trans (checkComplete_outcome (s.withSeq ts))
  · intro s d ts hs
    exact (step_line hs nofun nofun).trans (m14Mode_outcome d (s.withSeq ts))
  · intro s ts hs
    exact step_line hs nofun nofun
  · intro s ts hs
    exact (step_line hs nofun nofun).trans (congrArg Host.Outcome.next (m14Blocks_eq (s.withSeq ts)))
  · intro s ts hs
    exact (step_line hs nofun nofun).trans (m14Loop_outcome (s.withSeq ts))
  · intro s ts hs
    rw [step_line hs nofun nofun, runLine, m14BlockEnd, brAlign_eq]
    rfl
  · rintro s ts e v t hs (⟨rfl, hb, rfl⟩ | ⟨rfl, hb, rfl⟩ | ⟨n, rfl, hb, rfl⟩ | ⟨rfl, hb, rfl⟩ | ⟨rfl, hb, rfl⟩)
    all_goals exact step_of_built (step_line hs nofun nofun) hb
  · intro s ts d v hs hwf hb
    have hlevels : levelsWf (m14SetDepth d (s.withSeq ts)) = true := hwf
    refine ⟨_, step_of_built (step_line hs nofun nofun) hb, rfl, fun d' hd => ?_, ?_⟩
    · exact (levelAt_withLevel hlevels d d' _).trans (if_neg hd)
    · exact (levelAt_withLevel hlevels d d _).trans (if_pos rfl)
  · rintro s ts e ls hs hb (⟨rfl | rfl, rfl⟩ | ⟨n, rfl, rfl⟩ | ⟨d, rfl, rfl⟩ | ⟨rfl, rfl⟩ | ⟨rfl, rfl⟩)
    all_goals exact ⟨_, step_of_unbuilt (step_line hs nofun nofun) hb, rfl, rfl, rfl⟩
  · intro s ts hs
    exact step_line hs nofun nofun
  · intro s ts n hs
    exact step_line hs nofun nofun

end Sys2Proof.Proofs
end

section
/-! Method 14's length values, and its frame: the start, the blocks and the length sequences. -/

namespace Sys2Proof.Machine

/-! ## Lengths put (R232 to R234) -/

section
variable {s t u : State} {v k : Nat}

theorem LengthsPut.zero (v : Nat) (s : State) : LengthsPut v 0 s s :=
  ⟨rfl, fun _ _ => rfl, rfl, fun _ => (if_neg (by omega)).symm⟩

@[simp] theorem curLevel_lvPut_i (hs : levelsWf s = true) (v : Nat) : (curLevel (lvPut v s)).i = (curLevel s).i + 1 := by
  rw [curLevel_lvPut hs]

@[simp] theorem curLevel_lvPut_n (hs : levelsWf s = true) (v : Nat) : (curLevel (lvPut v s)).n = (curLevel s).n := by
  rw [curLevel_lvPut hs]

@[simp] theorem curLevel_lvPut_lens (hs : levelsWf s = true) (v : Nat) :
    (curLevel (lvPut v s)).lens = Memory.write (curLevel s).lens (curLevel s).i v := by
  rw [curLevel_lvPut hs]

/-- The lengths of the level in progress are a canonical memory. -/
theorem curLevel_lens_wf (hs : levelsWf s = true) : Memory.wf (curLevel s).lens = true := by
  have hm := levelAt_memWf hs s.m14.depth
  rw [Level.memWf, Bool.and_eq_true] at hm
  exact hm.1

/-- One length put, then `k` more of the same, are `k + 1` put. -/
theorem LengthsPut.succ (hs : levelsWf s = true) (h : LengthsPut v k (lvPut v s) t) : LengthsPut v (k + 1) s t := by
  obtain ⟨hframe, hother, hlevel, hread⟩ := h
  refine ⟨hframe, fun d hd => (hother d hd).trans (levelAt_withCurLevel hs _ hd), ?_, fun j => ?_⟩
  · rw [hlevel, curLevel_lvPut hs, Nat.add_assoc, Nat.add_comm 1]
  · rw [hread j, curLevel_lvPut_i hs, curLevel_lvPut_lens hs]
    rcases eq_or_ne j (curLevel s).i with rfl | hj
    · rw [if_neg (by omega), if_pos (by omega), Memory.read_write_self _ _ _ (curLevel_lens_wf hs)]
    · rw [Memory.read_write_of_ne _ _ hj]
      exact if_congr (by omega) rfl rfl

/-- `lvPut` puts one length. -/
theorem LengthsPut.one (hs : levelsWf s = true) (v : Nat) : LengthsPut v 1 s (lvPut v s) :=
  (LengthsPut.zero v _).succ hs

/-! ## Repeats (R234) -/

/-- The length before the next index is the one put last. -/
theorem prev_lvPut (hs : levelsWf s = true) (v : Nat) :
    Memory.read (curLevel (lvPut v s)).lens ((curLevel (lvPut v s)).i - 1) = v := by
  rw [curLevel_lvPut_i hs, curLevel_lvPut_lens hs, Nat.add_sub_cancel]
  exact Memory.read_write_self _ _ _ (curLevel_lens_wf hs)

theorem lvCopies_succ_of_room (h : (curLevel s).i < (curLevel s).n) (k : Nat) :
    lvCopies (k + 1) s = lvCopies k (lvPut (Memory.read (curLevel s).lens ((curLevel s).i - 1)) s) :=
  if_neg (Nat.not_le.2 h)

/-- Within the sequence every repeat puts the length that stood before the first. -/
theorem lvCopies_of_fits (hs : levelsWf s = true) (hv : Memory.read (curLevel s).lens ((curLevel s).i - 1) = v)
    (hroom : (curLevel s).i + k ≤ (curLevel s).n) : ∃ t, lvCopies k s = .ok () t ∧ LengthsPut v k s t := by
  induction k generalizing s with
  | zero => exact ⟨s, rfl, .zero v s⟩
  | succ k ih =>
    have hnext : (curLevel (lvPut v s)).i + k ≤ (curLevel (lvPut v s)).n := by
      rw [curLevel_lvPut_i hs, curLevel_lvPut_n hs]
      omega
    obtain ⟨t, hrun, ht⟩ := ih (levelsWf_lvPut hs v) (prev_lvPut hs v) hnext
    exact ⟨t, by rw [lvCopies_succ_of_room (by omega), hv, hrun], ht.succ hs⟩

/-- Repeats past the sequence fail at the first that does not fit. -/
theorem lvCopies_of_overrun (hs : levelsWf s = true) (hk : 1 ≤ k) (hover : (curLevel s).n < (curLevel s).i + k) :
    ∃ t, lvCopies k s = .raised .corruptStream t := by
  induction k generalizing s with
  | zero => omega
  | succ k ih =>
    rcases Nat.lt_or_ge (curLevel s).i (curLevel s).n with hroom | hfull
    · rw [lvCopies_succ_of_room hroom]
      refine ih (levelsWf_lvPut hs _) (by omega) ?_
      rw [curLevel_lvPut_i hs, curLevel_lvPut_n hs]
      omega
    · exact ⟨s, if_pos hfull⟩

/-- The next value only moves the reader, and fails with `CorruptStream` only (R227, R230). -/
theorem lvNext_moves (s : State) : (lvNext s).Moves s := by
  cases hmode : (curLevel s).nested with
  | false =>
    rw [lvNext_of_raw hmode]
    exact ⟨_, rfl⟩
  | true =>
    rw [lvNext_of_nested hmode]
    exact h12Decode_moves _ s

theorem brAdvance_of_lvNext {e : Nat} (h : lvNext s = .ok e u) : ∃ n, u = brAdvance n s := by
  have hm := lvNext_moves s
  rwa [h] at hm

theorem corruptStream_of_lvNext {c : ErrKind} (h : lvNext s = .raised c u) : c = .corruptStream := by
  have hm := lvNext_moves s
  rw [h] at hm
  exact hm.1

theorem exec_lvRepeat_of_start (h : (curLevel s).i = 0) : exec .lvRepeat s = .next (takeError .corruptStream s) :=
  congrArg Res.outcome (if_pos h)

theorem exec_lvRepeat (h : 1 ≤ (curLevel s).i) :
    exec .lvRepeat s = ((lvNext s).bind fun e t => lvCopies (e + 3) t).outcome :=
  congrArg Res.outcome (if_neg (Nat.ne_of_gt h))

theorem exec_lvRepeat_of_next {e : Nat} (h : 1 ≤ (curLevel s).i) (he : lvNext s = .ok e u) :
    exec .lvRepeat s = (lvCopies (e + 3) u).outcome := by
  rw [exec_lvRepeat h, he, Res.bind_ok]

theorem exec_lvValue_of_fits {b : BitVec 5} (h : b.toNat + (curLevel s).bias ≤ 32) :
    exec (.lvValue b) s = .next (lvPut (b.toNat + (curLevel s).bias) s) :=
  congrArg Res.outcome (if_neg (Nat.not_lt.2 h))

theorem exec_lvValue_of_long {b : BitVec 5} (h : 32 < b.toNat + (curLevel s).bias) :
    exec (.lvValue b) s = .next (takeError .corruptStream s) :=
  congrArg Res.outcome (if_pos h)

end

/-! ## Blocks (R237, R238) -/

theorem m14Block_of_end {s : State} (h : 8 * s.br.len ≤ s.br.pos) : m14Block s = .raised .corruptStream s :=
  if_pos ((brEos_iff s).2 h)

/-- What a field reads is the payload, which no register of method 14 is part of. -/
theorem brField_withM14 (s : State) (m : M14) (k n : Nat) : brField (s.withM14 m) k n = brField s k n := by
  induction n generalizing k with
  | zero => rfl
  | succ n ih =>
    rw [brField, brField, ih]
    rfl

/-- Where the stream goes on a block takes two fields of 32 bits: the skipped size, and the count that its lines depend on. -/
theorem m14Block_of_more {s : State} {n : Nat} (h : s.br.pos < 8 * s.br.len) (hn : n = brField s (s.br.pos + 32) 32) :
    m14Block s = .ok () (pushTasks (m14BlockTasks n)
      ((brAdvance 64 s).withM14 { s.m14 with skip := brField s s.br.pos 32 })) := by
  have heos : ¬ brEos s = true := fun he => Nat.not_le.2 h ((brEos_iff s).1 he)
  have hcount (m : M14) : brField ((brAdvance 32 s).withM14 m) (s.br.pos + 32) 32 = n := by
    rw [brField_withM14, brField_brAdvance, hn]
  simp only [m14Block, if_neg heos, brReadBits_fst, brReadBits_snd]
  refine congrArg (Res.ok ()) ?_
  rw [← hcount { s.m14 with skip := brField s s.br.pos 32 }]
  rfl

/-! ## Length sequences (R222) -/

/-- A sequence starts with the count and index of its level; no other level changes. -/
theorem levelAt_m14ReadLengths {s : State} (hs : levelsWf s = true) (n d d' : Nat) :
    levelAt (m14ReadLengths n d s) d' = if d' = d then { levelAt s d with n := n, i := 0 } else levelAt s d' :=
  levelAt_withLevel hs d d' { levelAt s d with n := n, i := 0 }

end Sys2Proof.Machine

namespace Sys2Proof.Proofs

open Sys2Proof Sys2Proof.Machine

/-- Settles O44: a repeat is a run of puts of the length before it; what a nested value can raise is the decode's error. -/
theorem lengthValuesSetLengths : Obligations.LengthValuesSetLengths := by
  refine ⟨?_, ?_, ?_, ?_, ?_, ?_, ?_⟩
  · intro s hs
    exact ⟨lvPut 0 s, rfl, .one hs 0⟩
  · intro s v hs hfits
    exact ⟨_, exec_lvValue_of_fits hfits, .one hs _⟩
  · intro s v hlong
    exact exec_lvValue_of_long hlong
  · intro s e u hs hi he hroom
    rw [exec_lvRepeat_of_next hi he]
    obtain ⟨n, rfl⟩ := brAdvance_of_lvNext he
    obtain ⟨t, hrun, ht⟩ := lvCopies_of_fits (s := brAdvance n s) hs rfl hroom
    exact ⟨t, by rw [hrun, Res.outcome_ok], ht⟩
  · intro s hi
    exact exec_lvRepeat_of_start hi
  · intro s e u hs hi he hover
    rw [exec_lvRepeat_of_next hi he]
    obtain ⟨n, rfl⟩ := brAdvance_of_lvNext he
    obtain ⟨t, hrun⟩ := lvCopies_of_overrun (s := brAdvance n s) hs (Nat.le_add_left 1 (e + 2)) hover
    exact ⟨t, by rw [hrun, Res.outcome_raised]⟩
  · intro s k u hi he
    obtain rfl := corruptStream_of_lvNext he
    exact ⟨rfl, by rw [exec_lvRepeat hi, he, Res.bind_raised, Res.outcome_raised]⟩

/-- Settles O48: each part of the frame assigns its registers and pushes the lines that follow. -/
theorem method14FrameAndBlocks : Obligations.Method14FrameAndBlocks := by
  refine ⟨fun _ => rfl, fun _ => rfl, ?_, ?_, ?_⟩
  · intro s hend
    exact congrArg Res.outcome (m14Block_of_end hend)
  · intro s n hmore hn
    exact congrArg Res.outcome (m14Block_of_more hmore hn)
  · intro s n d hs
    exact ⟨m14ReadLengths n d s, rfl, rfl, fun d' hd => (levelAt_m14ReadLengths hs n d d').trans (if_neg hd),
      (levelAt_m14ReadLengths hs n d d).trans (if_pos rfl)⟩

end Sys2Proof.Proofs
end

section
/-! The container's folder markers: what each does to the stack of open folders. -/

namespace Sys2Proof.Machine

/-! ## Folder markers (R268, R269) -/

section
variable {s : State}

theorem folderStart_of_flatten (hf : s.h.flatten = true) (name : Bytes) : folderStart name s = s := if_pos hf

theorem folderStart_of_tree (hf : s.h.flatten = false) (name : Bytes) :
    folderStart name s = s.withCp { s.cp with stack := s.cp.stack ++ [name ++ [colon]], depth := s.cp.depth + 1 } :=
  if_neg (ne_true_of_eq_false hf)

theorem folderEnd_of_flatten (hf : s.h.flatten = true) : folderEnd s = .ok () s := if_pos hf

/-- Where folders are kept, an end marker turns on whether one is open. -/
theorem folderEnd_of_tree (hf : s.h.flatten = false) :
    folderEnd s = if s.cp.depth = 0 then .raised .folderUnderflow s
      else .ok () (s.withCp { s.cp with stack := s.cp.stack.dropLast, depth := s.cp.depth - 1 }) :=
  if_neg (ne_true_of_eq_false hf)

theorem folderEnd_of_open (hf : s.h.flatten = false) (hd : s.cp.depth ≠ 0) :
    folderEnd s = .ok () (s.withCp { s.cp with stack := s.cp.stack.dropLast, depth := s.cp.depth - 1 }) := by
  rw [folderEnd_of_tree hf, if_neg hd]

theorem folderEnd_of_none (hf : s.h.flatten = false) (hd : s.cp.depth = 0) :
    folderEnd s = .raised .folderUnderflow s := by
  rw [folderEnd_of_tree hf, if_pos hd]

end

end Sys2Proof.Machine

namespace Sys2Proof.Proofs

open Sys2Proof Sys2Proof.Machine

/-- Settles O53: a marker's outcome turns on whether the archive is flattened, an end's also on whether a folder is open. -/
theorem folderMarkersPushAndPop : Obligations.FolderMarkersPushAndPop := by
  intro s h
  refine ⟨fun hf => ?_, fun hf => ⟨?_, ?_⟩, fun hf hd => ?_, fun hf hd => ?_⟩
  · exact congrArg Host.Outcome.next (folderStart_of_tree hf (entName h))
  · exact congrArg Host.Outcome.next (folderStart_of_flatten hf (entName h))
  · exact congrArg Res.outcome (folderEnd_of_flatten hf)
  · exact congrArg Res.outcome (folderEnd_of_open hf hd)
  · exact congrArg Res.outcome (folderEnd_of_none hf hd)

end Sys2Proof.Proofs
end

section
/-! What a read and a query leave as they were: the handle and the index. -/

namespace Sys2Proof.Machine

/-! ## The handle and the index -/

/-- `s` has the handle, the index and the host's queue of `b`, and no `OPEN` is in progress: the last line of one is not
pending. -/
def Held (b s : State) : Prop := s.h = b.h ∧ s.idx = b.idx ∧ s.host = b.host ∧ Task.openEnd ∉ s.seq

/-- Whether an operation returns or raises, handle, index and queue are those of `b`; and what it raises is a read's kind
(R320). -/
def Res.Holds {α : Type} (b : State) : Res α → Prop
  | .ok _ t => Held b t
  | .raised k t => k.ofOpen = false ∧ Held b t
  | .fault _ => True
  | .refused _ => True

/-- In the next state, if there is one, handle, index and queue are those of `b`. -/
def NextHeld (b : State) : Host.Outcome State Fault Refusal → Prop
  | .next t => Held b t
  | .fault _ => True
  | .refused _ => True

/-- The instructions of an `OPEN`: the container's words and its units (R95 to R97, R261 to R272), and the command itself. -/
def inOpen : Instr → Bool
  | .magicSit | .magicSt65 | .magicSt50 | .magicSt60 | .magicStin | .magicSti2 | .magicSti3 | .magicSti4 | .magicSt46 => true
  | .magicRLau | .magicOther _ | .arch _ | .entFolderStart _ | .entFolderEnd _ | .entFile _ => true
  | .cpParse | .cpArchdr | .cpFetch | .cpKey _ | .cpInsert _ _ _ _ _ | .hostOpen _ _ _ => true
  | _ => false

section
variable {α β : Type} {b s : State}

/-- After a read's kind handle and index are as before, and the block is idle (R299, R326). -/
theorem Held.takeError (h : Held b s) {k : ErrKind} (hk : k.ofOpen = false) : Held b (takeError k s) := by
  obtain ⟨hh, hidx, hhost, -⟩ := h
  rw [takeError_of_not_ofOpen hk]
  exact ⟨hh, hidx, hhost, List.not_mem_nil⟩

theorem Held.pushTasks (h : Held b s) {ts : List Task} (ht : Task.openEnd ∉ ts) : Held b (pushTasks ts s) := by
  obtain ⟨hh, hidx, hhost, hseq⟩ := h
  exact ⟨hh, hidx, hhost, fun hm => (List.mem_append.1 hm).elim ht hseq⟩

/-- Lines may be dropped. -/
theorem Held.withSeq (h : Held b s) {ts : List Task} (ht : ts ⊆ s.seq) : Held b (s.withSeq ts) := by
  obtain ⟨hh, hidx, hhost, hseq⟩ := h
  exact ⟨hh, hidx, hhost, fun hm => hseq (ht hm)⟩

theorem Held.ite {c : Prop} [Decidable c] {t : State} (hs : Held b s) (ht : Held b t) : Held b (if c then s else t) := by
  split
  · exact hs
  · exact ht

theorem Res.Holds.ite {c : Prop} [Decidable c] {r r' : Res α} (h : r.Holds b) (h' : r'.Holds b) :
    (if c then r else r').Holds b := by
  split
  · exact h
  · exact h'

theorem Res.Holds.bind {r : Res α} {f : α → State → Res β} (h : r.Holds b) (hf : ∀ a t, Held b t → (f a t).Holds b) :
    (r.bind f).Holds b := by
  cases r with
  | ok a t => exact hf a t h
  | raised k t => exact h
  | fault e => trivial
  | refused e => trivial

theorem Res.Holds.outcome {r : Res Unit} (h : r.Holds b) : NextHeld b r.outcome := by
  cases r with
  | ok _ t => exact h
  | raised k t =>
    obtain ⟨hk, ht⟩ := h
    exact ht.takeError hk
  | fault e => trivial
  | refused e => trivial

theorem Res.Holds.outcomeWith {r : Res α} (h : r.Holds b) (f : α → Ret) : NextHeld b (r.outcomeWith f) :=
  Res.Holds.outcome (h.bind fun _ _ ht => ht)

/-- `raise CorruptStream` is a read's kind. -/
theorem Held.corrupt (h : Held b s) : (Res.raised .corruptStream s : Res α).Holds b := ⟨rfl, h⟩

/-! ### The shared units -/

theorem Held.brAdvance (h : Held b s) (n : Nat) : Held b (brAdvance n s) := h

theorem Held.brAlign (h : Held b s) : Held b (brAlign s) := .ite h h

theorem Held.brReadBits (h : Held b s) (n : Nat) : Held b (brReadBits n s).2 := by
  rw [brReadBits_snd]
  exact h

theorem Held.withTable (h : Held b s) (id : TableId) (v : Table) : Held b (withTable s id v) := by
  cases id <;> exact h

theorem Held.h12Build (h : Held b s) (id : TableId) (ls : List Nat) : (h12Build id ls s).Holds b := by
  rcases h12Build_cases id ls s with ⟨v, -, -, he⟩ | ⟨-, he⟩
  · rw [he]; exact h.withTable id v
  · rw [he]; exact h.corrupt

theorem Held.h12Buildx (h : Held b s) (id : TableId) (es : List Config.CodeEntry) : (h12Buildx id es s).Holds b := by
  rcases h12Buildx_cases id es s with ⟨v, -, -, -, he⟩ | ⟨-, he⟩ | ⟨-, he⟩
  · rw [he]; exact h.withTable id v
  · rw [he]; exact h.corrupt
  · rw [he]; trivial

/-- What only moves the reader keeps all else. -/
theorem Held.moves (h : Held b s) {r : Res α} (hr : r.Moves s) : r.Holds b := by
  cases r with
  | ok a t =>
    obtain ⟨n, rfl⟩ := hr
    exact h
  | raised k t =>
    obtain ⟨rfl, n, rfl⟩ := hr
    exact ⟨rfl, h⟩
  | fault e => trivial
  | refused e => trivial

theorem Held.h12Decode (h : Held b s) (id : TableId) : (h12Decode id s).Holds b := h.moves (h12Decode_moves id s)

theorem Held.emitted (h : Held b s) (d : Decoder) (x : Byte) : Held b (emitted d x s) := by
  cases d <;> exact h

theorem Held.outEmit (h : Held b s) (d : Decoder) (x : Byte) : (outEmit d x s).Holds b := by
  rcases outEmit_cases d x s with ⟨-, he⟩ | ⟨-, he⟩
  · rw [he]; exact h.emitted d x
  · rw [he]; exact h.corrupt

theorem Held.outCopy (h : Held b s) (d : Decoder) (len off : Nat) : (outCopy d len off s).Holds b := by
  rcases outCopy_cases (Held b) d (fun x _ _ hu => hu.emitted d x) len off s h with ⟨t, he, ht, -⟩ | ⟨t, he, ht, -⟩
  · rw [he]; exact ht
  · rw [he]; exact ht.corrupt

theorem Held.crcRange (h : Held b s) (sp : ByteSpace) (a n : Nat) : (crcRange sp a n s).Holds b := by
  rw [crcRange_eq]
  cases spaceBytes s sp a n with
  | none => trivial
  | some bs => exact h

theorem Held.crcVerify (h : Held b s) (f : ForkDesc) : (crcVerify f s).Holds b :=
  (h.crcRange .out 0 s.out.size).bind fun _ _ ht => .ite ht ⟨rfl, ht⟩

theorem Held.checkComplete (h : Held b s) : (checkComplete s).Holds b := Res.Holds.ite h h.corrupt

theorem Held.m0Copy (h : Held b s) (f : ForkDesc) : (m0Copy f s).Holds b := by
  rcases m0Copy_cases f s with ⟨-, he⟩ | ⟨-, -, he⟩ | ⟨bs, -, -, he⟩
  · rw [he]; exact h.corrupt
  · rw [he]; trivial
  · rw [he]; exact h

/-! ### Method 13 -/

theorem Held.m13EmitLen (h : Held b s) (n : Nat) : (m13EmitLen n s).Holds b :=
  Res.Holds.ite h.corrupt (.ite h.corrupt h)

theorem Held.m13EmitMany (h : Held b s) (n r : Nat) : (m13EmitMany n r s).Holds b := by
  induction r generalizing s with
  | zero => exact h
  | succ r ih => exact (h.m13EmitLen n).bind fun _ _ ht => ih ht

theorem Held.m13Repeat (h : Held b s) (bits base : Nat) : (m13Repeat bits base s).Holds b :=
  (h.brAdvance bits).m13EmitMany _ _

theorem Held.m13Profile (h : Held b s) (i : Nat) : (m13Profile i s).Holds b := by
  unfold Machine.m13Profile
  split
  · split
    · exact .ite h trivial
    · trivial
  · trivial

theorem Held.m13Static (h : Held b s) (i : Nat) : (m13Static i s).Holds b :=
  (h.m13Profile i).bind fun _ _ h1 => (h1.h12Build _ _).bind fun _ _ h2 => (h2.h12Build _ _).bind fun _ _ h3 => h3.h12Build _ _

theorem openEnd_not_mem_m13DynamicTasks (copy : Bool) (nofs : Nat) : Task.openEnd ∉ m13DynamicTasks copy nofs := by
  cases copy <;> simp [m13DynamicTasks]

theorem Held.m13Dynamic (h : Held b s) (copy : Bool) (nofs : Nat) : (m13Dynamic copy nofs s).Holds b := by
  unfold Machine.m13Dynamic
  split
  · trivial
  · exact .ite ((h.h12Buildx _ _).bind fun _ _ ht => ht.pushTasks (openEnd_not_mem_m13DynamicTasks copy nofs)) trivial

theorem Held.m13LeaveLoop (h : Held b s) : Held b (m13LeaveLoop s) := by
  unfold Machine.m13LeaveLoop
  split
  · rename_i ts hs
    exact h.withSeq (hs ▸ List.subset_cons_self _ ts)
  · exact h

theorem Held.m13Match (h : Held b s) (len : Nat) : (m13Match len s).Holds b := by
  have hofs : (m13Offset s).Holds b := (h.h12Decode .tOfs).bind fun _ _ ht => .ite ht ht.corrupt
  exact hofs.bind fun off _ h1 => (h1.outCopy .m13 len off).bind fun _ _ h2 => h2

theorem Held.m13LongMatch (h : Held b s) (bits : Nat) : (m13LongMatch bits s).Holds b := (h.brAdvance bits).m13Match _

theorem Held.metaSet (h : Held b s) (sym : Fin 31) : NextHeld b (execMetaSet sym s) := by
  unfold execMetaSet
  split
  · exact h
  · trivial

/-! ### Method 14 -/

theorem Held.m14SetDepth (h : Held b s) (d : Nat) : Held b (m14SetDepth d s) := h

theorem Held.m14Mode (h : Held b s) (d : Nat) : (m14Mode d s).Holds b :=
  .ite (.ite h.corrupt (h.pushTasks (by simp))) (h.pushTasks (by simp))

theorem Held.lvNext (h : Held b s) : (lvNext s).Holds b := .ite (h.h12Decode _) h

theorem Held.lvCopies (h : Held b s) (n : Nat) : (lvCopies n s).Holds b := by
  induction n generalizing s with
  | zero => exact h
  | succ n ih => exact .ite h.corrupt (ih h)

theorem Held.lvRepeat (h : Held b s) : (lvRepeat s).Holds b := .ite h.corrupt (h.lvNext.bind fun _ _ ht => ht.lvCopies _)

theorem Held.lvValue (h : Held b s) (v : Nat) : (lvValue v s).Holds b := .ite h.corrupt h

theorem openEnd_not_mem_m14BlockTasks (n : Nat) : Task.openEnd ∉ m14BlockTasks n := by
  unfold m14BlockTasks
  split <;> simp

theorem Held.m14Block (h : Held b s) : (m14Block s).Holds b := by
  unfold Machine.m14Block
  refine .ite h.corrupt ?_
  refine Held.pushTasks ?_ (openEnd_not_mem_m14BlockTasks _)
  exact Held.brReadBits (s := (Machine.brReadBits 32 s).2.withM14 _) (h.brReadBits 32) 32

theorem Held.m14Loop (h : Held b s) : (m14Loop s).Holds b := .ite h (.ite h.corrupt (h.pushTasks (by simp)))

theorem Held.m14Match (h : Held b s) (c : Nat) : (m14Match c s).Holds b := by
  have hofs : (m14Offset (Machine.brReadBits (extra14 c) s).2).Holds b :=
    ((h.brReadBits _).h12Decode .td).bind fun _ _ ht => .ite (ht.brReadBits _) ht.corrupt
  exact hofs.bind fun off _ h1 => .ite h1.corrupt ((h1.outCopy .m14 _ off).bind fun _ _ h2 => h2)

/-! ### The facade -/

theorem Held.readFork (h : Held b s) (path : Bytes) (fork : Entry → ForkDesc) {deliver : Task} (hd : deliver ≠ .openEnd) :
    (readFork path fork deliver s).Holds b := by
  unfold Machine.readFork
  split
  · exact ⟨rfl, h⟩
  · rename_i e _
    exact h.pushTasks (ts := [.op (.dispatch (fork e)), deliver]) (by simp [hd.symm])

theorem Held.dispatchFork (h : Held b s) (f : ForkDesc) : Held b (dispatchFork f s) :=
  .ite h (Held.pushTasks (ts := [.fetch .cmpr, .op (.crcVerify f), .dispatchRet])
    (.ite (s := resetRead f (s.withFork f)) (t := s.withFork f) h h) (by simp))

/-! ## Instructions, fetches and lines -/

/-- No instruction but those of an `OPEN` changes the handle or the index (R299). -/
theorem Held.exec (h : Held b s) {i : Instr} (hi : inOpen i = false) : NextHeld b (exec i s) := by
  cases hm : i.matchCode with
  | some c => rw [exec_of_matchCode hm]; exact (h.m14Match c).outcome
  | none =>
  cases hd : i.distCode with
  | some d => rw [exec_of_distCode hd]; exact h.brReadBits _
  | none =>
  cases hp : staticProfile i with
  | some n => rw [exec_of_staticProfile hp]; exact (h.m13Static n).outcome
  | none =>
  have hrow : i.matchCode.or (i.distCode.or (staticProfile i)) = none := by rw [hm, hd, hp]; rfl
  cases i with
  -- an `OPEN`
  | magicSit | magicSt65 | magicSt50 | magicSt60 | magicStin | magicSti2 | magicSti3 | magicSti4 | magicSt46 => cases hi
  | magicRLau | magicOther | arch | entFolderStart | entFolderEnd | entFile => cases hi
  | cpParse | cpArchdr | cpFetch | cpKey | cpInsert | hostOpen => cases hi
  -- the facade
  | hostHas | hostList | hostReadFinfo => exact h
  | hostRead path => exact (h.readFork path Entry.dataFork (deliver := .deliverData) nofun).outcome
  | hostReadRsrc path => exact (h.readFork path Entry.resFork (deliver := .deliverRsrc) nofun).outcome
  | dispatch f => exact h.dispatchFork f
  | cmprEncrypted | cmprUnsupported => exact h.takeError rfl
  | cmprM13 | cmprM14 => exact Held.pushTasks (s := s.withDec _) h (by simp)
  | cmprM0 => exact (h.m0Copy _).outcome
  | m0Copy f => exact (h.m0Copy f).outcome
  -- method 13
  | m13Start | m13Run | m13ReadLengths => exact Held.pushTasks (s := State.withM13 _ _) h (by simp)
  | m13Ofs | metaAbsent | metaInc | metaDec => exact h
  | metaSet sym => exact h.metaSet sym
  | metaRep1 | metaRep3 | metaRep6 => exact (h.m13Repeat _ _).outcome
  | m13EmitLen n => exact (h.m13EmitLen n).outcome
  | m13CtrlDynamic | m13Dynamic => exact (h.m13Dynamic _ _).outcome
  | m13CtrlIllegal => exact h.takeError rfl
  | m13Lit x => exact Res.Holds.outcome ((h.outEmit .m13 x).bind fun _ _ ht => ht)
  | m13Len sym => exact (h.m13Match _).outcome
  | m13Med | m13Long => exact (h.m13LongMatch _).outcome
  | m13Eos => exact h.m13LeaveLoop
  -- method 14
  | m14Start | m14ReadLengths => exact Held.pushTasks (s := State.withM14 _ _) h (by simp)
  | m14Hdr | lvZero => exact h
  | m14Block => exact h.m14Block.outcome
  | lvRepeat => exact h.lvRepeat.outcome
  | lvValue v => exact (h.lvValue _).outcome
  | m14Lit x => exact Res.Holds.outcome ((h.outEmit .m14 x).bind fun _ _ ht => ht)
  -- the units
  | brInit | brPeek | brTake | brTake1 | brEos => exact h
  | brAlign => exact h.brAlign
  | brReadBits n => exact h.brReadBits n
  | crcInit | crcUpdate => exact h
  | crcRange sp a n => exact (h.crcRange sp a n).outcomeWith _
  | crcVerify f => exact (h.crcVerify f).outcome
  | h12Build => exact (h.h12Build _ _).outcome
  | h12Buildx => exact (h.h12Buildx _ _).outcome
  | h12Decode id => exact (h.h12Decode id).outcomeWith _
  | outEmit x => exact (h.outEmit _ x).outcome
  | outCopy len off => exact (h.outCopy _ len off).outcome
  -- a row of method 14 or a static profile, with the code or number excluded above
  | _ => cases hrow

theorem Held.perform (h : Held b s) {i : Instr} (hi : inOpen i = false) : NextHeld b (perform i s) := by
  unfold Machine.perform
  split
  · exact h.exec hi
  · trivial

end

theorem inOpen_of_matchCode {i : Instr} {c : Nat} (h : i.matchCode = some c) : inOpen i = false := by
  cases i <;> cases h <;> rfl

theorem inOpen_of_distCode {i : Instr} {d : Nat} (h : i.distCode = some d) : inOpen i = false := by
  cases i <;> cases h <;> rfl

/-- A word that a read fetches is no instruction of an `OPEN`. -/
theorem inOpen_of_decode {size : Nat} {f : Format} {w : Raw} {i : Instr} (hf : (Task.fetch f).ofRead size = true)
    (h : decode f w = .ok i) : inOpen i = false := by
  cases Decodes.of_decode h with
  | magic1 | magic2 | arch | ent => cases hf
  | cmpr x =>
    unfold decodeCmpr
    split_ifs <;> rfl
  | m13Ctrl x =>
    unfold decodeM13Ctrl
    simp only
    split_ifs <;> rfl
  | m13Meta hv =>
    unfold decodeMeta at hv
    split_ifs at hv <;> cases hv <;> rfl
  | m13Sym hv =>
    unfold decodeM13Sym at hv
    split_ifs at hv <;> cases hv <;> rfl
  | m13Ofs v => rfl
  | m14Hdr x => rfl
  | m14LenVal hv =>
    unfold decodeLenVal at hv
    split_ifs at hv <;> cases hv <;> rfl
  | m14Sym hv =>
    unfold decodeM14Sym at hv
    split_ifs at hv
    · cases hv
      rfl
    · exact inOpen_of_matchCode (matchCode_matchRows hv)
  | m14Dist hv => exact inOpen_of_distCode (distCode_distRows hv)

/-- An instruction that a read's pseudocode calls is none of an `OPEN`. -/
theorem inOpen_of_ofRead {size : Nat} {i : Instr} (h : (Task.op i).ofRead size = true) : inOpen i = false := by
  cases i with
  | dispatch | crcVerify | m13Start | m13Run | m14Start | m14Block | m13ReadLengths | m13EmitLen | m14ReadLengths => rfl
  | _ => cases h

section
variable {b s : State}

theorem Held.fetchSymbol (h : Held b s) (id : TableId) : (fetchSymbol id s).Holds b :=
  (h.h12Decode id).bind fun _ _ ht => ht

theorem Held.fetchRaw (h : Held b s) {size : Nat} {f : Format} (hf : (Task.fetch f).ofRead size = true) :
    (fetchRaw f s).Holds b := by
  cases f with
  | magic1 | magic2 | arch | ent => cases hf
  | cmpr | m13Ctrl | m14Hdr => exact h
  | m13Meta | m13Sym | m13Ofs | m14Sym | m14Dist => exact h.fetchSymbol _
  | m14LenVal r => exact h.lvNext.bind fun _ _ ht => ht

theorem Held.rejected (h : Held b s) (r : Reject) : NextHeld b (rejected r s) := by
  cases r with
  | undefinedSymbol => exact h.takeError rfl
  | wrongShape | wrongWidth => trivial

theorem Held.fetchPerform (h : Held b s) {size : Nat} {f : Format} (hf : (Task.fetch f).ofRead size = true) :
    NextHeld b (fetchPerform f s) := by
  have hw := h.fetchRaw hf
  unfold Machine.fetchPerform
  cases hfetch : Machine.fetchRaw f s with
  | ok w u =>
    rw [hfetch] at hw
    simp only
    cases hd : decode f w with
    | ok i => exact Held.perform hw (inOpen_of_decode hf hd)
    | error r => exact Held.rejected hw r
  | raised k u =>
    rw [hfetch] at hw
    obtain ⟨hk, hu⟩ := hw
    exact hu.takeError hk
  | fault e => trivial
  | refused e => trivial

theorem Held.runLine (h : Held b s) {size : Nat} {t : Task} (ht : t.ofRead size = true) : (runLine t s).Holds b := by
  cases t with
  | archRest | parseLoop | openEnd => cases ht
  | op | fetch | dispatchRet | deliverData | deliverRsrc | m14SetRem => exact h
  | m13Begin => exact Held.pushTasks (s := s.withM13 _) h (by simp)
  | metaLoop => exact Held.ite (h.pushTasks (by simp)) h
  | lvLoop => exact Held.ite (h.pushTasks (by simp)) h
  | m14Blocks => exact Held.ite (h.pushTasks (by simp)) h
  | m13Loop => exact Held.ite h (h.pushTasks (by simp))
  | m13BuildT1 | m13BuildT2 | m13BuildTO | m14BuildTL | m14BuildTD => exact h.h12Build _ _
  | m13CopyT2 => exact h.withTable .t2 _
  | m14BuildTN d => exact (h.m14SetDepth d).h12Build _ _
  | m13End | m14End => exact h.checkComplete
  | m14Mode d => exact h.m14Mode d
  | m14Loop => exact h.m14Loop
  | m14BlockEnd => exact h.brAlign

/-- A pending line of a read keeps the handle and the index. -/
theorem Held.stepTask (h : Held b s) {size : Nat} {t : Task} (ht : t.ofRead size = true) : NextHeld b (stepTask t s) := by
  by_cases ho : ∃ i, t = .op i
  · obtain ⟨i, rfl⟩ := ho
    exact h.perform (inOpen_of_ofRead ht)
  · by_cases hf : ∃ f, t = .fetch f
    · obtain ⟨f, rfl⟩ := hf
      exact h.fetchPerform ht
    · rw [stepTask_line (fun i he => ho ⟨i, he⟩) (fun f he => hf ⟨f, he⟩)]
      exact (h.runLine ht).outcome

end

/-! ## Steps and runs -/

/-- No `OPEN` is in progress and none waits. -/
structure State.NoOpen (s : State) : Prop where
  seq : Task.openEnd ∉ s.seq
  host : ∀ src size flatten, Cmd.openArchive src size flatten ∉ s.host

section
variable {s t : State}

/-- Every agenda of an `OPEN` ends with its last line, so a block without it is idle or reads. -/
theorem State.Inv.reading (h : s.Inv) (ho : s.NoOpen) : Reading s.par s := by
  have hlast : ∀ ts ∈ openAgendas, Task.openEnd ∈ ts := by decide
  exact h.cases.resolve_left fun ⟨_, ha⟩ => ho.seq (hlast _ ha)

/-- Such a step keeps the handle and the index; a command may be taken from the host's queue. -/
theorem step_held (h : s.Inv) (ho : s.NoOpen) : ∃ cs, cs ⊆ s.host ∧ NextHeld (s.withHost cs) (step s) := by
  cases hs : s.seq with
  | cons e ts =>
    have htail : Held s (s.withSeq ts) :=
      Held.withSeq (b := s) ⟨rfl, rfl, rfl, ho.seq⟩ (hs ▸ List.subset_cons_self e ts)
    rw [step_cons hs]
    exact ⟨s.host, List.Subset.refl _, htail.stepTask ((h.reading ho).tasks e (hs ▸ List.mem_cons_self))⟩
  | nil =>
    cases hc : s.host with
    | nil =>
      rw [step_idle hs hc]
      exact ⟨[], List.Subset.refl _, rfl, rfl, hc, ho.seq⟩
    | cons c cs =>
      have hidle : Held (s.withHost cs) (s.withHost cs) := ⟨rfl, rfl, rfl, ho.seq⟩
      rw [step_command hs hc]
      refine ⟨cs, List.subset_cons_self c cs, hidle.perform ?_⟩
      cases c with
      | openArchive src size flatten => exact absurd (hc ▸ List.mem_cons_self) (ho.host src size flatten)
      | has | list | read | readRsrc | readFinfo => rfl

/-- Nor does it change `SRC` (R61, R352). -/
theorem step_src_of_noOpen (h : s.Inv) (ho : s.NoOpen) (ht : step s = .next t) : t.src = s.src := by
  rcases step_fixed s with hf | ⟨-, src, size, flatten, cs, hc⟩ | ⟨src, size, flatten, ts, hs⟩
  · obtain ⟨-, hsrc⟩ := hf.of_eq ht
    exact hsrc
  · exact absurd (hc ▸ List.mem_cons_self) (ho.host src size flatten)
  · exact absurd ((h.reading ho).tasks (.op (.hostOpen src size flatten)) (hs ▸ List.mem_cons_self)) Bool.false_ne_true

/-- Without an `OPEN` a run of any length keeps the handle, the index and `SRC` (R299). -/
theorem run_keeps_handle (n : Nat) (h : s.Inv) (ho : s.NoOpen) (hr : Host.Core.run Sys2Proof.core n s = .next t) :
    t.h = s.h ∧ t.idx = s.idx ∧ t.src = s.src := by
  induction n generalizing s with
  | zero =>
    cases hr
    exact ⟨rfl, rfl, rfl⟩
  | succ n ih =>
    have hsafe := step_safe h
    obtain ⟨cs, hcs, hheld⟩ := step_held h ho
    have hsrc := fun u => step_src_of_noOpen (t := u) h ho
    cases hu : step s with
    | next u =>
      rw [hu] at hsafe hheld
      obtain ⟨hinv, -⟩ := hsafe
      obtain ⟨hh, hidx, hhost, hseq⟩ := hheld
      have hqueue : u.host ⊆ s.host := fun c hm => hcs ((congrArg (c ∈ ·) hhost).mp hm)
      have hnext : u.NoOpen := ⟨hseq, fun src size flatten hm => ho.host src size flatten (hqueue hm)⟩
      rw [run_next hu] at hr
      obtain ⟨hh', hidx', hsrc'⟩ := ih hinv hnext hr
      exact ⟨hh'.trans hh, hidx'.trans hidx, hsrc'.trans (hsrc u hu)⟩
    | fault e =>
      have hstop : Sys2Proof.core.step s = .fault e := hu
      simp only [Host.Core.run, hstop] at hr
      cases hr
    | refused e =>
      have hstop : Sys2Proof.core.step s = .refused e := hu
      simp only [Host.Core.run, hstop] at hr
      cases hr

end

end Sys2Proof.Machine

namespace Sys2Proof.Proofs

open Sys2Proof Sys2Proof.Machine

/-- Settles O15: the last line of an `OPEN` is not pending and none is queued, so every step is a read's or a query's. -/
theorem readsKeepTheHandle : Obligations.ReadsKeepTheHandle := by
  intro s hinv hread hhost n t ht
  have hseq : Task.openEnd ∉ s.seq := fun hm => Bool.false_ne_true (List.all_eq_true.1 hread _ hm)
  exact run_keeps_handle n hinv ⟨hseq, hhost⟩ ht

end Sys2Proof.Proofs
end

section
/-! The output of a stored fork: the bytes `M0.COPY` writes, and the CRC they are tested by. -/

namespace Sys2Proof.Machine

/-! ## Stored forks -/

/-- A buffer after a string was written from `k` on reads the string there, and elsewhere what it read before. -/
theorem read_foldl_write (bs : Bytes) (k : Nat) {m : Memory Byte} (hw : Memory.wf m = true) (a : Nat) :
    Memory.read ((bs.zipIdx k).foldl (fun m p => Memory.write m p.2 p.1) m) a
      = if k ≤ a ∧ a < k + bs.length then bs.getD (a - k) 0 else Memory.read m a := by
  induction bs generalizing k m with
  | nil => exact (if_neg (by simp only [List.length_nil]; omega)).symm
  | cons b bs ih =>
    rw [List.zipIdx_cons, List.foldl_cons, ih (k + 1) (Memory.write_wf m k b hw), List.length_cons]
    rcases Nat.lt_trichotomy a k with ha | rfl | ha
    · rw [if_neg (by omega), if_neg (by omega), Memory.read_write_of_ne _ _ (by omega)]
    · rw [if_neg (by omega), if_pos (by omega), Memory.read_write_self _ _ _ hw, Nat.sub_self]
      rfl
    · rw [Memory.read_write_of_ne _ _ (by omega), show a - k = (a - (k + 1)) + 1 by omega, List.getD_cons_succ]
      exact if_congr (by omega) rfl rfl

/-- `s` after the stored fork `f` was copied to its output (R302). -/
def forkStored (f : ForkDesc) (s : State) : State :=
  (s.withOutMem ((Memory.slice s.src f.offset f.usize.toNat).zipIdx.foldl (fun m p => Memory.write m p.2 p.1) s.outMem)).withOut
    { s.out with cnt := s.out.size }

section
variable {f : ForkDesc} {s : State}

theorem m0Copy_of_unequal (h : f.csize ≠ f.usize) : m0Copy f s = .raised .corruptStream s := if_pos h

/-- A payload in the stream whose two sizes agree is copied. -/
theorem m0Copy_of_equal (h : f.csize = f.usize) (hin : f.offset + f.usize.toNat ≤ s.h.size) :
    m0Copy f s = .ok () (forkStored f s) := by
  rw [m0Copy, if_neg (not_not.2 h), spaceBytes_src s _ _ hin]
  rfl

/-- The buffer then starts with the payload, and is as before beyond it. -/
theorem read_forkStored (hw : Memory.wf s.outMem = true) (k : Nat) :
    Memory.read (forkStored f s).outMem k
      = if k < f.usize.toNat then Memory.read s.src (f.offset + k) else Memory.read s.outMem k := by
  have hread := read_foldl_write (Memory.slice s.src f.offset f.usize.toNat) 0 hw k
  rw [Memory.slice_length, Nat.zero_add, Nat.sub_zero] at hread
  refine hread.trans ?_
  by_cases hk : k < f.usize.toNat
  · rw [if_pos ⟨Nat.zero_le k, hk⟩, if_pos hk, Memory.slice_getD _ _ hk]
  · rw [if_neg (fun h => hk h.2), if_neg hk]

/-- A buffer of the fork's size then holds just the payload. -/
theorem slice_forkStored (hw : Memory.wf s.outMem = true) :
    Memory.slice (forkStored f s).outMem 0 f.usize.toNat = Memory.slice s.src f.offset f.usize.toNat := by
  refine List.map_congr_left fun k hk => ?_
  rw [Nat.zero_add, read_forkStored hw, if_pos (List.mem_range.1 hk)]

/-! ## The CRC of the output -/

theorem crcVerify_of_equal (h : crcBytes 0 (Memory.slice s.outMem 0 s.out.size) = f.crc) :
    crcVerify f s = .ok () (s.withCrc f.crc) := by
  rw [crcVerify_eq, h, if_pos rfl]

theorem crcVerify_of_unequal (h : crcBytes 0 (Memory.slice s.outMem 0 s.out.size) ≠ f.crc) :
    crcVerify f s = .raised .payloadCrcMismatch (s.withCrc (crcBytes 0 (Memory.slice s.outMem 0 s.out.size))) := by
  rw [crcVerify_eq, if_neg h]

end

end Sys2Proof.Machine

namespace Sys2Proof.Proofs

open Sys2Proof Sys2Proof.Machine

/-- Settles O25: the two outcomes of the comparison. -/
theorem forkCrcIsVerified : Obligations.ForkCrcIsVerified := by
  intro s f
  exact ⟨fun h => congrArg Res.outcome (crcVerify_of_equal h), fun h => congrArg Res.outcome (crcVerify_of_unequal h)⟩

/-- Settles O30: an emit with room appends its byte, and one without leaves the state. -/
theorem emitWritesBufferAndWindow : Obligations.EmitWritesBufferAndWindow := by
  refine ⟨fun s b hwin hout hroom => ?_, fun s b hfull => ?_⟩
  · exact ⟨emitted s.dec b s, congrArg Res.outcome (outEmit_ok hroom), Appended.emitted s.dec b hwin hout⟩
  · exact congrArg Res.outcome (outEmit_full hfull)

/-- Settles O32: `CMPR.M0` is `M0.COPY` of the fork dispatched, which tests the sizes before it writes the payload. -/
theorem storedForkIsCopied : Obligations.StoredForkIsCopied := by
  intro s i f hi
  have hexec : exec i s = (m0Copy f s).outcome := by
    rcases hi with rfl | ⟨rfl, rfl⟩
    · rfl
    · rfl
  rw [hexec]
  refine ⟨fun hsize hin hw => ?_, fun hsize => congrArg Res.outcome (m0Copy_of_unequal hsize)⟩
  refine ⟨forkStored f s, congrArg Res.outcome (m0Copy_of_equal hsize hin), rfl, fun k hk => ?_, fun k hk => ?_⟩
  · rw [read_forkStored hw, if_pos hk]
  · rw [read_forkStored hw, if_neg (Nat.not_lt.2 hk)]

end Sys2Proof.Proofs
end

section
/-! The index as the host's commands see it: what each finds under a path, and nothing of it while the handle is invalid. -/

namespace Sys2Proof.Machine

/-! ## Paths (R117, R292) -/

theorem norm_of_tree {s : State} (h : s.h.flatten = false) (path : Bytes) : norm s path = fold path :=
  if_neg (ne_true_of_eq_false h)

theorem norm_of_flatten {s : State} (h : s.h.flatten = true) (path : Bytes) : norm s path = fold (lastComponent path) := if_pos h

/-- Putting paths in an order keeps each as often as it is there (R294). -/
theorem arrange_perm (rank : Nat → Nat) (xs : List Bytes) : (arrange rank xs).Perm xs := by
  have hranked : (xs.zipIdx.map fun p => (rank p.2, p.1)).map Prod.snd = xs := by
    rw [List.map_map]
    exact List.zipIdx_map_fst 0 xs
  exact ((List.perm_insertionSort _ _).map Prod.snd).trans (.of_eq hranked)

/-! ## Entries and Finder infos -/

/-- An entry as `OPEN` makes it: keyed by its path, which has no folder in a flattened archive (R32, R117, R270). -/
theorem Entry.wellMade_path {size : Nat} {flatten : Bool} {e : Entry} (h : e.wellMade size flatten = true) :
    e.key = fold e.path ∧ (flatten = true → lastComponent e.path = e.path) := by
  simp only [Entry.wellMade, Bool.and_eq_true, Bool.or_eq_true, Bool.not_eq_true', beq_iff_eq] at h
  obtain ⟨⟨⟨hkey, hpath⟩, -⟩, -⟩ := h
  exact ⟨hkey, fun hf => hpath.resolve_left (hf ▸ Bool.noConfusion)⟩

section
variable {s : State}

/-- Every stored path leads to its entry. -/
theorem norm_of_wellMade {e : Entry} (h : e.wellMade s.h.size s.h.flatten = true) : norm s e.path = e.key := by
  obtain ⟨hkey, hpath⟩ := Entry.wellMade_path h
  cases hf : s.h.flatten with
  | false => rw [norm_of_tree hf, hkey]
  | true => rw [norm_of_flatten hf, hpath hf, hkey]

/-- With no key twice the Finder info found is the one with the key. -/
theorem findFinder_of_mem (hn : (s.idx.metadata.map (·.key)).Nodup) {m : Finder} (hm : m ∈ s.idx.metadata) :
    findFinder s m.key = some m := by
  have hsome : (findFinder s m.key).isSome = true := List.find?_isSome.2 ⟨m, hm, beq_self_eq_true m.key⟩
  obtain ⟨m', hfound⟩ := Option.isSome_iff_exists.1 hsome
  have hkey : m'.key = m.key := by simpa using List.find?_some (p := fun x : Finder => x.key == m.key) hfound
  rw [hfound, List.inj_on_of_nodup_map hn (List.mem_of_find?_eq_some hfound) hm hkey]

theorem findFinder_of_not_mem {key : Bytes} (h : key ∉ s.idx.metadata.map (·.key)) : findFinder s key = none :=
  List.find?_eq_none.2 fun m hm hkey => h (List.mem_map.2 ⟨m, hm, beq_iff_eq.1 hkey⟩)

/-- The two maps have the same keys, no key twice (R28). -/
theorem metadata_keys_nodup (h : s.indexOk = true) : (s.idx.metadata.map (·.key)).Nodup := by
  simp only [State.indexOk, Bool.and_eq_true, beq_iff_eq, decide_eq_true_eq] at h
  obtain ⟨⟨⟨hkeys, hnodup⟩, -⟩, -⟩ := h
  rwa [← hkeys]

/-! ## The queries -/

/-- `HAS` asks whether a key is there (R293). -/
theorem exec_hostHas (path : Bytes) (s : State) :
    exec (.hostHas path) s = .next (endCommand (.flag (decide (norm s path ∈ s.idx.entries.map (·.key)))) s) := by
  have hfound : (findEntry s (norm s path)).isSome = decide (norm s path ∈ s.idx.entries.map (·.key)) :=
    Bool.eq_iff_iff.2 ((findEntry_isSome_iff s _).trans decide_eq_true_iff.symm)
  rw [← hfound]
  rfl

/-- `LIST` gives the paths in the order drawn (R294). -/
theorem exec_hostList (s : State) :
    exec .hostList s = .next ((endCommand (.paths (listPaths s)) s).withDraws (s.draws + 1)) := rfl

theorem exec_hostReadFinfo_of_found {path : Bytes} {m : Finder} (h : findFinder s (norm s path) = some m) :
    exec (.hostReadFinfo path) s = .next (endCommand (.bytes m.info) s) := by
  show execHostReadFinfo path s = _
  rw [execHostReadFinfo, h]

theorem exec_hostReadFinfo_of_absent {path : Bytes} (h : norm s path ∉ s.idx.metadata.map (·.key)) :
    exec (.hostReadFinfo path) s = .next (endCommand .absent s) := by
  show execHostReadFinfo path s = _
  rw [execHostReadFinfo, findFinder_of_not_mem h]

/-- While the handle is invalid and the block idle both maps are empty (R28, R290). -/
theorem State.Inv.idx_eq_empty (h : s.Inv) (hv : s.h.valid = false) (hs : s.seq = []) :
    s.idx = { entries := [], metadata := [] } := by
  obtain ⟨hsound, hseq⟩ := (State.inv_iff s).1 h
  have hentries : s.idx.entries = [] := by
    rcases hseq.shown with hvalid | hempty | hline
    · exact absurd (hv.symm.trans hvalid) Bool.false_ne_true
    · exact hempty
    · rw [hs] at hline
      exact absurd hline List.not_mem_nil
  have hmetadata : s.idx.metadata = [] := by
    rw [← List.map_eq_nil_iff, ← hsound.idx.keys, hentries]
    rfl
  cases hidx : s.idx with
  | mk entries metadata =>
    rw [hidx] at hentries hmetadata
    exact congrArg₂ Index.mk hentries hmetadata

end

end Sys2Proof.Machine

namespace Sys2Proof.Proofs

open Sys2Proof Sys2Proof.Machine

/-- Settles O16: with no valid handle both maps of the index are empty, so that no path is found in them. -/
theorem invalidHandleShowsEmptyIndex : Obligations.InvalidHandleShowsEmptyIndex := by
  intro s hinv hvalid hidle
  have hidx := hinv.idx_eq_empty hvalid hidle
  have hentries : ∀ key, key ∉ s.idx.entries.map (·.key) := fun key => by rw [hidx]; exact List.not_mem_nil
  have hmetadata : ∀ key, key ∉ s.idx.metadata.map (·.key) := fun key => by rw [hidx]; exact List.not_mem_nil
  have hpaths : listPaths s = [] := List.Perm.eq_nil (by
    rw [listPaths, hidx]
    exact arrange_perm _ [])
  refine ⟨fun p => ?_, ?_, fun p => ?_, fun p => ?_, fun p => exec_hostReadFinfo_of_absent (hmetadata _)⟩
  · rw [exec_hostHas, decide_eq_false (hentries _)]
    rfl
  · rw [exec_hostList, hpaths]
    rfl
  · exact congrArg Res.outcome (readFork_of_unknown (hentries _) _ _)
  · exact congrArg Res.outcome (readFork_of_unknown (hentries _) _ _)

/-- Settles O58: the answers are looked up under keys that are there once, and a stored path normalises to its entry's key. -/
theorem indexQueries : Obligations.IndexQueries := by
  refine ⟨fun s p => exec_hostHas p s, fun s => ?_, ?_, fun s p => exec_hostReadFinfo_of_absent,
    fun s p => (norm_of_tree · p), ?_⟩
  · refine ⟨listPaths s, exec_hostList s, arrange_perm _ _, fun hinv q hq => ?_⟩
    obtain ⟨e, he, rfl⟩ := List.mem_map.1 ((arrange_perm _ _).mem_iff.1 hq)
    obtain ⟨hsound, -⟩ := (State.inv_iff s).1 hinv
    have hmade := hsound.idx.made e he
    obtain ⟨-, hpath⟩ := Entry.wellMade_path hmade
    refine ⟨List.mem_map.2 ⟨e, he, (norm_of_wellMade hmade).symm⟩, fun hf => ?_⟩
    rw [← hpath hf]
    exact colon_not_mem_lastComponent e.path
  · intro s p m hok hm hkey
    exact exec_hostReadFinfo_of_found (hkey ▸ findFinder_of_mem (metadata_keys_nodup hok) hm)
  · intro s p hf
    obtain ⟨pre, hp, hpre⟩ := exists_append_lastComponent p
    exact ⟨pre, lastComponent p, hp, hpre, colon_not_mem_lastComponent p, norm_of_flatten hf p⟩

end Sys2Proof.Proofs
end

section
/-! A read from the command to its result, step by step: of a stored fork, and of one that is absent. -/

namespace Sys2Proof.Machine

/-- The state after a read of an absent fork, of which no line is left (R295, R296). -/
theorem absentRead_eq {s : State} (h : s.seq = []) (cs : List Cmd) (r : Result) :
    (endCommand r ((s.withHost cs).withRet .noFork)).withSeq []
      = { s with host := cs, ret := .noFork, st := { err := .ok, result := r } } := by
  rw [← h]
  rfl

/-! ## The steps of a read (R295, R296, R300) -/

/-- `s` after the stored fork `f` was dispatched and copied. -/
def storedRead (f : ForkDesc) (s : State) : State := forkStored f (resetRead f (s.withFork f))

@[simp] theorem storedRead_h (f : ForkDesc) (s : State) : (storedRead f s).h = s.h := by simp [storedRead, forkStored]
@[simp] theorem storedRead_idx (f : ForkDesc) (s : State) : (storedRead f s).idx = s.idx := by simp [storedRead, forkStored]
@[simp] theorem storedRead_src (f : ForkDesc) (s : State) : (storedRead f s).src = s.src := by simp [storedRead, forkStored]
@[simp] theorem storedRead_host (f : ForkDesc) (s : State) : (storedRead f s).host = s.host := by simp [storedRead, forkStored]

section
variable {f : ForkDesc} {s : State} {ts : List Task}

/-- A read of a known path dispatches its fork; the line `deliver` is to hand over the result. -/
theorem step_readFork {c : Cmd} {path : Bytes} {cs : List Cmd} {e : Entry} {fork : Entry → ForkDesc} {deliver : Task}
    (hs : s.seq = []) (hc : s.host = c :: cs) (he : findEntry s (norm s path) = some e)
    (hexec : ∀ u, exec (commandInstr c) u = (readFork path fork deliver u).outcome) :
    step s = .next ((s.withHost cs).withSeq [.op (.dispatch (fork e)), deliver]) := by
  have hfound : readFork path fork deliver (s.withHost cs)
      = .ok () (pushTasks [.op (.dispatch (fork e)), deliver] (s.withHost cs)) :=
    readFork_of_found (s := s.withHost cs) he fork deliver
  rw [step_command hs hc, perform_of_wf (commandInstr_wf c), hexec, hfound, Res.outcome_ok, pushTasks, State.withHost_seq, hs,
    List.append_nil]

theorem step_read {path : Bytes} {cs : List Cmd} {e : Entry} (hs : s.seq = []) (hc : s.host = .read path :: cs)
    (he : findEntry s (norm s path) = some e) :
    step s = .next ((s.withHost cs).withSeq [.op (.dispatch e.dataFork), .deliverData]) :=
  step_readFork (path := path) (fork := Entry.dataFork) hs hc he fun _ => rfl

theorem step_readRsrc {path : Bytes} {cs : List Cmd} {e : Entry} (hs : s.seq = []) (hc : s.host = .readRsrc path :: cs)
    (he : findEntry s (norm s path) = some e) :
    step s = .next ((s.withHost cs).withSeq [.op (.dispatch e.resFork), .deliverRsrc]) :=
  step_readFork (path := path) (fork := Entry.resFork) hs hc he fun _ => rfl

/-- An absent fork is no fork. -/
theorem step_dispatch_absent (hf : f.usize = 0) :
    step (s.withSeq (.op (.dispatch f) :: ts)) = .next ((s.withRet .noFork).withSeq ts) := by
  rw [step_cons rfl]
  exact congrArg Host.Outcome.next (dispatchFork_of_absent hf (s.withSeq ts))

/-- A stored fork is dispatched with its control word next. -/
theorem step_dispatch_stored (hf : f.usize ≠ 0) (hc : f.compression = 0x00#8) :
    step (s.withSeq (.op (.dispatch f) :: ts))
      = .next ((resetRead f (s.withFork f)).withSeq (.fetch .cmpr :: .op (.crcVerify f) :: .dispatchRet :: ts)) := by
  have hplain : f.compression &&& 0xF0#8 = 0#8 := by rw [hc]; rfl
  rw [step_cons rfl]
  exact congrArg Host.Outcome.next (dispatchFork_of_plain hf hplain (s.withSeq ts))

/-- That word is `CMPR.M0`, which copies the payload (R97, R302). -/
theorem step_cmpr_stored (hc : f.compression = 0x00#8) (hsize : f.csize = f.usize) (hin : f.offset + f.usize.toNat ≤ s.h.size) :
    step ((resetRead f (s.withFork f)).withSeq (.fetch .cmpr :: ts)) = .next ((storedRead f s).withSeq ts) := by
  have hword : decode .cmpr (.num f.compression.toNat) = .ok .cmprM0 := by rw [hc]; rfl
  rw [step_cons rfl, ← Res.outcome_ok () ((storedRead f s).withSeq ts)]
  exact (fetchPerform_of_decode rfl hword).trans
    (congrArg Res.outcome (m0Copy_of_equal (s := (resetRead f (s.withFork f)).withSeq ts) hsize hin))

/-- The output of a stored fork is its payload (R302). -/
theorem outBytes_storedRead : outBytes (storedRead f s) = Memory.slice s.src f.offset f.usize.toNat :=
  slice_forkStored (f := f) (s := resetRead f (s.withFork f)) Memory.wf_nil

theorem step_crcVerify_of_equal (h : crcBytes 0 (outBytes s) = f.crc) :
    step (s.withSeq (.op (.crcVerify f) :: ts)) = .next ((s.withCrc f.crc).withSeq ts) := by
  rw [step_cons rfl]
  exact congrArg Res.outcome (crcVerify_of_equal (s := s.withSeq ts) h)

theorem step_crcVerify_of_unequal (h : crcBytes 0 (outBytes s) ≠ f.crc) :
    step (s.withSeq (.op (.crcVerify f) :: ts))
      = .next (takeError .payloadCrcMismatch (s.withCrc (crcBytes 0 (outBytes s)))) := by
  rw [step_cons rfl]
  exact congrArg Res.outcome (crcVerify_of_unequal (s := s.withSeq ts) h)

/-- The last line of a dispatch returns the output. -/
theorem step_dispatchRet : step (s.withSeq (.dispatchRet :: ts)) = .next ((s.withRet (.bytes (outBytes s))).withSeq ts) := by
  rw [step_cons rfl]
  rfl

/-- Both reads hand over the bytes returned (R295, R296). -/
theorem step_deliver_bytes {deliver : Task} (hd : deliver = .deliverData ∨ deliver = .deliverRsrc) {bs : Bytes} :
    step ((s.withRet (.bytes bs)).withSeq (deliver :: ts))
      = .next ((endCommand (.bytes bs) (s.withRet (.bytes bs))).withSeq ts) := by
  rcases hd with rfl | rfl
  · rfl
  · rfl

/-- Without bytes returned a data fork is empty (R295). -/
theorem step_deliverData_noFork : step ((s.withRet .noFork).withSeq (.deliverData :: ts))
    = .next ((endCommand (.bytes []) (s.withRet .noFork)).withSeq ts) := by
  rw [step_cons rfl]
  rfl

/-- Without bytes returned a resource fork is absent (R296). -/
theorem step_deliverRsrc_noFork : step ((s.withRet .noFork).withSeq (.deliverRsrc :: ts))
    = .next ((endCommand .absent (s.withRet .noFork)).withSeq ts) := by
  rw [step_cons rfl]
  rfl

/-! ## Whole reads -/

/-- The three steps of a stored fork up to its CRC. -/
theorem run_stored {u : State} (hu : step u = .next (s.withSeq (.op (.dispatch f) :: ts))) (hf : f.usize ≠ 0)
    (hc : f.compression = 0x00#8) (hsize : f.csize = f.usize) (hin : f.offset + f.usize.toNat ≤ s.h.size) (n : Nat) :
    Host.Core.run Sys2Proof.core (n + 3) u
      = Host.Core.run Sys2Proof.core n ((storedRead f s).withSeq (.op (.crcVerify f) :: .dispatchRet :: ts)) := by
  rw [run_next hu, run_next (step_dispatch_stored hf hc), run_next (step_cmpr_stored hc hsize hin)]

/-- With the right CRC the read hands over the payload (R306). -/
theorem run_stored_of_crc {deliver : Task} (hd : deliver = .deliverData ∨ deliver = .deliverRsrc)
    (hcrc : crcBytes 0 (Memory.slice s.src f.offset f.usize.toNat) = f.crc) :
    Host.Core.run Sys2Proof.core 3 ((storedRead f s).withSeq [.op (.crcVerify f), .dispatchRet, deliver])
      = .next (endCommand (.bytes (Memory.slice s.src f.offset f.usize.toNat))
          ((((storedRead f s).withCrc f.crc).withRet (.bytes (Memory.slice s.src f.offset f.usize.toNat))).withSeq [])) := by
  have hout := outBytes_storedRead (f := f) (s := s)
  rw [run_next (step_crcVerify_of_equal (s := storedRead f s) (hout ▸ hcrc)),
    run_next (step_dispatchRet (s := (storedRead f s).withCrc f.crc)), ← hout]
  exact run_next (step_deliver_bytes hd) 0

/-- With another CRC it ends with the error (R306). -/
theorem run_stored_of_mismatch (hcrc : crcBytes 0 (Memory.slice s.src f.offset f.usize.toNat) ≠ f.crc) :
    Host.Core.run Sys2Proof.core 1 ((storedRead f s).withSeq (.op (.crcVerify f) :: ts))
      = .next (takeError .payloadCrcMismatch
          ((storedRead f s).withCrc (crcBytes 0 (Memory.slice s.src f.offset f.usize.toNat)))) := by
  have hout := outBytes_storedRead (f := f) (s := s)
  rw [← hout]
  exact run_next (step_crcVerify_of_unequal (s := storedRead f s) (hout ▸ hcrc)) 0

end

end Sys2Proof.Machine

namespace Sys2Proof.Proofs

open Sys2Proof Sys2Proof.Machine

/-- Settles O60: a stored fork is copied and its CRC tested by the fourth step; an absent one is known at the second. -/
theorem readsOfStoredAndAbsentForks : Obligations.ReadsOfStoredAndAbsentForks := by
  refine ⟨?_, ?_, ?_⟩
  · rintro s path cs e f bs hinv hs he hcmd hf hc hsize rfl
    obtain ⟨hsound, -⟩ := (State.inv_iff s).1 hinv
    obtain ⟨hmem, -⟩ := findEntry_mem he
    obtain ⟨hdata, hres⟩ := Entry.wellMade_forks (hsound.idx.made e hmem)
    obtain ⟨deliver, hd, hstep, hinside⟩ : ∃ deliver, (deliver = Task.deliverData ∨ deliver = .deliverRsrc)
        ∧ step s = .next ((s.withHost cs).withSeq [.op (.dispatch f), deliver]) ∧ forkInside s.h.size f = true := by
      rcases hcmd with ⟨rfl, hhost⟩ | ⟨rfl, hhost⟩
      · exact ⟨_, Or.inl rfl, step_read hs hhost he, hdata⟩
      · exact ⟨_, Or.inr rfl, step_readRsrc hs hhost he, hres⟩
    have hin : f.offset + f.csize.toNat ≤ s.h.size := of_decide_eq_true hinside
    rw [hsize] at hin
    have hrun := run_stored hstep hf hc hsize hin
    refine ⟨fun hcrc => ?_, fun hcrc => ?_⟩
    · refine ⟨_, (hrun 3).trans (run_stored_of_crc hd hcrc), ?_⟩
      simp
    · refine ⟨_, (hrun 1).trans (run_stored_of_mismatch hcrc), ?_⟩
      simp [ErrKind.ofOpen]
  · intro s path cs e hs he hhost hf
    rw [run_next (step_read hs hhost he), run_next (step_dispatch_absent hf)]
    exact (run_next step_deliverData_noFork 0).trans (congrArg Host.Outcome.next (absentRead_eq hs cs _))
  · intro s path cs e hs he hhost hf
    rw [run_next (step_readRsrc hs hhost he), run_next (step_dispatch_absent hf)]
    exact (run_next step_deliverRsrc_noFork 0).trans (congrArg Host.Outcome.next (absentRead_eq hs cs _))

end Sys2Proof.Proofs
end

section
/-! Runs that end with the command in progress; and that an `OPEN` ends, whichever of its lines is next. -/

namespace Sys2Proof.Machine

/-! ## Commands that end -/

/-- After some number of steps the block is idle, and no command of the host has been taken on the way (R360). -/
def Ends (s : State) : Prop := ∃ n t, Host.Core.run Sys2Proof.core n s = .next t ∧ t.seq = [] ∧ t.host = s.host

section
variable {s u : State}

theorem Ends.of_idle (h : s.seq = []) : Ends s := ⟨0, s, run_zero s, h, rfl⟩

theorem Ends.of_step (hs : step s = .next u) (hh : u.host = s.host) (hu : Ends u) : Ends s := by
  obtain ⟨n, t, hrun, hseq, hhost⟩ := hu
  exact ⟨n + 1, t, (run_next hs n).trans hrun, hseq, hhost.trans hh⟩

/-- A line that takes an error is the last one (R326). -/
theorem Ends.of_error {k : ErrKind} (hs : step s = .next (takeError k u)) (hh : u.host = s.host) : Ends s :=
  .of_step hs ((takeError_host k u).trans hh) (.of_idle (takeError_seq k u))

/-! ## The entries of an `OPEN` -/

/-- `t` follows `s` within one entry: what is pending, the queue and the handle are the same, and the parser has not gone back. -/
structure EntryParsed (s t : State) : Prop where
  seq : t.seq = s.seq
  host : t.host = s.host
  handle : t.h = s.h
  pos : s.cp.pos ≤ t.cp.pos

theorem EntryParsed.refl (s : State) : EntryParsed s s := ⟨rfl, rfl, rfl, Nat.le_refl _⟩

/-- What an entry record can do: it raises an error, or the parse goes on. -/
def EntryParses (s : State) (o : Host.Outcome State Fault Refusal) : Prop :=
  (∃ k t, o = .next (takeError k t) ∧ t.host = s.host) ∨ ∃ t, o = .next t ∧ EntryParsed s t

theorem folderStart_parses (name : Bytes) (s : State) : EntryParses s (.next (folderStart name s)) := by
  refine Or.inr ⟨_, rfl, ?_⟩
  unfold folderStart
  split
  · exact .refl s
  · exact ⟨rfl, rfl, rfl, Nat.le_refl _⟩

theorem folderEnd_parses (s : State) : EntryParses s (folderEnd s).outcome := by
  rcases folderEnd_cases s with he | he | he <;> rw [he]
  · exact Or.inr ⟨s, rfl, .refl s⟩
  · exact Or.inl ⟨_, s, rfl, rfl⟩
  · exact Or.inr ⟨_, rfl, rfl, rfl, rfl, Nat.le_refl _⟩

/-- An insert changes the index only. -/
theorem cpInsert_parses (key path : Bytes) (res data : ForkDesc) (finfo : Bytes) (s : State) :
    EntryParses s (cpInsert key path res data finfo s).outcome := by
  rcases cpInsert_cases key path res data finfo s with
    ⟨-, -, he⟩ | ⟨-, -, he⟩ | ⟨-, -, -, he⟩ | ⟨-, -, -, he⟩ | ⟨-, -, -, he⟩ <;> rw [he]
  · exact Or.inr ⟨s, rfl, .refl s⟩
  · exact Or.inr ⟨_, rfl, rfl, rfl, rfl, Nat.le_refl _⟩
  · exact Or.inl ⟨_, s, rfl, rfl⟩
  · exact Or.inr ⟨_, rfl, rfl, rfl, rfl, Nat.le_refl _⟩
  · exact Or.inr ⟨s, rfl, .refl s⟩

/-- A file's payloads are skipped forwards (R271). -/
theorem entFile_parses (r : EntHdr) (s : State) : EntryParses s (entFile r s).outcome := by
  unfold entFile
  simp only
  split
  · exact Or.inl ⟨_, s, rfl, rfl⟩
  · refine (cpInsert_parses _ _ _ _ _ (s.withCp _)).imp id fun ⟨t, he, ht⟩ => ⟨t, he, ht.seq, ht.host, ht.handle, ?_⟩
    exact Nat.le_trans (Nat.le_trans (Nat.le_add_right _ _) (Nat.le_add_right _ _)) ht.pos

/-- Every header of 112 bytes is one of the three records (R97). -/
theorem fetch_ent_parses (hh : s.cp.hdr.length = 112) : EntryParses s (fetchPerform .ent s) := by
  have hraw : fetchRaw .ent s = .ok (.bytes s.cp.hdr) s := rfl
  obtain ⟨hw, hd⟩ := decodeEnt_cases (entOfBytes_wf hh)
  rw [fetchPerform_of_decode hraw (decode_ent hh), perform_of_wf hw]
  rcases hd with hd | hd | hd <;> rw [hd]
  · exact folderStart_parses _ s
  · exact folderEnd_parses s
  · exact entFile_parses _ s

/-! ## The entry loop -/

theorem ends_of_openEnd (hs : s.seq = [.openEnd]) : Ends s :=
  .of_step (step_line hs nofun nofun) rfl (.of_idle rfl)

theorem ends_of_ent (hs : s.seq = [.fetch .ent, .parseLoop, .openEnd]) (hh : s.cp.hdr.length = 112)
    (hk : ∀ t, t.seq = [.parseLoop, .openEnd] → t.h = s.h → s.cp.pos ≤ t.cp.pos → Ends t) : Ends s := by
  have hstep : step s = fetchPerform .ent (s.withSeq _) := step_cons hs
  rcases fetch_ent_parses (s := s.withSeq [.parseLoop, .openEnd]) hh with ⟨k, t, he, ht⟩ | ⟨t, he, ht⟩
  · exact .of_error (hstep.trans he) ht
  · exact .of_step (hstep.trans he) ht.host (hk t ht.seq ht.handle ht.pos)

/-- The entry header is fetched whole, so each entry takes the parser on by 112 bytes at least (R265). -/
theorem ends_of_cpFetch (hs : s.seq = [.op .cpFetch, .fetch .ent, .parseLoop, .openEnd])
    (hk : ∀ t, t.seq = [.parseLoop, .openEnd] → t.h = s.h → s.cp.pos < t.cp.pos → Ends t) : Ends s := by
  have hstep : step s = (cpFetch (s.withSeq _)).outcome := step_cons hs
  rcases cpFetch_cases (s.withSeq [.fetch .ent, .parseLoop, .openEnd]) with ⟨-, he⟩ | ⟨-, v, he | he | he⟩ <;>
    rw [he] at hstep
  · exact .of_error hstep rfl
  · refine .of_step hstep rfl (ends_of_ent rfl (srcBytes_length s s.cp.pos 112) fun t ht hh hpos => hk t ht hh ?_)
    exact Nat.lt_of_lt_of_le (Nat.lt_add_of_pos_right (by decide)) hpos
  · exact .of_error hstep rfl
  · exact .of_error hstep rfl

/-- The entry loop ends, because no entry starts past the stream (R261, R264). -/
theorem ends_of_parseLoop (hs : s.seq = [.parseLoop, .openEnd]) : Ends s := by
  induction hm : s.h.size - s.cp.pos using Nat.strong_induction_on generalizing s with
  | _ m ih =>
    have hstep : step s = .next (parseLoop (s.withSeq [.openEnd])) := step_line hs nofun nofun
    by_cases hmore : s.cp.pos < s.cp.asize ∧ s.cp.pos < s.h.size
    · rw [parseLoop_of_more (s := s.withSeq [.openEnd]) hmore] at hstep
      obtain ⟨-, hsize⟩ := hmore
      refine .of_step hstep rfl (ends_of_cpFetch rfl fun t ht hh hpos => ih _ ?_ ht rfl)
      have hlt : s.cp.pos < t.cp.pos := hpos
      have heq : t.h.size = s.h.size := congrArg Handle.size hh
      omega
    · rw [parseLoop_of_end (s := s.withSeq [.openEnd]) hmore] at hstep
      exact .of_step hstep rfl (ends_of_openEnd rfl)

/-! ## The archive header -/

theorem ends_of_magic2 (hs : s.seq = [.fetch .magic2, .parseLoop, .openEnd]) : Ends s := by
  have hstep : step s = fetchPerform .magic2 (s.withSeq _) := step_cons hs
  rcases fetchMagic_cases (Or.inr rfl) (s.withSeq [.parseLoop, .openEnd]) with he | ⟨w, hw, he⟩
  · exact .of_error (hstep.trans (fetchPerform_of_raised he)) rfl
  · rw [fetchPerform_of_decode he (decode_magic2 hw)] at hstep
    split at hstep
    · exact .of_step hstep rfl (ends_of_parseLoop rfl)
    · exact .of_error hstep rfl

theorem ends_of_arch (hs : s.seq = [.fetch .arch, .parseLoop, .openEnd]) : Ends s := by
  have hstep : step s = fetchPerform .arch (s.withSeq _) := step_cons hs
  by_cases hsize : s.h.size < 22
  · exact .of_error (hstep.trans (fetchPerform_of_raised (if_pos hsize))) rfl
  · have hraw : fetchRaw .arch (s.withSeq [.parseLoop, .openEnd]) = .ok (.bytes (srcBytes s 0 22)) _ := if_neg hsize
    have hexec : step s = (archRecord _ (s.withSeq _)).outcome :=
      hstep.trans (fetchPerform_of_decode hraw (decode_arch (srcBytes_length s 0 22)))
    unfold archRecord at hexec
    split at hexec
    · exact .of_error hexec rfl
    · exact .of_step hexec rfl (ends_of_magic2 rfl)

theorem ends_of_archRest (hs : s.seq = [.archRest, .parseLoop, .openEnd]) : Ends s := by
  have hstep : step s = (archRest (s.withSeq _)).outcome := step_line hs nofun nofun
  unfold archRest at hstep
  split at hstep
  · exact .of_error hstep rfl
  · exact .of_step hstep rfl (ends_of_arch rfl)

theorem ends_of_magic1 (hs : s.seq = [.fetch .magic1, .archRest, .parseLoop, .openEnd]) : Ends s := by
  have hstep : step s = fetchPerform .magic1 (s.withSeq _) := step_cons hs
  rcases fetchMagic_cases (Or.inl rfl) (s.withSeq [.archRest, .parseLoop, .openEnd]) with he | ⟨w, hw, he⟩
  · exact .of_error (hstep.trans (fetchPerform_of_raised he)) rfl
  · rw [fetchPerform_of_decode he (decode_magic1 hw)] at hstep
    cases hm : primaryMagic w with
    | none =>
      rw [hm] at hstep
      exact .of_error hstep rfl
    | some i =>
      rw [hm, Option.getD_some, perform_of_primaryMagic hm] at hstep
      exact .of_step hstep rfl (ends_of_archRest rfl)

theorem ends_of_cpArchdr (hs : s.seq = [.op .cpArchdr, .parseLoop, .openEnd]) : Ends s := by
  have hstep : step s = (cpArchdr (s.withSeq _)).outcome := step_cons hs
  unfold cpArchdr at hstep
  split at hstep
  · exact .of_error hstep rfl
  · exact .of_step hstep rfl (ends_of_magic1 rfl)

theorem ends_of_cpParse (hs : s.seq = [.op .cpParse, .openEnd]) : Ends s :=
  .of_step (step_cons hs) rfl (ends_of_cpArchdr rfl)

/-- An `OPEN` in progress ends, at whichever of its lines it is. -/
theorem State.Sound.ends_of_open (h : s.Sound) (ht : s.seq ∈ openAgendas) : Ends s := by
  simp only [openAgendas, List.mem_cons, List.not_mem_nil, or_false] at ht
  rcases ht with e | e | e | e | e | e | e | e | e | e
  · exact ends_of_cpParse e
  · exact ends_of_cpArchdr e
  · exact ends_of_magic1 e
  · exact ends_of_archRest e
  · exact ends_of_arch e
  · exact ends_of_magic2 e
  · exact ends_of_parseLoop e
  · exact ends_of_cpFetch e fun t ht _ _ => ends_of_parseLoop ht
  · exact ends_of_ent e h.cp.hdr fun t ht _ _ => ends_of_parseLoop ht
  · exact ends_of_openEnd e

end

end Sys2Proof.Machine
end

section
/-! What the words of a decoder leave as it is and move forwards: the pending lines, the reader, the length sequences. -/

namespace Sys2Proof.Machine

/-! ## What an operation returns with -/

/-- Where an operation returns normally, `P` holds of the state. -/
def Res.Returns {α : Type} (P : State → Prop) : Res α → Prop
  | .ok _ t => P t
  | .raised _ _ => True
  | .fault _ => True
  | .refused _ => True

/-- In the next state, if there is one, the block is idle or `P` holds. -/
inductive Lands (P : State → Prop) : Host.Outcome State Fault Refusal → Prop
  | idle {t : State} (h : t.seq = []) : Lands P (.next t)
  | next {t : State} (h : P t) : Lands P (.next t)
  | fault (e : Fault) : Lands P (.fault e)
  | refused (e : Refusal) : Lands P (.refused e)

/-- What the words of a decoder that ask for no further lines do to `b`: the pending lines, the sequence sizes and the block
count stay; the reader and the indices of the length sequences do not go back. The levels' memories are canonical. -/
structure Onward (b s : State) : Prop where
  levels : levelsWf s = true
  seq : s.seq = b.seq
  len : s.br.len = b.br.len
  pos : b.br.pos ≤ s.br.pos
  size : s.m13.n = b.m13.n
  idx : b.m13.idx ≤ s.m13.idx
  nblk : s.m14.nblk = b.m14.nblk
  count : (curLevel s).n = (curLevel b).n
  index : (curLevel b).i ≤ (curLevel s).i

section
variable {α β : Type} {P Q : State → Prop} {b s u : State}

theorem Res.Returns.bind {r : Res α} {f : α → State → Res β} (h : r.Returns P) (hf : ∀ a t, P t → (f a t).Returns Q) :
    (r.bind f).Returns Q := by
  cases r with
  | ok a t => exact hf a t h
  | raised k t => trivial
  | fault e => trivial
  | refused e => trivial

theorem Res.Returns.ite {c : Prop} [Decidable c] {r r' : Res α} (h : r.Returns P) (h' : r'.Returns P) :
    (if c then r else r').Returns P := by
  split
  · exact h
  · exact h'

theorem Lands.takeError (k : ErrKind) (s : State) : Lands P (.next (takeError k s)) := .idle (takeError_seq k s)

theorem Lands.next_cases (h : Lands P (.next s)) : s.seq = [] ∨ P s := by
  cases h with
  | idle h => exact Or.inl h
  | next h => exact Or.inr h

theorem Lands.mono {o : Host.Outcome State Fault Refusal} (h : Lands P o) (hPQ : ∀ t, P t → Q t) : Lands Q o := by
  cases h with
  | idle h => exact .idle h
  | next h => exact .next (hPQ _ h)
  | fault e => exact .fault e
  | refused e => exact .refused e

/-- An error raised is an error taken, and the block is idle. -/
theorem Res.Returns.outcome {r : Res Unit} (h : r.Returns P) : Lands P r.outcome := by
  cases r with
  | ok _ t => exact .next h
  | raised k t => exact .takeError k t
  | fault e => exact .fault e
  | refused e => exact .refused e

theorem Lands.perform {i : Instr} (h : Lands P (exec i s)) : Lands P (perform i s) := by
  unfold Machine.perform
  split
  · exact h
  · exact .refused _

/-- A symbol or a codelength value is fetched, decoded and performed, or it raises an error (R112, R320). -/
theorem Lands.fetchNumber {f : Format} {r : Res Nat} (hf : fetchRaw f s = r.bind fun v t => .ok (.num v) t)
    (hi : ∀ v u i, r = .ok v u → decode f (.num v) = .ok i → Lands P (exec i u)) : Lands P (fetchPerform f s) := by
  unfold fetchPerform
  cases r with
  | ok v u =>
    rw [hf, Res.bind_ok]
    simp only
    cases hd : decode f (.num v) with
    | ok i => exact (hi v u i rfl hd).perform
    | error e =>
      cases e with
      | undefinedSymbol => exact .takeError .corruptStream u
      | wrongShape | wrongWidth => exact .refused _
  | raised k u =>
    rw [hf, Res.bind_raised]
    exact .takeError k u
  | fault e => rw [hf, Res.bind_fault]; exact .fault e
  | refused e => rw [hf, Res.bind_refused]; exact .refused e

/-! ## The shared units -/

theorem Onward.refl (h : levelsWf s = true) : Onward s s :=
  ⟨h, rfl, rfl, Nat.le_refl _, rfl, Nat.le_refl _, rfl, rfl, Nat.le_refl _⟩

theorem Onward.brAdvance (h : Onward b s) (n : Nat) : Onward b (brAdvance n s) :=
  { h with pos := Nat.le_trans h.pos (Nat.le_add_right _ n) }

theorem Onward.brReadBits (h : Onward b s) (n : Nat) : Onward b (brReadBits n s).2 := by
  rw [brReadBits_snd]
  exact h.brAdvance n

/-- What follows a move of the reader follows the state before it, with the reader further on. -/
theorem Onward.of_brAdvance {n : Nat} (h : Onward (Machine.brAdvance n s) u) (hn : 1 ≤ n) : Onward s u ∧ s.br.pos < u.br.pos := by
  have hpos : s.br.pos + n ≤ u.br.pos := h.pos
  exact ⟨{ h with pos := Nat.le_trans (Nat.le_add_right _ n) hpos }, by omega⟩

theorem Onward.withRet (h : Onward b s) (v : Ret) : Onward b (s.withRet v) := { h with }

theorem Onward.moves (h : Onward b s) {r : Res α} (hr : r.Moves s) : r.Returns (Onward b) := by
  cases r with
  | ok a t =>
    obtain ⟨n, rfl⟩ := hr
    exact h.brAdvance n
  | raised k t => trivial
  | fault e => trivial
  | refused e => trivial

theorem Onward.emitted (h : Onward b s) (d : Decoder) (x : Byte) : Onward b (emitted d x s) := by
  cases d <;> exact { h with }

theorem Onward.outEmit (h : Onward b s) (d : Decoder) (x : Byte) : (outEmit d x s).Returns (Onward b) := by
  rcases outEmit_cases d x s with ⟨-, he⟩ | ⟨-, he⟩ <;> rw [he]
  · exact h.emitted d x
  · trivial

theorem Onward.outCopy (h : Onward b s) (d : Decoder) (len off : Nat) : (outCopy d len off s).Returns (Onward b) := by
  rcases outCopy_cases (Onward b) d (fun x _ _ hu => hu.emitted d x) len off s h with ⟨t, he, ht, -⟩ | ⟨t, he, -⟩ <;> rw [he]
  · exact ht
  · trivial

/-! ## Method 13 -/

theorem Onward.m13SetCur (h : Onward b s) (v : Int) : Onward b (m13SetCur v s) := { h with }

theorem Onward.m13SetActive (h : Onward b s) (t : Tree) : Onward b (m13SetActive t s) := { h with }

theorem Onward.metaSet (h : Onward b s) (sym : Fin 31) : Lands (Onward b) (execMetaSet sym s) := by
  unfold execMetaSet
  split
  · exact .next (h.m13SetCur _)
  · exact .refused _

/-- An emission that returns has moved the index on (R195). -/
theorem Onward.m13EmitLen (h : Onward b s) (n : Nat) :
    (m13EmitLen n s).Returns fun u => Onward b u ∧ s.m13.idx < u.m13.idx := by
  refine Res.Returns.ite trivial (.ite trivial ⟨?_, Nat.lt_succ_self _⟩)
  exact { h with idx := Nat.le_succ_of_le h.idx }

theorem Onward.m13EmitMany (h : Onward b s) (n r : Nat) : (m13EmitMany n r s).Returns (Onward b) := by
  induction r generalizing s with
  | zero => exact h
  | succ r ih => exact (h.m13EmitLen n).bind fun _ _ ht => ih ht.1

theorem Onward.m13Repeat (h : Onward b s) (bits base : Nat) : (m13Repeat bits base s).Returns (Onward b) :=
  (h.brAdvance bits).m13EmitMany _ _

theorem Onward.m13Match (h : Onward b s) (len : Nat) : (m13Match len s).Returns (Onward b) := by
  have hofs : (m13Offset s).Returns (Onward b) :=
    (h.moves (h12Decode_moves .tOfs s)).bind fun v _ ht => .ite (ht.brAdvance (m13OfsBits v)) trivial
  exact hofs.bind fun off _ h1 => (h1.outCopy .m13 len off).bind fun _ _ h2 => h2.m13SetActive .second

/-- A meta symbol changes the current length or emits (R188 to R194). -/
theorem Onward.metaWord (h : Onward b s) {v : Nat} {i : Instr} (hd : decodeMeta v = some i) : Lands (Onward b) (exec i s) := by
  unfold decodeMeta at hd
  split_ifs at hd <;> cases hd
  · exact h.metaSet _
  · exact .next (h.m13SetCur _)
  · exact .next (h.m13SetCur _)
  · exact .next (h.m13SetCur _)
  · exact (h.m13Repeat 1 0).outcome
  · exact (h.m13Repeat 3 2).outcome
  · exact (h.m13Repeat 6 10).outcome

/-- A symbol of method 13 emits, or it is the end symbol (R197 to R201). -/
theorem Onward.m13Word (h : Onward b s) {v : Nat} {i : Instr} (hd : decodeM13Sym v = some i) :
    i = .m13Eos ∨ Lands (Onward b) (exec i s) := by
  unfold decodeM13Sym at hd
  split_ifs at hd <;> cases hd
  · exact Or.inr (Res.Returns.outcome ((h.outEmit .m13 _).bind fun _ _ ht => ht.m13SetActive .first))
  · exact Or.inr (h.m13Match _).outcome
  · exact Or.inr ((h.brAdvance 10).m13Match _).outcome
  · exact Or.inr ((h.brAdvance 15).m13Match _).outcome
  · exact Or.inl rfl

/-! ## Method 14 -/

theorem Onward.m14Hdr (h : Onward b s) (k : Bool) (j o : Nat) (nested : Bool) : Onward b (m14Hdr k j o nested s) := by
  have hl := levelAt_memWf h.levels s.m14.depth
  have hc := curLevel_m14Hdr h.levels k j o nested
  exact { h with
    levels := levelsWf_withLevel h.levels _ _ hl
    count := by rw [hc]; exact h.count
    index := by rw [hc]; exact h.index }

/-- A length put has moved the index on (R232 to R234). -/
theorem Onward.lvPut (h : Onward b s) (v : Nat) : Onward b (lvPut v s) ∧ (curLevel b).i < (curLevel (lvPut v s)).i := by
  have hi : (curLevel b).i < (curLevel (Machine.lvPut v s)).i := by
    rw [curLevel_lvPut_i h.levels]
    exact Nat.lt_succ_of_le h.index
  exact ⟨{ h with
    levels := levelsWf_lvPut h.levels v
    count := (curLevel_lvPut_n h.levels v).trans h.count
    index := Nat.le_of_lt hi }, hi⟩

theorem Onward.lvCopies (h : Onward b s) (n : Nat) :
    (lvCopies (n + 1) s).Returns fun u => Onward b u ∧ (curLevel b).i < (curLevel u).i := by
  induction n generalizing s with
  | zero => exact .ite trivial (h.lvPut _)
  | succ n ih => exact .ite trivial (ih (h.lvPut _).1)

theorem Onward.lvRepeat (h : Onward b s) : (lvRepeat s).Returns fun u => Onward b u ∧ (curLevel b).i < (curLevel u).i :=
  .ite trivial ((h.moves (lvNext_moves s)).bind fun e _ ht => ht.lvCopies (e + 2))

theorem Onward.lvValue (h : Onward b s) (v : Nat) :
    (lvValue v s).Returns fun u => Onward b u ∧ (curLevel b).i < (curLevel u).i :=
  .ite trivial (h.lvPut _)

/-- Every codelength value puts a length (R232 to R234). -/
theorem Onward.lenValWord (h : Onward b s) {r v : Nat} {i : Instr} (hd : decodeLenVal r v = some i) :
    Lands (fun u => Onward b u ∧ (curLevel b).i < (curLevel u).i) (exec i s) := by
  unfold decodeLenVal at hd
  split_ifs at hd <;> cases hd
  · exact .next (h.lvPut 0)
  · exact h.lvRepeat.outcome
  · exact (h.lvValue _).outcome

theorem Onward.m14SetRem (h : Onward b s) (n : Nat) : Onward b (m14SetRem n s) := { h with }

theorem Onward.m14Match (h : Onward b s) (c : Nat) : (m14Match c s).Returns (Onward b) := by
  have hofs : (m14Offset (Machine.brReadBits (extra14 c) s).2).Returns (Onward b) :=
    ((h.brReadBits _).moves (h12Decode_moves .td _)).bind fun _ _ ht => .ite (ht.brReadBits _) trivial
  exact hofs.bind fun off _ h1 => .ite trivial ((h1.outCopy .m14 _ off).bind fun _ _ h2 => h2.m14SetRem _)

/-- A symbol of method 14 emits (R240, R242). -/
theorem Onward.m14Word (h : Onward b s) {v : Nat} {i : Instr} (hd : decodeM14Sym v = some i) : Lands (Onward b) (exec i s) := by
  unfold decodeM14Sym at hd
  split_ifs at hd
  · cases hd
    exact Res.Returns.outcome ((h.outEmit .m14 _).bind fun _ _ ht => ht.m14SetRem _)
  · rw [exec_of_matchCode (matchCode_matchRows hd)]
    exact (h.m14Match _).outcome

/-! ## Fetches -/

end

section
variable {p : Config.Params} {s : State}

theorem Reading.onward (h : Reading p s) : Onward s s := by
  refine .refl ?_
  rw [levelsWf, Bool.and_eq_true, List.all_eq_true]
  exact ⟨h.m14.levelWf, fun q hq => (h.m14.levels q hq).2⟩

/-- A symbol decoded has moved the reader on (R167). -/
theorem brAdvance_pos_of_decode (h : Reading p s) {id : TableId} {v : Nat} {u : State} (hd : h12Decode id s = .ok v u) :
    ∃ n, 1 ≤ n ∧ u = brAdvance n s := by
  rcases h12Decode_cases id s (h.tableAt id).1 with ⟨v', n, he, hn⟩ | ⟨n, he⟩ <;> cases hd.symm.trans he
  exact ⟨n, hn, rfl⟩

theorem lands_fetch_m13Meta (h : Reading p s) : Lands (Onward s) (fetchPerform .m13Meta s) := by
  refine .fetchNumber rfl fun v u i hu hd => ?_
  obtain ⟨n, -, rfl⟩ := brAdvance_pos_of_decode h hu
  exact (h.onward.brAdvance n).metaWord (orUndefined_eq_ok hd)

/-- A symbol of method 13 takes bits of the stream, or the loop is left (R196, R201). -/
theorem lands_fetch_m13Sym (h : Reading p s) :
    Lands (fun u => (Onward s u ∧ s.br.pos < u.br.pos) ∨ ∃ n, u = m13LeaveLoop (brAdvance n s))
      (fetchPerform .m13Sym s) := by
  refine .fetchNumber rfl fun v u i hu hd => ?_
  obtain ⟨n, hn, rfl⟩ := brAdvance_pos_of_decode h hu
  rcases (h.brAdvance n).onward.m13Word (orUndefined_eq_ok hd) with rfl | hw
  · exact .next (Or.inr ⟨n, rfl⟩)
  · exact hw.mono fun u hu => Or.inl (hu.of_brAdvance hn)

theorem lands_fetch_m13Ofs (h : Reading p s) : Lands (Onward s) (fetchPerform .m13Ofs s) := by
  refine .fetchNumber rfl fun v u i hu hd => ?_
  obtain ⟨n, -, rfl⟩ := brAdvance_pos_of_decode h hu
  obtain ⟨w, rfl⟩ := decode_m13Ofs.1 i hd
  exact .next (((h.onward.brAdvance n).brAdvance _).withRet _)

theorem lands_fetch_m14Hdr (h : Reading p s) : Lands (Onward s) (fetchPerform .m14Hdr s) := by
  have hw : fetchRaw .m14Hdr s = .ok (.num (brPeek 8 s)) (brAdvance 8 s) := rfl
  rw [fetchPerform_of_decode hw (decode_m14Hdr (brPeek_lt 8 s))]
  exact Lands.perform (.next ((h.onward.brAdvance 8).m14Hdr _ _ _ _))

/-- A codelength value moves the index of its sequence on (R222). -/
theorem lands_fetch_m14LenVal (h : Reading p s) (r : Nat) :
    Lands (fun u => Onward s u ∧ (curLevel s).i < (curLevel u).i) (fetchPerform (.m14LenVal r) s) := by
  refine .fetchNumber rfl fun v u i hu hd => ?_
  obtain ⟨n, rfl⟩ := brAdvance_of_lvNext hu
  exact (h.onward.brAdvance n).lenValWord (orUndefined_eq_ok hd)

/-- A symbol of method 14 takes bits of the stream (R237). -/
theorem lands_fetch_m14Sym (h : Reading p s) : Lands (fun u => Onward s u ∧ s.br.pos < u.br.pos) (fetchPerform .m14Sym s) := by
  refine .fetchNumber rfl fun v u i hu hd => ?_
  obtain ⟨n, hn, rfl⟩ := brAdvance_pos_of_decode h hu
  exact ((h.brAdvance n).onward.m14Word (orUndefined_eq_ok hd)).mono fun u hu => hu.of_brAdvance hn

theorem lands_fetch_m14Dist (h : Reading p s) : Lands (Onward s) (fetchPerform .m14Dist s) := by
  refine .fetchNumber rfl fun v u i hu hd => ?_
  obtain ⟨n, -, rfl⟩ := brAdvance_pos_of_decode h hu
  rw [exec_of_distCode (distCode_distRows (orUndefined_eq_ok hd))]
  exact .next (((h.onward.brAdvance n).brReadBits _).withRet _)

end

end Sys2Proof.Machine
end

section
/-! The lines of a read are used up: straight lines by the lines they push, loops by a measure that their body decreases. -/

namespace Sys2Proof.Machine

/-! ## Lines that are used up -/

/-- A read whose lines left are `ts` ends, when its count of blocks left meets `Q`. -/
def EndsFrom (p : Config.Params) (Q : Nat → Prop) (ts : List Task) : Prop :=
  ∀ s, Reading p s → Q s.m14.nblk → s.seq = ts → Ends s

/-- The line `t` is used up, with all the lines it asks for, or it ends the command; the count of blocks left meets `Q` again.
With `Q` left open the line keeps the count. -/
def Completes (p : Config.Params) (Q : Nat → Prop) (t : Task) : Prop := ∀ ts, EndsFrom p Q ts → EndsFrom p Q (t :: ts)

/-- No line is asked for, and the count of blocks left stays. -/
def SameLines (s u : State) : Prop := u.seq = s.seq ∧ u.m14.nblk = s.m14.nblk

/-- The lines asked for are all used up. -/
def AsksFor (p : Config.Params) (Q : Nat → Prop) (s u : State) : Prop :=
  Q u.m14.nblk ∧ ∃ new, u.seq = new ++ s.seq ∧ ∀ t ∈ new, Completes p Q t

theorem Onward.sameLines {s u : State} (h : Onward s u) : SameLines s u := ⟨h.seq, h.nblk⟩

section
variable {p : Config.Params} {s u : State} {t : Task} {ts : List Task}

theorem Reading.tail (h : Reading p s) (hs : s.seq = t :: ts) : Reading p (s.withSeq ts) :=
  h.withSeq_sublist (hs ▸ List.subset_cons_self t ts)

/-- Progress within a read: its next line is done, and the read goes on or is over, with the host's queue untouched. -/
theorem next_of_reading (h : Reading p s) (hp : paramsSupplied p = true) (hs : s.seq = t :: ts) :
    ∃ u, stepTask t (s.withSeq ts) = .next u ∧ step s = .next u ∧ Reading p u ∧ u.host = s.host := by
  obtain ⟨u, hu, hinv, hpar⟩ := h.step.next hp
  have htask : stepTask t (s.withSeq ts) = .next u := (step_cons hs).symm.trans hu
  have hopen : Task.openEnd ∉ ts := fun hm => Bool.false_ne_true (h.tasks .openEnd (hs ▸ List.mem_cons_of_mem t hm))
  have hheld : NextHeld s (stepTask t (s.withSeq ts)) :=
    Held.stepTask (s := s.withSeq ts) ⟨rfl, rfl, rfl, hopen⟩ (h.tasks t (hs ▸ List.mem_cons_self))
  rw [htask] at hheld
  obtain ⟨-, -, hhost, hseq⟩ := hheld
  have hlast : ∀ ts ∈ openAgendas, Task.openEnd ∈ ts := by decide
  exact ⟨u, htask, hu, hpar ▸ hinv.cases.resolve_left fun ⟨_, ha⟩ => hseq (hlast _ ha), hhost⟩

end

section
variable {p : Config.Params} {Q : Nat → Prop} {P : State → Prop} {s u : State} {t : Task} {ts : List Task}
  (hp : paramsSupplied p = true)
include hp

/-- A read ends if it does from each state that its next line can lead to. -/
theorem ends_of_lands (h : Reading p s) (hs : s.seq = t :: ts) (hl : Lands P (stepTask t (s.withSeq ts)))
    (hk : ∀ u, Reading p u → P u → Ends u) : Ends s := by
  obtain ⟨u, htask, hu, hr, hhost⟩ := next_of_reading h hp hs
  rw [htask] at hl
  exact .of_step hu hhost (hl.next_cases.elim .of_idle (hk u hr))

theorem ends_of_next (h : Reading p s) (hs : s.seq = t :: ts) (hu : stepTask t (s.withSeq ts) = .next u)
    (hk : Reading p u → Ends u) : Ends s := by
  obtain ⟨u', htask, hu', hr, hhost⟩ := next_of_reading h hp hs
  cases hu.symm.trans htask
  exact .of_step hu' hhost (hk hr)

omit hp in
/-- Lines one after another. -/
theorem EndsFrom.append {new : List Task} (hnew : ∀ t ∈ new, Completes p Q t) (h : EndsFrom p Q ts) :
    EndsFrom p Q (new ++ ts) := by
  induction new with
  | nil => exact h
  | cons t new ih => exact hnew t List.mem_cons_self _ (ih fun e he => hnew e (List.mem_cons_of_mem t he))

/-- A line that asks for lines which are used up is used up. -/
theorem Completes.of_asks (hl : ∀ s, Reading p s → Q s.m14.nblk → Lands (AsksFor p Q s) (stepTask t s)) : Completes p Q t := by
  intro ts hts s h hq hs
  refine ends_of_lands hp h hs (hl _ (h.tail hs) hq) fun u hr ⟨hqu, new, hseq, hnew⟩ => ?_
  exact hts.append hnew u hr hqu hseq

/-- A line that asks for nothing is used up. -/
theorem Completes.of_sameLines (hl : ∀ s, Reading p s → Lands (SameLines s) (stepTask t s)) : Completes p Q t :=
  .of_asks hp fun s h hq => (hl s h).mono fun _ ⟨hseq, hn⟩ => ⟨hn ▸ hq, [], hseq, nofun⟩

/-- A word that asks for nothing is used up. -/
theorem Completes.of_fetch {f : Format} (hl : ∀ s, Reading p s → Lands (Onward s) (fetchPerform f s)) :
    Completes p Q (.fetch f) :=
  .of_sameLines hp fun s h => Lands.mono (o := fetchPerform f s) (hl s h) fun _ ho => ho.sameLines

omit hp in
/-- A loop is used up when each turn either leaves it or comes back to its test with a smaller measure. -/
theorem Completes.of_loop (measure : State → Nat)
    (hturn : ∀ s ts, Reading p s → Q s.m14.nblk → s.seq = t :: ts → EndsFrom p Q ts →
      (∀ u, Reading p u → Q u.m14.nblk → u.seq = t :: ts → measure u < measure s → Ends u) → Ends s) : Completes p Q t := by
  intro ts hts s h hq hs
  induction hm : measure s using Nat.strong_induction_on generalizing s with
  | _ m ih => exact hturn s ts h hq hs hts fun u hr hqu hseq hlt => ih _ (hm ▸ hlt) u hr hqu hseq rfl

omit hp in
/-- A line that is none of a read's is never next in one. -/
theorem Completes.of_not_ofRead (ht : ∀ size, t.ofRead size = false) : Completes p Q t := by
  intro ts _ s h _ hs
  exact absurd (h.tasks t (hs ▸ List.mem_cons_self)) (Bool.eq_false_iff.1 (ht _))

/-! ## The loops -/

/-- Each turn of the loop of R187 sets one length at least. -/
theorem completes_metaLoop : Completes p Q .metaLoop := by
  refine .of_loop (fun s => s.m13.n - s.m13.idx) fun s ts h hq hs hts hloop => ?_
  by_cases hmore : s.m13.idx < s.m13.n
  · have hpush : stepTask .metaLoop (s.withSeq ts) = .next (pushTasks [.fetch .m13Meta, .op (.m13EmitLen s.m13.n), .metaLoop] _) :=
      congrArg Host.Outcome.next (if_pos hmore)
    refine ends_of_next hp h hs hpush fun h1 =>
      ends_of_lands hp h1 rfl (lands_fetch_m13Meta (h1.tail rfl)) fun u h2 ho => ?_
    refine ends_of_lands hp h2 ho.seq (Lands.perform ((h2.tail ho.seq).onward.m13EmitLen _).outcome) fun v h3 ⟨ho', hidx⟩ => ?_
    refine hloop v h3 ?_ ho'.seq ?_
    · rw [ho'.nblk]; exact ho.nblk ▸ hq
    · have hidx2 : s.m13.idx ≤ u.m13.idx := ho.idx
      have hidx3 : u.m13.idx < v.m13.idx := hidx
      have hn : v.m13.n = s.m13.n := ho'.size.trans ho.size
      omega
  · have hdone : stepTask .metaLoop (s.withSeq ts) = .next ((s.withSeq ts).withRet _) :=
      congrArg Host.Outcome.next (if_neg hmore)
    exact ends_of_next hp h hs hdone fun h1 => hts _ h1 hq rfl

/-- Each turn of the loop of R196 takes bits of the stream, but for the one that leaves it. -/
theorem completes_m13Loop : Completes p Q .m13Loop := by
  refine .of_loop (fun s => 8 * s.br.len - s.br.pos) fun s ts h hq hs hts hloop => ?_
  have htest : stepTask .m13Loop (s.withSeq ts) = .next _ := congrArg Host.Outcome.next (m13Loop_eq (s.withSeq ts))
  by_cases hend : 8 * s.br.len ≤ s.br.pos
  · exact ends_of_next hp h hs (htest.trans (congrArg Host.Outcome.next (if_pos hend))) fun h1 => hts _ h1 hq rfl
  · refine ends_of_next hp h hs (htest.trans (congrArg Host.Outcome.next (if_neg hend))) fun h1 => ?_
    refine ends_of_lands hp h1 rfl (lands_fetch_m13Sym (h1.tail rfl)) fun u h2 ho => ?_
    rcases ho with ⟨ho, hpos⟩ | ⟨n, rfl⟩
    · refine hloop u h2 (ho.nblk ▸ hq) ho.seq ?_
      have hpos' : s.br.pos < u.br.pos := hpos
      have hlen : u.br.len = s.br.len := ho.len
      omega
    · rw [m13LeaveLoop_of_loop rfl] at h2 ⊢
      exact hts _ h2 hq rfl

/-- Each turn of the loop of R222 sets one length at least. -/
theorem completes_lvLoop : Completes p Q .lvLoop := by
  refine .of_loop (fun s => (curLevel s).n - (curLevel s).i) fun s ts h hq hs hts hloop => ?_
  by_cases hmore : (curLevel s).i < (curLevel s).n
  · have hpush : stepTask .lvLoop (s.withSeq ts) = .next (pushTasks [.fetch (.m14LenVal (curLevel s).r), .lvLoop] _) :=
      congrArg Host.Outcome.next (if_pos hmore)
    refine ends_of_next hp h hs hpush fun h1 => ?_
    refine ends_of_lands hp h1 rfl (lands_fetch_m14LenVal (h1.tail rfl) _) fun u h2 ⟨ho, hi⟩ => ?_
    refine hloop u h2 (ho.nblk ▸ hq) ho.seq ?_
    have hi' : (curLevel s).i < (curLevel u).i := hi
    have hn : (curLevel u).n = (curLevel s).n := ho.count
    omega
  · have hdone : stepTask .lvLoop (s.withSeq ts) = .next ((s.withSeq ts).withRet _) :=
      congrArg Host.Outcome.next (if_neg hmore)
    exact ends_of_next hp h hs hdone fun h1 => hts _ h1 hq rfl

/-- Each turn of the symbol loop of R237 takes bits of the stream, and the stream's end is an error (R239). -/
theorem completes_m14Loop : Completes p Q .m14Loop := by
  refine .of_loop (fun s => 8 * s.br.len - s.br.pos) fun s ts h hq hs hts hloop => ?_
  have htest : stepTask .m14Loop (s.withSeq ts) = .next _ := m14Loop_outcome (s.withSeq ts)
  by_cases hrem : s.m14.rem = 0
  · exact ends_of_next hp h hs (htest.trans (congrArg Host.Outcome.next (if_pos hrem))) fun h1 => hts _ h1 hq rfl
  by_cases hend : 8 * s.br.len ≤ s.br.pos
  · refine ends_of_next hp h hs (htest.trans (congrArg Host.Outcome.next ((if_neg hrem).trans (if_pos hend)))) fun _ => ?_
    exact .of_idle (takeError_seq _ _)
  · refine ends_of_next hp h hs (htest.trans (congrArg Host.Outcome.next ((if_neg hrem).trans (if_neg hend)))) fun h1 => ?_
    refine ends_of_lands hp h1 rfl (lands_fetch_m14Sym (h1.tail rfl)) fun u h2 ⟨ho, hpos⟩ => ?_
    refine hloop u h2 (ho.nblk ▸ hq) ho.seq ?_
    have hpos' : s.br.pos < u.br.pos := hpos
    have hlen : u.br.len = s.br.len := ho.len
    omega

/-! ## Tables and trees -/

omit hp in
theorem SameLines.h12Build {b : State} (h : SameLines b s) (id : TableId) (ls : List Nat) :
    (h12Build id ls s).Returns (SameLines b) := by
  rcases h12Build_cases id ls s with ⟨v, -, -, he⟩ | ⟨-, he⟩ <;> rw [he]
  · cases id <;> exact h
  · trivial

theorem completes_build {id : TableId} {ls : State → List Nat}
    (ht : ∀ s, stepTask t s = (Machine.h12Build id (ls s) s).outcome) : Completes p Q t := by
  refine .of_sameLines hp fun s _ => ?_
  rw [ht]
  exact (SameLines.h12Build ⟨rfl, rfl⟩ id (ls s)).outcome

theorem completes_m13ReadLengths (n : Nat) : Completes p Q (.op (.m13ReadLengths n)) := by
  refine .of_asks hp fun s _ hq => Lands.perform (.next ⟨hq, [.metaLoop], rfl, ?_⟩)
  simpa using completes_metaLoop hp

theorem completes_m14BuildTN (d : Nat) : Completes p Q (.m14BuildTN d) :=
  .of_sameLines hp fun s _ => (SameLines.h12Build (s := m14SetDepth d s) ⟨rfl, rfl⟩ (.tn d) _).outcome

/-- A tree is read by its header and the lines after it (R222). -/
theorem completes_m14ReadLengths {d : Nat} (hmode : Completes p Q (.m14Mode d)) (n : Nat) :
    Completes p Q (.op (.m14ReadLengths n d)) := by
  have hhdr : Completes p Q (.fetch .m14Hdr) := .of_fetch hp fun s h => lands_fetch_m14Hdr h
  refine .of_asks hp fun s _ hq => Lands.perform (.next ⟨hq, [.fetch .m14Hdr, .m14Mode d], rfl, ?_⟩)
  simpa using ⟨hhdr, hmode⟩

/-- Trees are nested only as deep as `M14_NEST_MAX` allows (R229). -/
theorem completes_m14Mode (d : Nat) : Completes p Q (.m14Mode d) := by
  induction hm : p.nestMax - d using Nat.strong_induction_on generalizing d with
  | _ m ih =>
    refine .of_asks hp fun s h hq => ?_
    have htest : stepTask (.m14Mode d) s = .next _ := m14Mode_outcome d s
    rw [htest, h.par]
    split_ifs with hraw hdeep
    · exact .next ⟨hq, [.lvLoop], rfl, by simpa using completes_lvLoop hp⟩
    · exact .takeError _ _
    · have hnext : Completes p Q (.m14Mode (d + 1)) := ih _ (by omega) (d + 1) rfl
      refine .next ⟨hq, [.op (.m14ReadLengths 32 (d + 1)), .m14BuildTN d, .lvLoop], rfl, ?_⟩
      simpa using ⟨completes_m14ReadLengths hp hnext 32, completes_m14BuildTN hp d, completes_lvLoop hp⟩

/-! ## Blocks -/

omit hp in
@[simp] theorem m14BlockEnd_seq (s : State) : (m14BlockEnd s).seq = s.seq := by simp [m14BlockEnd, brAlign_eq]

omit hp in
/-- The last line of a block counts down (R237). -/
@[simp] theorem m14BlockEnd_nblk (s : State) : (m14BlockEnd s).m14.nblk = s.m14.nblk - 1 := by simp [m14BlockEnd, brAlign_eq]

/-- The lines of a block before the last keep the count of blocks left (R237, R238). -/
theorem m14BlockTasks_completes (n : Nat) : ∃ body, m14BlockTasks n = body ++ [.m14BlockEnd] ∧ ∀ t ∈ body, Completes p Q t := by
  have hrem : Completes p Q (.m14SetRem n) := .of_sameLines hp fun s _ => .next ⟨rfl, rfl⟩
  have htree := fun N => completes_m14ReadLengths hp (completes_m14Mode (Q := Q) hp 0) N
  have htl : Completes p Q .m14BuildTL := completes_build hp fun _ => rfl
  have htd : Completes p Q .m14BuildTD := completes_build hp fun _ => rfl
  unfold m14BlockTasks
  split
  · exact ⟨[], rfl, nofun⟩
  · refine ⟨[.op (.m14ReadLengths 308 0), .m14BuildTL, .op (.m14ReadLengths 75 0), .m14BuildTD, .m14SetRem n, .m14Loop], rfl, ?_⟩
    simpa using ⟨htree 308, htl, htree 75, htd, hrem, completes_m14Loop hp⟩

omit hp in
/-- A block is the end of the stream, or its lines are next (R237). -/
theorem m14Block_lands (s : State) :
    Lands (fun u => u.m14.nblk = s.m14.nblk ∧ ∃ n, u.seq = m14BlockTasks n ++ s.seq) (stepTask (.op .m14Block) s) := by
  refine Lands.perform (Res.Returns.outcome (r := m14Block s) ?_)
  by_cases hend : 8 * s.br.len ≤ s.br.pos
  · rw [m14Block_of_end hend]; trivial
  · obtain ⟨n, hn⟩ : ∃ n, n = brField s (s.br.pos + 32) 32 := ⟨_, rfl⟩
    rw [m14Block_of_more (Nat.lt_of_not_le hend) hn]
    exact ⟨by simp, n, by simp [pushTasks]⟩

/-- Each turn of the loop of R236 is a block, whose last line counts down; the lines before it keep the count. -/
theorem completes_m14Blocks : Completes p (fun _ => True) .m14Blocks := by
  refine .of_loop (fun s => s.m14.nblk) fun s ts h _ hs hts hloop => ?_
  have htest : stepTask .m14Blocks (s.withSeq ts) = .next _ := congrArg Host.Outcome.next (m14Blocks_eq (s.withSeq ts))
  by_cases hnone : s.m14.nblk = 0
  · exact ends_of_next hp h hs (htest.trans (congrArg Host.Outcome.next (if_pos hnone))) fun h1 => hts _ h1 trivial rfl
  · refine ends_of_next hp h hs (htest.trans (congrArg Host.Outcome.next (if_neg hnone))) fun h1 => ?_
    refine ends_of_lands hp h1 rfl (m14Block_lands _) fun u h2 ⟨hn, n, hseq⟩ => ?_
    obtain ⟨body, hbody, hall⟩ := m14BlockTasks_completes (Q := (· = s.m14.nblk)) hp n
    have hlast : EndsFrom p (· = s.m14.nblk) (.m14BlockEnd :: .m14Blocks :: ts) := fun v hv hnv hsv => by
      refine ends_of_next hp hv hsv rfl fun hr => hloop _ hr trivial ?_ ?_
      · rw [m14BlockEnd_seq]; rfl
      · have hcount : v.m14.nblk = s.m14.nblk := hnv
        rw [m14BlockEnd_nblk, State.withSeq_m14]
        omega
    refine hlast.append hall u h2 hn ?_
    rw [hseq, hbody, List.append_assoc]
    rfl

end

end Sys2Proof.Machine
end

section
/-! Every line of a read is used up, so every command ends. -/

namespace Sys2Proof.Machine

/-! ## Method 13's control word -/

section
variable {b s : State}

theorem SameLines.refl (s : State) : SameLines s s := ⟨rfl, rfl⟩

theorem SameLines.m13Profile (h : SameLines b s) (i : Nat) : (m13Profile i s).Returns (SameLines b) := by
  unfold Machine.m13Profile
  split
  · split
    · exact .ite h trivial
    · trivial
  · trivial

theorem SameLines.m13Static (h : SameLines b s) (i : Nat) : (m13Static i s).Returns (SameLines b) :=
  (h.m13Profile i).bind fun _ _ h1 => (h1.h12Build _ _).bind fun _ _ h2 => (h2.h12Build _ _).bind fun _ _ h3 => h3.h12Build _ _

theorem SameLines.h12Buildx (h : SameLines b s) (id : TableId) (es : List Config.CodeEntry) :
    (h12Buildx id es s).Returns (SameLines b) := by
  rcases h12Buildx_cases id es s with ⟨v, -, -, -, he⟩ | ⟨-, he⟩ | ⟨-, he⟩ <;> rw [he]
  · cases id <;> exact h
  · trivial
  · trivial

theorem SameLines.m0Copy (h : SameLines b s) (f : ForkDesc) : (m0Copy f s).Returns (SameLines b) := by
  rcases m0Copy_cases f s with ⟨-, he⟩ | ⟨-, -, he⟩ | ⟨bs, -, -, he⟩ <;> rw [he]
  · trivial
  · trivial
  · exact h

theorem SameLines.crcVerify (h : SameLines b s) (f : ForkDesc) : (crcVerify f s).Returns (SameLines b) := by
  rw [crcVerify_eq]
  exact .ite h trivial

theorem SameLines.checkComplete (h : SameLines b s) : (checkComplete s).Returns (SameLines b) := .ite h trivial

end

section
variable {p : Config.Params} {Q : Nat → Prop} {s u : State} {t : Task} {ts : List Task}

theorem SameLines.asks (h : SameLines s u) (hq : Q s.m14.nblk) : AsksFor p Q s u := by
  obtain ⟨hseq, hn⟩ := h
  exact ⟨hn ▸ hq, [], hseq, nofun⟩

theorem AsksFor.push {new : List Task} (h : SameLines s u) (hq : Q s.m14.nblk) (hnew : ∀ t ∈ new, Completes p Q t) :
    AsksFor p Q s (pushTasks new u) := by
  obtain ⟨hseq, hn⟩ := h
  exact ⟨by rw [pushTasks, State.withSeq_m14, hn]; exact hq, new, congrArg (new ++ ·) hseq, hnew⟩

end

section
variable {p : Config.Params} {Q : Nat → Prop} {s u : State} {t : Task} {ts : List Task}
  (hp : paramsSupplied p = true)
include hp

theorem completes_m13CopyT2 : Completes p Q .m13CopyT2 := .of_sameLines hp fun _ _ => .next ⟨rfl, rfl⟩

/-- The lines of `M13.DYNAMIC` are length sequences and builds (R186). -/
theorem completes_m13DynamicTasks (copy : Bool) (nofs : Nat) : ∀ t ∈ m13DynamicTasks copy nofs, Completes p Q t := by
  have hread := fun n => completes_m13ReadLengths (Q := Q) hp n
  have ht1 : Completes p Q .m13BuildT1 := completes_build hp fun _ => rfl
  have ht2 : Completes p Q .m13BuildT2 := completes_build hp fun _ => rfl
  have hto : ∀ n, Completes p Q (.m13BuildTO n) := fun n => completes_build hp fun _ => rfl
  cases copy with
  | true => simpa [m13DynamicTasks] using ⟨hread 321, ht1, completes_m13CopyT2 hp, hread _, hto _⟩
  | false => simpa [m13DynamicTasks] using ⟨hread 321, ht1, hread 321, ht2, hread _, hto _⟩

theorem m13Dynamic_asks (copy : Bool) (nofs : Nat) (hq : Q s.m14.nblk) : (m13Dynamic copy nofs s).Returns (AsksFor p Q s) := by
  unfold m13Dynamic
  split
  · trivial
  · refine .ite (((SameLines.refl s).h12Buildx _ _).bind fun _ _ h => ?_) trivial
    exact AsksFor.push h hq (completes_m13DynamicTasks hp copy nofs)

/-- The control word builds tables, or asks for their lines, or is illegal (R93, R181). -/
theorem completes_m13Ctrl : Completes p Q (.fetch .m13Ctrl) := by
  refine .of_asks hp fun s _ hq => ?_
  have hstatic : ∀ i, Lands (AsksFor p Q s) (m13Static i s).outcome := fun i =>
    ((SameLines.refl s).m13Static i).outcome.mono fun _ h => h.asks hq
  have hraw : fetchRaw .m13Ctrl s = .ok (.num s.m13.ctrl.toNat) s := rfl
  have hfetch : stepTask (.fetch .m13Ctrl) s = perform (decodeM13Ctrl s.m13.ctrl) s :=
    fetchPerform_of_decode hraw (decode_m13Ctrl _)
  rw [hfetch]
  refine Lands.perform ?_
  unfold decodeM13Ctrl
  simp only
  split_ifs
  · exact (m13Dynamic_asks hp _ _ hq).outcome
  · exact hstatic 0
  · exact hstatic 1
  · exact hstatic 2
  · exact hstatic 3
  · exact hstatic 4
  · exact .takeError .corruptStream s

/-! ## The decoders -/

/-- The loop of R196 and the length check after it. -/
theorem completes_m13Run : Completes p Q (.op .m13Run) := by
  have hend : Completes p Q .m13End := .of_sameLines hp fun s _ => (SameLines.refl s).checkComplete.outcome
  exact .of_asks hp fun s _ hq =>
    .next (AsksFor.push (new := [.m13Loop, .m13End]) (.refl s) hq (by simpa using ⟨completes_m13Loop hp, hend⟩))

theorem completes_m13Begin : Completes p Q .m13Begin :=
  .of_asks hp fun _ _ hq => .next (AsksFor.push (new := [.op .m13Run]) ⟨rfl, rfl⟩ hq (by simpa using completes_m13Run hp))

/-- The lines of method 13 from its start (R181). -/
theorem completes_m13Start : Completes p Q (.op .m13Start) :=
  .of_asks hp fun _ _ hq =>
    .next (AsksFor.push (new := [.fetch .m13Ctrl, .m13Begin]) ⟨rfl, rfl⟩ hq
      (by simpa using ⟨completes_m13Ctrl hp, completes_m13Begin hp⟩))

theorem completes_m14BlockEnd : Completes p (fun _ => True) .m14BlockEnd :=
  .of_asks hp fun s _ _ => .next ⟨trivial, [], m14BlockEnd_seq s, nofun⟩

/-- The lines of method 14 from its start, which sets the count of blocks left (R236). -/
theorem completes_m14Start : Completes p (fun _ => True) (.op .m14Start) := by
  have hend : Completes p (fun _ => True) .m14End := .of_sameLines hp fun s _ => (SameLines.refl s).checkComplete.outcome
  exact .of_asks hp fun s _ _ => .next ⟨trivial, [.m14Blocks, .m14End], rfl, by simpa using ⟨completes_m14Blocks hp, hend⟩⟩

/-! ## The facade -/

/-- The compression byte copies, starts a decoder or is an error (R92, R301 to R305). -/
theorem completes_cmpr : Completes p (fun _ => True) (.fetch .cmpr) := by
  refine .of_asks hp fun s _ hq => ?_
  have hraw : fetchRaw .cmpr s = .ok (.num s.fork.compression.toNat) s := rfl
  have hfetch : stepTask (.fetch .cmpr) s = perform (decodeCmpr s.fork.compression) s :=
    fetchPerform_of_decode hraw (decode_cmpr _)
  rw [hfetch]
  refine Lands.perform ?_
  unfold decodeCmpr
  split_ifs
  · exact .takeError .encrypted s
  · exact ((SameLines.refl s).m0Copy s.fork).outcome.mono fun _ h => h.asks hq
  · exact .next (AsksFor.push (new := [.op .m13Start]) ⟨rfl, rfl⟩ hq (by simpa using completes_m13Start hp))
  · exact .next (AsksFor.push (new := [.op .m14Start]) ⟨rfl, rfl⟩ hq (by simpa using completes_m14Start hp))
  · exact .takeError .unsupportedMethod s

/-- The lines of `DISPATCH` (R300). -/
theorem completes_dispatch (f : ForkDesc) : Completes p (fun _ => True) (.op (.dispatch f)) := by
  refine .of_asks hp fun s _ _ => ?_
  have hcrc : Completes p (fun _ => True) (.op (.crcVerify f)) :=
    .of_sameLines hp fun s _ => ((SameLines.refl s).crcVerify f).outcome
  have hret : Completes p (fun _ => True) .dispatchRet := .of_sameLines hp fun s _ => .next ⟨rfl, rfl⟩
  have hnew : ∀ t ∈ [.fetch .cmpr, .op (.crcVerify f), .dispatchRet], Completes p (fun _ => True) t := by
    simpa using ⟨completes_cmpr hp, hcrc, hret⟩
  have hexec : stepTask (.op (.dispatch f)) s = .next (dispatchFork f s) := rfl
  rw [hexec]
  refine .next ?_
  by_cases hf : f.usize = 0
  · rw [dispatchFork_of_absent hf]
    exact ⟨trivial, [], rfl, nofun⟩
  by_cases hc : f.compression &&& 0xF0#8 = 0#8
  · rw [dispatchFork_of_plain hf hc]
    exact ⟨trivial, _, rfl, hnew⟩
  · rw [dispatchFork_of_encrypted hf hc]
    exact ⟨trivial, _, rfl, hnew⟩

/-! ## Every line -/

/-- An instruction that a read's pseudocode calls is used up. -/
theorem completes_op (i : Instr) : Completes p (fun _ => True) (.op i) := by
  cases i with
  | dispatch f => exact completes_dispatch hp f
  | crcVerify f => exact .of_sameLines hp fun s _ => ((SameLines.refl s).crcVerify f).outcome
  | m13Start => exact completes_m13Start hp
  | m13Run => exact completes_m13Run hp
  | m13ReadLengths n => exact completes_m13ReadLengths hp n
  | m13EmitLen n =>
    exact .of_sameLines hp fun s h =>
      Lands.perform ((h.onward.m13EmitLen n).outcome.mono fun _ ho => ho.1.sameLines)
  | m14Start => exact completes_m14Start hp
  | m14ReadLengths n d => exact completes_m14ReadLengths hp (completes_m14Mode hp d) n
  | m14Block =>
    refine .of_asks hp fun s _ _ => (m14Block_lands s).mono fun u ⟨_, n, hseq⟩ => ?_
    obtain ⟨body, hbody, hall⟩ := m14BlockTasks_completes hp n
    refine ⟨trivial, m14BlockTasks n, hseq, ?_⟩
    rw [hbody]
    simpa [or_imp, forall_and] using ⟨hall, completes_m14BlockEnd hp⟩
  | _ => exact .of_not_ofRead fun _ => rfl

/-- A word that a read fetches is used up; the symbols of method 13 are not among these, as one of them drops a line. -/
theorem completes_fetch {f : Format} (hf : f ≠ .m13Sym) : Completes p (fun _ => True) (.fetch f) := by
  cases f with
  | magic1 | magic2 | arch | ent => exact .of_not_ofRead fun _ => rfl
  | cmpr => exact completes_cmpr hp
  | m13Ctrl => exact completes_m13Ctrl hp
  | m13Meta => exact .of_fetch hp fun _ h => lands_fetch_m13Meta h
  | m13Sym => exact absurd rfl hf
  | m13Ofs => exact .of_fetch hp fun _ h => lands_fetch_m13Ofs h
  | m14Hdr => exact .of_fetch hp fun _ h => lands_fetch_m14Hdr h
  | m14LenVal r => exact .of_fetch hp fun _ h => (lands_fetch_m14LenVal h r).mono fun _ ho => ho.1
  | m14Sym => exact .of_fetch hp fun _ h => (lands_fetch_m14Sym h).mono fun _ ho => ho.1
  | m14Dist => exact .of_fetch hp fun _ h => lands_fetch_m14Dist h

/-- Every line of a read but that fetch is used up. -/
theorem completes {t : Task} (ht : t ≠ .fetch .m13Sym) : Completes p (fun _ => True) t := by
  cases t with
  | op i => exact completes_op hp i
  | fetch f => exact completes_fetch hp fun hf => ht (congrArg Task.fetch hf)
  | archRest | parseLoop | openEnd => exact .of_not_ofRead fun _ => rfl
  | dispatchRet | deliverData | deliverRsrc | m14SetRem => exact .of_sameLines hp fun _ _ => .next ⟨rfl, rfl⟩
  | m13Begin => exact completes_m13Begin hp
  | metaLoop => exact completes_metaLoop hp
  | m13BuildT1 | m13BuildT2 | m13BuildTO | m14BuildTL | m14BuildTD => exact completes_build hp fun _ => rfl
  | m13CopyT2 => exact completes_m13CopyT2 hp
  | m13Loop => exact completes_m13Loop hp
  | m13End | m14End => exact .of_sameLines hp fun s _ => (SameLines.refl s).checkComplete.outcome
  | m14Mode d => exact completes_m14Mode hp d
  | m14BuildTN d => exact completes_m14BuildTN hp d
  | lvLoop => exact completes_lvLoop hp
  | m14Blocks => exact completes_m14Blocks hp
  | m14Loop => exact completes_m14Loop hp
  | m14BlockEnd => exact completes_m14BlockEnd hp

omit hp in
/-- The end symbol of method 13 drops a line or none (R201). -/
theorem length_m13LeaveLoop (s : State) : (m13LeaveLoop s).seq.length ≤ s.seq.length := by
  unfold m13LeaveLoop
  split
  · rename_i ts hs
    rw [hs]
    exact Nat.le_succ _
  · exact Nat.le_refl _

/-- A read ends from every state of its invariant: each of its lines leaves fewer. -/
theorem endsFrom_all (ts : List Task) : EndsFrom p (fun _ => True) ts := by
  induction hn : ts.length using Nat.strong_induction_on generalizing ts with
  | _ n ih =>
    cases ts with
    | nil => exact fun s _ _ hs => .of_idle hs
    | cons t ts =>
      have hshort : ∀ s, Reading p s → s.seq.length ≤ ts.length → Ends s := fun s h hlen =>
        ih _ (hn ▸ Nat.lt_succ_of_le hlen) s.seq rfl s h trivial rfl
      by_cases ht : t = .fetch .m13Sym
      · subst ht
        intro s h _ hs
        refine ends_of_lands hp h hs (lands_fetch_m13Sym (h.tail hs)) fun u hr ho => hshort u hr ?_
        rcases ho with ⟨ho, -⟩ | ⟨n, rfl⟩
        · exact Nat.le_of_eq (congrArg List.length ho.seq)
        · exact length_m13LeaveLoop _
      · exact completes hp ht ts fun s h _ hs => hshort s h (Nat.le_of_eq (congrArg List.length hs))

end

/-! ## Every command -/

section
variable {s u : State}

/-- A command in progress ends, be it an `OPEN` or a read. -/
theorem State.Inv.ends (h : s.Inv) (hp : paramsSupplied s.par = true) : Ends s := by
  rcases h.cases with ⟨hs, ht⟩ | hr
  · exact hs.ends_of_open ht
  · exact endsFrom_all hp s.seq s hr trivial rfl

/-- An idle block takes one command of the host and no more (R360). -/
theorem host_of_command {c : Cmd} (hs : s.seq = []) (hu : perform (commandInstr c) s = .next u) : u.host = s.host := by
  have hheld : Held s s := ⟨rfl, rfl, rfl, hs ▸ List.not_mem_nil⟩
  have hother : inOpen (commandInstr c) = false → u.host = s.host := fun hi => by
    have hnext := hheld.perform hi
    rw [hu] at hnext
    obtain ⟨-, -, hhost, -⟩ := hnext
    exact hhost
  cases c with
  | openArchive src size flatten =>
    rw [perform_of_wf rfl] at hu
    change execHostOpen src size flatten s = .next u at hu
    unfold execHostOpen at hu
    split at hu <;> cases hu
    rfl
  | has | list | read | readRsrc | readFinfo => exact hother rfl

end

end Sys2Proof.Machine

namespace Sys2Proof.Proofs

open Sys2Proof Sys2Proof.Machine

/-- Settles O13: a command in progress ends; an idle block takes the next command first, or waits when there is none. -/
theorem everyCommandEnds : Obligations.EveryCommandEnds := by
  intro s hinv hp
  by_cases hs : s.seq = []
  · obtain ⟨u, hu, hinv', hpar⟩ := (step_safe hinv).next hp
    obtain ⟨n, t, hrun, hseq, hhost⟩ := hinv'.ends (hpar ▸ hp)
    refine ⟨n + 1, t, Nat.succ_pos n, (run_next hu n).trans hrun, hseq, ?_⟩
    rw [if_pos hs, hhost]
    cases hc : s.host with
    | nil =>
      cases (step_idle hs hc).symm.trans hu
      exact hc
    | cons c cs => exact host_of_command (s := s.withHost cs) hs ((step_command hs hc).symm.trans hu)
  · obtain ⟨n, t, hrun, hseq, hhost⟩ := hinv.ends hp
    refine ⟨n, t, Nat.pos_of_ne_zero fun hn => hs ?_, hrun, hseq, by rw [if_neg hs, hhost]⟩
    subst hn
    cases hrun
    exact hseq

end Sys2Proof.Proofs
end
